-- ==== Sys2Proof/Word.lean ====
section
/-!
DEFINITION. The names and the small data types the spec uses everywhere: bytes, tags, rows, ports, banks, bank sets,
lease modes, and records with one value for each port, bank, set or window.
-/

namespace Sys2Proof

/-- A byte of a packet or of the array. -/
abbrev Byte := BitVec 8

/-- A request's tag, 0 to 63 (R167: bits 0 to 5 of the tag byte). -/
abbrev Tag := BitVec 6

/-- A row index, 0 to 8191 (R1). -/
abbrev Row := BitVec 13

/-- A point in time or a duration, in picoseconds (log entry 1). -/
abbrev Time := Nat

/-- `n` nanoseconds. -/
def ns (n : Nat) : Time := 1000 * n

/-- `n` microseconds. -/
def us (n : Nat) : Time := 1000000 * n

/-- `n` milliseconds. -/
def ms (n : Nat) : Time := 1000000000 * n

/-- The four ports (00_scope, Conventions). -/
inductive Port
  | p0 | p1 | p2 | p3
deriving DecidableEq, Repr

/-- The ports in port order P0 to P3. -/
def Port.all : List Port := [.p0, .p1, .p2, .p3]

/-- The number of a port, as packets and payloads carry it. -/
def Port.toNat : Port → Nat
  | .p0 => 0 | .p1 => 1 | .p2 => 2 | .p3 => 3

/-- The port of a number 0 to 3. -/
def Port.ofNat? : Nat → Option Port
  | 0 => some .p0 | 1 => some .p1 | 2 => some .p2 | 3 => some .p3 | _ => none

/-- The eight banks (R1). -/
inductive Bank
  | b0 | b1 | b2 | b3 | b4 | b5 | b6 | b7
deriving DecidableEq, Repr

/-- The banks in order B0 to B7. -/
def Bank.all : List Bank := [.b0, .b1, .b2, .b3, .b4, .b5, .b6, .b7]

/-- The number of a bank. -/
def Bank.toNat : Bank → Nat
  | .b0 => 0 | .b1 => 1 | .b2 => 2 | .b3 => 3 | .b4 => 4 | .b5 => 5 | .b6 => 6 | .b7 => 7

/-- The bank of a 3-bit field: every pattern names a bank (R168). -/
def Bank.ofBits (x : BitVec 3) : Bank :=
  match x.toNat with
  | 0 => .b0 | 1 => .b1 | 2 => .b2 | 3 => .b3 | 4 => .b4 | 5 => .b5 | 6 => .b6 | _ => .b7

/-- The two bank sets refreshed as wholes (R1). -/
inductive BankSet
  | a | b
deriving DecidableEq, Repr

/-- The bank sets in order Set A, Set B. -/
def BankSet.all : List BankSet := [.a, .b]

/-- The set of a bank: B0 to B3 are Set A, B4 to B7 are Set B (R1). -/
def Bank.set : Bank → BankSet
  | .b0 => .a | .b1 => .a | .b2 => .a | .b3 => .a | .b4 => .b | .b5 => .b | .b6 => .b | .b7 => .b

/-- The four banks of a set, in bank order (R1). -/
def BankSet.banks : BankSet → List Bank
  | .a => [.b0, .b1, .b2, .b3]
  | .b => [.b4, .b5, .b6, .b7]

/-- The two lease modes (R20). -/
inductive Mode
  | read | write
deriving DecidableEq, Repr

/-- The indexes of a port's four windows (R149). -/
inductive WindowIndex
  | w0 | w1 | w2 | w3
deriving DecidableEq, Repr

/-- The window indexes in order. -/
def WindowIndex.all : List WindowIndex := [.w0, .w1, .w2, .w3]

/-- The number of a window index. -/
def WindowIndex.toNat : WindowIndex → Nat
  | .w0 => 0 | .w1 => 1 | .w2 => 2 | .w3 => 3

/-- The window of a number 0 to 3. -/
def WindowIndex.ofNat? : Nat → Option WindowIndex
  | 0 => some .w0 | 1 => some .w1 | 2 => some .w2 | 3 => some .w3 | _ => none

/-- The fields of a WINDOW request's 8-byte record as they come in the packet (R171); the check of R151 has not been made. -/
structure WindowRecord where
  valid     : Bool
  firstBank : Byte
  lastBank  : Byte
  rights    : Byte
  firstRow  : BitVec 16
  lastRow   : BitVec 16
deriving DecidableEq, Repr

/-- One value for each port. -/
structure PerPort (α : Type) where
  p0 : α
  p1 : α
  p2 : α
  p3 : α
deriving DecidableEq, Repr

/-- The value of a port. -/
def PerPort.get {α : Type} (v : PerPort α) : Port → α
  | .p0 => v.p0 | .p1 => v.p1 | .p2 => v.p2 | .p3 => v.p3

/-- Replaces the value of a port. -/
def PerPort.set {α : Type} (v : PerPort α) (p : Port) (x : α) : PerPort α :=
  match p with
  | .p0 => { v with p0 := x } | .p1 => { v with p1 := x } | .p2 => { v with p2 := x } | .p3 => { v with p3 := x }

/-- The same value for every port. -/
def PerPort.const {α : Type} (x : α) : PerPort α := ⟨x, x, x, x⟩

/-- One value for each bank. -/
structure PerBank (α : Type) where
  b0 : α
  b1 : α
  b2 : α
  b3 : α
  b4 : α
  b5 : α
  b6 : α
  b7 : α
deriving DecidableEq, Repr

/-- The value of a bank. -/
def PerBank.get {α : Type} (v : PerBank α) : Bank → α
  | .b0 => v.b0 | .b1 => v.b1 | .b2 => v.b2 | .b3 => v.b3 | .b4 => v.b4 | .b5 => v.b5 | .b6 => v.b6 | .b7 => v.b7

/-- Replaces the value of a bank. -/
def PerBank.set {α : Type} (v : PerBank α) (b : Bank) (x : α) : PerBank α :=
  match b with
  | .b0 => { v with b0 := x } | .b1 => { v with b1 := x } | .b2 => { v with b2 := x } | .b3 => { v with b3 := x }
  | .b4 => { v with b4 := x } | .b5 => { v with b5 := x } | .b6 => { v with b6 := x } | .b7 => { v with b7 := x }

/-- The same value for every bank. -/
def PerBank.const {α : Type} (x : α) : PerBank α := ⟨x, x, x, x, x, x, x, x⟩

/-- One value for each bank set. -/
structure PerSet (α : Type) where
  a : α
  b : α
deriving DecidableEq, Repr

/-- The value of a set. -/
def PerSet.get {α : Type} (v : PerSet α) : BankSet → α
  | .a => v.a | .b => v.b

/-- Replaces the value of a set. -/
def PerSet.set {α : Type} (v : PerSet α) (x : BankSet) (y : α) : PerSet α :=
  match x with
  | .a => { v with a := y } | .b => { v with b := y }

/-- One value for each of a port's windows. -/
structure PerWindow (α : Type) where
  w0 : α
  w1 : α
  w2 : α
  w3 : α
deriving DecidableEq, Repr

/-- The value of a window index. -/
def PerWindow.get {α : Type} (v : PerWindow α) : WindowIndex → α
  | .w0 => v.w0 | .w1 => v.w1 | .w2 => v.w2 | .w3 => v.w3

/-- Replaces the value of a window index. -/
def PerWindow.set {α : Type} (v : PerWindow α) (i : WindowIndex) (x : α) : PerWindow α :=
  match i with
  | .w0 => { v with w0 := x } | .w1 => { v with w1 := x } | .w2 => { v with w2 := x } | .w3 => { v with w3 := x }

end Sys2Proof
end

