-- ==== Sys2Proof/Syntax.lean ====
section
/-!
DEFINITION. The commands of the part: one constructor for each row of spec/opcode_table.json.
`t` is the moment at which a command from outside is taken; the part's own timers carry their time in the state (log entry 2).
-/

namespace Sys2Proof

/-- A command. A request row (ATTACH to CLEAR_FAULTS_RETENTION) carries the port, the tag and the fields R168 gives its kind. -/
inductive Instr
  | packetArrival (t : Time) (p : Port) (bytes : List Byte)
  | attach (t : Time) (p : Port) (tag : Tag)
  | detach (t : Time) (p : Port) (tag : Tag)
  | openRow (t : Time) (p : Port) (tag : Tag) (bank : Bank) (row : Row) (mode : Mode)
  | release (t : Time) (p : Port) (tag : Tag) (bank : Bank)
  | cancel (t : Time) (p : Port) (tag : Tag) (target : Byte)
  | readLines (t : Time) (p : Port) (tag : Tag) (bank : Bank) (first : BitVec 5) (countLess1 : BitVec 3)
  | writeLines (t : Time) (p : Port) (tag : Tag) (bank : Bank) (masked : Bool) (first : BitVec 5) (countLess1 : BitVec 3)
      (payload : List Byte)
  | hold (t : Time) (p : Port) (tag : Tag)
  | statusPorts (t : Time) (p : Port) (tag : Tag)
  | statusBanks (t : Time) (p : Port) (tag : Tag)
  | statusRefresh (t : Time) (p : Port) (tag : Tag)
  | statusFaults (t : Time) (p : Port) (tag : Tag)
  | statusClaim (t : Time) (p : Port) (tag : Tag)
  | claim (t : Time) (p : Port) (tag : Tag)
  | unclaim (t : Time) (p : Port) (tag : Tag)
  | setLeaseLimit (t : Time) (p : Port) (tag : Tag) (target : BitVec 3) (value : BitVec 32)
  | setGuard (t : Time) (p : Port) (tag : Tag) (target : BitVec 3) (value : BitVec 32)
  | setWaitLimit (t : Time) (p : Port) (tag : Tag) (target : BitVec 3) (value : BitVec 32)
  | setHoldLimit (t : Time) (p : Port) (tag : Tag) (target : BitVec 3) (value : BitVec 32)
  | setUrgency (t : Time) (p : Port) (tag : Tag) (target : BitVec 3) (value : BitVec 32)
  | setEager (t : Time) (p : Port) (tag : Tag) (target : BitVec 3) (value : BitVec 32)
  | setQuickWake (t : Time) (p : Port) (tag : Tag) (target : BitVec 3) (value : BitVec 32)
  | setAutoRetain (t : Time) (p : Port) (tag : Tag) (target : BitVec 3) (value : BitVec 32)
  | setClaimLimit (t : Time) (p : Port) (tag : Tag) (target : BitVec 3) (value : BitVec 32)
  | getSetting (t : Time) (p : Port) (tag : Tag) (target : BitVec 3) (ident : Byte)
  | getWindow (t : Time) (p : Port) (tag : Tag) (target : BitVec 3) (index : BitVec 2)
  | window (t : Time) (p : Port) (tag : Tag) (target : BitVec 3) (index : Byte) (record : WindowRecord)
  | clearFaultsOwn (t : Time) (p : Port) (tag : Tag)
  | clearFaultsRetention (t : Time) (p : Port) (tag : Tag)
  | egressSendBegin (t : Time) (p : Port)
  | egressSendEnd (t : Time) (p : Port)
  | egressPause (t : Time) (p : Port)
  | egressResume (t : Time) (p : Port)
  | linkDown (t : Time) (p : Port)
  | linkUp (t : Time) (p : Port)
  | powerOnReset (t : Time) (reading : Int)
  | warmReset (t : Time)
  | openCompletion
  | closeCompletion
  | xferCompletion
  | stepCompletion
  | tick (x : BankSet)
  | thermalSample (reading : Int)
  | waitDeadlineExpiry (bank : Bank) (p : Port)
  | contentionDeadlineExpiry (bank : Bank)
  | claimExpiry
  | wakeCompletion
deriving DecidableEq, Repr

end Sys2Proof
end

