-- ==== Sys2Proof/Decode.lean ====
section
/-!
DEFINITION. The decoder over the bits of spec/opcode_table.json. The table gives none of its 48 rows any bits, so no word spells a
command (log entry 20). The layout of the packets a master sends is Machine/Operands.lean's.
-/

namespace Sys2Proof

/-- The command a word of `nbits` bits spells by the table: none, since no row of the table has bits. -/
def decodeTableWord (_nbits _w : Nat) : Option Instr := none

end Sys2Proof
end

