-- ==== Sys2Proof/Config.lean ====
section
/-!
DEFINITION. What the part fixes (the array's dimensions and the timing figures of spec/) and the free values: what the array holds
where the spec gives no contents.
-/

namespace Sys2Proof.Config

/-- The byte at an address that no write has reached, in one generation of the contents of its set: "the contents of every byte of
the array are undefined" (R2). A free value: nothing is known of it (log entry 8). -/
opaque unwrittenByte : Nat → Nat → BitVec 8

/-- The byte that one read, numbered by the first argument, takes from an address of a set whose retention-loss flag is set: "the part
gives no guarantee for any byte of that set's four banks" (R2). A free value (log entry 9). -/
opaque unguaranteedByte : Nat → Nat → BitVec 8

/-- Rows of a bank (R1). -/
def rowsPerBank : Nat := 8192

/-- Lines of a row (R1). -/
def linesPerRow : Nat := 32

/-- Bytes of a line (R1). -/
def bytesPerLine : Nat := 64

/-- Bytes of a bank (section 1.1). -/
def bytesPerBank : Nat := 16777216

/-- Duration of an OPEN and of a CLOSE (R4, R5). -/
def openCloseTime : Time := ns 20

/-- Duration of an XFER of `count` lines (R6). -/
def xferTime (count : Nat) : Time := ns (10 + 5 * count)

/-- Duration of a STEP (R7). -/
def stepTime : Time := ns 240

/-- The time between thermal samples (R100). -/
def samplePeriod : Time := us 100

/-- The latency of a full wake (R112). -/
def fullWake : Time := us 2

/-- The latency of a quick wake (R112). -/
def quickWake : Time := ns 500

/-- Response-queue places of a port (R125). -/
def responsePlaces : Nat := 16

/-- Refusal slots of a port (R128). -/
def refusalSlots : Nat := 4

/-- Lines the Staging Pool holds (R71). -/
def stagingLines : Nat := 32

/-- Staged lines of one port at most (R71). -/
def stagingLinesPerPort : Nat := 16

/-- Records a fault list holds (R140). -/
def faultRecords : Nat := 4

end Sys2Proof.Config
end

