-- ==== Sys2Proof/Machine/State.lean ====
section
/-!
DEFINITION. Everything the spec gives the part to hold, as plain data, and its value after power-on reset.
-/

namespace Sys2Proof.Machine

/-- The part never stops with a fault: every command ends in a next state (what the spec calls a fault is a record in a port's fault
list, R140). No constructor, so no meaning can raise one; this is safe. -/
inductive Fault
deriving DecidableEq, Repr

/-- Why a command has no outcome. -/
inductive Refusal
  /-- Raised by an arm of `exec` whose command has no meaning yet; safe, since nothing is claimed of the command. -/
  | notModelled (mnemonic : String)
deriving DecidableEq, Repr

/-! ### Requests and packets -/

/-- An admitted request's kind and the fields R168 gives the kind. -/
inductive Body
  | attach
  | detach
  | openRow (bank : Bank) (row : Row) (mode : Mode)
  | release (bank : Bank)
  | cancel (target : Byte)
  /-- `count` is the decoded count. -/
  | readLines (bank : Bank) (first : BitVec 5) (count : Nat)
  /-- `count` is the decoded count, 0 where the payload has the wrong length (R169). -/
  | writeLines (bank : Bank) (masked : Bool) (first : BitVec 5) (count : Nat)
  | hold
  | status (item : Byte)
  | claim
  | unclaim
  /-- `value` is none where the payload is malformed (R169). -/
  | setSetting (target : BitVec 3) (ident : Byte) (value : Option (BitVec 32))
  | getSetting (target : BitVec 3) (ident : Byte)
  /-- `record` is none where the payload is malformed (R169). -/
  | window (target : BitVec 3) (index : Byte) (record : Option WindowRecord)
  | clearFaults (scope : BitVec 2)
deriving DecidableEq, Repr

/-- A request: its tag and its body. -/
structure Request where
  tag  : Tag
  body : Body
deriving DecidableEq, Repr

/-- The 23 result codes (R173). -/
inductive Result
  | ok | granted | data | suspect | rejected | notAttached | badState | badArgument | badKind | denied | duplicate | limit
  | noLease | wrongMode | timeout | cancelled | tooLate | notFound | claimed | notClaimed | full | dupTag | report
deriving DecidableEq, Repr

/-- An answer or a refusal placed on a port's egress (R130, R172). -/
inductive Placed
  /-- The answer to an admitted request; it holds a response-queue place. -/
  | response (tag : Tag) (result : Result) (epoch info0 info1 : Byte) (payload : List Byte)
  /-- The answer to a packet that was not admitted; it holds a refusal slot. -/
  | refusal (tag : Tag) (result : Result) (epoch : Byte)
deriving DecidableEq, Repr

/-- The reasons of a revocation (section 3.7). -/
inductive Reason
  | contention | refresh | window
deriving DecidableEq, Repr

/-- The thermal bands (R86). -/
inductive Band
  | cool | normal | hot
deriving DecidableEq, Repr

/-- The kinds of fault record (R140). -/
inductive FaultKind
  | rejectedWrite | suspectWrite | header | flood | retentionLoss
deriving DecidableEq, Repr

/-- A fault record: its kind and the five optional fields of R140. -/
structure FaultRecord where
  kind : FaultKind
  bank : Option Bank
  row  : Option Row
  line : Option Nat
  tag  : Option Tag
  set  : Option BankSet
deriving DecidableEq, Repr

/-- A notice with its content (R136). -/
inductive Notice
  | revoked (bank : Bank) (reason : Reason)
  | releaseRequest (bank : Bank)
  | fault (kind : FaultKind) (count : Nat) (overflow : Bool)
  | claimLost
  | thermal (band : Band)
  /-- RETENTION with the value entered or woken. -/
  | retention (woken : Bool)
deriving DecidableEq, Repr

/-- A packet on its way out of a port's egress. -/
inductive Packet
  | answer (placed : Placed)
  | notice (n : Notice) (epoch : Byte)
deriving DecidableEq, Repr

/-! ### Port links -/

/-- The link states (R117). -/
inductive Link
  | down | up
deriving DecidableEq, Repr

/-- The session states (R119). -/
inductive Session
  | detached | attached | detaching
deriving DecidableEq, Repr

/-- Everything one port holds (spec/07, spec/08, and the vote of R105). -/
structure PortState where
  link      : Link
  paused    : Bool
  session   : Session
  epoch     : Byte
  /-- The tags in flight. -/
  inFlight  : List Tag
  /-- The DETACH that stays in flight while the port is DETACHING (R122). -/
  detachTag : Option Tag
  /-- Admitted requests not yet dispatched, oldest first. -/
  ingress   : List Request
  /-- Answers and refusals placed and not yet begun, in the order of placement. -/
  outbox    : List Placed
  /-- The packet being sent. -/
  sending   : Option Packet
  /-- Pending notices in send order. -/
  notices   : List Notice
  /-- Fault records, oldest first. -/
  faults    : List FaultRecord
  overflow  : Bool
  vote      : Bool
deriving DecidableEq, Repr

/-! ### Bank Lease Table -/

/-- The states of a bank (R19). -/
inductive BankState
  | closed | opening | opened | draining | closing | refreshing
deriving DecidableEq, Repr

/-- A pending grantee (R19). -/
structure Grantee where
  port    : Port
  tag     : Tag
  /-- The carried wait deadline. -/
  carried : Time
deriving DecidableEq, Repr

/-- An entry of a waiting list (R42). -/
structure Waiter where
  port     : Port
  tag      : Tag
  row      : Row
  mode     : Mode
  deadline : Time
deriving DecidableEq, Repr

/-- A bank's entry in the Bank Lease Table (R19). -/
structure BankEntry where
  state      : BankState
  row        : Option Row
  mode       : Option Mode
  /-- The pending grantees, in order. -/
  grantees   : List Grantee
  /-- The holders: the grant tag (R52) of each port that is one. -/
  holders    : PerPort (Option Tag)
  contention : Option Time
  /-- The waiting list, oldest first. -/
  waiting    : List Waiter
deriving DecidableEq, Repr

/-! ### Staging Pool, Array Work List and array path -/

/-- A staged line: its bytes exactly as received (R71). -/
structure StagedLine where
  data  : List Byte
  /-- The mask bytes of a masked line (R66). -/
  mask  : Option (List Byte)
  check : BitVec 16
deriving DecidableEq, Repr

/-- The staged lines of one WRITE, named by its port and tag (log entry 10), with the guard fixed at admission (R77). -/
structure StagedWrite where
  port    : Port
  tag     : Tag
  guarded : Bool
  lines   : List StagedLine
deriving DecidableEq, Repr

/-- The direction of a transfer, with the staging reference of a write (R8) and whether its answer will be SUSPECT (R80, log entry 11). -/
inductive Direction
  | read
  | write (port : Port) (tag : Tag) (suspect : Bool)
deriving DecidableEq, Repr

/-- A line transfer (R6). -/
structure Xfer where
  bank  : Bank
  port  : Port
  tag   : Tag
  dir   : Direction
  first : Nat
  count : Nat
deriving DecidableEq, Repr

/-- An item of the Array Work List (R8). -/
inductive WorkItem
  | openRow (bank : Bank) (row : Row)
  | close (bank : Bank)
  | xfer (x : Xfer)
deriving DecidableEq, Repr

/-- The operation on the array path (R3). A write XFER carries the lines it commits (R74); a STEP its row index and class. -/
inductive Operation
  | openRow (bank : Bank) (row : Row)
  | close (bank : Bank)
  | xfer (x : Xfer) (lines : List StagedLine)
  | step (x : BankSet) (p : Row) (forced : Bool)
deriving DecidableEq, Repr

/-- The record of a BUSY path (R3). -/
structure PathRecord where
  op        : Operation
  completes : Time
deriving DecidableEq, Repr

/-! ### Refresh Account, Retention Control, settings -/

/-- A set's step-wanted mark (R84, R90). -/
inductive Mark
  | none | forced | opportunistic | eager
deriving DecidableEq, Repr

/-- The Refresh Account's record of a set (R84). -/
structure Account where
  balance  : Int
  sweep    : Row
  nextTick : Time
  lossFlag : Bool
  mark     : Mark
  /-- The model's own: which free contents the set's unwritten bytes have (log entries 8 and 9). -/
  contents : Nat
deriving DecidableEq, Repr

/-- The retention states; WAKING has the wake completion time (R105). -/
inductive Retention
  | active | entering | retained
  | waking (completes : Time)
deriving DecidableEq, Repr

/-- The shared settings (R162). -/
structure Settings where
  leaseLimit : PerPort Nat
  /-- GUARDED (true) or UNGUARDED (false). -/
  guarded    : PerPort Bool
  /-- In µs. -/
  waitLimit  : Nat
  /-- In µs. -/
  holdLimit  : Nat
  urgency    : Nat
  eager      : Bool
  quickWake  : Bool
  autoRetain : Bool
  /-- In ms. -/
  claimLimit : Nat
deriving DecidableEq, Repr

/-- The holder of the configuration claim and its expiry time (R157). -/
structure ClaimHold where
  holder  : Port
  expires : Time
deriving DecidableEq, Repr

/-- A valid window (R149). -/
structure Window where
  firstBank : Nat
  lastBank  : Nat
  firstRow  : Nat
  lastRow   : Nat
  /-- READ-WRITE (true) or READ (false). -/
  write     : Bool
deriving DecidableEq, Repr

/-- A port's four windows; an invalid window is none (R149). -/
abbrev Windows := PerWindow (Option Window)

/-! ### The part -/

/-- The whole part. -/
structure State where
  /-- The time of the last event taken (log entry 1). -/
  now          : Time
  /-- The commands waiting, first in first out. -/
  pending      : List Instr
  /-- The array's known contents: address and byte, addresses strictly rising; an unlisted address has no value (log entry 8). -/
  array        : List Host.Cell
  /-- How many reads were made under a retention-loss flag (log entry 9). -/
  freeCount    : Nat
  /-- The array open row of each bank (R4). -/
  openRows     : PerBank (Option Row)
  /-- The operation on the array path; none is IDLE (R3). -/
  path         : Option PathRecord
  /-- The Array Work List, oldest first (R8). -/
  workList     : List WorkItem
  lastServed   : Port
  banks        : PerBank BankEntry
  staging      : List StagedWrite
  accounts     : PerSet Account
  band         : Band
  lastTemp     : Int
  nextSample   : Time
  retention    : Retention
  /-- The moment of the last entry into the retained state, where the path was IDLE then; none where it was BUSY (R108). A wake cause that falls
  together with that entry is taken as R109 states (log entry 24). -/
  entered      : Option Time
  ports        : PerPort PortState
  /-- The closes of a warm reset are running and hold the links DOWN (R117, log entry 17). -/
  resetCloses  : Bool
  settings     : Settings
  claim        : Option ClaimHold
  windows      : PerPort Windows
deriving DecidableEq, Repr

/-! ### Values after power-on reset -/

/-- A port after power-on reset (R134, R148). -/
def PortState.powerOn : PortState :=
  { link := .down, paused := false, session := .detached, epoch := 0, inFlight := [], detachTag := none, ingress := [], outbox := []
    sending := none, notices := [], faults := [], overflow := false, vote := false }

/-- A bank's entry after power-on reset (R41). -/
def BankEntry.powerOn : BankEntry :=
  { state := .closed, row := none, mode := none, grantees := [], holders := PerPort.const none, contention := none, waiting := [] }

/-- The settings after power-on reset and after warm reset (R162). -/
def Settings.resetValue : Settings :=
  { leaseLimit := PerPort.const 4, guarded := PerPort.const true, waitLimit := 100, holdLimit := 50, urgency := 4, eager := false
    quickWake := false, autoRetain := false, claimLimit := 10 }

/-- A port's windows after power-on reset and after warm reset: W0 covers everything, the others are invalid (R156). -/
def Windows.resetValue : Windows :=
  { w0 := some { firstBank := 0, lastBank := 7, firstRow := 0, lastRow := 8191, write := true }, w1 := none, w2 := none, w3 := none }

/-- The part at the end, time `t`, of a power-on reset, before the first thermal sample. The contents generations and the free count are
the model's own and only ever rise (log entry 18); `temp` is what the last temperature is until that sample. -/
def State.powerOn (t : Time) (contentsA contentsB freeCount : Nat) (temp : Int) (pending : List Instr) : State :=
  { now := t, pending := pending, array := [], freeCount := freeCount, openRows := PerBank.const none, path := none, workList := []
    lastServed := .p3, banks := PerBank.const BankEntry.powerOn, staging := []
    accounts :=
      { a := { balance := 0, sweep := 0, nextTick := t + ns 6400, lossFlag := false, mark := .none, contents := contentsA }
        b := { balance := 0, sweep := 0, nextTick := t + ns 9600, lossFlag := false, mark := .none, contents := contentsB } }
    band := .normal, lastTemp := temp, nextSample := t + Config.samplePeriod, retention := .active
    entered := none, ports := PerPort.const PortState.powerOn, resetCloses := false, settings := Settings.resetValue, claim := none
    windows := PerPort.const Windows.resetValue }

/-- The part right after power-on reset, at time 0, with the first thermal sample taken. Its reading is the 60 °C of the example in
section 5.10 (DESIGN CHOICE, log entry 6); it leaves the band NORMAL. -/
def State.reset : State := State.powerOn 0 0 0 0 60 []

/-! ### Access to one port, bank or set -/

/-- What port `p` holds. -/
def State.port (s : State) (p : Port) : PortState := s.ports.get p

/-- Replaces what port `p` holds. -/
def State.setPort (s : State) (p : Port) (q : PortState) : State := { s with ports := s.ports.set p q }

/-- The entry of bank `b`. -/
def State.bank (s : State) (b : Bank) : BankEntry := s.banks.get b

/-- Replaces the entry of bank `b`. -/
def State.setBank (s : State) (b : Bank) (e : BankEntry) : State := { s with banks := s.banks.set b e }

/-- The account of set `x`. -/
def State.account (s : State) (x : BankSet) : Account := s.accounts.get x

/-- Replaces the account of set `x`. -/
def State.setAccount (s : State) (x : BankSet) (c : Account) : State := { s with accounts := s.accounts.set x c }

end Sys2Proof.Machine
end

