-- ==== Sys2Proof/Machine/Flags.lean ====
section
/-!
DEFINITION. Every condition and count the spec derives from the state: pending transfers, lease counts, staging room, places, pressure,
marks, coverage, the entry condition of the retained state, bands and intervals.
-/

namespace Sys2Proof.Machine

/-! ### Banks and leases -/

/-- An item of the work list that is a transfer of bank `b`. -/
def WorkItem.isXferOf (b : Bank) : WorkItem → Bool
  | .xfer x => decide (x.bank = b)
  | _ => false

/-- The operation in progress is a transfer of bank `b`. -/
def pathXferOf (s : State) (b : Bank) : Bool :=
  match s.path with
  | some { op := .xfer x _, .. } => decide (x.bank = b)
  | _ => false

/-- A bank's pending transfers count (section 1.3 note). -/
def pendingTransfers (s : State) (b : Bank) : Nat :=
  s.workList.countP (·.isXferOf b) + (if pathXferOf s b then 1 else 0)

/-- The operation in progress is a transfer of port `p` (R123). -/
def pathXferFor (s : State) (p : Port) : Bool :=
  match s.path with
  | some { op := .xfer x _, .. } => decide (x.port = p)
  | _ => false

/-- `p` is a holder of the entry's bank. -/
def BankEntry.isHolder (e : BankEntry) (p : Port) : Bool := (e.holders.get p).isSome

/-- The holders in port order. -/
def BankEntry.holderPorts (e : BankEntry) : List Port := Port.all.filter e.isHolder

/-- `p` is a pending grantee of the entry's bank. -/
def BankEntry.isGrantee (e : BankEntry) (p : Port) : Bool := e.grantees.any (fun g => decide (g.port = p))

/-- `p` has an entry in the waiting list. -/
def BankEntry.isWaiter (e : BankEntry) (p : Port) : Bool := e.waiting.any (fun w => decide (w.port = p))

/-- `p` is a holder, a pending grantee or a waiter (R21). -/
def BankEntry.involves (e : BankEntry) (p : Port) : Bool := e.isHolder p || e.isGrantee p || e.isWaiter p

/-- The lease count of a port (R21). -/
def leaseCount (s : State) (p : Port) : Nat := Bank.all.countP (fun b => (s.bank b).involves p)

/-- The head group of a waiting list (R44). -/
def headGroup : List Waiter → List Waiter
  | [] => []
  | w :: ws => w :: (if w.mode = .write then [] else ws.takeWhile (fun v => decide (v.mode = .read ∧ v.row = w.row)))

/-- What stands behind the head group. -/
def behindHeadGroup (ws : List Waiter) : List Waiter := ws.drop (headGroup ws).length

/-- Every bank is CLOSED or REFRESHING: none is OPENING, OPEN, DRAINING or CLOSING (R18, R107). -/
def allBanksShut (s : State) : Bool :=
  Bank.all.all (fun b => decide ((s.bank b).state = .closed ∨ (s.bank b).state = .refreshing))

/-- All four banks of a set are CLOSED (R10). -/
def setClosed (s : State) (x : BankSet) : Bool := x.banks.all (fun b => decide ((s.bank b).state = .closed))

/-- The waiting lists of all four banks of a set are empty (R90). -/
def listsEmpty (s : State) (x : BankSet) : Bool := x.banks.all (fun b => (s.bank b).waiting.isEmpty)

/-! ### The Refresh Account -/

/-- A set is under pressure while its balance is at least URGENCY (R92). -/
def pressure (s : State) (x : BankSet) : Bool := decide ((s.settings.urgency : Int) ≤ (s.account x).balance)

/-- The step-wanted mark of a set from its inputs (R90). -/
def markFor (s : State) (x : BankSet) : Mark :=
  let v := (s.account x).balance
  if 6 ≤ v then .forced
  else if 1 ≤ v then .opportunistic
  else if -3 ≤ v ∧ s.settings.eager = true ∧ listsEmpty s x = true then .eager
  else .none

/-- The tick interval of a band (R86). -/
def Band.interval : Band → Time
  | .cool => ns 12800 | .normal => ns 6400 | .hot => ns 3200

/-- A reading below −40 is taken as −40 and one above 125 as 125 (R100). -/
def clampReading (r : Int) : Int := max (-40) (min 125 r)

/-- The band after a sample (R101). -/
def bandAfter (before : Band) (reading : Int) : Band :=
  match before with
  | .cool => if 44 ≤ reading then .normal else .cool
  | .normal => if 88 ≤ reading then .hot else if reading ≤ 40 then .cool else .normal
  | .hot => if reading ≤ 84 then .normal else .hot

/-! ### The Staging Pool and the port links -/

/-- A port's staged count (R71). -/
def stagedCount (s : State) (p : Port) : Nat :=
  ((s.staging.filter (fun w => decide (w.port = p))).map (fun w => w.lines.length)).sum

/-- The pool's used count, the sum of the four staged counts (R71). -/
def usedCount (s : State) : Nat := (s.staging.map (fun w => w.lines.length)).sum

/-- The staging room test of R72 for `count` lines of port `p`. -/
def stagingRoom (s : State) (p : Port) (count : Nat) : Bool :=
  decide (stagedCount s p + count ≤ Config.stagingLinesPerPort ∧ count ≤ Config.stagingLines - usedCount s)

/-- An answer that holds a response-queue place. -/
def Placed.isResponse : Placed → Bool
  | .response .. => true
  | .refusal .. => false

/-- The packet being sent holds a response-queue place. -/
def PortState.sendsResponse (q : PortState) : Bool :=
  match q.sending with
  | some (.answer a) => a.isResponse
  | _ => false

/-- The packet being sent holds a refusal slot. -/
def PortState.sendsRefusal (q : PortState) : Bool :=
  match q.sending with
  | some (.answer a) => !a.isResponse
  | _ => false

/-- Response-queue places taken: by requests in flight and by answers not yet sent whole (R125). -/
def PortState.placesTaken (q : PortState) : Nat :=
  q.inFlight.length + q.outbox.countP (·.isResponse) + (if q.sendsResponse then 1 else 0)

/-- Refusal slots taken (R128). -/
def PortState.slotsTaken (q : PortState) : Nat :=
  q.outbox.countP (fun a => !a.isResponse) + (if q.sendsRefusal then 1 else 0)

/-! ### Windows and the claim -/

/-- A window covers bank, row and mode (R150). -/
def Window.covers (w : Window) (b : Bank) (r : Row) (m : Mode) : Bool :=
  decide (w.firstBank ≤ b.toNat ∧ b.toNat ≤ w.lastBank ∧ w.firstRow ≤ r.toNat ∧ r.toNat ≤ w.lastRow ∧
    (m = .write → w.write = true))

/-- Bank, row and mode are covered for port `p` by one of its valid windows (R150). -/
def covered (s : State) (p : Port) (b : Bank) (r : Row) (m : Mode) : Bool :=
  WindowIndex.all.any (fun i =>
    match (s.windows.get p).get i with
    | some w => w.covers b r m
    | none => false)

/-- What a request of `p` that needs the claim is refused with, if it is (R146, R151, R163). -/
def claimRefusal (s : State) (p : Port) : Option Result :=
  match s.claim with
  | none => some .notClaimed
  | some h => if h.holder = p then none else some .claimed

/-! ### Retention Control -/

/-- The entry condition of the retained state (R107). -/
def entryCondition (s : State) : Bool :=
  decide (s.retention = .active) && allBanksShut s
    && Port.all.all (fun p => (s.port p).inFlight.isEmpty)
    && (if Port.all.any (fun p => decide ((s.port p).session = .attached)) then
          Port.all.all (fun p => decide ((s.port p).session = .attached → (s.port p).vote = true))
        else s.settings.autoRetain)

/-- The retention state that an admission finds. Where the entry into the retained state found an IDLE path and falls together with the
admission, it is ENTERING (R109), though the part has already reached RETAINED in the entry event (R108; log entry 24). -/
def retentionAtAdmission (s : State) : Retention :=
  if s.retention = .retained ∧ s.entered = some s.now then .entering else s.retention

/-- The admission of this request of `p` is a wake cause (R112). -/
def wakeCause (s : State) (p : Port) (body : Body) : Bool :=
  match (s.port p).session, body with
  | .attached, .hold => false
  | .attached, .status _ => false
  | .attached, .detach => false
  | .attached, _ => true
  | .detached, .attach => true
  | _, _ => false

end Sys2Proof.Machine
end

