-- ==== Sys2Proof/WellFormed.lean ====
section
/-!
DEFINITION. When a command has the form its row of the table names. Almost every field's type already holds only its legal values;
what is left is checked here. `exec` gives a meaning to ill-formed commands too (a WRITE of the wrong length is R169's case).
-/

namespace Sys2Proof

/-- The payload bytes a WRITE of this header calls for (R169). -/
def writePayloadLength (masked : Bool) (countLess1 : BitVec 3) : Nat :=
  (countLess1.toNat + 1) * (if masked then 74 else 66)

/-- An identifier of one of the windows W0 to W3, 10h to 13h (R168). -/
def isWindowIdent (ident : Byte) : Bool := decide (16 ≤ ident.toNat ∧ ident.toNat ≤ 19)

/-- A WRITE carries the lines its header names, and GET_SETTING does not name a window (that is GET_WINDOW's row). -/
def Instr.wellFormed : Instr → Bool
  | .writeLines _ _ _ _ masked _ countLess1 payload => payload.length == writePayloadLength masked countLess1
  | .getSetting _ _ _ _ ident => !isWindowIdent ident
  | .packetArrival .. | .attach .. | .detach .. | .openRow .. | .release .. | .cancel .. | .readLines .. | .hold ..
  | .statusPorts .. | .statusBanks .. | .statusRefresh .. | .statusFaults .. | .statusClaim .. | .claim .. | .unclaim ..
  | .setLeaseLimit .. | .setGuard .. | .setWaitLimit .. | .setHoldLimit .. | .setUrgency .. | .setEager ..
  | .setQuickWake .. | .setAutoRetain .. | .setClaimLimit .. | .getWindow .. | .window .. | .clearFaultsOwn ..
  | .clearFaultsRetention .. | .egressSendBegin .. | .egressSendEnd .. | .egressPause .. | .egressResume ..
  | .linkDown .. | .linkUp .. | .powerOnReset .. | .warmReset .. | .openCompletion | .closeCompletion
  | .xferCompletion | .stepCompletion | .tick .. | .thermalSample .. | .waitDeadlineExpiry ..
  | .contentionDeadlineExpiry .. | .claimExpiry | .wakeCompletion => true

end Sys2Proof
end

