-- ==== Sys2Proof/Machine/Operands.lean ====
section
/-!
DEFINITION. The packet and record formats of spec/11: the two CRCs, what a request packet says, and the bytes of every packet the
part sends.
-/

namespace Sys2Proof.Machine

/-! ### The header check and the line check -/

/-- The bits of a byte, most significant first: the order both CRCs take them in (R75, R167). -/
def byteBits (x : Byte) : List Bool := [7, 6, 5, 4, 3, 2, 1, 0].map x.getLsbD

/-- One bit into the header check's register (R167). -/
def headerCrcBit (r : BitVec 8) (bit : Bool) : BitVec 8 :=
  if bit != r.msb then (r <<< 1) ^^^ 0x2F#8 else r <<< 1

/-- The header check of header bytes 0 to 6 (R167). -/
def headerCheck (bytes : List Byte) : Byte := (bytes.flatMap byteBits).foldl headerCrcBit 0xFF#8

/-- One bit into the line check's register (R75). -/
def lineCrcBit (r : BitVec 16) (bit : Bool) : BitVec 16 :=
  if bit != r.msb then (r <<< 1) ^^^ 0x3D65#16 else r <<< 1

/-- The line check of the covered bytes (R75). -/
def lineCheck (bytes : List Byte) : BitVec 16 := (bytes.flatMap byteBits).foldl lineCrcBit 0xFFFF#16

/-- A staged line is good when the check over its data and mask bytes is the one it carries (R75). -/
def StagedLine.good (l : StagedLine) : Bool := lineCheck (l.data ++ l.mask.getD []) == l.check

/-- Whether data byte `i` of a staged line is written into the row: mask bit i is bit i mod 8 of mask byte i div 8 (R66). -/
def StagedLine.writes (l : StagedLine) (i : Nat) : Bool :=
  match l.mask with
  | none => true
  | some m => (m.getD (i / 8) 0).getLsbD (i % 8)

/-! ### What an arriving packet says -/

/-- What the port link reads in a packet before it admits it. -/
inductive Arrival
  /-- The header check fails, or the packet is shorter than a header (R126). -/
  | damaged
  /-- The kind byte names no kind (R168). -/
  | noKind (tag : Tag)
  /-- A request, with the lines a WRITE carries. -/
  | request (r : Request) (lines : List StagedLine)
deriving DecidableEq, Repr

/-- The lines of a WRITE payload, in row order (R170): 66 bytes each, or 74 with the mask bytes. -/
def payloadLines (masked : Bool) : Nat → List Byte → List StagedLine
  | 0, _ => []
  | n + 1, bytes =>
    let rest := bytes.drop 64
    let mask := if masked then some (rest.take 8) else none
    let tail := if masked then rest.drop 8 else rest
    { data := bytes.take 64, mask := mask, check := (tail.getD 0 0 ++ tail.getD 1 0 : BitVec 16) }
      :: payloadLines masked n (tail.drop 2)

/-- The value of a SET payload, most significant byte first (R171); none where it is not 4 bytes (R169). -/
def payloadValue : List Byte → Option (BitVec 32)
  | [a, b, c, d] => some (a ++ b ++ c ++ d)
  | _ => none

/-- The record of a WINDOW payload (R171); none where it is not 8 bytes (R169). -/
def payloadWindow : List Byte → Option WindowRecord
  | [v, fb, lb, ri, f1, f0, l1, l0] =>
    some { valid := v.getLsbD 0, firstBank := fb, lastBank := lb, rights := ri, firstRow := f1 ++ f0, lastRow := l1 ++ l0 }
  | _ => none

/-- A WRITE as its packet gives it: with a payload of another length than its header calls for, the decoded count is 0 and the bytes
are discarded (R169). -/
def writeBody (bank : Bank) (masked : Bool) (first : BitVec 5) (countLess1 : BitVec 3) (payload : List Byte) :
    Body × List StagedLine :=
  if payload.length = writePayloadLength masked countLess1 then
    (.writeLines bank masked first (countLess1.toNat + 1), payloadLines masked (countLess1.toNat + 1) payload)
  else (.writeLines bank masked first 0, [])

/-- The body of a request from its kind byte, header bytes 2 to 6 and payload (R167 to R169); none for a byte that names no kind. -/
def decodeBody (kind b2 b3 b4 b5 b6 : Byte) (payload : List Byte) : Option (Body × List StagedLine) :=
  let bits3 : BitVec 3 := b2.extractLsb' 0 3
  let bank := Bank.ofBits bits3
  let first : BitVec 5 := b5.extractLsb' 0 5
  let countLess1 : BitVec 3 := b5.extractLsb' 5 3
  let row : Row := (b3 ++ b4 : BitVec 16).extractLsb' 0 13
  match kind.toNat with
  | 0x01 => some (.attach, [])
  | 0x02 => some (.detach, [])
  | 0x03 => some (.openRow bank row (if b2.getLsbD 3 then .write else .read), [])
  | 0x04 => some (.release bank, [])
  | 0x05 => some (.cancel b6, [])
  | 0x06 => some (.readLines bank first (countLess1.toNat + 1), [])
  | 0x07 => some (writeBody bank (b2.getLsbD 4) first countLess1 payload)
  | 0x08 => some (.hold, [])
  | 0x09 => some (.status b6, [])
  | 0x0A => some (.claim, [])
  | 0x0B => some (.unclaim, [])
  | 0x0C => some (.setSetting bits3 b6 (payloadValue payload), [])
  | 0x0D => some (.getSetting bits3 b6, [])
  | 0x0E => some (.window bits3 b6 (payloadWindow payload), [])
  | 0x0F => some (.clearFaults (b2.extractLsb' 5 2), [])
  | _ => none

/-- What a packet says (R125 checks 1 and 2, R167). -/
def decodePacket : List Byte → Arrival
  | b0 :: b1 :: b2 :: b3 :: b4 :: b5 :: b6 :: b7 :: payload =>
    if headerCheck [b0, b1, b2, b3, b4, b5, b6] = b7 then
      let tag : Tag := b1.extractLsb' 0 6
      match decodeBody b0 b2 b3 b4 b5 b6 payload with
      | some (body, lines) => .request { tag := tag, body := body } lines
      | none => .noKind tag
    else .damaged
  | _ => .damaged

/-! ### What the part sends -/

/-- A byte from a number. -/
def byteOf (n : Nat) : Byte := BitVec.ofNat 8 n

/-- A two-byte field, most significant byte first (R167, R174). -/
def bytes2 (n : Nat) : List Byte := [byteOf (n / 256), byteOf n]

/-- A four-byte field, most significant byte first (R171, R174). -/
def bytes4 (n : Nat) : List Byte := [byteOf (n / 16777216), byteOf (n / 65536), byteOf (n / 256), byteOf n]

/-- A flag as a byte 00h or 01h. -/
def byteOfBool (b : Bool) : Byte := if b then 1 else 0

/-- The numeric code of a result (R173). -/
def Result.code : Result → Byte
  | .ok => 0x01 | .granted => 0x02 | .data => 0x03 | .suspect => 0x04 | .rejected => 0x05 | .notAttached => 0x06
  | .badState => 0x07 | .badArgument => 0x08 | .badKind => 0x09 | .denied => 0x0A | .duplicate => 0x0B | .limit => 0x0C
  | .noLease => 0x0D | .wrongMode => 0x0E | .timeout => 0x0F | .cancelled => 0x10 | .tooLate => 0x11 | .notFound => 0x12
  | .claimed => 0x13 | .notClaimed => 0x14 | .full => 0x15 | .dupTag => 0x16 | .report => 0x17

/-- The numeric code of a fault kind (R173). -/
def FaultKind.code : FaultKind → Byte
  | .rejectedWrite => 0x01 | .suspectWrite => 0x02 | .header => 0x03 | .flood => 0x04 | .retentionLoss => 0x05

/-- The byte of a mode (R172, R174). -/
def modeCode : Mode → Byte
  | .read => 0x00 | .write => 0x01

/-- The byte of a revocation reason (R172). -/
def Reason.code : Reason → Byte
  | .contention => 0x01 | .refresh => 0x02 | .window => 0x03

/-- The byte of a band (R172, R174). -/
def Band.code : Band → Byte
  | .cool => 0x00 | .normal => 0x01 | .hot => 0x02

/-- The byte of a session state (R174). -/
def Session.code : Session → Byte
  | .detached => 0x00 | .attached => 0x01 | .detaching => 0x02

/-- The byte of a bank state (R174). -/
def BankState.code : BankState → Byte
  | .closed => 0x00 | .opening => 0x01 | .opened => 0x02 | .draining => 0x03 | .closing => 0x04 | .refreshing => 0x05

/-- The byte of a retention state (R174). -/
def Retention.code : Retention → Byte
  | .active => 0x00 | .entering => 0x01 | .retained => 0x02 | .waking _ => 0x03

/-- The byte of a set (R173). -/
def setCode : BankSet → Byte
  | .a => 0x00 | .b => 0x01

/-- The number of a bank as a byte. -/
def bankByte (b : Bank) : Byte := byteOf b.toNat

/-- A notice's kind code, info 0 and info 1 (R172, R173). Of info 1 of a FAULT the manual names bits 0 to 2 and bit 7 alone; that bits 3 to 6
are sent as 0 is a DESIGN CHOICE, unsafe (log entry 25). -/
def Notice.fields : Notice → Byte × Byte × Byte
  | .revoked b r => (0x01, bankByte b, r.code)
  | .releaseRequest b => (0x02, bankByte b, 0)
  | .fault k n o => (0x03, k.code, byteOf n ||| (if o then 0x80 else 0))
  | .claimLost => (0x04, 0, 0)
  | .thermal band => (0x05, band.code, 0)
  | .retention woken => (0x06, byteOfBool woken, 0)

/-- Closes seven header bytes with their header check (R167, R172). -/
def closeHeader (h : List Byte) : List Byte := h ++ [headerCheck h]

/-- The bytes of a packet the part sends (R172). -/
def Packet.bytes : Packet → List Byte
  | .answer (.response tag res ep i0 i1 payload) => closeHeader [0x01, tag.setWidth 8, res.code, ep, i0, i1, 0] ++ payload
  | .answer (.refusal tag res ep) => closeHeader [0x02, tag.setWidth 8, res.code, ep, 0, 0, 0]
  | .notice n ep => closeHeader [0x03, 0xFF, n.fields.1, ep, n.fields.2.1, n.fields.2.2, 0]

/-- A line of a DATA payload: its 64 bytes and the check the part generates over them (R76, R170). -/
def dataLine (bytes : List Byte) : List Byte :=
  let c := lineCheck bytes
  bytes ++ [c.extractLsb' 8 8, c.extractLsb' 0 8]

/-- The 8-byte record of a window; all bytes 00h for an invalid one (R171). -/
def windowPayload : Option Window → List Byte
  | none => [0, 0, 0, 0, 0, 0, 0, 0]
  | some w => [1, byteOf w.firstBank, byteOf w.lastBank, byteOfBool w.write] ++ bytes2 w.firstRow ++ bytes2 w.lastRow

/-- The presence bit of an optional field (R174). -/
def presence {α : Type} (o : Option α) (bit : Byte) : Byte := if o.isSome then bit else 0

/-- The 8 bytes of a fault record in FAULTS (R174). -/
def FaultRecord.bytes (f : FaultRecord) : List Byte :=
  [f.kind.code,
    presence f.bank 1 ||| presence f.row 2 ||| presence f.line 4 ||| presence f.tag 8 ||| presence f.set 16,
    (f.bank.map bankByte).getD 0]
  ++ bytes2 ((f.row.map BitVec.toNat).getD 0)
  ++ [(f.line.map byteOf).getD 0, (f.tag.map (BitVec.setWidth 8)).getD 0, (f.set.map setCode).getD 0]

end Sys2Proof.Machine
end

