-- ==== Sys2Proof/Machine/Ops.lean ====
section
/-!
DEFINITION. The named operations every command is made of: array memory, answers, notices and faults, the Lease Manager's procedures,
the balance, the arbiter, and what every event ends with.
-/

namespace Sys2Proof.Machine

/-! ### The array (R1, R2, R6) -/

/-- The value listed at an address, if any. -/
def Memory.read : List Host.Cell → Nat → Option Byte
  | [], _ => none
  | c :: m, a => if c.1 = a then some c.2 else Memory.read m a

/-- Writes a byte, keeping the addresses strictly rising. -/
def Memory.write : List Host.Cell → Nat → Byte → List Host.Cell
  | [], a, v => [(a, v)]
  | c :: m, a, v =>
    if a < c.1 then (a, v) :: c :: m
    else if c.1 = a then (a, v) :: m
    else c :: Memory.write m a v

/-- The canonical form: addresses strictly rising. An unlisted address has no value, so no entry can equal it. -/
def Memory.wf : List Host.Cell → Bool
  | [] => true
  | c :: m => m.all (fun d => decide (c.1 < d.1)) && Memory.wf m

/-- The address of a line's first byte (R1). -/
def lineAddress (b : Bank) (r : Row) (line : Nat) : Nat :=
  ((b.toNat * Config.rowsPerBank + r.toNat) * Config.linesPerRow + line) * Config.bytesPerLine

/-- The set whose banks hold an address (R1). -/
def addressSet (a : Nat) : BankSet := if a < 4 * Config.bytesPerBank then .a else .b

/-- The byte a read takes from an address: what was last committed there, and a free value where nothing was, or where the retention of
the set is not guaranteed (R2; log entries 8 and 9). -/
def arrayByte (s : State) (a : Nat) : Byte :=
  let acc := s.account (addressSet a)
  if acc.lossFlag then Config.unguaranteedByte s.freeCount a
  else (Memory.read s.array a).getD (Config.unwrittenByte acc.contents a)

/-- The 64 bytes of a line. -/
def readLine (s : State) (b : Bank) (r : Row) (line : Nat) : List Byte :=
  (List.range Config.bytesPerLine).map (fun i => arrayByte s (lineAddress b r line + i))

/-- Writes the bytes of a staged line from its byte `i` on, each under its mask bit (R6, R66). -/
def commitBytes (l : StagedLine) (base : Nat) : Nat → List Byte → List Host.Cell → List Host.Cell
  | _, [], m => m
  | i, v :: vs, m => commitBytes l base (i + 1) vs (if l.writes i then Memory.write m (base + i) v else m)

/-- Writes staged lines into consecutive lines of a row, from line `first` on (R6). -/
def commitLines (b : Bank) (r : Row) : Nat → List StagedLine → List Host.Cell → List Host.Cell
  | _, [], m => m
  | first, l :: ls, m => commitLines b r (first + 1) ls (commitBytes l (lineAddress b r first) 0 l.data m)

/-- The model no longer knows what a set's cells hold (log entry 9): its entries go, and its unwritten bytes are a new generation. -/
def forgetContents (x : BankSet) (s : State) : State :=
  { s.setAccount x { s.account x with contents := (s.account x).contents + 1 } with
    array := s.array.filter (fun c => decide (addressSet c.1 ≠ x)) }

/-! ### Small updates -/

/-- An event is taken at time `t`; time never goes back (log entry 1). -/
def advance (t : Time) (s : State) : State := { s with now := max s.now t }

/-- Changes what port `p` holds. -/
def modPort (p : Port) (f : PortState → PortState) (s : State) : State := s.setPort p (f (s.port p))

/-- Changes the entry of bank `b`. -/
def modBank (b : Bank) (f : BankEntry → BankEntry) (s : State) : State := s.setBank b (f (s.bank b))

/-- Changes the account of set `x`. -/
def modAccount (x : BankSet) (f : Account → Account) (s : State) : State := s.setAccount x (f (s.account x))

/-- The four banks of a set go to a state (R13, R14). -/
def setStates (x : BankSet) (st : BankState) (s : State) : State := x.banks.foldl (fun s b => modBank b (fun e => { e with state := st }) s) s

/-- Places an item last in the Array Work List (R8). -/
def placeWork (i : WorkItem) (s : State) : State := { s with workList := s.workList ++ [i] }

/-- Frees the staged lines of the WRITE of port `p` with this tag (R73). -/
def freeStaged (p : Port) (tag : Tag) (s : State) : State :=
  { s with staging := s.staging.filter (fun w => !decide (w.port = p ∧ w.tag = tag)) }

/-- The staged lines of the WRITE of port `p` with this tag (R71). -/
def stagedLines (s : State) (p : Port) (tag : Tag) : List StagedLine :=
  (s.staging.filter (fun w => decide (w.port = p ∧ w.tag = tag))).flatMap (fun w => w.lines)

/-! ### Answers, refusals, notices and faults -/

/-- Places the answer of a request: it leaves the in-flight set and keeps its response-queue place until it is sent (R125, R133). The
epoch is the one current at the placement (R120). -/
def answer (p : Port) (tag : Tag) (res : Result) (info0 info1 : Byte) (payload : List Byte) (s : State) : State :=
  modPort p (fun q => { q with
    inFlight := q.inFlight.erase tag
    outbox := q.outbox ++ [.response tag res q.epoch info0 info1 payload] }) s

/-- An answer with both info bytes 00h and no payload (R172). -/
def reply (p : Port) (tag : Tag) (res : Result) (s : State) : State := answer p tag res 0 0 [] s

/-- Two notices of the same kind and bank (R136). -/
def Notice.sameMatter : Notice → Notice → Bool
  | .revoked b _, .revoked c _ => decide (b = c)
  | .releaseRequest b, .releaseRequest c => decide (b = c)
  | .fault .., .fault .. => true
  | .claimLost, .claimLost => true
  | .thermal _, .thermal _ => true
  | .retention _, .retention _ => true
  | _, _ => false

/-- A notice joins a notice set: it merges into the pending notice of its kind and bank, or takes the last place (R137). -/
def mergeNotice (n : Notice) (ns : List Notice) : List Notice :=
  if ns.any n.sameMatter then ns.map (fun m => if n.sameMatter m then n else m) else ns ++ [n]

/-- Raises a notice at port `p`; it is discarded unless the port is ATTACHED (R137). -/
def raiseNotice (p : Port) (n : Notice) (s : State) : State :=
  modPort p (fun q => if q.session = .attached then { q with notices := mergeNotice n q.notices } else q) s

/-- A fault reaches the fault list of port `p`, if it is ATTACHED, and raises FAULT (R141, R142). -/
def recordFault (p : Port) (f : FaultRecord) (s : State) : State :=
  let q := s.port p
  if q.session ≠ .attached then s
  else if q.faults.length < Config.faultRecords then
    raiseNotice p (.fault f.kind (q.faults.length + 1) q.overflow) (modPort p (fun q => { q with faults := q.faults ++ [f] }) s)
  else if q.overflow then s
  else raiseNotice p (.fault f.kind q.faults.length true) (modPort p (fun q => { q with overflow := true }) s)

/-- A fault record with no fields (HEADER, R126). -/
def FaultRecord.bare (k : FaultKind) : FaultRecord :=
  { kind := k, bank := none, row := none, line := none, tag := none, set := none }

/-- Refuses a packet from the port's refusal slots; with none free the packet is dropped with FLOOD (R128). -/
def refuse (p : Port) (tag : Tag) (res : Result) (s : State) : State :=
  if (s.port p).slotsTaken < Config.refusalSlots then
    modPort p (fun q => { q with outbox := q.outbox ++ [.refusal tag res q.epoch] }) s
  else recordFault p { FaultRecord.bare .flood with tag := some tag } s

/-! ### The Lease Manager's procedures -/

/-- Gives bank `b` its contention deadline, keeps it, or discards it, as R22 states. -/
def refreshContention (b : Bank) (s : State) : State :=
  let e := s.bank b
  s.setBank b { e with
    contention :=
      if e.state = .opened ∧ e.waiting ≠ [] then some (e.contention.getD (s.now + us s.settings.holdLimit)) else none }

/-- A port becomes a holder of bank `b` with this grant tag and is answered GRANTED with the bank and the mode (R29, R52). -/
def grant (b : Bank) (m : Mode) (p : Port) (tag : Tag) (s : State) : State :=
  answer p tag .granted (bankByte b) (modeCode m) [] (modBank b (fun e => { e with holders := e.holders.set p (some tag) }) s)

/-- Grants to the ports of a group in order (R34, R37, R47). -/
def grantAll (b : Bank) (m : Mode) (group : List (Port × Tag)) (s : State) : State :=
  group.foldl (fun s g => grant b m g.1 g.2 s) s

/-- The port and tag of each entry. -/
def waiterTags (ws : List Waiter) : List (Port × Tag) := ws.map (fun w => (w.port, w.tag))

/-- A waiting entry that becomes a pending grantee keeps its deadline as the carried one (R46). -/
def Waiter.toGrantee (w : Waiter) : Grantee := { port := w.port, tag := w.tag, carried := w.deadline }

/-- A pending grantee that returns to the waiting list (R35). -/
def Grantee.toWaiter (row : Row) (mode : Mode) (g : Grantee) : Waiter :=
  { port := g.port, tag := g.tag, row := row, mode := mode, deadline := g.carried }

/-- A bank goes from CLOSED to OPENING for pending grantees, with OPEN work (R25, R46). -/
def startOpening (b : Bank) (row : Row) (mode : Mode) (gs : List Grantee) (ws : List Waiter) (s : State) : State :=
  placeWork (.openRow b row)
    (modBank b (fun e => { e with state := .opening, row := some row, mode := some mode, grantees := gs, waiting := ws }) s)

/-- The serve rule (R45 to R48). -/
def serve (b : Bank) (s : State) : State :=
  let e := s.bank b
  if pressure s b.set then s
  else match e.waiting with
    | [] => s
    | h :: _ =>
      match e.state with
      | .closed => startOpening b h.row h.mode ((headGroup e.waiting).map Waiter.toGrantee) (behindHeadGroup e.waiting) s
      | .opened =>
        if e.mode = some .read ∧ h.mode = .read ∧ e.row = some h.row then
          refreshContention b
            (grantAll b .read (waiterTags (headGroup e.waiting)) (modBank b (fun e => { e with waiting := behindHeadGroup e.waiting }) s))
        else s
      | _ => s

/-- Serves several banks in order (R14, R94). -/
def serveBanks (bs : List Bank) (s : State) : State := bs.foldl (fun s b => serve b s) s

/-- A bank goes to CLOSING with CLOSE work; its row stays until the close completes (R35, R38). -/
def startClosing (b : Bank) (s : State) : State :=
  placeWork (.close b) (modBank b (fun e => { e with state := .closing, mode := none }) s)

/-- A DRAINING bank with no pending transfers settles: it keeps its row for the head group or closes (R37, R38). -/
def settle (b : Bank) (s : State) : State :=
  let e := s.bank b
  if e.state ≠ .draining ∨ pendingTransfers s b ≠ 0 then s
  else match e.waiting with
    | [] => startClosing b s
    | h :: _ =>
      if pressure s b.set = false ∧ e.row = some h.row then
        refreshContention b
          (grantAll b h.mode (waiterTags (headGroup e.waiting))
            (modBank b (fun e => { e with state := .opened, mode := some h.mode, waiting := behindHeadGroup e.waiting }) s))
      else startClosing b s

/-- An OPEN bank whose holder set has become empty goes to DRAINING and settles at once if nothing is pending (R36). -/
def drainIfEmpty (b : Bank) (s : State) : State :=
  let e := s.bank b
  if e.state = .opened ∧ e.holders = PerPort.const none then
    settle b (modBank b (fun e => { e with state := .draining, mode := none, contention := none }) s)
  else s

/-- A port stops being a holder (R30, R33, R59). -/
def removeHolder (b : Bank) (p : Port) (s : State) : State :=
  modBank b (fun e => { e with holders := e.holders.set p none }) s

/-- Revokes ports from a bank with a reason, and drains the bank once after the last of them (R59). -/
def revoke (b : Bank) (ps : List Port) (reason : Reason) (s : State) : State :=
  drainIfEmpty b (ps.foldl (fun s p => raiseNotice p (.revoked b reason) (removeHolder b p s)) s)

/-- The head of the waiting list is an entry of port `p`. -/
def BankEntry.isHead (e : BankEntry) (p : Port) : Bool :=
  match e.waiting with
  | [] => false
  | w :: _ => decide (w.port = p)

/-- A port's waiting entry leaves a bank's list, `answered` places its answer, the contention deadline follows R22, and the serve rule runs
if the entry was the head (R33, R45, R51, R53, R154). -/
def withdrawWaiter (b : Bank) (p : Port) (answered : State → State) (s : State) : State :=
  let t := refreshContention b
    (answered (modBank b (fun e => { e with waiting := e.waiting.filter (fun w => !decide (w.port = p)) }) s))
  if (s.bank b).isHead p then serve b t else t

/-! ### Pressure, forcing and the balance -/

/-- A set enters pressure: RELEASE-REQUEST at each holder of each OPEN bank (R93). -/
def enterPressure (x : BankSet) (s : State) : State :=
  x.banks.foldl (fun s b =>
    if (s.bank b).state = .opened then
      (s.bank b).holderPorts.foldl (fun s p => raiseNotice p (.releaseRequest b) s) s
    else s) s

/-- A set is forced: every holder of every OPEN bank is revoked with reason REFRESH (R96). -/
def forceSet (x : BankSet) (s : State) : State :=
  x.banks.foldl (fun s b => if (s.bank b).state = .opened then revoke b (s.bank b).holderPorts .refresh s else s) s

/-- What a missed tick does beside the schedule: the flag, and a record at every ATTACHED port in port order (R88, R143). -/
def missTick (x : BankSet) (s : State) : State :=
  Port.all.foldl (fun s p => recordFault p { FaultRecord.bare .retentionLoss with set := some x } s)
    (modAccount x (fun c => { c with lossFlag := true }) s)

/-- A set's balance rises by one, by a tick or a wake completion, with pressure and forcing (R86, R92, R96, R98). -/
def raiseBalance (x : BankSet) (s : State) : State :=
  let old := (s.account x).balance
  if 8 ≤ old then missTick x s
  else
    let s1 := modAccount x (fun c => { c with balance := old + 1 }) s
    let s2 := if pressure s x = false ∧ pressure s1 x = true then enterPressure x s1 else s1
    if old = 5 then forceSet x s2 else s2

/-- URGENCY takes a value; pressure is re-evaluated for Set A, then Set B (R94, R98, R164). -/
def changeUrgency (v : Nat) (s : State) : State :=
  BankSet.all.foldl (fun t x =>
    if pressure s x = false ∧ pressure t x = true then enterPressure x t
    else if pressure s x = true ∧ pressure t x = false then serveBanks x.banks t
    else t) { s with settings := { s.settings with urgency := v } }

/-! ### The arbiter -/

/-- The set a class of STEP claimants gives: higher balance first, equal balances Set A first (R10). -/
def pickSet (s : State) (eligible : BankSet → Bool) : Option BankSet :=
  if eligible .a && eligible .b then
    if (s.account .a).balance < (s.account .b).balance then some .b else some .a
  else if eligible .a then some .a
  else if eligible .b then some .b
  else none

/-- The set's forced mark may be taken (R10 class 1). -/
def forcedEligible (s : State) (x : BankSet) : Bool :=
  decide ((s.account x).mark = .forced) && setClosed s x

/-- The retention state is WAKING. -/
def Retention.isWaking : Retention → Bool
  | .waking _ => true
  | _ => false

/-- The set's ordinary mark may be taken (R10 class 5). -/
def ordinaryEligible (s : State) (x : BankSet) : Bool :=
  setClosed s x && !s.retention.isWaking
    && (decide ((s.account x).mark = .opportunistic)
      || (decide ((s.account x).mark = .eager) && decide (s.retention ≠ .retained)))

/-- The ports in the order that begins with the one after `last` (R11). -/
def rotation : Port → List Port
  | .p0 => [.p1, .p2, .p3, .p0]
  | .p1 => [.p2, .p3, .p0, .p1]
  | .p2 => [.p3, .p0, .p1, .p2]
  | .p3 => [.p0, .p1, .p2, .p3]

/-- A CLOSE item. -/
def WorkItem.isClose : WorkItem → Bool
  | .close _ => true
  | _ => false

/-- An OPEN item. -/
def WorkItem.isOpen : WorkItem → Bool
  | .openRow .. => true
  | _ => false

/-- An XFER item of port `p`. -/
def WorkItem.isXferFor (p : Port) : WorkItem → Bool
  | .xfer x => decide (x.port = p)
  | _ => false

/-- The item the arbiter takes from the Array Work List: a CLOSE, else an XFER by rotation, else an OPEN, each oldest first (R10, R11). -/
def pickItem (s : State) : Option WorkItem :=
  match s.workList.find? WorkItem.isClose with
  | some w => some w
  | none =>
    match (rotation s.lastServed).findSome? (fun p => s.workList.find? (WorkItem.isXferFor p)) with
    | some w => some w
    | none => s.workList.find? WorkItem.isOpen

/-- The operation an item becomes when it starts, and its duration (R3 to R6); a write takes its staged lines with it (R74). -/
def operationOf (s : State) : WorkItem → Operation × Time
  | .openRow b r => (.openRow b r, Config.openCloseTime)
  | .close b => (.close b, Config.openCloseTime)
  | .xfer x =>
    (.xfer x (match x.dir with
      | .read => []
      | .write p tag _ => stagedLines s p tag), Config.xferTime x.count)

/-- Starts an item: it leaves the list and the path goes to BUSY (R9); a transfer's port becomes the last served (R11). -/
def startItem (w : WorkItem) (s : State) : State :=
  let o := operationOf s w
  { s with
    workList := s.workList.erase w
    path := some { op := o.1, completes := s.now + o.2 }
    lastServed := match w with
      | .xfer x => x.port
      | _ => s.lastServed }

/-- Starts a STEP: the set's banks go to REFRESHING and the row index is the sweep pointer (R13). -/
def startStep (x : BankSet) (forced : Bool) (s : State) : State :=
  { setStates x .refreshing s with
    path := some { op := .step x (s.account x).sweep forced, completes := s.now + Config.stepTime } }

/-- The arbiter selects if the path is IDLE (R9, R10). -/
def select (s : State) : State :=
  match s.path with
  | some _ => s
  | none =>
    match pickSet s (forcedEligible s) with
    | some x => startStep x true s
    | none =>
      match pickItem s with
      | some w => startItem w s
      | none =>
        match pickSet s (ordinaryEligible s) with
        | some x => startStep x false s
        | none => s

/-! ### What every event ends with -/

/-- Both sets' step-wanted marks are re-evaluated (R91). -/
def updateMarks (s : State) : State :=
  { s with accounts :=
    { a := { s.accounts.a with mark := markFor s .a }, b := { s.accounts.b with mark := markFor s .b } } }

/-- Raises a notice at every port in port order; the ports that are not ATTACHED discard it (R102, R108, R114). -/
def raiseEverywhere (n : Notice) (s : State) : State := Port.all.foldl (fun s p => raiseNotice p n s) s

/-- ENTERING with an IDLE path becomes RETAINED, with RETENTION (entered) at every ATTACHED port (R108). -/
def reachRetained (s : State) : State :=
  if s.retention = .entering ∧ s.path = none then raiseEverywhere (.retention false) { s with retention := .retained } else s

/-- The entry condition is evaluated (R107). With an IDLE path RETAINED is reached in the same event (R108), whose moment is kept for a wake
cause that falls together with it (R109; log entry 24). -/
def tryEnter (s : State) : State :=
  if entryCondition s then
    reachRetained { s with retention := .entering, entered := if s.path = none then some s.now else none }
  else s

/-- The closes of a warm reset are over when every bank is CLOSED or REFRESHING (R18, R41). -/
def updateCloses (s : State) : State := { s with resetCloses := s.resetCloses && !allBanksShut s }

/-- The end of every event: marks (R91), RETAINED at the end of ENTERING before the arbiter selects (R108), one selection (R9), and then
the entry condition (R107); log entry 12. -/
def finish (s : State) : State := updateCloses (tryEnter (select (reachRetained (updateMarks s))))

end Sys2Proof.Machine
end

