-- ==== Sys2Proof/Machine/AccessRequests.lean ====
section
/-!
DEFINITION. What the Access Engine does with READ and WRITE at their dispatch: the argument, lease and mode checks and the Write Check
(spec/04).
-/

namespace Sys2Proof.Machine

/-- The argument check of a READ or WRITE (R64 and R67, check 1). -/
def rangeGood (first : BitVec 5) (count : Nat) : Bool :=
  decide (1 ≤ count ∧ count ≤ 8 ∧ first.toNat + count ≤ Config.linesPerRow)

/-- The lease check (R68). -/
def holdsLease (s : State) (p : Port) (b : Bank) : Bool :=
  decide ((s.bank b).state = .opened) && (s.bank b).isHolder p

/-- A READ request (R64, R65). -/
def readRequest (p : Port) (tag : Tag) (b : Bank) (first : BitVec 5) (count : Nat) (s : State) : State :=
  if rangeGood first count = false then reply p tag .badArgument s
  else if holdsLease s p b = false then reply p tag .noLease s
  else placeWork (.xfer { bank := b, port := p, tag := tag, dir := .read, first := first.toNat, count := count }) s

/-- The number of the first failing line of the row, if a line is bad (R78). -/
def firstBadLine (first : Nat) (lines : List StagedLine) : Option Nat :=
  (lines.findIdx? (fun l => !l.good)).map (fun i => first + i)

/-- The guard fixed at the admission of the WRITE (R77); a WRITE that staged nothing has none, and none is needed. -/
def stagedGuard (s : State) (p : Port) (tag : Tag) : Bool :=
  (s.staging.filter (fun w => decide (w.port = p ∧ w.tag = tag))).all (fun w => w.guarded)

/-- The record the Write Check adds (R81). -/
def writeFault (k : FaultKind) (s : State) (b : Bank) (line : Nat) (tag : Tag) : FaultRecord :=
  { kind := k, bank := some b, row := (s.bank b).row, line := some line, tag := some tag, set := none }

/-- The Write Check and what follows it (R78 to R80). -/
def checkedWrite (p : Port) (tag : Tag) (b : Bank) (first : BitVec 5) (count : Nat) (s : State) : State :=
  let item (suspect : Bool) : WorkItem :=
    .xfer { bank := b, port := p, tag := tag, dir := .write p tag suspect, first := first.toNat, count := count }
  match firstBadLine first.toNat (stagedLines s p tag) with
  | none => placeWork (item false) s
  | some line =>
    if stagedGuard s p tag then
      reply p tag .rejected (recordFault p (writeFault .rejectedWrite s b line tag) (freeStaged p tag s))
    else recordFault p (writeFault .suspectWrite s b line tag) (placeWork (item true) s)

/-- A WRITE request (R67). -/
def writeRequest (p : Port) (tag : Tag) (b : Bank) (first : BitVec 5) (count : Nat) (s : State) : State :=
  if rangeGood first count = false then reply p tag .badArgument (freeStaged p tag s)
  else if holdsLease s p b = false then reply p tag .noLease (freeStaged p tag s)
  else if (s.bank b).mode ≠ some .write then reply p tag .wrongMode (freeStaged p tag s)
  else checkedWrite p tag b first count s

end Sys2Proof.Machine
end

