-- ==== Sys2Proof/Machine/LeaseRequests.lean ====
section
/-!
DEFINITION. What the Lease Manager does with the requests OPEN, RELEASE and CANCEL at their dispatch (spec/02, spec/03).
-/

namespace Sys2Proof.Machine

/-- A wait deadline set now (R50). -/
def waitDeadline (s : State) : Time := s.now + us s.settings.waitLimit

/-- The OPEN joins an OPEN bank (R26) or an OPENING bank (R27) in state `st`. -/
def mayJoin (s : State) (b : Bank) (row : Row) (mode : Mode) (st : BankState) : Bool :=
  let e := s.bank b
  decide (e.state = st ∧ e.mode = some .read ∧ e.row = some row ∧ mode = .read ∧ e.waiting = [])
    && !pressure s b.set

/-- The OPEN is granted on arrival (R25). -/
def mayGrant (s : State) (b : Bank) : Bool :=
  decide ((s.bank b).state = .closed ∧ (s.bank b).waiting = []) && !pressure s b.set

/-- An OPEN waits: an entry is appended to the list, and the serve rule runs if the list was empty (R28, R45). -/
def openWaits (p : Port) (tag : Tag) (b : Bank) (row : Row) (mode : Mode) (s : State) : State :=
  let e := s.bank b
  let w : Waiter := { port := p, tag := tag, row := row, mode := mode, deadline := waitDeadline s }
  let s1 := refreshContention b (s.setBank b { e with waiting := e.waiting ++ [w] })
  if e.waiting = [] then serve b s1 else s1

/-- An OPEN request at its arrival at the Lease Manager (R23 to R28). -/
def openRequest (p : Port) (tag : Tag) (b : Bank) (row : Row) (mode : Mode) (s : State) : State :=
  let e := s.bank b
  if covered s p b row mode = false then answer p tag .denied (bankByte b) 0 [] s
  else if e.involves p then reply p tag .duplicate s
  else if s.settings.leaseLimit.get p ≤ leaseCount s p then reply p tag .limit s
  else if mayGrant s b then
    startOpening b row mode [{ port := p, tag := tag, carried := waitDeadline s }] [] s
  else if mayJoin s b row mode .opened then grant b .read p tag s
  else if mayJoin s b row mode .opening then
    s.setBank b { e with grantees := e.grantees ++ [{ port := p, tag := tag, carried := waitDeadline s }] }
  else openWaits p tag b row mode s

/-- A RELEASE request (R30, R31). -/
def releaseRequest (p : Port) (tag : Tag) (b : Bank) (s : State) : State :=
  if (s.bank b).state = .opened ∧ (s.bank b).isHolder p = true then
    drainIfEmpty b (reply p tag .ok (removeHolder b p s))
  else reply p tag .noLease s

/-- The bank whose waiting list has an entry of `p` with tag `t` (R53 case 1). -/
def waitingOpen (s : State) (p : Port) (t : Tag) : Option Bank :=
  Bank.all.find? (fun b => (s.bank b).waiting.any (fun w => decide (w.port = p ∧ w.tag = t)))

/-- `p` is a pending grantee with tag `t`, or a holder with grant tag `t`, of some bank (R53 cases 2 and 3). -/
def grantedOpen (s : State) (p : Port) (t : Tag) : Bool :=
  Bank.all.any (fun b =>
    (s.bank b).grantees.any (fun g => decide (g.port = p ∧ g.tag = t)) || decide ((s.bank b).holders.get p = some t))

/-- A CANCEL request (R53); a target of 40h to FFh matches nothing (R168). -/
def cancelRequest (p : Port) (tag : Tag) (target : Byte) (s : State) : State :=
  if 64 ≤ target.toNat then reply p tag .notFound s
  else
    let t : Tag := target.extractLsb' 0 6
    match waitingOpen s p t with
    | some b => reply p tag .ok (withdrawWaiter b p (answer p t .cancelled (bankByte b) 0 []) s)
    | none => reply p tag (if grantedOpen s p t then .tooLate else .notFound) s

end Sys2Proof.Machine
end

