-- ==== Sys2Proof/Machine/SettingsRequests.lean ====
section
/-!
DEFINITION. What the Settings Table and Claim does with CLAIM, UNCLAIM, SET, GET and WINDOW (spec/09, spec/10), and CLEAR-FAULTS
(spec/08).
-/

namespace Sys2Proof.Machine

/-! ### The configuration claim -/

/-- The expiry time of a claim taken or renewed now (R158). -/
def claimExpiryTime (s : State) : Time := s.now + ms s.settings.claimLimit

/-- A CLAIM request (R158). -/
def claimRequest (p : Port) (tag : Tag) (s : State) : State :=
  if claimRefusal s p = some .claimed then reply p tag .claimed s
  else reply p tag .ok { s with claim := some { holder := p, expires := claimExpiryTime s } }

/-- An UNCLAIM request (R159). -/
def unclaimRequest (p : Port) (tag : Tag) (s : State) : State :=
  if claimRefusal s p = none then reply p tag .ok { s with claim := none } else reply p tag .notClaimed s

/-! ### SET: the nine settings (R162, R171) -/

/-- Stores a setting; none where the port or the value is out of range (R163 checks 3 and 4). -/
def storeLeaseLimit (target v : Nat) (s : State) : Option State :=
  match Port.ofNat? target with
  | none => none
  | some q =>
    if 1 ≤ v ∧ v ≤ 8 then some { s with settings := { s.settings with leaseLimit := s.settings.leaseLimit.set q v } } else none

/-- GUARD[p]: 0 GUARDED, 1 UNGUARDED. -/
def storeGuard (target v : Nat) (s : State) : Option State :=
  match Port.ofNat? target with
  | none => none
  | some q =>
    if v ≤ 1 then some { s with settings := { s.settings with guarded := s.settings.guarded.set q (v == 0) } } else none

/-- WAIT-LIMIT in µs. -/
def storeWaitLimit (v : Nat) (s : State) : Option State :=
  if 1 ≤ v ∧ v ≤ 10000 then some { s with settings := { s.settings with waitLimit := v } } else none

/-- HOLD-LIMIT in µs. -/
def storeHoldLimit (v : Nat) (s : State) : Option State :=
  if 1 ≤ v ∧ v ≤ 10000 then some { s with settings := { s.settings with holdLimit := v } } else none

/-- URGENCY; it acts in the SET event (R164). -/
def storeUrgency (v : Nat) (s : State) : Option State :=
  if 2 ≤ v ∧ v ≤ 5 then some (changeUrgency v s) else none

/-- EAGER; the marks are re-evaluated at the end of the event (R164). -/
def storeEager (v : Nat) (s : State) : Option State :=
  if v ≤ 1 then some { s with settings := { s.settings with eager := v == 1 } } else none

/-- QUICK-WAKE. -/
def storeQuickWake (v : Nat) (s : State) : Option State :=
  if v ≤ 1 then some { s with settings := { s.settings with quickWake := v == 1 } } else none

/-- AUTO-RETAIN; the entry condition is evaluated at the end of the event (R164). -/
def storeAutoRetain (v : Nat) (s : State) : Option State :=
  if v ≤ 1 then some { s with settings := { s.settings with autoRetain := v == 1 } } else none

/-- CLAIM-LIMIT in ms. -/
def storeClaimLimit (v : Nat) (s : State) : Option State :=
  if 1 ≤ v ∧ v ≤ 1000 then some { s with settings := { s.settings with claimLimit := v } } else none

/-- Checks 2 to 4 of R163 and the effects of R164. For the device-wide settings the port field is not examined. -/
def storeSetting (target : BitVec 3) (ident : Byte) (value : BitVec 32) (s : State) : Option State :=
  match ident.toNat with
  | 1 => storeLeaseLimit target.toNat value.toNat s
  | 2 => storeGuard target.toNat value.toNat s
  | 3 => storeWaitLimit value.toNat s
  | 4 => storeHoldLimit value.toNat s
  | 5 => storeUrgency value.toNat s
  | 6 => storeEager value.toNat s
  | 7 => storeQuickWake value.toNat s
  | 8 => storeAutoRetain value.toNat s
  | 9 => storeClaimLimit value.toNat s
  | _ => none

/-- A SET request (R163); a malformed payload is answered BAD-ARGUMENT after the claim check (R169). -/
def setRequest (p : Port) (tag : Tag) (target : BitVec 3) (ident : Byte) (value : Option (BitVec 32)) (s : State) : State :=
  match claimRefusal s p with
  | some r => reply p tag r s
  | none =>
    match value.bind (fun v => storeSetting target ident v s) with
    | some t => reply p tag .ok t
    | none => reply p tag .badArgument s

/-! ### GET (R166) -/

/-- The value of a device-wide setting. -/
def deviceSetting (st : Settings) : Nat → Option Nat
  | 3 => some st.waitLimit
  | 4 => some st.holdLimit
  | 5 => some st.urgency
  | 6 => some st.eager.toNat
  | 7 => some st.quickWake.toNat
  | 8 => some st.autoRetain.toNat
  | 9 => some st.claimLimit
  | _ => none

/-- The answer payload of a GET; none where the identifier, port or index names nothing (R166, R168, R171). -/
def getPayload (s : State) (target : BitVec 3) (ident : Byte) : Option (List Byte) :=
  let port := Port.ofNat? target.toNat
  match ident.toNat with
  | 1 => port.map (fun q => bytes4 (s.settings.leaseLimit.get q))
  | 2 => port.map (fun q => bytes4 (if s.settings.guarded.get q then 0 else 1))
  | n =>
    if 16 ≤ n then
      match port, WindowIndex.ofNat? (n - 16) with
      | some q, some i => some (windowPayload ((s.windows.get q).get i))
      | _, _ => none
    else (deviceSetting s.settings n).map bytes4

/-- A GET request (R166). -/
def getRequest (p : Port) (tag : Tag) (target : BitVec 3) (ident : Byte) (s : State) : State :=
  match getPayload s target ident with
  | some payload => answer p tag .ok ident 0 payload s
  | none => reply p tag .badArgument s

/-! ### WINDOW (spec/09) -/

/-- Check 3 of R151 on a record, and the window it writes: some none is an invalid window. -/
def checkedWindow (r : WindowRecord) : Option (Option Window) :=
  if r.valid = false then some none
  else if r.firstBank.toNat ≤ r.lastBank.toNat ∧ r.lastBank.toNat ≤ 7 ∧ r.firstRow.toNat ≤ r.lastRow.toNat
      ∧ r.lastRow.toNat ≤ 8191 ∧ r.rights.toNat ≤ 1 then
    some (some { firstBank := r.firstBank.toNat, lastBank := r.lastBank.toNat, firstRow := r.firstRow.toNat
                 lastRow := r.lastRow.toNat, write := r.rights.toNat == 1 })
  else none

/-- The bank's row and mode are covered for `t`; a bank with neither has nothing to cover. -/
def bankCovered (s : State) (t : Port) (b : Bank) : Bool :=
  match (s.bank b).row, (s.bank b).mode with
  | some r, some m => covered s t b r m
  | _, _ => true

/-- A window change at one bank: what port `t` has there and is no longer covered goes (R154). -/
def windowChangeAt (t : Port) (s : State) (b : Bank) : State :=
  let e := s.bank b
  if e.isHolder t then
    if bankCovered s t b then s else revoke b [t] .window s
  else
    match e.grantees.find? (fun g => decide (g.port = t)) with
    | some g =>
      if bankCovered s t b then s
      else answer t g.tag .denied (bankByte b) 0 []
        (s.setBank b { e with grantees := e.grantees.filter (fun g => !decide (g.port = t)) })
    | none =>
      match e.waiting.find? (fun w => decide (w.port = t)) with
      | some w =>
        if covered s t b w.row w.mode then s else withdrawWaiter b t (answer t w.tag .denied (bankByte b) 0 []) s
      | none => s

/-- The Lease Manager applies a window change to port `t`, banks in order (R154). -/
def applyWindowChange (t : Port) (s : State) : State := Bank.all.foldl (windowChangeAt t) s

/-- A WINDOW request (R151, R152); the OK is placed last. -/
def windowRequest (p : Port) (tag : Tag) (target : BitVec 3) (index : Byte) (record : Option WindowRecord) (s : State) : State :=
  match claimRefusal s p with
  | some r => reply p tag r s
  | none =>
    match record, Port.ofNat? target.toNat, WindowIndex.ofNat? index.toNat with
    | some rec, some t, some i =>
      match checkedWindow rec with
      | some w =>
        reply p tag .ok (applyWindowChange t { s with windows := s.windows.set t ((s.windows.get t).set i w) })
      | none => reply p tag .badArgument s
    | _, _, _ => reply p tag .badArgument s

/-! ### CLEAR-FAULTS (R145, R146) -/

/-- Clears a set's retention-loss flag; if it was set, what the set holds is no longer known (log entry 9). -/
def clearLoss (x : BankSet) (s : State) : State :=
  if (s.account x).lossFlag then forgetContents x (modAccount x (fun c => { c with lossFlag := false }) s) else s

/-- A CLEAR-FAULTS request. -/
def clearFaultsRequest (p : Port) (tag : Tag) (scope : BitVec 2) (s : State) : State :=
  match scope.toNat with
  | 0 => reply p tag .ok (modPort p (fun q => { q with faults := [], overflow := false }) s)
  | 1 =>
    match claimRefusal s p with
    | some r => reply p tag r s
    | none => reply p tag .ok (clearLoss .b (clearLoss .a s))
  | _ => reply p tag .badArgument s

end Sys2Proof.Machine
end

