-- ==== Sys2Proof/Machine/StatusRequests.lean ====
section
/-!
DEFINITION. The five STATUS items and their payloads (R132, R174).
-/

namespace Sys2Proof.Machine

/-- PORTS: four bytes for each port. -/
def portsPayload (s : State) : List Byte :=
  Port.all.flatMap (fun p =>
    let q := s.port p
    [q.session.code, q.epoch, byteOfBool q.vote, 0])

/-- The holder map of a bank: the holders, or the pending grantees in OPENING (R174). -/
def holderMap (e : BankEntry) : Byte :=
  let has (p : Port) : Bool := if e.state = .opening then e.isGrantee p else e.isHolder p
  (if has .p0 then 1 else 0) ||| (if has .p1 then 2 else 0) ||| (if has .p2 then 4 else 0) ||| (if has .p3 then 8 else 0)

/-- A bank's six bytes of BANKS. -/
def bankPayload (e : BankEntry) : List Byte :=
  [e.state.code]
    ++ (match e.row with
        | some r => bytes2 r.toNat
        | none => [0xFF, 0xFF])
    ++ [match e.mode with
        | some m => modeCode m
        | none => 0xFF]
    ++ [holderMap e, byteOf e.waiting.length]

/-- BANKS: six bytes for each bank. -/
def banksPayload (s : State) : List Byte := Bank.all.flatMap (fun b => bankPayload (s.bank b))

/-- A signed byte, two's complement (R174). -/
def signedByte (i : Int) : Byte := BitVec.ofInt 8 i

/-- A set's eight bytes of REFRESH; the time to a tick that is overdue is 0 (log entry 19). -/
def accountPayload (now : Time) (c : Account) : List Byte :=
  [signedByte c.balance] ++ bytes2 c.sweep.toNat ++ bytes2 ((c.nextTick - now) / ns 1) ++ [byteOfBool c.lossFlag, 0, 0]

/-- REFRESH: both accounts, the band, the last temperature and the retention state. -/
def refreshPayload (s : State) : List Byte :=
  accountPayload s.now (s.account .a) ++ accountPayload s.now (s.account .b)
    ++ [s.band.code, signedByte s.lastTemp, s.retention.code, 0]

/-- FAULTS: the asking port's records and overflow mark. -/
def faultsPayload (q : PortState) : List Byte :=
  [byteOf q.faults.length, byteOfBool q.overflow] ++ q.faults.flatMap FaultRecord.bytes

/-- CLAIM: the holder and the claim time remaining. -/
def claimPayload (s : State) : List Byte :=
  match s.claim with
  | none => [0xFF, 0, 0, 0, 0, 0, 0, 0]
  | some h => [byteOf h.holder.toNat] ++ bytes4 ((h.expires - s.now) / us 1) ++ [0, 0, 0]

/-- A STATUS request: the item is read and reported in one event; an item byte that names nothing is answered BAD-ARGUMENT (R132). -/
def statusRequest (p : Port) (tag : Tag) (item : Byte) (s : State) : State :=
  match item.toNat with
  | 1 => answer p tag .report item 0 (portsPayload s) s
  | 2 => answer p tag .report item 0 (banksPayload s) s
  | 3 => answer p tag .report item 0 (refreshPayload s) s
  | 4 => answer p tag .report item 0 (faultsPayload (s.port p)) s
  | 5 => answer p tag .report item 0 (claimPayload s) s
  | _ => reply p tag .badArgument s

end Sys2Proof.Machine
end

