-- ==== Sys2Proof/Machine/Router.lean ====
section
/-!
DEFINITION. Sessions and port cleanup, the Request Router's dispatch, and the admission of packets (spec/07, with the wake causes of
spec/06).
-/

namespace Sys2Proof.Machine

/-! ### Port cleanup (R123) -/

/-- The transfers of port `p` on bank `b` in the Array Work List. -/
def WorkItem.isXferOfAt (p : Port) (b : Bank) : WorkItem → Bool
  | .xfer x => decide (x.port = p ∧ x.bank = b)
  | _ => false

/-- Frees the staged lines of the write an item carries (R17). -/
def freeItem (s : State) : WorkItem → State
  | .xfer { dir := .write p tag _, .. } => freeStaged p tag s
  | _ => s

/-- Removes the XFER items of port `p` on bank `b`, and frees the staged lines of each removed write (R17). -/
def removeXfers (p : Port) (b : Bank) (s : State) : State :=
  (s.workList.filter (WorkItem.isXferOfAt p b)).foldl freeItem
    { s with workList := s.workList.filter (fun w => !w.isXferOfAt p b) }

/-- Cleanup of `p` at one bank: its transfers, then its holding, pending grant and waiting entry; then the bank drains, settles or is
served (R17, R33; log entry 14). -/
def cleanupBank (p : Port) (s : State) (b : Bank) : State :=
  let s1 := removeHolder b p (removeXfers p b s)
  let s2 := modBank b (fun e => { e with grantees := e.grantees.filter (fun g => !decide (g.port = p)) }) s1
  settle b (drainIfEmpty b (withdrawWaiter b p id s2))

/-- Frees the staged lines of a WRITE of port `p` in the ingress queue (R123). -/
def freeQueued (p : Port) (s : State) (r : Request) : State :=
  match r.body with
  | .writeLines .. => freeStaged p r.tag s
  | _ => s

/-- Removes port `p`'s ingress queue, freeing the staged lines of its WRITEs (R118, R123). -/
def dropIngress (p : Port) (s : State) : State :=
  modPort p (fun q => { q with ingress := [] }) ((s.port p).ingress.foldl (freeQueued p) s)

/-- Frees the claim if port `p` holds it (R161). -/
def dropClaim (p : Port) (s : State) : State :=
  match s.claim with
  | some h => if h.holder = p then { s with claim := none } else s
  | none => s

/-- Port cleanup (R123). `kept` is the DETACH being taken, which stays in flight. -/
def cleanup (p : Port) (kept : Option Tag) (s : State) : State :=
  let s1 := dropClaim p (dropIngress p (Bank.all.foldl (cleanupBank p) s))
  modPort p (fun q => { q with
    vote := false, notices := [], outbox := [], inFlight := kept.toList
    detachTag := if pathXferFor s1 p then kept else none
    session := if pathXferFor s1 p then .detaching else .detached }) s1

/-! ### ATTACH and DETACH -/

/-- An ATTACH of a DETACHED port (R121). -/
def attachPort (p : Port) (tag : Tag) (s : State) : State :=
  let s1 := modPort p (fun q => { q with epoch := q.epoch + 1, faults := [], overflow := false, session := .attached }) s
  answer p tag .ok (byteOf p.toNat) 0 [] s1

/-- A DETACH of an ATTACHED port (R122). -/
def detachPort (p : Port) (tag : Tag) (s : State) : State :=
  let s1 := cleanup p (some tag) s
  if (s1.port p).session = .detached then reply p tag .ok s1 else s1

/-- The end of a port's DETACHING (R124): it goes to DETACHED, and a DETACH still in flight is answered OK. -/
def endDetaching (p : Port) (s : State) : State :=
  let q := s.port p
  if q.session = .detaching then
    let s1 := s.setPort p { q with session := .detached, detachTag := none }
    match q.detachTag with
    | some tag => reply p tag .ok s1
    | none => s1
  else s

/-! ### Dispatch (R129) -/

/-- The owner of a request of an ATTACHED port takes it. -/
def toOwner (p : Port) (r : Request) (s : State) : State :=
  match r.body with
  | .attach => reply p r.tag .badState s
  | .detach => detachPort p r.tag s
  | .openRow b row mode => openRequest p r.tag b row mode s
  | .release b => releaseRequest p r.tag b s
  | .cancel target => cancelRequest p r.tag target s
  | .readLines b first count => readRequest p r.tag b first count s
  | .writeLines b _ first count => writeRequest p r.tag b first count s
  | .hold => reply p r.tag .ok s
  | .status item => statusRequest p r.tag item s
  | .claim => claimRequest p r.tag s
  | .unclaim => unclaimRequest p r.tag s
  | .setSetting target ident value => setRequest p r.tag target ident value s
  | .getSetting target ident => getRequest p r.tag target ident s
  | .window target index record => windowRequest p r.tag target index record s
  | .clearFaults scope => clearFaultsRequest p r.tag scope s

/-- The session gate of a DETACHED port: ATTACH and STATUS are taken, everything else is answered NOT-ATTACHED, and a WRITE's staged lines
are freed. -/
def atDetached (p : Port) (r : Request) (s : State) : State :=
  match r.body with
  | .attach => attachPort p r.tag s
  | .status item => statusRequest p r.tag item s
  | .writeLines .. => reply p r.tag .notAttached (freeStaged p r.tag s)
  | _ => reply p r.tag .notAttached s

/-- A request leaves port `p`'s ingress queue. -/
def unqueue (p : Port) (r : Request) (s : State) : State := modPort p (fun q => { q with ingress := q.ingress.erase r }) s

/-- The session gate: the request goes to its owner at an ATTACHED port (R129). -/
def gate (p : Port) (r : Request) (s : State) : State :=
  if (s.port p).session = .attached then toOwner p r s else atDetached p r s

/-- Dispatches a request that waits in port `p`'s ingress queue (R129). -/
def dispatch (p : Port) (r : Request) (s : State) : State := gate p r (unqueue p r s)

/-- The Request Router may dispatch the first request of port `p`'s queue: in ACTIVE and ENTERING (R129); a DETACHING port has none
(R124). -/
def routerRuns (s : State) (p : Port) : Bool :=
  decide (s.retention = .active ∨ s.retention = .entering) && decide ((s.port p).session ≠ .detaching)

/-- The first request of port `p`'s queue is dispatched, if the Router may, in an event of its own (R129). -/
def dispatchNext (p : Port) (s : State) : State :=
  match (s.port p).ingress with
  | [] => s
  | r :: _ => if routerRuns s p then finish (dispatch p r s) else s

/-- Port `p`'s queue is dispatched, at most `n` requests of it: each immediately after the one before it, at the same time (R129). -/
def runQueue (p : Port) : Nat → State → State
  | 0, s => s
  | n + 1, s => runQueue p n (dispatchNext p s)

/-- Dispatch resumes with every request that waits (R114, R129); the ports one after the other, P0 first (log entry 5). -/
def resumeDispatch (s : State) : State := Port.all.foldl (fun s p => runQueue p (s.port p).ingress.length s) s

/-! ### Waking (R112) -/

/-- The ordinary STEP in progress is abandoned: its banks go to CLOSED and are served, balance and pointer unchanged (R15). -/
def abandonStep (s : State) : State :=
  match s.path with
  | some { op := .step x _ false, .. } =>
    serveBanks x.banks { setStates x .closed s with path := none }
  | _ => s

/-- A wake cause in RETAINED (R112). -/
def beginWake (s : State) : State :=
  if s.settings.quickWake then abandonStep { s with retention := .waking (s.now + Config.quickWake) }
  else { s with retention := .waking (s.now + Config.fullWake) }

/-! ### Admission (R125 to R128) -/

/-- The lines of an admitted WRITE are staged, and its guard is fixed (R72, R77); a WRITE of decoded count 0 stages nothing. -/
def stage (p : Port) (r : Request) (lines : List StagedLine) (s : State) : State :=
  match r.body with
  | .writeLines _ masked _ _ =>
    if lines = [] then s
    else { s with staging := s.staging ++
      [{ port := p, tag := r.tag, guarded := masked || s.settings.guarded.get p, lines := lines }] }
  | _ => s

/-- The vote of an ATTACHED port after the admission of a request (R106, R127). -/
def voteAfter (vote : Bool) : Body → Bool
  | .hold => true
  | .status _ => vote
  | _ => false

/-- Steps 1 to 4 of R127. -/
def enqueue (p : Port) (r : Request) (lines : List StagedLine) (s : State) : State :=
  modPort p (fun q => { q with
    inFlight := q.inFlight ++ [r.tag]
    vote := if q.session = .attached then voteAfter q.vote r.body else q.vote
    ingress := q.ingress ++ [r] }) (stage p r lines s)

/-- The request is a STATUS. -/
def Body.isStatus : Body → Bool
  | .status _ => true
  | _ => false

/-- The state after steps 1 to 5 of R127, the retention state acted on as R108, R109 and R112 state for a wake cause. -/
def admitted (p : Port) (r : Request) (lines : List StagedLine) (s : State) : State :=
  let s1 := enqueue p r lines s
  if wakeCause s p r.body = false then s1
  else match retentionAtAdmission s with
    | .entering => { s1 with retention := .active }
    | .retained => beginWake s1
    | _ => s1

/-- An admitted request is dispatched in its admission event (R127 step 6): in ACTIVE and ENTERING to an empty queue (R129), in RETAINED if it is
no wake cause (R111), and in WAKING if it is a STATUS (R113). One that falls together with the entry is dispatched as in ENTERING (R109). -/
def dispatchedAtOnce (s : State) (p : Port) (r : Request) : Bool :=
  match retentionAtAdmission s with
  | .waking _ => r.body.isStatus
  | .retained => !wakeCause s p r.body && (s.port p).ingress.isEmpty
  | _ => (s.port p).ingress.isEmpty

/-- The admission event of a request (R127). -/
def admission (p : Port) (r : Request) (lines : List StagedLine) (s : State) : State :=
  let s1 := admitted p r lines s
  if dispatchedAtOnce s p r then dispatch p r s1 else s1

/-- A WRITE's staging room is tested with its decoded count (R72). -/
def hasRoom (s : State) (p : Port) (r : Request) : Bool :=
  match r.body with
  | .writeLines _ _ _ count => stagingRoom s p count
  | _ => true

/-- Checks 3 to 5 of R125: the code a request is refused with, if it is not admitted. -/
def admissionRefusal (s : State) (p : Port) (r : Request) : Option Result :=
  if r.tag ∈ (s.port p).inFlight then some .dupTag
  else if Config.responsePlaces ≤ (s.port p).placesTaken then some .full
  else if hasRoom s p r = false then some .full
  else none

/-- The port link takes packets: its link is UP (R117) and it is not DETACHING (R124). -/
def takesPackets (s : State) (p : Port) : Bool :=
  decide ((s.port p).link = .up ∧ (s.port p).session ≠ .detaching)

/-- A packet arrives at port `p` (R125). -/
def arrive (p : Port) (a : Arrival) (s : State) : State :=
  if takesPackets s p = false then s
  else match a with
    | .damaged => recordFault p (FaultRecord.bare .header) s
    | .noKind tag => refuse p tag .badKind s
    | .request r lines =>
      match admissionRefusal s p r with
      | some res => refuse p r.tag res s
      | none => admission p r lines s

/-- A request command: the arrival of its packet, which is dispatched in this event where the rules say so (log entry 4). -/
def requestEvent (t : Time) (p : Port) (r : Request) (lines : List StagedLine) (s : State) : State :=
  finish (arrive p (.request r lines) (advance t s))

/-- The state in which a request command's request goes through the session gate, if it is admitted and dispatched in this event (R127). -/
def atDispatch (t : Time) (p : Port) (r : Request) (lines : List StagedLine) (s : State) : Option State :=
  let s1 := advance t s
  if takesPackets s1 p && (admissionRefusal s1 p r).isNone && dispatchedAtOnce s1 p r then
    some (unqueue p r (admitted p r lines s1))
  else none

end Sys2Proof.Machine
end

