-- ==== Sys2Proof/Machine/RequestCommands.lean ====
section
/-!
DEFINITION. The request rows of the table, ATTACH to CLEAR_FAULTS_RETENTION, and PACKET_ARRIVAL: each is one request event of its port
(Router.lean), whose owner's rule is the row's.
-/

namespace Sys2Proof.Machine

/-- What every command ends in. -/
abbrev Outcome := Host.Outcome State Fault Refusal

/-- PACKET_ARRIVAL (R125). -/
def execPacketArrival (t : Time) (p : Port) (bytes : List Byte) (s : State) : Outcome :=
  .next (finish (arrive p (decodePacket bytes) (advance t s)))

/-- ATTACH (R121). -/
def execAttach (t : Time) (p : Port) (tag : Tag) (s : State) : Outcome := .next (requestEvent t p ⟨tag, .attach⟩ [] s)

/-- DETACH (R122). -/
def execDetach (t : Time) (p : Port) (tag : Tag) (s : State) : Outcome := .next (requestEvent t p ⟨tag, .detach⟩ [] s)

/-- OPEN (R23). -/
def execOpenRow (t : Time) (p : Port) (tag : Tag) (bank : Bank) (row : Row) (mode : Mode) (s : State) : Outcome :=
  .next (requestEvent t p ⟨tag, .openRow bank row mode⟩ [] s)

/-- RELEASE (R30). -/
def execRelease (t : Time) (p : Port) (tag : Tag) (bank : Bank) (s : State) : Outcome :=
  .next (requestEvent t p ⟨tag, .release bank⟩ [] s)

/-- CANCEL (R53). -/
def execCancel (t : Time) (p : Port) (tag : Tag) (target : Byte) (s : State) : Outcome :=
  .next (requestEvent t p ⟨tag, .cancel target⟩ [] s)

/-- READ (R64). -/
def execReadLines (t : Time) (p : Port) (tag : Tag) (bank : Bank) (first : BitVec 5) (countLess1 : BitVec 3) (s : State) : Outcome :=
  .next (requestEvent t p ⟨tag, .readLines bank first (countLess1.toNat + 1)⟩ [] s)

/-- WRITE (R67). -/
def execWriteLines (t : Time) (p : Port) (tag : Tag) (bank : Bank) (masked : Bool) (first : BitVec 5) (countLess1 : BitVec 3)
    (payload : List Byte) (s : State) : Outcome :=
  let w := writeBody bank masked first countLess1 payload
  .next (requestEvent t p ⟨tag, w.1⟩ w.2 s)

/-- HOLD (R106). -/
def execHold (t : Time) (p : Port) (tag : Tag) (s : State) : Outcome := .next (requestEvent t p ⟨tag, .hold⟩ [] s)

/-- STATUS naming PORTS (R132). -/
def execStatusPorts (t : Time) (p : Port) (tag : Tag) (s : State) : Outcome := .next (requestEvent t p ⟨tag, .status 1⟩ [] s)

/-- STATUS naming BANKS (R132). -/
def execStatusBanks (t : Time) (p : Port) (tag : Tag) (s : State) : Outcome := .next (requestEvent t p ⟨tag, .status 2⟩ [] s)

/-- STATUS naming REFRESH (R132). -/
def execStatusRefresh (t : Time) (p : Port) (tag : Tag) (s : State) : Outcome := .next (requestEvent t p ⟨tag, .status 3⟩ [] s)

/-- STATUS naming FAULTS (R132). -/
def execStatusFaults (t : Time) (p : Port) (tag : Tag) (s : State) : Outcome := .next (requestEvent t p ⟨tag, .status 4⟩ [] s)

/-- STATUS naming CLAIM (R132). -/
def execStatusClaim (t : Time) (p : Port) (tag : Tag) (s : State) : Outcome := .next (requestEvent t p ⟨tag, .status 5⟩ [] s)

/-- CLAIM (R158). -/
def execClaim (t : Time) (p : Port) (tag : Tag) (s : State) : Outcome := .next (requestEvent t p ⟨tag, .claim⟩ [] s)

/-- UNCLAIM (R159). -/
def execUnclaim (t : Time) (p : Port) (tag : Tag) (s : State) : Outcome := .next (requestEvent t p ⟨tag, .unclaim⟩ [] s)

/-- SET of LEASE-LIMIT, identifier 01h (R163, R171). -/
def execSetLeaseLimit (t : Time) (p : Port) (tag : Tag) (target : BitVec 3) (value : BitVec 32) (s : State) : Outcome :=
  .next (requestEvent t p ⟨tag, .setSetting target 1 (some value)⟩ [] s)

/-- SET of GUARD, identifier 02h (R163, R171). -/
def execSetGuard (t : Time) (p : Port) (tag : Tag) (target : BitVec 3) (value : BitVec 32) (s : State) : Outcome :=
  .next (requestEvent t p ⟨tag, .setSetting target 2 (some value)⟩ [] s)

/-- SET of WAIT-LIMIT, identifier 03h (R163, R171). -/
def execSetWaitLimit (t : Time) (p : Port) (tag : Tag) (target : BitVec 3) (value : BitVec 32) (s : State) : Outcome :=
  .next (requestEvent t p ⟨tag, .setSetting target 3 (some value)⟩ [] s)

/-- SET of HOLD-LIMIT, identifier 04h (R163, R171). -/
def execSetHoldLimit (t : Time) (p : Port) (tag : Tag) (target : BitVec 3) (value : BitVec 32) (s : State) : Outcome :=
  .next (requestEvent t p ⟨tag, .setSetting target 4 (some value)⟩ [] s)

/-- SET of URGENCY, identifier 05h (R164, R171). -/
def execSetUrgency (t : Time) (p : Port) (tag : Tag) (target : BitVec 3) (value : BitVec 32) (s : State) : Outcome :=
  .next (requestEvent t p ⟨tag, .setSetting target 5 (some value)⟩ [] s)

/-- SET of EAGER, identifier 06h (R164, R171). -/
def execSetEager (t : Time) (p : Port) (tag : Tag) (target : BitVec 3) (value : BitVec 32) (s : State) : Outcome :=
  .next (requestEvent t p ⟨tag, .setSetting target 6 (some value)⟩ [] s)

/-- SET of QUICK-WAKE, identifier 07h (R163, R171). -/
def execSetQuickWake (t : Time) (p : Port) (tag : Tag) (target : BitVec 3) (value : BitVec 32) (s : State) : Outcome :=
  .next (requestEvent t p ⟨tag, .setSetting target 7 (some value)⟩ [] s)

/-- SET of AUTO-RETAIN, identifier 08h (R164, R171). -/
def execSetAutoRetain (t : Time) (p : Port) (tag : Tag) (target : BitVec 3) (value : BitVec 32) (s : State) : Outcome :=
  .next (requestEvent t p ⟨tag, .setSetting target 8 (some value)⟩ [] s)

/-- SET of CLAIM-LIMIT, identifier 09h (R163, R171). -/
def execSetClaimLimit (t : Time) (p : Port) (tag : Tag) (target : BitVec 3) (value : BitVec 32) (s : State) : Outcome :=
  .next (requestEvent t p ⟨tag, .setSetting target 9 (some value)⟩ [] s)

/-- GET of a setting (R166). -/
def execGetSetting (t : Time) (p : Port) (tag : Tag) (target : BitVec 3) (ident : Byte) (s : State) : Outcome :=
  .next (requestEvent t p ⟨tag, .getSetting target ident⟩ [] s)

/-- GET of a window, identifiers 10h to 13h (R166, R168). -/
def execGetWindow (t : Time) (p : Port) (tag : Tag) (target : BitVec 3) (index : BitVec 2) (s : State) : Outcome :=
  .next (requestEvent t p ⟨tag, .getSetting target (16 + index.setWidth 8)⟩ [] s)

/-- WINDOW (R152). -/
def execWindow (t : Time) (p : Port) (tag : Tag) (target : BitVec 3) (index : Byte) (record : WindowRecord) (s : State) : Outcome :=
  .next (requestEvent t p ⟨tag, .window target index (some record)⟩ [] s)

/-- CLEAR-FAULTS with scope own (R145). -/
def execClearFaultsOwn (t : Time) (p : Port) (tag : Tag) (s : State) : Outcome :=
  .next (requestEvent t p ⟨tag, .clearFaults 0⟩ [] s)

/-- CLEAR-FAULTS with scope retention (R146). -/
def execClearFaultsRetention (t : Time) (p : Port) (tag : Tag) (s : State) : Outcome :=
  .next (requestEvent t p ⟨tag, .clearFaults 1⟩ [] s)

end Sys2Proof.Machine
end

