-- ==== Sys2Proof/Machine/ArrayCommands.lean ====
section
/-!
DEFINITION. The completions of the array operations (R12). A completion is taken at the completion time of the record; where the path is
not BUSY with such an operation the event does not occur (log entry 3).
-/

namespace Sys2Proof.Machine

/-- The path becomes IDLE. -/
def freePath (s : State) : State := { s with path := none }

/-- The bank's array open row changes (R4, R5). -/
def setOpenRow (b : Bank) (r : Option Row) (s : State) : State := { s with openRows := s.openRows.set b r }

/-- The grant stands (R34). -/
def grantStands (b : Bank) (s : State) : State :=
  let e := s.bank b
  serve b (refreshContention b
    (grantAll b (e.mode.getD .read) (e.grantees.map (fun g => (g.port, g.tag)))
      (s.setBank b { e with state := .opened, grantees := [] })))

/-- The grant does not stand (R35). -/
def grantFails (b : Bank) (row : Row) (s : State) : State :=
  let e := s.bank b
  startClosing b
    (s.setBank b { e with grantees := [], waiting := e.grantees.map (Grantee.toWaiter row (e.mode.getD .read)) ++ e.waiting })

/-- An OPEN completes (R4, R34, R35). -/
def completeOpen (b : Bank) (row : Row) (s : State) : State :=
  let s1 := setOpenRow b (some row) (freePath s)
  if pressure s b.set = false ∧ (s.bank b).grantees ≠ [] then grantStands b s1 else grantFails b row s1

/-- A CLOSE completes (R5, R39). -/
def completeClose (b : Bank) (s : State) : State :=
  serve b (modBank b (fun e => { e with state := .closed, row := none, mode := none }) (setOpenRow b none (freePath s)))

/-- The DATA payload of a read (R65, R170). -/
def readPayload (s : State) (x : Xfer) : List Byte :=
  match s.openRows.get x.bank with
  | none => []
  | some r => (List.range x.count).flatMap (fun k => dataLine (readLine s x.bank r (x.first + k)))

/-- A read made under a retention-loss flag uses up its free bytes (log entry 9). -/
def countRead (x : Xfer) (s : State) : State :=
  { s with freeCount := if (s.account x.bank.set).lossFlag then s.freeCount + 1 else s.freeCount }

/-- The lines of a write go into the open row (R6). -/
def commitXfer (x : Xfer) (lines : List StagedLine) (s : State) : State :=
  match s.openRows.get x.bank with
  | none => s
  | some r => { s with array := commitLines x.bank r x.first lines s.array }

/-- What a transfer does on the array, to the staging pool and to its port's egress; a port that is not ATTACHED gets no answer (R12, R83). -/
def xferEffect (x : Xfer) (lines : List StagedLine) (s : State) : State :=
  let attached := decide ((s.port x.port).session = .attached)
  match x.dir with
  | .read =>
    let s1 := countRead x s
    if attached then answer x.port x.tag .data (bankByte x.bank) (byteOf x.count) (readPayload s x) s1 else s1
  | .write p tag suspect =>
    let s1 := freeStaged p tag (commitXfer x lines s)
    if attached then reply x.port x.tag (if suspect then .suspect else .ok) s1 else s1

/-- An XFER completes: its effect, the settle of a DRAINING bank, and the end of its port's DETACHING (R12, R124). -/
def completeXfer (x : Xfer) (lines : List StagedLine) (s : State) : State :=
  endDetaching x.port (settle x.bank (xferEffect x lines (freePath s)))

/-- A STEP completes (R14). -/
def completeStep (x : BankSet) (s : State) : State :=
  serveBanks x.banks
    (setStates x .closed (modAccount x (fun c => { c with balance := c.balance - 1, sweep := c.sweep + 1 }) (freePath s)))

/-- OPEN_COMPLETION (R34). -/
def execOpenCompletion (s : State) : Outcome :=
  match s.path with
  | some { op := .openRow b row, completes } => .next (finish (completeOpen b row (advance completes s)))
  | _ => .next s

/-- CLOSE_COMPLETION (R39). -/
def execCloseCompletion (s : State) : Outcome :=
  match s.path with
  | some { op := .close b, completes } => .next (finish (completeClose b (advance completes s)))
  | _ => .next s

/-- XFER_COMPLETION (R12). -/
def execXferCompletion (s : State) : Outcome :=
  match s.path with
  | some { op := .xfer x lines, completes } => .next (finish (completeXfer x lines (advance completes s)))
  | _ => .next s

/-- STEP_COMPLETION (R14). -/
def execStepCompletion (s : State) : Outcome :=
  match s.path with
  | some { op := .step x _ _, completes } => .next (finish (completeStep x (advance completes s)))
  | _ => .next s

end Sys2Proof.Machine
end

