-- ==== Sys2Proof/Machine/LinkCommands.lean ====
section
/-!
DEFINITION. The egress and the link of a port: sending, pause, link DOWN and UP (R117, R118, R130).
-/

namespace Sys2Proof.Machine

/-- The next packet of an egress begins: the oldest pending notice, with the epoch of this moment, or else the answer or refusal placed
first, which keeps its place or slot (R120, R130, R138). -/
def nextPacket (q : PortState) : PortState :=
  match q.notices with
  | n :: ns => { q with sending := some (.notice n q.epoch), notices := ns }
  | [] =>
    match q.outbox with
    | a :: as => { q with sending := some (.answer a), outbox := as }
    | [] => q

/-- The egress may begin a packet: link UP, running, nothing being sent (R130); a DETACHING port sends nothing new (R124). -/
def PortState.mayBegin (q : PortState) : Bool :=
  decide (q.link = .up ∧ q.paused = false ∧ q.sending = none ∧ q.session ≠ .detaching)

/-- EGRESS_SEND_BEGIN (R130). -/
def execEgressSendBegin (t : Time) (p : Port) (s : State) : Outcome :=
  .next (finish (modPort p (fun q => if q.mayBegin then nextPacket q else q) (advance t s)))

/-- EGRESS_SEND_END: the place or slot of the packet is given back (R125, R128, R130). -/
def execEgressSendEnd (t : Time) (p : Port) (s : State) : Outcome :=
  .next (finish (modPort p (fun q => { q with sending := none }) (advance t s)))

/-- EGRESS_PAUSE (R117); a DOWN link carries no pause (log entry 17). -/
def execEgressPause (t : Time) (p : Port) (s : State) : Outcome :=
  .next (finish (modPort p (fun q => { q with paused := q.paused || decide (q.link = .up) }) (advance t s)))

/-- EGRESS_RESUME (R117). -/
def execEgressResume (t : Time) (p : Port) (s : State) : Outcome :=
  .next (finish (modPort p (fun q => { q with paused := false }) (advance t s)))

/-- What a link loss does to the session (R118). -/
def loseSession (p : Port) (s : State) : State :=
  match (s.port p).session with
  | .attached => cleanup p none s
  | .detaching => modPort p (fun q => { q with detachTag := none, inFlight := [] }) s
  | .detached => modPort p (fun q => { q with inFlight := [], outbox := [] }) (dropIngress p s)

/-- The link goes DOWN: the packet being sent is lost, and the pause ends (R117). -/
def loseLink (p : Port) (s : State) : State :=
  if (s.port p).link = .down then s
  else modPort p (fun q => { q with link := .down, paused := false, sending := none }) (loseSession p s)

/-- LINK_DOWN (R118). -/
def execLinkDown (t : Time) (p : Port) (s : State) : Outcome := .next (finish (loseLink p (advance t s)))

/-- LINK_UP: no session changes (R118); the warm-reset closes hold the link DOWN (R117). -/
def execLinkUp (t : Time) (p : Port) (s : State) : Outcome :=
  .next (finish (modPort p (fun q => if s.resetCloses then q else { q with link := .up }) (advance t s)))

end Sys2Proof.Machine
end

