-- ==== Sys2Proof/Machine/TimerCommands.lean ====
section
/-!
DEFINITION. The timed events: ticks and thermal samples (spec/05), the expiries of wait, contention and claim deadlines (spec/03, spec/10),
and the completion of a wake (spec/06). Each is taken at its own time; a deadline that is absent cannot run out (00_scope; log entry 3).
-/

namespace Sys2Proof.Machine

/-- A set's tick (R86). -/
def tickSet (x : BankSet) (s : State) : State :=
  modAccount x (fun c => { c with nextTick := s.now + s.band.interval }) (raiseBalance x s)

/-- TICK (R86). -/
def execTick (x : BankSet) (s : State) : Outcome := .next (finish (tickSet x (advance (s.account x).nextTick s)))

/-- A band change pulls a set's next tick (R102). -/
def pullTick (band : Band) (x : BankSet) (s : State) : State :=
  modAccount x (fun c => { c with nextTick := min c.nextTick (s.now + band.interval) }) s

/-- A thermal sample (R100 to R102). -/
def takeSample (reading : Int) (s : State) : State :=
  let r := clampReading reading
  let band := bandAfter s.band r
  let s1 := { s with lastTemp := r, nextSample := s.now + Config.samplePeriod, band := band }
  if band = s.band then s1 else raiseEverywhere (.thermal band) (pullTick band .b (pullTick band .a s1))

/-- THERMAL_SAMPLE (R100). -/
def execThermalSample (reading : Int) (s : State) : Outcome := .next (finish (takeSample reading (advance s.nextSample s)))

/-- WAIT_DEADLINE_EXPIRY of the entry of port `p` at bank `b` (R51). -/
def execWaitDeadlineExpiry (b : Bank) (p : Port) (s : State) : Outcome :=
  match (s.bank b).waiting.find? (fun w => decide (w.port = p)) with
  | some w => .next (finish (withdrawWaiter b p (answer p w.tag .timeout (bankByte b) 0 []) (advance w.deadline s)))
  | none => .next s

/-- CONTENTION_DEADLINE_EXPIRY (R55). -/
def execContentionDeadlineExpiry (b : Bank) (s : State) : Outcome :=
  match (s.bank b).contention with
  | some d => .next (finish (revoke b (s.bank b).holderPorts .contention (advance d s)))
  | none => .next s

/-- CLAIM_EXPIRY (R160). -/
def execClaimExpiry (s : State) : Outcome :=
  match s.claim with
  | some h => .next (finish (raiseNotice h.holder .claimLost { advance h.expires s with claim := none }))
  | none => .next s

/-- Clears every port's vote (R114). -/
def clearVotes (s : State) : State := Port.all.foldl (fun s p => modPort p (fun q => { q with vote := false }) s) s

/-- The wake completes (R114); the arbiter's selection is at the end of the event. -/
def completeWake (s : State) : State :=
  { raiseEverywhere (.retention true) (clearVotes (raiseBalance .b (raiseBalance .a s))) with retention := .active }

/-- WAKE_COMPLETION (R114); immediately after it, at the same time and in events of their own, the requests that waited are dispatched
(R129). -/
def execWakeCompletion (s : State) : Outcome :=
  match s.retention with
  | .waking d => .next (resumeDispatch (finish (completeWake (advance d s))))
  | _ => .next s

end Sys2Proof.Machine
end

