-- ==== Sys2Proof/Machine/ResetCommands.lean ====
section
/-!
DEFINITION. The two resets of the device (00_scope, Device-wide resets; the reset rules of every chapter).
-/

namespace Sys2Proof.Machine

/-- The part at the end of a power-on reset, before its first sample: its contents are new free values (log entries 8 and 18), and the model's
time goes on. -/
def powerOn (reading : Int) (s : State) : State :=
  State.powerOn s.now ((s.account .a).contents + 1) ((s.account .b).contents + 1) s.freeCount (clampReading reading) s.pending

/-- POWER_ON_RESET, with the reading of the first thermal sample (R41, R87, R100, R104, R116, R134, R148, R157). -/
def execPowerOnReset (t : Time) (reading : Int) (s : State) : Outcome :=
  .next (finish (takeSample reading (powerOn reading (advance t s))))

/-- Warm reset at one bank (R18, R41, R63). -/
def warmResetBank (s : State) (b : Bank) : State :=
  let e := s.bank b
  let s1 := s.setBank b { e with grantees := [], holders := PerPort.const none, contention := none, waiting := [] }
  if e.state = .opened ∨ e.state = .draining then startClosing b s1 else s1

/-- A port at warm reset: everything as after power-on but the epoch, which is kept (R120, R134, R148). -/
def PortState.warmReset (q : PortState) : PortState := { PortState.powerOn with epoch := q.epoch }

/-- An XFER item. -/
def WorkItem.isXfer : WorkItem → Bool
  | .xfer _ => true
  | _ => false

/-- Warm reset (R18, R41, R63, R74, R98, R104, R116, R134, R148, R156, R157, R162). The path, the array and the refresh state are kept; URGENCY
returns to 4, with pressure re-evaluated, after the table has lost its holders and waiters. -/
def warmReset (s : State) : State :=
  let s1 := Bank.all.foldl warmResetBank
    { s with
      workList := s.workList.filter (fun w => !w.isXfer)
      staging := []
      lastServed := .p3
      ports :=
        { p0 := s.ports.p0.warmReset, p1 := s.ports.p1.warmReset, p2 := s.ports.p2.warmReset, p3 := s.ports.p3.warmReset }
      claim := none
      windows := PerPort.const Windows.resetValue
      retention := .active
      entered := none
      resetCloses := true }
  { changeUrgency Settings.resetValue.urgency s1 with settings := Settings.resetValue }

/-- WARM_RESET (R18). -/
def execWarmReset (t : Time) (s : State) : Outcome := .next (finish (warmReset (advance t s)))

end Sys2Proof.Machine
end

