-- ==== Sys2Proof/Machine/Dispatch.lean ====
section
/-! DEFINITION. One arm for each command: the call of its meaning. -/

namespace Sys2Proof.Machine

def exec (i : Instr) (s : State) : Host.Outcome State Fault Refusal :=
  match i with
  | .packetArrival t p bytes => Sys2Proof.Machine.execPacketArrival t p bytes s
  | .attach t p tag => Sys2Proof.Machine.execAttach t p tag s
  | .detach t p tag => Sys2Proof.Machine.execDetach t p tag s
  | .openRow t p tag bank row mode => Sys2Proof.Machine.execOpenRow t p tag bank row mode s
  | .release t p tag bank => Sys2Proof.Machine.execRelease t p tag bank s
  | .cancel t p tag target => Sys2Proof.Machine.execCancel t p tag target s
  | .readLines t p tag bank first countLess1 => Sys2Proof.Machine.execReadLines t p tag bank first countLess1 s
  | .writeLines t p tag bank masked first countLess1 payload => Sys2Proof.Machine.execWriteLines t p tag bank masked first countLess1 payload s
  | .hold t p tag => Sys2Proof.Machine.execHold t p tag s
  | .statusPorts t p tag => Sys2Proof.Machine.execStatusPorts t p tag s
  | .statusBanks t p tag => Sys2Proof.Machine.execStatusBanks t p tag s
  | .statusRefresh t p tag => Sys2Proof.Machine.execStatusRefresh t p tag s
  | .statusFaults t p tag => Sys2Proof.Machine.execStatusFaults t p tag s
  | .statusClaim t p tag => Sys2Proof.Machine.execStatusClaim t p tag s
  | .claim t p tag => Sys2Proof.Machine.execClaim t p tag s
  | .unclaim t p tag => Sys2Proof.Machine.execUnclaim t p tag s
  | .setLeaseLimit t p tag target value => Sys2Proof.Machine.execSetLeaseLimit t p tag target value s
  | .setGuard t p tag target value => Sys2Proof.Machine.execSetGuard t p tag target value s
  | .setWaitLimit t p tag target value => Sys2Proof.Machine.execSetWaitLimit t p tag target value s
  | .setHoldLimit t p tag target value => Sys2Proof.Machine.execSetHoldLimit t p tag target value s
  | .setUrgency t p tag target value => Sys2Proof.Machine.execSetUrgency t p tag target value s
  | .setEager t p tag target value => Sys2Proof.Machine.execSetEager t p tag target value s
  | .setQuickWake t p tag target value => Sys2Proof.Machine.execSetQuickWake t p tag target value s
  | .setAutoRetain t p tag target value => Sys2Proof.Machine.execSetAutoRetain t p tag target value s
  | .setClaimLimit t p tag target value => Sys2Proof.Machine.execSetClaimLimit t p tag target value s
  | .getSetting t p tag target ident => Sys2Proof.Machine.execGetSetting t p tag target ident s
  | .getWindow t p tag target index => Sys2Proof.Machine.execGetWindow t p tag target index s
  | .window t p tag target index record => Sys2Proof.Machine.execWindow t p tag target index record s
  | .clearFaultsOwn t p tag => Sys2Proof.Machine.execClearFaultsOwn t p tag s
  | .clearFaultsRetention t p tag => Sys2Proof.Machine.execClearFaultsRetention t p tag s
  | .egressSendBegin t p => Sys2Proof.Machine.execEgressSendBegin t p s
  | .egressSendEnd t p => Sys2Proof.Machine.execEgressSendEnd t p s
  | .egressPause t p => Sys2Proof.Machine.execEgressPause t p s
  | .egressResume t p => Sys2Proof.Machine.execEgressResume t p s
  | .linkDown t p => Sys2Proof.Machine.execLinkDown t p s
  | .linkUp t p => Sys2Proof.Machine.execLinkUp t p s
  | .powerOnReset t reading => Sys2Proof.Machine.execPowerOnReset t reading s
  | .warmReset t => Sys2Proof.Machine.execWarmReset t s
  | .openCompletion => Sys2Proof.Machine.execOpenCompletion s
  | .closeCompletion => Sys2Proof.Machine.execCloseCompletion s
  | .xferCompletion => Sys2Proof.Machine.execXferCompletion s
  | .stepCompletion => Sys2Proof.Machine.execStepCompletion s
  | .tick x => Sys2Proof.Machine.execTick x s
  | .thermalSample reading => Sys2Proof.Machine.execThermalSample reading s
  | .waitDeadlineExpiry bank p => Sys2Proof.Machine.execWaitDeadlineExpiry bank p s
  | .contentionDeadlineExpiry bank => Sys2Proof.Machine.execContentionDeadlineExpiry bank s
  | .claimExpiry => Sys2Proof.Machine.execClaimExpiry s
  | .wakeCompletion => Sys2Proof.Machine.execWakeCompletion s

end Sys2Proof.Machine
end

