-- ==== Sys2Proof/Safety.lean ====
section
/-!
DEFINITION. What a sound state of the part is, in the terms the statements use: the laws the spec states of the whole part, each as a
Boolean test of a state; and what the end of an event may change.
-/

namespace Sys2Proof.Machine

/-! ### The array and the Refresh Account -/

/-- The array's list is in its canonical form. -/
def arrayGood (s : State) : Bool := Memory.wf s.array

/-- The set whose STEP is in progress. -/
def runningStep (s : State) : Option BankSet :=
  match s.path with
  | some { op := .step x _ _, .. } => some x
  | _ => none

/-- A set's balance stays within −4 to +8, and a set under a running step has at least −3 (R85). -/
def balancesGood (s : State) : Bool :=
  BankSet.all.all (fun x =>
    decide (-4 ≤ (s.account x).balance ∧ (s.account x).balance ≤ 8)
      && (runningStep s != some x || decide (-3 ≤ (s.account x).balance)))

/-- Both step-wanted marks are what R90 decides from the balance, EAGER and the lists (R91). -/
def marksGood (s : State) : Bool := BankSet.all.all (fun x => decide ((s.account x).mark = markFor s x))

/-! ### Ports -/

/-- No two pending notices of the same kind and bank (R136). -/
def noticesDistinct : List Notice → Bool
  | [] => true
  | n :: ns => ns.all (fun m => !n.sameMatter m) && noticesDistinct ns

/-- A fault list holds at most 4 records, and a set overflow mark stands beside a list of 4 (R140, R141). -/
def PortState.faultsGood (q : PortState) : Bool :=
  decide (q.faults.length ≤ Config.faultRecords) && (!q.overflow || decide (q.faults.length = Config.faultRecords))

/-- Fault lists and notice sets keep their form (R136, R140, R141). -/
def noticesGood (s : State) : Bool :=
  Port.all.all (fun p => (s.port p).faultsGood && noticesDistinct (s.port p).notices)

/-- At most 16 requests are in flight at a port, with pairwise distinct tags (R125). -/
def inFlightGood (s : State) : Bool :=
  Port.all.all (fun p =>
    decide ((s.port p).inFlight.length ≤ Config.responsePlaces) && decide (s.port p).inFlight.Nodup)

/-- The Staging Pool holds at most 32 lines, and at most 16 of one port (R71). -/
def stagingGood (s : State) : Bool :=
  decide (usedCount s ≤ Config.stagingLines) && Port.all.all (fun p => decide (stagedCount s p ≤ Config.stagingLinesPerPort))

/-- What a port has of a session, it has only while ATTACHED: leases, pending grants and waiting entries, transfers in the Array Work List,
the claim, the vote and notices (R17, R106, R119, R137); an ATTACHED port has its link UP, and a port whose link is DOWN, or that is
DETACHING, has no request waiting (R118, R123). -/
def sessionsGood (s : State) : Bool :=
  Port.all.all (fun p =>
    let q := s.port p
    decide (q.link = .down → q.session ≠ .attached ∧ q.ingress = [])
      && decide (q.session = .detaching → q.ingress = [])
      && (decide (q.session = .attached)
        || (Bank.all.all (fun b => !(s.bank b).involves p) && decide (claimRefusal s p ≠ none) && !q.vote && q.notices.isEmpty
          && !s.workList.any (WorkItem.isXferFor p))))

/-! ### The Bank Lease Table -/

/-- The fields of an entry are those its state has (R19, R20, R22). -/
def BankEntry.shapeGood (e : BankEntry) : Bool :=
  match e.state with
  | .opened =>
    e.row.isSome && e.mode.isSome && decide (e.holderPorts ≠ []) && e.grantees.isEmpty
      && decide (e.contention.isSome = !e.waiting.isEmpty)
      && decide (e.mode = some .write → e.holderPorts.length = 1)
  | .opening =>
    e.row.isSome && e.mode.isSome && e.holderPorts.isEmpty && e.contention.isNone
      && decide (e.mode = some .write → e.grantees.length ≤ 1)
  | .draining => e.row.isSome && e.mode.isNone && e.holderPorts.isEmpty && e.grantees.isEmpty && e.contention.isNone
  | .closing => e.row.isSome && e.mode.isNone && e.holderPorts.isEmpty && e.grantees.isEmpty && e.contention.isNone
  | .closed => e.row.isNone && e.mode.isNone && e.holderPorts.isEmpty && e.grantees.isEmpty && e.contention.isNone
  | .refreshing => e.row.isNone && e.mode.isNone && e.holderPorts.isEmpty && e.grantees.isEmpty && e.contention.isNone

/-- No port appears more than once among a bank's holders, pending grantees and waiting list (R24). -/
def BankEntry.portsDistinct (e : BankEntry) : Bool :=
  decide (e.holderPorts ++ e.grantees.map (·.port) ++ e.waiting.map (·.port)).Nodup

/-- Every entry has its state's fields and names each port at most once. -/
def entriesGood (s : State) : Bool := Bank.all.all (fun b => (s.bank b).shapeGood && (s.bank b).portsDistinct)

/-- The work a bank's state calls for: one OPEN while OPENING, one CLOSE while CLOSING, in the list or on the path, and no other (R8). -/
def WorkItem.isOpenOf (b : Bank) : WorkItem → Bool
  | .openRow c _ => decide (c = b)
  | _ => false

/-- A CLOSE item of bank `b`. -/
def WorkItem.isCloseOf (b : Bank) : WorkItem → Bool
  | .close c => decide (c = b)
  | _ => false

/-- The operation in progress opens bank `b`. -/
def pathOpens (s : State) (b : Bank) : Bool :=
  match s.path with
  | some { op := .openRow c _, .. } => decide (c = b)
  | _ => false

/-- The operation in progress closes bank `b`. -/
def pathCloses (s : State) (b : Bank) : Bool :=
  match s.path with
  | some { op := .close c, .. } => decide (c = b)
  | _ => false

/-- The states in which the bank's row is open in the array: OPEN, DRAINING and CLOSING (R19). -/
def BankState.rowOpen : BankState → Bool
  | .opened | .draining | .closing => true
  | _ => false

/-- The row of an OPEN item of bank `b`. -/
def WorkItem.openRowOf (b : Bank) : WorkItem → Option Row
  | .openRow c r => if c = b then some r else none
  | _ => none

/-- The row that the operation in progress opens in bank `b`. -/
def pathOpenRow (s : State) (b : Bank) : Option Row :=
  match s.path with
  | some { op := .openRow c r, .. } => if c = b then some r else none
  | _ => none

/-- The array's open row is the entry's row where the bank's row is open, and none elsewhere; OPEN work names the entry's row (R4, R8, R19). -/
def rowsGood (s : State) : Bool :=
  Bank.all.all (fun b =>
    decide (s.openRows.get b = if (s.bank b).state.rowOpen then (s.bank b).row else none)
      && (s.workList.filterMap (WorkItem.openRowOf b) ++ (pathOpenRow s b).toList).all (fun r => decide ((s.bank b).row = some r)))

/-- Work list, path and bank states agree (R8, R13): OPEN and CLOSE work exactly for OPENING and CLOSING banks, XFER items only for OPEN and
DRAINING banks, the XFER in progress on a bank whose row is open, and REFRESHING banks exactly under a running step. -/
def workGood (s : State) : Bool :=
  Bank.all.all (fun b =>
    decide (s.workList.countP (WorkItem.isOpenOf b) + (if pathOpens s b then 1 else 0)
        = if (s.bank b).state = .opening then 1 else 0)
      && decide (s.workList.countP (WorkItem.isCloseOf b) + (if pathCloses s b then 1 else 0)
        = if (s.bank b).state = .closing then 1 else 0)
      && (!s.workList.any (WorkItem.isXferOf b)
        || decide ((s.bank b).state = .opened ∨ (s.bank b).state = .draining))
      && (!pathXferOf s b || (s.bank b).state.rowOpen)
      && (decide ((s.bank b).state = .refreshing) == (runningStep s == some b.set)))

/-- The Bank Lease Table is sound. -/
def leasesGood (s : State) : Bool := entriesGood s && workGood s && rowsGood s

/-! ### Requests in flight and the retained state -/

/-- The tag of a transfer of port `p` in the Array Work List. -/
def WorkItem.xferTag (p : Port) : WorkItem → Option Tag
  | .xfer x => if x.port = p then some x.tag else none
  | _ => none

/-- The tag of the transfer in progress, if it is of port `p`. -/
def pathTag (s : State) (p : Port) : Option Tag :=
  match s.path with
  | some { op := .xfer x _, .. } => if x.port = p then some x.tag else none
  | _ => none

/-- The tags of port `p`'s requests that still want an answer, by where each waits: in the ingress queue, as the DETACH of DETACHING, as a
pending grantee or a waiter, in the Array Work List, and, while the port is ATTACHED, as the transfer in progress (R83, R129). -/
def owedTags (s : State) (p : Port) : List Tag :=
  (s.port p).ingress.map (·.tag) ++ (s.port p).detachTag.toList
    ++ Bank.all.flatMap (fun b =>
      ((s.bank b).grantees.filter (fun g => decide (g.port = p))).map (·.tag)
        ++ ((s.bank b).waiting.filter (fun w => decide (w.port = p))).map (·.tag))
    ++ s.workList.filterMap (WorkItem.xferTag p) ++ (if (s.port p).session = .attached then (pathTag s p).toList else [])

/-- Every request in flight waits in exactly one place; no request waits where the Request Router may dispatch it (R129); a DETACH is kept by a
DETACHING port alone; the port of the transfer in progress is not DETACHED (R123), but for the closes of a warm reset, which hold every
link DOWN (R18, R117, R134). -/
def requestsGood (s : State) : Bool :=
  Port.all.all (fun p =>
    (owedTags s p).isPerm (s.port p).inFlight
      && (!routerRuns s p || (s.port p).ingress.isEmpty)
      && decide ((s.port p).detachTag ≠ none → (s.port p).session = .detaching)
      && (if s.resetCloses then decide ((s.port p).link = .down ∧ (s.port p).session = .detached)
          else !pathXferFor s p || decide ((s.port p).session ≠ .detached)))

/-- Outside ACTIVE no bank is OPENING, OPEN, DRAINING or CLOSING and no port waits for a bank; in ENTERING and RETAINED no request is in flight;
ENTERING lasts while an operation is in progress (R107, R108, R110, R113). -/
def retentionGood (s : State) : Bool :=
  decide (s.retention = .active)
    || (allBanksShut s && Bank.all.all (fun b => (s.bank b).waiting.isEmpty)
      && (s.retention.isWaking || Port.all.all (fun p => (s.port p).inFlight.isEmpty))
      && decide (s.retention = .entering → s.path ≠ none))

/-! ### What the end of an event may change -/

/-- What the arbiter sees at the end of an event: both marks decided from `w` (R90, R91), and ENTERING over where the path is IDLE (R108). -/
def decided (w : State) : State :=
  { w with
    accounts := { a := { w.account .a with mark := markFor w .a }, b := { w.account .b with mark := markFor w .b } }
    retention := if w.retention = .entering ∧ w.path = none then .retained else w.retention }

/-- The entry condition of the retained state but for the retention state (R107): every bank CLOSED or REFRESHING, no request in flight, and
every ATTACHED port's vote set, or no port ATTACHED and AUTO-RETAIN on. -/
def MayRetain (s : State) : Prop :=
  (∀ b, (s.bank b).state = .closed ∨ (s.bank b).state = .refreshing) ∧ (∀ p, (s.port p).inFlight = []) ∧
  (((∃ p, (s.port p).session = .attached) ∧ ∀ p, (s.port p).session = .attached → (s.port p).vote = true) ∨
    ((∀ p, (s.port p).session ≠ .attached) ∧ s.settings.autoRetain = true))

/-- From `w` to `v`, exactly what the end of an event does has happened: the marks are decided from `w`; the arbiter has selected, if the path
was IDLE; and the retained state has been entered if its condition holds, with RETENTION (entered) merged into the notices of ATTACHED
ports (R9, R13, R91, R107, R108; log entry 12) and the moment of an entry on an IDLE path kept (R109; log entry 24). Everything else is as in `w`. -/
structure EventEnd (w v : State) : Prop where
  now : v.now = w.now
  pending : v.pending = w.pending
  array : v.array = w.array
  freeCount : v.freeCount = w.freeCount
  openRows : v.openRows = w.openRows
  staging : v.staging = w.staging
  band : v.band = w.band
  lastTemp : v.lastTemp = w.lastTemp
  nextSample : v.nextSample = w.nextSample
  settings : v.settings = w.settings
  claim : v.claim = w.claim
  windows : v.windows = w.windows
  accounts : ∀ x, v.account x = { w.account x with mark := markFor w x }
  banks : v.banks = (select (decided w)).banks
  path : v.path = (select (decided w)).path
  workList : v.workList = (select (decided w)).workList
  lastServed : v.lastServed = (select (decided w)).lastServed
  enters : (decided w).retention = .active → MayRetain v → v.retention = if v.path = none then .retained else .entering
  stays : ¬((decided w).retention = .active ∧ MayRetain v) → v.retention = (decided w).retention
  enteredNow : (decided w).retention = .active → MayRetain v → v.entered = if v.path = none then some v.now else none
  enteredBefore : ¬((decided w).retention = .active ∧ MayRetain v) → v.entered = w.entered
  ports : ∀ p, v.port p =
    if (w.port p).session = .attached ∧ v.retention = .retained ∧ w.retention ≠ .retained then
      { w.port p with notices := mergeNotice (.retention false) (w.port p).notices }
    else w.port p
  resetCloses : v.resetCloses = (w.resetCloses && !allBanksShut w)

/-- A command ends in a next state that differs from `w` only by the end of the event. -/
def Ends (o : Outcome) (w : State) : Prop := ∃ v, o = .next v ∧ EventEnd w v

/-- From `s` to `t` port `p`'s waiting requests have been dispatched, each in an event of its own (R129). -/
inductive QueueServed (p : Port) : State → State → Prop
  | nothing {s : State} : ((s.port p).ingress = [] ∨ routerRuns s p = false) → QueueServed p s s
  | next {s t u : State} {r : Request} {rest : List Request} :
      routerRuns s p = true → (s.port p).ingress = r :: rest →
      EventEnd (gate p r (s.setPort p { s.port p with ingress := rest })) t → QueueServed p t u → QueueServed p s u

/-! ### Requests on their way in -/

/-- The state at time `t` after steps 1 to 4 of the admission of request `r` at port `p` (R127): its tag is in flight, a WRITE's lines are staged
with their guard (R77), the vote has followed the request (R106), and the request waits last in the ingress queue. -/
def Queued (t : Time) (p : Port) (r : Request) (lines : List StagedLine) (s : State) : State :=
  { s with
    now := max s.now t
    staging := s.staging ++
      (match r.body with
        | .writeLines _ masked _ _ =>
          if lines = [] then []
          else [{ port := p, tag := r.tag, guarded := masked || s.settings.guarded.get p, lines := lines }]
        | _ => [])
    ports := s.ports.set p { s.port p with
      inFlight := (s.port p).inFlight ++ [r.tag]
      vote := if (s.port p).session = .attached then voteAfter (s.port p).vote r.body else (s.port p).vote
      ingress := (s.port p).ingress ++ [r] } }

/-- The packet of request `r` passes checks 3 to 5 of R125 at port `p`. -/
def Admissible (s : State) (p : Port) (r : Request) : Prop :=
  r.tag ∉ (s.port p).inFlight ∧ (s.port p).placesTaken < Config.responsePlaces ∧ hasRoom s p r = true

/-- The header of a request packet (R167): kind, tag, byte 2, the 16 bits of bytes 3 and 4, byte 5, selector, and the header check. -/
def requestHeader (kind : Byte) (tag : Tag) (byte2 : Byte) (row : BitVec 16) (byte5 selector : Byte) : List Byte :=
  closeHeader [kind, tag.setWidth 8, byte2, row.extractLsb' 8 8, row.extractLsb' 0 8, byte5, selector]

/-- The packet a master sends for a SET (R168, R171). -/
def setPacket (tag : Tag) (target : BitVec 3) (ident : Byte) (value : BitVec 32) : List Byte :=
  requestHeader 0x0C tag (target.setWidth 8) 0 0 ident
    ++ [value.extractLsb' 24 8, value.extractLsb' 16 8, value.extractLsb' 8 8, value.extractLsb' 0 8]

/-- The window record of a WINDOW packet (R171). -/
def recordBytes (r : WindowRecord) : List Byte :=
  [byteOfBool r.valid, r.firstBank, r.lastBank, r.rights, r.firstRow.extractLsb' 8 8, r.firstRow.extractLsb' 0 8,
    r.lastRow.extractLsb' 8 8, r.lastRow.extractLsb' 0 8]

/-- The time, port, kind and packet of a request command, as a master would send it (R167, R168, R170, R171); none for the other commands. -/
def requestPacket : Instr → Option (Time × Port × List Byte)
  | .attach t p tag => some (t, p, requestHeader 0x01 tag 0 0 0 0)
  | .detach t p tag => some (t, p, requestHeader 0x02 tag 0 0 0 0)
  | .openRow t p tag bank row mode =>
    some (t, p, requestHeader 0x03 tag (bankByte bank ||| (if mode = .write then 8 else 0)) (row.setWidth 16) 0 0)
  | .release t p tag bank => some (t, p, requestHeader 0x04 tag (bankByte bank) 0 0 0)
  | .cancel t p tag target => some (t, p, requestHeader 0x05 tag 0 0 0 target)
  | .readLines t p tag bank first countLess1 => some (t, p, requestHeader 0x06 tag (bankByte bank) 0 (countLess1 ++ first) 0)
  | .writeLines t p tag bank masked first countLess1 payload =>
    some (t, p, requestHeader 0x07 tag (bankByte bank ||| (if masked then 16 else 0)) 0 (countLess1 ++ first) 0 ++ payload)
  | .hold t p tag => some (t, p, requestHeader 0x08 tag 0 0 0 0)
  | .statusPorts t p tag => some (t, p, requestHeader 0x09 tag 0 0 0 1)
  | .statusBanks t p tag => some (t, p, requestHeader 0x09 tag 0 0 0 2)
  | .statusRefresh t p tag => some (t, p, requestHeader 0x09 tag 0 0 0 3)
  | .statusFaults t p tag => some (t, p, requestHeader 0x09 tag 0 0 0 4)
  | .statusClaim t p tag => some (t, p, requestHeader 0x09 tag 0 0 0 5)
  | .claim t p tag => some (t, p, requestHeader 0x0A tag 0 0 0 0)
  | .unclaim t p tag => some (t, p, requestHeader 0x0B tag 0 0 0 0)
  | .setLeaseLimit t p tag target value => some (t, p, setPacket tag target 1 value)
  | .setGuard t p tag target value => some (t, p, setPacket tag target 2 value)
  | .setWaitLimit t p tag target value => some (t, p, setPacket tag target 3 value)
  | .setHoldLimit t p tag target value => some (t, p, setPacket tag target 4 value)
  | .setUrgency t p tag target value => some (t, p, setPacket tag target 5 value)
  | .setEager t p tag target value => some (t, p, setPacket tag target 6 value)
  | .setQuickWake t p tag target value => some (t, p, setPacket tag target 7 value)
  | .setAutoRetain t p tag target value => some (t, p, setPacket tag target 8 value)
  | .setClaimLimit t p tag target value => some (t, p, setPacket tag target 9 value)
  | .getSetting t p tag target ident => some (t, p, requestHeader 0x0D tag (target.setWidth 8) 0 0 ident)
  | .getWindow t p tag target index => some (t, p, requestHeader 0x0D tag (target.setWidth 8) 0 0 (16 + index.setWidth 8))
  | .window t p tag target index record =>
    some (t, p, requestHeader 0x0E tag (target.setWidth 8) 0 0 index ++ recordBytes record)
  | .clearFaultsOwn t p tag => some (t, p, requestHeader 0x0F tag 0 0 0 0)
  | .clearFaultsRetention t p tag => some (t, p, requestHeader 0x0F tag 32 0 0 0)
  | _ => none

/-! ### Grants to a group -/

/-- From `s` to `t` the ports of group `g` have become holders of bank `b` with their tags as grant tags, and each has its GRANTED answer placed last
(R29, R37, R47, R52); no other port is touched. -/
structure GroupGranted (b : Bank) (m : Mode) (g : List (Port × Tag)) (s t : State) : Prop where
  holders : ∀ p tag, (p, tag) ∈ g → (t.bank b).holders.get p = some tag
  others : ∀ p, (∀ x ∈ g, x.1 ≠ p) → (t.bank b).holders.get p = (s.bank b).holders.get p ∧ t.port p = s.port p
  answers : ∀ p tag, (p, tag) ∈ g → t.port p =
    { s.port p with
      inFlight := (s.port p).inFlight.erase tag
      outbox := (s.port p).outbox ++ [.response tag .granted (s.port p).epoch (bankByte b) (modeCode m) []] }

end Sys2Proof.Machine
end

