-- ==== Sys2Proof/Certificates/Slice0/Obligations.lean ====
section
/-!
DEFINITION. The statements for the provers. A request command is stated at the state `u` in which its request goes through the session gate
(`atDispatch`); RequestReachesItsOwner says which state that is. `Ends o w` says that the outcome `o` is a next state that differs from `w` by
the end of the event alone (`EventEnd`): everything that `w` does not change is as it was. The order of what an event ends with is log entry 12.
-/

section Statements

open Sys2Proof Sys2Proof.Machine

/-! ### Steps and reset -/

/-- A step runs the command at the front of the queue on the state with the queue's rest; on an empty queue the block idles (the model's
choice, log entry 5). -/
def Obligations.StepRunsFrontCommand : Prop :=
  (∀ (s : State) (c : Instr) (rest : List Instr), s.pending = c :: rest → step s = exec c { s with pending := rest }) ∧
  (∀ s : State, s.pending = [] → step s = .next s)

/-- Every value the spec gives the part after power-on reset, with the first thermal sample taken (its reading, and the moment 0 from which the
times are counted, are the model's choice: log entries 6 and 7). -/
def Obligations.ResetValues : Prop :=
  let s := State.reset
  s.pending = [] ∧ s.array = [] ∧ s.path = none ∧ s.workList = [] ∧ s.lastServed = .p3 ∧ s.staging = []
  ∧ s.band = .normal ∧ s.retention = .active ∧ s.entered = none ∧ s.claim = none ∧ s.resetCloses = false ∧ s.nextSample = us 100
  ∧ (∀ b, s.openRows.get b = none ∧ s.bank b =
      { state := .closed, row := none, mode := none, grantees := [], holders := PerPort.const none, contention := none, waiting := [] })
  ∧ (∀ x, (s.account x).balance = 0 ∧ (s.account x).sweep = 0 ∧ (s.account x).lossFlag = false ∧ (s.account x).mark = .none)
  ∧ (s.account .a).nextTick = ns 6400 ∧ (s.account .b).nextTick = ns 9600
  ∧ (∀ p, s.port p =
      { link := .down, paused := false, session := .detached, epoch := 0, inFlight := [], detachTag := none, ingress := [], outbox := []
        sending := none, notices := [], faults := [], overflow := false, vote := false })
  ∧ (∀ p, s.settings.leaseLimit.get p = 4 ∧ s.settings.guarded.get p = true ∧ leaseCount s p = 0 ∧ stagedCount s p = 0)
  ∧ s.settings.waitLimit = 100 ∧ s.settings.holdLimit = 50 ∧ s.settings.urgency = 4 ∧ s.settings.eager = false
  ∧ s.settings.quickWake = false ∧ s.settings.autoRetain = false ∧ s.settings.claimLimit = 10
  ∧ (∀ p, (s.windows.get p).get .w0 = some { firstBank := 0, lastBank := 7, firstRow := 0, lastRow := 8191, write := true }
      ∧ (s.windows.get p).get .w1 = none ∧ (s.windows.get p).get .w2 = none ∧ (s.windows.get p).get .w3 = none)

/-- Every invariant that the statements below say of steps holds after reset. -/
def Obligations.ResetIsSound : Prop :=
  arrayGood State.reset = true ∧ balancesGood State.reset = true ∧ marksGood State.reset = true ∧ noticesGood State.reset = true
  ∧ inFlightGood State.reset = true ∧ stagingGood State.reset = true ∧ sessionsGood State.reset = true ∧ leasesGood State.reset = true
  ∧ requestsGood State.reset = true ∧ retentionGood State.reset = true

/-! ### Requests coming in -/

/-- Which requests are dispatched in their admission event, and in which state they then go through the session gate: in ACTIVE and ENTERING
one admitted to an empty queue (R129); in RETAINED one that is no wake cause (R111), and one that falls together with an entry on an IDLE
path, whose wake cause makes the part ACTIVE (R109; log entry 24); in WAKING a STATUS (R113). Every other admitted
request waits, and one that is not admitted goes nowhere. That a request command is the arrival of its request is the model's choice (log
entry 4). Which requests are wake causes (R112), what an admission does to the vote (R106, R127), and which packets are admitted
(R125, R72). -/
def Obligations.RequestReachesItsOwner : Prop :=
  (∀ (t : Time) (p : Port) (r : Request) (lines : List StagedLine) (s : State),
     let q := Queued t p r lines s
     let taken := (s.port p).link = .up ∧ (s.port p).session ≠ .detaching ∧ Admissible s p r
     let together := s.retention = .retained ∧ s.entered = some q.now
     (taken → (s.retention = .active ∨ s.retention = .entering ∨ together) → (s.port p).ingress = [] →
       atDispatch t p r lines s =
         some { q with
           ports := q.ports.set p { q.port p with ingress := [] }
           retention := if wakeCause s p r.body then .active else s.retention }) ∧
     (taken → s.retention = .retained → wakeCause s p r.body = false → (s.port p).ingress = [] →
       atDispatch t p r lines s = some (q.setPort p { q.port p with ingress := [] })) ∧
     (∀ d item, taken → s.retention = .waking d → r.body = .status item →
       atDispatch t p r lines s = some (q.setPort p { q.port p with ingress := (q.port p).ingress.erase r })) ∧
     (((s.retention = .active ∨ s.retention = .entering ∨ together) ∧ (s.port p).ingress ≠ []) ∨
         (s.retention = .retained ∧ s.entered ≠ some q.now ∧ wakeCause s p r.body = true) ∨
         ((∃ d, s.retention = .waking d) ∧ ∀ item, r.body ≠ .status item) ∨ ¬taken →
       atDispatch t p r lines s = none)) ∧
  (∀ (s : State) (p : Port) (body : Body),
    ((s.port p).session = .attached →
      (wakeCause s p body = false ↔ body = .hold ∨ (∃ item, body = .status item) ∨ body = .detach)) ∧
    ((s.port p).session = .detached → (wakeCause s p body = true ↔ body = .attach))) ∧
  (∀ (t : Time) (p : Port) (r : Request) (lines : List StagedLine) (s : State),
    let vote := ((Queued t p r lines s).port p).vote
    ((s.port p).session = .attached →
      (r.body = .hold → vote = true) ∧ (∀ item, r.body = .status item → vote = (s.port p).vote) ∧
      (r.body ≠ .hold → (∀ item, r.body ≠ .status item) → vote = false)) ∧
    ((s.port p).session ≠ .attached → vote = (s.port p).vote)) ∧
  (∀ (p : Port) (r : Request) (s : State),
    let staged (q : Port) : Nat := ((s.staging.filter (fun w => decide (w.port = q))).map (fun w => w.lines.length)).sum
    (Admissible s p r ↔ r.tag ∉ (s.port p).inFlight ∧ (s.port p).placesTaken < 16 ∧ hasRoom s p r = true) ∧
    (∀ b masked first count, r.body = .writeLines b masked first count →
      (hasRoom s p r = true ↔ staged p + count ≤ 16 ∧ count ≤ 32 - (staged .p0 + staged .p1 + staged .p2 + staged .p3))) ∧
    ((∀ b masked first count, r.body ≠ .writeLines b masked first count) → hasRoom s p r = true))

/-- The packet a master sends for a request command is taken by the part as that command (that a request command is the arrival of its own
sound packet is the model's choice, log entry 4). -/
def Obligations.PacketsSpellCommands : Prop :=
  ∀ (c : Instr) (t : Time) (p : Port) (bytes : List Byte) (s : State),
    requestPacket c = some (t, p, bytes) → exec (.packetArrival t p bytes) s = exec c s

/-- The admission event of a request in ACTIVE and ENTERING, and where it goes from there. One that falls together with an entry into the
retained state on an IDLE path is taken as in ENTERING: a wake cause makes the part ACTIVE, with no latency (R109; log entry 24). In WAKING a STATUS is dispatched in its
admission event, ahead of the requests that wait; every other request waits. In RETAINED any later wake cause begins a wake of 2 µs, or with
QUICK-WAKE on of 0.5 µs that abandons an ordinary STEP in progress; every other request is dispatched in its admission event. -/
def Obligations.PacketAdmitted : Prop :=
  (∀ (t : Time) (p : Port) (bytes : List Byte) (r : Request) (lines : List StagedLine) (s : State),
     decodePacket bytes = .request r lines → (s.port p).link = .up → (s.port p).session ≠ .detaching → Admissible s p r →
     (s.retention = .active ∨ s.retention = .entering ∨ (s.retention = .retained ∧ s.entered = some (max s.now t))) →
     let q := Queued t p r lines s
     let a := { q with retention := if wakeCause s p r.body then Retention.active else s.retention }
     ((s.port p).ingress = [] →
       Ends (exec (.packetArrival t p bytes) s) (gate p r (a.setPort p { a.port p with ingress := [] }))) ∧
     ((s.port p).ingress ≠ [] → Ends (exec (.packetArrival t p bytes) s) a)) ∧
  (∀ (t d : Time) (p : Port) (bytes : List Byte) (r : Request) (lines : List StagedLine) (s : State),
     decodePacket bytes = .request r lines → (s.port p).link = .up → (s.port p).session ≠ .detaching → Admissible s p r →
     s.retention = .waking d →
     let q := Queued t p r lines s
     (∀ item, r.body = .status item →
       Ends (exec (.packetArrival t p bytes) s) (gate p r (q.setPort p { q.port p with ingress := (q.port p).ingress.erase r }))) ∧
     ((∀ item, r.body ≠ .status item) → Ends (exec (.packetArrival t p bytes) s) q)) ∧
  (∀ (t : Time) (p : Port) (bytes : List Byte) (r : Request) (lines : List StagedLine) (s : State),
     decodePacket bytes = .request r lines → (s.port p).link = .up → (s.port p).session ≠ .detaching → Admissible s p r →
     s.retention = .retained →
     let q := Queued t p r lines s
     let o := exec (.packetArrival t p bytes) s
     (wakeCause s p r.body = false → (s.port p).ingress = [] → Ends o (gate p r (q.setPort p { q.port p with ingress := [] }))) ∧
     (wakeCause s p r.body = true → s.entered ≠ some q.now → s.settings.quickWake = false →
       Ends o { q with retention := .waking (q.now + us 2) }) ∧
     (wakeCause s p r.body = true → s.entered ≠ some q.now → s.settings.quickWake = true →
       ((∀ x k d, s.path ≠ some { op := .step x k false, completes := d }) → Ends o { q with retention := .waking (q.now + ns 500) }) ∧
       (∀ x k d, s.path = some { op := .step x k false, completes := d } →
         ∃ banks : PerBank BankEntry,
           (∀ b, banks.get b = if b.set = x then { s.bank b with state := .closed } else s.bank b) ∧
           Ends o (serveBanks x.banks { q with retention := .waking (q.now + ns 500), path := none, banks := banks }))))

/-- A packet that is not admitted: dropped at a link that takes none, dropped with HEADER where its check fails, refused BAD-KIND, DUP-TAG
or FULL from the refusal slots, and dropped with FLOOD where all four are taken. -/
def Obligations.PacketNotAdmitted : Prop :=
  ∀ (t : Time) (p : Port) (bytes : List Byte) (s : State),
    let o := exec (.packetArrival t p bytes) s
    let n := { s with now := max s.now t }
    let refused (tag : Tag) (res : Result) : Prop :=
      ((s.port p).slotsTaken < 4 →
        Ends o (n.setPort p { s.port p with outbox := (s.port p).outbox ++ [.refusal tag res (s.port p).epoch] })) ∧
      (4 ≤ (s.port p).slotsTaken →
        Ends o (recordFault p { kind := .flood, bank := none, row := none, line := none, tag := some tag, set := none } n))
    (((s.port p).link = .down ∨ (s.port p).session = .detaching) → Ends o n) ∧
    ((s.port p).link = .up → (s.port p).session ≠ .detaching →
      (decodePacket bytes = .damaged →
        Ends o (recordFault p { kind := .header, bank := none, row := none, line := none, tag := none, set := none } n)) ∧
      (∀ tag, decodePacket bytes = .noKind tag → refused tag .badKind) ∧
      (∀ r lines, decodePacket bytes = .request r lines →
        (r.tag ∈ (s.port p).inFlight → refused r.tag .dupTag) ∧
        (r.tag ∉ (s.port p).inFlight → (16 ≤ (s.port p).placesTaken ∨ hasRoom s p r = false) → refused r.tag .full)))

/-- How a fault list takes a fault: kept while it has fewer than 4 records, then marked as overflowed once, then nothing; FAULT carries the
kind, the count and the mark; a port that is not ATTACHED takes none. How a notice joins a notice set: a pending notice of its kind and
bank takes its content and keeps its place; without one it takes the last place. -/
def Obligations.FaultsAndNoticesAreTaken : Prop :=
  (∀ (p : Port) (f : FaultRecord) (s : State),
     let q := s.port p
     (q.session ≠ .attached → recordFault p f s = s) ∧
     (q.session = .attached → q.faults.length < 4 →
       recordFault p f s = s.setPort p { q with
         faults := q.faults ++ [f]
         notices := mergeNotice (.fault f.kind (q.faults.length + 1) q.overflow) q.notices }) ∧
     (q.session = .attached → q.faults.length = 4 → q.overflow = false →
       recordFault p f s = s.setPort p { q with overflow := true, notices := mergeNotice (.fault f.kind 4 true) q.notices }) ∧
     (q.session = .attached → q.faults.length = 4 → q.overflow = true → recordFault p f s = s)) ∧
  (∀ (n : Notice) (ns : List Notice), noticesDistinct ns = true →
     ((∀ m ∈ ns, n.sameMatter m = false) → mergeNotice n ns = ns ++ [n]) ∧
     (∀ before m after, ns = before ++ m :: after → n.sameMatter m = true → mergeNotice n ns = before ++ n :: after))

/-! ### Sessions -/

/-- At a DETACHED port every request but ATTACH and STATUS is answered NOT-ATTACHED, a WRITE's staged lines being freed. ATTACH of a
DETACHED port: a new epoch, an empty fault list, ATTACHED, OK with the port's number and the new epoch; of an ATTACHED port: BAD-STATE and
nothing else. What the placing of an answer does, here and in every statement below: its request leaves the in-flight set, and the answer
stands last with the epoch of this moment. -/
def Obligations.SessionGateAndAttach : Prop :=
  (∀ (t : Time) (p : Port) (r : Request) (lines : List StagedLine) (s u : State),
     atDispatch t p r lines s = some u → (u.port p).session = .detached →
     r.body ≠ .attach → (∀ item, r.body ≠ .status item) →
     Ends (.next (requestEvent t p r lines s))
       (answer p r.tag .notAttached 0 0 []
         (match r.body with
           | .writeLines .. => { u with staging := u.staging.filter (fun w => !decide (w.port = p ∧ w.tag = r.tag)) }
           | _ => u))) ∧
  (∀ (t : Time) (p : Port) (tag : Tag) (s u : State), atDispatch t p ⟨tag, .attach⟩ [] s = some u →
     ((u.port p).session = .detached →
       Ends (exec (.attach t p tag) s) (u.setPort p { u.port p with
         epoch := (u.port p).epoch + 1
         faults := []
         overflow := false
         session := .attached
         inFlight := (u.port p).inFlight.erase tag
         outbox := (u.port p).outbox ++ [.response tag .ok ((u.port p).epoch + 1) (byteOf p.toNat) 0 []] })) ∧
     ((u.port p).session = .attached → Ends (exec (.attach t p tag) s) (answer p tag .badState 0 0 [] u))) ∧
  (∀ (p : Port) (tag : Tag) (res : Result) (i0 i1 : Byte) (payload : List Byte) (s : State),
     answer p tag res i0 i1 payload s = s.setPort p { s.port p with
       inFlight := (s.port p).inFlight.erase tag
       outbox := (s.port p).outbox ++ [.response tag res (s.port p).epoch i0 i1 payload] })

/-- What port cleanup leaves of port `p`: no lease, pending grant, waiting entry, claim, vote, notice, unsent answer or queued request; its
in-flight set holds at most the DETACH being taken; its fault list, overflow mark, epoch and link are kept, and so is what it is sending;
it is DETACHING if a transfer of it is on the path, and DETACHED otherwise. No other port's session, vote, faults, queue or claim changes. Of the
Staging Pool go the lines of its waiting WRITEs and of its removed transfers. The banks are taken in order; at each its transfers go, and
it goes as a holder, a pending grantee or a waiter, and the bank drains, settles or is served (the order inside a bank: log entry 14). -/
def Obligations.CleanupLeavesNothing : Prop :=
  (∀ (p : Port) (kept : Option Tag) (s : State),
    let v := cleanup p kept s
    let k := cleanupBank p (cleanupBank p (cleanupBank p (cleanupBank p (cleanupBank p (cleanupBank p (cleanupBank p (cleanupBank p s
      .b0) .b1) .b2) .b3) .b4) .b5) .b6) .b7
    v.banks = k.banks ∧ v.workList = k.workList ∧ (∀ q, q ≠ p → v.port q = k.port q) ∧
    (∃ keep : StagedWrite → Bool,
      (∀ w, keep w = true ↔
        ¬(w.port = p ∧ ∃ r ∈ (s.port p).ingress, r.tag = w.tag ∧ ∃ b m f c, r.body = .writeLines b m f c) ∧
        ¬(∃ x suspect, WorkItem.xfer x ∈ s.workList ∧ x.port = p ∧ x.dir = .write w.port w.tag suspect)) ∧
      v.staging = s.staging.filter keep) ∧
    (∀ b, (v.bank b).involves p = false) ∧ leaseCount v p = 0 ∧ (∀ e, v.claim ≠ some { holder := p, expires := e }) ∧
    ((∀ e, s.claim ≠ some { holder := p, expires := e }) → v.claim = s.claim) ∧ (∀ x, WorkItem.xfer x ∈ v.workList → x.port ≠ p) ∧
    v.port p = { s.port p with
      vote := false, notices := [], outbox := [], ingress := [], inFlight := kept.toList
      detachTag := if pathXferFor s p then kept else none
      session := if pathXferFor s p then .detaching else .detached } ∧
    (∀ q, q ≠ p → (v.port q).session = (s.port q).session ∧ (v.port q).vote = (s.port q).vote ∧ (v.port q).faults = (s.port q).faults
      ∧ (v.port q).ingress = (s.port q).ingress ∧ (v.port q).link = (s.port q).link ∧ (v.port q).epoch = (s.port q).epoch) ∧
    v.now = s.now ∧ v.array = s.array ∧ v.openRows = s.openRows ∧ v.path = s.path ∧ v.accounts = s.accounts ∧ v.settings = s.settings ∧
    v.windows = s.windows ∧ v.retention = s.retention ∧ v.entered = s.entered) ∧
  (∀ (p : Port) (b : Bank) (s : State), (s.bank b).shapeGood = true → (s.bank b).portsDistinct = true →
    let e := s.bank b
    let v := cleanupBank p s b
    let left := e.holders.set p none
    let others := e.waiting.filter (fun w => !decide (w.port = p))
    ∃ keep : StagedWrite → Bool,
      (∀ w, keep w = true ↔
        ¬(∃ x suspect, WorkItem.xfer x ∈ s.workList ∧ x.port = p ∧ x.bank = b ∧ x.dir = .write w.port w.tag suspect)) ∧
      let k := { s with
        staging := s.staging.filter keep
        workList := s.workList.filter (fun i => match i with
          | .xfer x => !decide (x.port = p ∧ x.bank = b)
          | _ => true) }
      (e.isHolder p = true → left ≠ PerPort.const none → v = k.setBank b { e with holders := left }) ∧
      (e.isHolder p = true → left = PerPort.const none →
        v = settle b (k.setBank b { e with holders := left, state := .draining, mode := none, contention := none })) ∧
      (e.isGrantee p = true → v = k.setBank b { e with grantees := e.grantees.filter (fun g => !decide (g.port = p)) }) ∧
      (e.state = .draining → v = settle b (k.setBank b { e with waiting := others })) ∧
      (e.state ≠ .draining → e.isWaiter p = true →
        let w := k.setBank b { e with waiting := others, contention := if others = [] then none else e.contention }
        ((∃ h hs, e.waiting = h :: hs ∧ h.port = p) → v = serve b w) ∧
        ((∀ h hs, e.waiting = h :: hs → h.port ≠ p) → v = w)) ∧
      (e.state ≠ .draining → e.involves p = false → v = k))

/-- DETACH of an ATTACHED port cleans it up, and is answered OK at once unless the operation in progress is a transfer of it. -/
def Obligations.DetachCleansUp : Prop :=
  (∀ (t : Time) (p : Port) (tag : Tag) (s u : State), atDispatch t p ⟨tag, .detach⟩ [] s = some u → (u.port p).session = .attached →
     (pathXferFor u p = false → Ends (exec (.detach t p tag) s) (answer p tag .ok 0 0 [] (cleanup p (some tag) u))) ∧
     (pathXferFor u p = true → Ends (exec (.detach t p tag) s) (cleanup p (some tag) u))) ∧
  (∀ (p : Port) (s : State),
    pathXferFor s p = true ↔ ∃ x lines d, s.path = some { op := .xfer x lines, completes := d } ∧ x.port = p)

/-- A link going DOWN, by the session state it finds. A link comes UP, and no session changes; while the closes of a warm reset run it
stays DOWN. The closes are over where every bank is CLOSED or REFRESHING (EventEnd). -/
def Obligations.LinkChanges : Prop :=
  (∀ (t : Time) (p : Port) (s : State),
     let n := { s with now := max s.now t }
     let down (q : PortState) : PortState := { q with link := .down, paused := false, sending := none }
     let o := exec (.linkDown t p) s
     ((s.port p).link = .down → Ends o n) ∧
     ((s.port p).link = .up →
       ((s.port p).session = .attached →
         Ends o ((cleanup p none n).setPort p (down ((cleanup p none n).port p)))) ∧
       ((s.port p).session = .detaching → Ends o (n.setPort p (down { s.port p with detachTag := none, inFlight := [] }))) ∧
       ((s.port p).session = .detached →
         ∃ staging : List StagedWrite,
           (∀ w, w ∈ staging ↔ w ∈ s.staging ∧
             ¬(w.port = p ∧ ∃ r ∈ (s.port p).ingress, r.tag = w.tag ∧ ∃ b m f c, r.body = .writeLines b m f c)) ∧
           Ends o ({ n with staging := staging }.setPort p
             (down { s.port p with inFlight := [], ingress := [], outbox := [] }))))) ∧
  (∀ (t : Time) (p : Port) (s : State),
     let n := { s with now := max s.now t }
     (s.resetCloses = false → Ends (exec (.linkUp t p) s) (n.setPort p { s.port p with link := .up })) ∧
     (s.resetCloses = true → Ends (exec (.linkUp t p) s) n)) ∧
  (∀ s : State, allBanksShut s = true ↔ ∀ b, (s.bank b).state = .closed ∨ (s.bank b).state = .refreshing)

/-! ### Egress -/

/-- The egress begins its next packet: the pending notice first raised, with the epoch of this moment, or else the answer or refusal placed
first; and none where it may not begin. The end of a sending gives back the place or the slot of the packet, and changes nothing else; a
pause and a resume change the pause alone, and a pause on a DOWN link changes nothing (log entry 17). The bytes of every packet the part
sends: its header, the header check of R167, and the codes of R173; that bits 3 to 6 of info 1 of a FAULT are 0 is the model's choice (log
entry 25). The places and the slots that are taken. -/
def Obligations.EgressSends : Prop :=
  (∀ (t : Time) (p : Port) (s : State),
     let n := { s with now := max s.now t }
     let q := s.port p
     let o := exec (.egressSendBegin t p) s
     (q.link = .up → q.paused = false → q.sending = none → q.session ≠ .detaching →
       (∀ m ms, q.notices = m :: ms → Ends o (n.setPort p { q with sending := some (.notice m q.epoch), notices := ms })) ∧
       (∀ a as, q.notices = [] → q.outbox = a :: as → Ends o (n.setPort p { q with sending := some (.answer a), outbox := as })) ∧
       (q.notices = [] → q.outbox = [] → Ends o n)) ∧
     ((q.link = .down ∨ q.paused = true ∨ q.sending ≠ none ∨ q.session = .detaching) → Ends o n)) ∧
  (∀ (t : Time) (p : Port) (s : State),
     let n := { s with now := max s.now t }
     Ends (exec (.egressSendEnd t p) s) (n.setPort p { s.port p with sending := none }) ∧
     (∀ tag res ep i0 i1 payload, (s.port p).sending = some (.answer (.response tag res ep i0 i1 payload)) →
       ({ s.port p with sending := none } : PortState).placesTaken + 1 = (s.port p).placesTaken) ∧
     (∀ tag res ep, (s.port p).sending = some (.answer (.refusal tag res ep)) →
       ({ s.port p with sending := none } : PortState).slotsTaken + 1 = (s.port p).slotsTaken) ∧
     ((s.port p).link = .up → Ends (exec (.egressPause t p) s) (n.setPort p { s.port p with paused := true })) ∧
     ((s.port p).link = .down → Ends (exec (.egressPause t p) s) n) ∧
     Ends (exec (.egressResume t p) s) (n.setPort p { s.port p with paused := false })) ∧
  (let closed (h : List Byte) : List Byte := h ++ [headerCheck h]
   (∀ tag res ep i0 i1 payload, Packet.bytes (.answer (.response tag res ep i0 i1 payload)) =
     closed [0x01, tag.setWidth 8, res.code, ep, i0, i1, 0x00] ++ payload) ∧
   (∀ tag res ep, Packet.bytes (.answer (.refusal tag res ep)) = closed [0x02, tag.setWidth 8, res.code, ep, 0x00, 0x00, 0x00]) ∧
   (∀ ep,
     let notice (n : Notice) (kind i0 i1 : Byte) : Prop := Packet.bytes (.notice n ep) = closed [0x03, 0xFF, kind, ep, i0, i1, 0x00]
     (∀ b, notice (.revoked b .contention) 0x01 (bankByte b) 0x01 ∧ notice (.revoked b .refresh) 0x01 (bankByte b) 0x02 ∧
       notice (.revoked b .window) 0x01 (bankByte b) 0x03 ∧ notice (.releaseRequest b) 0x02 (bankByte b) 0x00) ∧
     (∀ k n overflow, n ≤ 4 → ∃ i1 : Byte, notice (.fault k n overflow) 0x03 k.code i1 ∧ i1.toNat = n + (if overflow then 128 else 0)) ∧
     notice .claimLost 0x04 0x00 0x00 ∧
     notice (.thermal .cool) 0x05 0x00 0x00 ∧ notice (.thermal .normal) 0x05 0x01 0x00 ∧ notice (.thermal .hot) 0x05 0x02 0x00 ∧
     notice (.retention false) 0x06 0x00 0x00 ∧ notice (.retention true) 0x06 0x01 0x00) ∧
   (∀ b : Bank, (bankByte b).toNat = b.toNat) ∧
   [Result.ok, .granted, .data, .suspect, .rejected, .notAttached, .badState, .badArgument, .badKind, .denied, .duplicate, .limit, .noLease,
     .wrongMode, .timeout, .cancelled, .tooLate, .notFound, .claimed, .notClaimed, .full, .dupTag, .report].map Result.code =
     [0x01, 0x02, 0x03, 0x04, 0x05, 0x06, 0x07, 0x08, 0x09, 0x0A, 0x0B, 0x0C, 0x0D, 0x0E, 0x0F, 0x10, 0x11, 0x12, 0x13, 0x14, 0x15, 0x16,
       0x17]) ∧
  (∃ step : Byte → Bool → Byte,
    (∀ r bit, step r bit = if bit = r.getLsbD 7 then r <<< 1 else (r <<< 1) ^^^ 0x2F) ∧
    (∀ bytes, headerCheck bytes =
      (bytes.flatMap (fun x => [x.getLsbD 7, x.getLsbD 6, x.getLsbD 5, x.getLsbD 4, x.getLsbD 3, x.getLsbD 2, x.getLsbD 1, x.getLsbD 0])).foldl
        step 0xFF)) ∧
  (∀ q : PortState,
    let response (a : Placed) : Bool := match a with
      | .response .. => true
      | .refusal .. => false
    let sends (f : Placed → Bool) : Nat := match q.sending with
      | some (.answer a) => if f a then 1 else 0
      | _ => 0
    q.placesTaken = q.inFlight.length + (q.outbox.filter response).length + sends response ∧
    q.slotsTaken = (q.outbox.filter (fun a => !response a)).length + sends (fun a => !response a))

/-! ### Leases -/

/-- The head group of a waiting list. -/
def Obligations.HeadGroup : Prop :=
  headGroup [] = [] ∧
  ∀ (w : Waiter) (ws : List Waiter),
    (w.mode = .write → headGroup (w :: ws) = [w]) ∧
    (w.mode = .read →
      ∃ same rest, ws = same ++ rest ∧ headGroup (w :: ws) = w :: same ∧ (∀ v ∈ same, v.mode = .read ∧ v.row = w.row) ∧
        (∀ v vs, rest = v :: vs → ¬(v.mode = .read ∧ v.row = w.row))) ∧
    (((w :: ws).map (·.port)).Nodup → (headGroup (w :: ws)).length ≤ 4) ∧
    (∀ v ∈ headGroup (w :: ws), v.mode = w.mode ∧ v.row = w.row) ∧
    headGroup (w :: ws) ++ behindHeadGroup (w :: ws) = w :: ws

/-- The three checks of an OPEN, in order: DENIED, DUPLICATE, LIMIT; a refused OPEN changes nothing but its port's answers. The lease count:
the banks at which the port is a holder, a pending grantee or a waiter. -/
def Obligations.OpenRefused : Prop :=
  (∀ (t : Time) (p : Port) (tag : Tag) (b : Bank) (row : Row) (mode : Mode) (s u : State),
     atDispatch t p ⟨tag, .openRow b row mode⟩ [] s = some u → (u.port p).session = .attached →
     let o := exec (.openRow t p tag b row mode) s
     (covered u p b row mode = false → Ends o (answer p tag .denied (bankByte b) 0 [] u)) ∧
     (covered u p b row mode = true → (u.bank b).involves p = true → Ends o (answer p tag .duplicate 0 0 [] u)) ∧
     (covered u p b row mode = true → (u.bank b).involves p = false → u.settings.leaseLimit.get p ≤ leaseCount u p →
       Ends o (answer p tag .limit 0 0 [] u))) ∧
  (∀ (p : Port) (s : State), leaseCount s p = (Bank.all.filter (fun b => (s.bank b).involves p)).length) ∧
  (∀ (p : Port) (e : BankEntry),
    e.involves p = true ↔ e.holders.get p ≠ none ∨ (∃ g ∈ e.grantees, g.port = p) ∨ ∃ w ∈ e.waiting, w.port = p)

/-- An OPEN of a CLOSED bank with an empty list in a set not under pressure is granted on arrival. A READ OPEN joins an OPEN READ bank on
its row, or an OPENING one, where nobody waits and there is no pressure. -/
def Obligations.OpenGrantedOrJoins : Prop :=
  (∀ (t : Time) (p : Port) (tag : Tag) (b : Bank) (row : Row) (mode : Mode) (s u : State),
     atDispatch t p ⟨tag, .openRow b row mode⟩ [] s = some u → (u.port p).session = .attached →
     covered u p b row mode = true → (u.bank b).involves p = false → leaseCount u p < u.settings.leaseLimit.get p →
     (u.bank b).state = .closed → (u.bank b).waiting = [] → pressure u b.set = false →
     let w := { u.setBank b { u.bank b with
         state := .opening, row := some row, mode := some mode
         grantees := [{ port := p, tag := tag, carried := u.now + us u.settings.waitLimit }] } with
       workList := u.workList ++ [.openRow b row] }
     Ends (exec (.openRow t p tag b row mode) s) w ∧ leaseCount w p = leaseCount u p + 1) ∧
  (∀ (t : Time) (p : Port) (tag : Tag) (b : Bank) (row : Row) (s u : State),
     atDispatch t p ⟨tag, .openRow b row .read⟩ [] s = some u → (u.port p).session = .attached →
     covered u p b row .read = true → (u.bank b).involves p = false → leaseCount u p < u.settings.leaseLimit.get p →
     (u.bank b).mode = some .read → (u.bank b).row = some row → (u.bank b).waiting = [] → pressure u b.set = false →
     let o := exec (.openRow t p tag b row .read) s
     ((u.bank b).state = .opened →
       Ends o (answer p tag .granted (bankByte b) 0x00 []
         (u.setBank b { u.bank b with holders := (u.bank b).holders.set p (some tag) }))) ∧
     ((u.bank b).state = .opening →
       Ends o (u.setBank b { u.bank b with
         grantees := (u.bank b).grantees ++ [{ port := p, tag := tag, carried := u.now + us u.settings.waitLimit }] })))

/-- Every other OPEN that passes its checks waits: it is appended with its wait deadline, an OPEN bank that had an empty list gains its
contention deadline, and nothing is answered. -/
def Obligations.OpenWaits : Prop :=
  ∀ (t : Time) (p : Port) (tag : Tag) (b : Bank) (row : Row) (mode : Mode) (s u : State),
    atDispatch t p ⟨tag, .openRow b row mode⟩ [] s = some u → (u.port p).session = .attached →
    covered u p b row mode = true → (u.bank b).involves p = false → leaseCount u p < u.settings.leaseLimit.get p →
    ((u.bank b).waiting ≠ [] ∨ pressure u b.set = true ∨ (u.bank b).state = .draining ∨ (u.bank b).state = .closing ∨
      (u.bank b).state = .refreshing ∨
      (((u.bank b).state = .opened ∨ (u.bank b).state = .opening) ∧
        (mode = .write ∨ (u.bank b).mode ≠ some .read ∨ (u.bank b).row ≠ some row))) →
    let w := u.setBank b { u.bank b with
      waiting := (u.bank b).waiting ++ [{ port := p, tag := tag, row := row, mode := mode, deadline := u.now + us u.settings.waitLimit }]
      contention :=
        if (u.bank b).state = .opened then some ((u.bank b).contention.getD (u.now + us u.settings.holdLimit)) else none }
    Ends (exec (.openRow t p tag b row mode) s) w ∧ leaseCount w p = leaseCount u p + 1

/-- RELEASE by a holder: OK; the bank stays OPEN for the others, or drains once the last has gone and settles if nothing is pending. By any
other port: NO-LEASE and nothing else. -/
def Obligations.ReleaseEndsTheLease : Prop :=
  ∀ (t : Time) (p : Port) (tag : Tag) (b : Bank) (s u : State),
    atDispatch t p ⟨tag, .release b⟩ [] s = some u → (u.port p).session = .attached →
    let o := exec (.release t p tag b) s
    let left := (u.bank b).holders.set p none
    (holdsLease u p b = false → Ends o (answer p tag .noLease 0 0 [] u)) ∧
    (holdsLease u p b = true →
      (left ≠ PerPort.const none → Ends o (answer p tag .ok 0 0 [] (u.setBank b { u.bank b with holders := left }))) ∧
      (left = PerPort.const none →
        let d := answer p tag .ok 0 0 [] (u.setBank b { u.bank b with holders := left, state := .draining, mode := none, contention := none })
        (pendingTransfers u b ≠ 0 → Ends o d) ∧ (pendingTransfers u b = 0 → Ends o (settle b d))))

/-- A DRAINING bank with nothing pending keeps its row for the head group where the head names it and the set is not under pressure. A
DRAINING bank with nothing pending closes where its set is under pressure, its list is empty or its head names another row; with transfers
pending it does not settle. -/
def Obligations.SettleKeepsTheRowOrCloses : Prop :=
  (∀ (b : Bank) (s : State) (w : Waiter) (ws : List Waiter),
     (s.bank b).state = .draining → pendingTransfers s b = 0 → (s.bank b).waiting = w :: ws → pressure s b.set = false →
     (s.bank b).row = some w.row → (s.bank b).contention = none → ((w :: ws).map (·.port)).Nodup →
     let v := settle b s
     let rest := behindHeadGroup (w :: ws)
     v = { s with banks := v.banks, ports := v.ports } ∧ (∀ c, c ≠ b → v.bank c = s.bank c) ∧
     v.bank b = { s.bank b with
       state := .opened, mode := some w.mode, waiting := rest, holders := (v.bank b).holders
       contention := if rest = [] then none else some (s.now + us s.settings.holdLimit) } ∧
     GroupGranted b w.mode ((headGroup (w :: ws)).map (fun w => (w.port, w.tag))) s v) ∧
  (∀ (b : Bank) (s : State), (s.bank b).state = .draining →
     (pendingTransfers s b ≠ 0 → settle b s = s) ∧
     (pendingTransfers s b = 0 →
       (pressure s b.set = true ∨ (s.bank b).waiting = [] ∨
         (∃ w ws, (s.bank b).waiting = w :: ws ∧ (s.bank b).row ≠ some w.row)) →
       settle b s = { s.setBank b { s.bank b with state := .closing, mode := none } with workList := s.workList ++ [.close b] }))

/-- The serve rule at a CLOSED bank, at an OPEN READ bank, and at every other. -/
def Obligations.ServeRule : Prop :=
  ∀ (b : Bank) (s : State),
    (pressure s b.set = true ∨ (s.bank b).waiting = [] → serve b s = s) ∧
    ((s.bank b).state ≠ .closed → (s.bank b).state ≠ .opened → serve b s = s) ∧
    (∀ w ws, (s.bank b).waiting = w :: ws → pressure s b.set = false →
      ((s.bank b).state = .closed →
        serve b s = { s.setBank b { s.bank b with
            state := .opening, row := some w.row, mode := some w.mode, waiting := behindHeadGroup (w :: ws)
            grantees := (headGroup (w :: ws)).map (fun v => { port := v.port, tag := v.tag, carried := v.deadline }) } with
          workList := s.workList ++ [.openRow b w.row] }) ∧
      ((s.bank b).state = .opened →
        (¬((s.bank b).mode = some .read ∧ w.mode = .read ∧ (s.bank b).row = some w.row) → serve b s = s) ∧
        ((s.bank b).mode = some .read → w.mode = .read → (s.bank b).row = some w.row → ((w :: ws).map (·.port)).Nodup →
          (s.bank b).contention ≠ none →
          let v := serve b s
          let rest := behindHeadGroup (w :: ws)
          v = { s with banks := v.banks, ports := v.ports } ∧ (∀ c, c ≠ b → v.bank c = s.bank c) ∧
          v.bank b = { s.bank b with
            waiting := rest, holders := (v.bank b).holders, contention := if rest = [] then none else (s.bank b).contention } ∧
          GroupGranted b .read ((headGroup (w :: ws)).map (fun w => (w.port, w.tag))) s v)))

/-- CANCEL, by where its target tag is found. -/
def Obligations.CancelByWhereTheTagIs : Prop :=
  ∀ (t : Time) (p : Port) (tag : Tag) (target : Byte) (s u : State),
    atDispatch t p ⟨tag, .cancel target⟩ [] s = some u → (u.port p).session = .attached →
    let o := exec (.cancel t p tag target) s
    (64 ≤ target.toNat → Ends o (answer p tag .notFound 0 0 [] u)) ∧
    (∀ k : Tag, target = k.setWidth 8 →
      (∀ b w, w ∈ (u.bank b).waiting → w.port = p → w.tag = k →
        (∀ c v, v ∈ (u.bank c).waiting → v.port = p → v.tag = k → c = b) →
        Ends o (answer p tag .ok 0 0 [] (withdrawWaiter b p (answer p k .cancelled (bankByte b) 0 []) u))) ∧
      ((∀ b w, w ∈ (u.bank b).waiting → ¬(w.port = p ∧ w.tag = k)) →
        ((∃ b, (∃ g ∈ (u.bank b).grantees, g.port = p ∧ g.tag = k) ∨ (u.bank b).holders.get p = some k) →
          Ends o (answer p tag .tooLate 0 0 [] u)) ∧
        ((∀ b, (∀ g ∈ (u.bank b).grantees, ¬(g.port = p ∧ g.tag = k)) ∧ (u.bank b).holders.get p ≠ some k) →
          Ends o (answer p tag .notFound 0 0 [] u))))

/-- The expiry of a wait deadline answers TIMEOUT and takes the entry out; where there is no such entry nothing occurs (log entry 3). A waiting entry
that leaves with an answer: the others keep their order, the contention deadline ends with the list and is otherwise kept, and the bank is
served if the entry was the head. -/
def Obligations.WaitDeadlineExpiry : Prop :=
  (∀ (b : Bank) (p : Port) (s : State),
     (∀ w before after, (s.bank b).waiting = before ++ w :: after → w.port = p → (∀ v ∈ before, v.port ≠ p) →
       Ends (exec (.waitDeadlineExpiry b p) s)
         (withdrawWaiter b p (answer p w.tag .timeout (bankByte b) 0 []) { s with now := max s.now w.deadline })) ∧
     ((∀ w ∈ (s.bank b).waiting, w.port ≠ p) → exec (.waitDeadlineExpiry b p) s = .next s)) ∧
  (∀ (b : Bank) (p : Port) (tag : Tag) (res : Result) (s : State),
     ((s.bank b).contention ≠ none ↔ ((s.bank b).state = .opened ∧ (s.bank b).waiting ≠ [])) →
     let rest := (s.bank b).waiting.filter (fun w => !decide (w.port = p))
     let v := answer p tag res (bankByte b) 0 []
       (s.setBank b { s.bank b with waiting := rest, contention := if rest = [] then none else (s.bank b).contention })
     ((∃ w ws, (s.bank b).waiting = w :: ws ∧ w.port = p) →
       withdrawWaiter b p (answer p tag res (bankByte b) 0 []) s = serve b v) ∧
     ((∀ w ws, (s.bank b).waiting = w :: ws → w.port ≠ p) →
       withdrawWaiter b p (answer p tag res (bankByte b) 0 []) s = v))

/-- The expiry of a contention deadline revokes every holder with CONTENTION, and the bank drains; a deadline that is absent cannot run
out, and its command leaves the state unchanged (log entry 3). -/
def Obligations.ContentionDeadlineExpiry : Prop :=
  ∀ (b : Bank) (s : State),
    ((s.bank b).contention = none → exec (.contentionDeadlineExpiry b) s = .next s) ∧
    (∀ d, (s.bank b).contention = some d → (s.bank b).state = .opened →
      ∃ n : PerPort PortState,
        (∀ p, n.get p =
          if (s.bank b).isHolder p = true ∧ (s.port p).session = .attached then
            { s.port p with notices := mergeNotice (.revoked b .contention) (s.port p).notices }
          else s.port p) ∧
        Ends (exec (.contentionDeadlineExpiry b) s)
          (settle b ({ s with now := max s.now d, ports := n }.setBank b
            { s.bank b with holders := PerPort.const none, state := .draining, mode := none, contention := none })))

/-! ### Transfers -/

/-- READ: BAD-ARGUMENT, NO-LEASE, or one transfer placed last in the work list. The lease check, and the count of a bank's pending transfers. -/
def Obligations.ReadPlacesOneTransfer : Prop :=
  (∀ (t : Time) (p : Port) (tag : Tag) (b : Bank) (first : BitVec 5) (less1 : BitVec 3) (s u : State),
     let count := less1.toNat + 1
     atDispatch t p ⟨tag, .readLines b first count⟩ [] s = some u → (u.port p).session = .attached →
     let o := exec (.readLines t p tag b first less1) s
     (32 < first.toNat + count → Ends o (answer p tag .badArgument 0 0 [] u)) ∧
     (first.toNat + count ≤ 32 → holdsLease u p b = false → Ends o (answer p tag .noLease 0 0 [] u)) ∧
     (first.toNat + count ≤ 32 → holdsLease u p b = true →
       let w := { u with workList := u.workList ++
         [.xfer { bank := b, port := p, tag := tag, dir := .read, first := first.toNat, count := count }] }
       Ends o w ∧ pendingTransfers w b = pendingTransfers u b + 1)) ∧
  (∀ (p : Port) (b : Bank) (s : State), holdsLease s p b = true ↔ (s.bank b).state = .opened ∧ (s.bank b).holders.get p ≠ none) ∧
  (∀ (b : Bank) (s : State), pendingTransfers s b =
    (s.workList.filter (fun i => match i with
      | .xfer x => decide (x.bank = b)
      | _ => false)).length
    + (match s.path with
      | some { op := .xfer x _, .. } => if x.bank = b then 1 else 0
      | _ => 0))

/-- WRITE refused for what it asked: BAD-ARGUMENT, NO-LEASE or WRONG-MODE in this order, its staged lines freed and no fault recorded. The
payload length its header calls for. -/
def Obligations.WriteRefused : Prop :=
  (∀ (t : Time) (p : Port) (tag : Tag) (b : Bank) (masked : Bool) (first : BitVec 5) (less1 : BitVec 3) (payload : List Byte) (s u : State),
     let body := writeBody b masked first less1 payload
     atDispatch t p ⟨tag, body.1⟩ body.2 s = some u → (u.port p).session = .attached →
     let o := exec (.writeLines t p tag b masked first less1 payload) s
     let freed := { u with staging := u.staging.filter (fun w => !decide (w.port = p ∧ w.tag = tag)) }
     ((payload.length ≠ writePayloadLength masked less1 ∨ 32 < first.toNat + (less1.toNat + 1)) →
       Ends o (answer p tag .badArgument 0 0 [] freed)) ∧
     (payload.length = writePayloadLength masked less1 → first.toNat + (less1.toNat + 1) ≤ 32 →
       (holdsLease u p b = false → Ends o (answer p tag .noLease 0 0 [] freed)) ∧
       (holdsLease u p b = true → (u.bank b).mode ≠ some .write → Ends o (answer p tag .wrongMode 0 0 [] freed)))) ∧
  (∀ less1 : BitVec 3, writePayloadLength false less1 = 66 * (less1.toNat + 1) ∧ writePayloadLength true less1 = 74 * (less1.toNat + 1))

/-- The Write Check of a WRITE that passes its checks: all lines good, one transfer is placed; a bad line of a guarded WRITE, REJECTED with
its record and nothing committed; a bad line of an unguarded one, the transfer placed as suspect with its record. The item's reference to
its staged lines, by port and tag, and its suspect bit are the model's (log entries 10 and 11). -/
def Obligations.WriteChecked : Prop :=
  ∀ (t : Time) (p : Port) (tag : Tag) (b : Bank) (masked : Bool) (first : BitVec 5) (less1 : BitVec 3) (payload : List Byte) (s u : State)
    (guarded : Bool) (lines : List StagedLine),
    let body := writeBody b masked first less1 payload
    let count := less1.toNat + 1
    atDispatch t p ⟨tag, body.1⟩ body.2 s = some u → (u.port p).session = .attached →
    payload.length = writePayloadLength masked less1 → first.toNat + count ≤ 32 → holdsLease u p b = true →
    (u.bank b).mode = some .write →
    u.staging.filter (fun w => decide (w.port = p ∧ w.tag = tag)) = [{ port := p, tag := tag, guarded := guarded, lines := lines }] →
    let o := exec (.writeLines t p tag b masked first less1 payload) s
    let item (suspect : Bool) : WorkItem :=
      .xfer { bank := b, port := p, tag := tag, dir := .write p tag suspect, first := first.toNat, count := count }
    let fault (k : FaultKind) (i : Nat) : FaultRecord :=
      { kind := k, bank := some b, row := (u.bank b).row, line := some (first.toNat + i), tag := some tag, set := none }
    ((∀ l ∈ lines, l.good = true) → Ends o { u with workList := u.workList ++ [item false] }) ∧
    (∀ good l rest, lines = good ++ l :: rest → (∀ k ∈ good, k.good = true) → l.good = false →
      (guarded = true →
        Ends o (answer p tag .rejected 0 0 [] (recordFault p (fault .rejectedWrite good.length)
          { u with staging := u.staging.filter (fun w => !decide (w.port = p ∧ w.tag = tag)) }))) ∧
      (guarded = false →
        Ends o (recordFault p (fault .suspectWrite good.length) { u with workList := u.workList ++ [item true] })))

/-- A read transfer completes: DATA with the lines and their generated checks to an ATTACHED port, and nothing to any other; then the
settle of a DRAINING bank, and the end of DETACHING. A write transfer completes: its lines are in the open row, its staged lines are freed,
and an ATTACHED port is answered OK, or SUSPECT. The end of a port's DETACHING: DETACHED, and its DETACH is answered OK if it is still in
flight. -/
def Obligations.TransferCompletes : Prop :=
  (∀ (x : Xfer) (lines : List StagedLine) (d : Time) (r : Row) (s : State),
     s.path = some { op := .xfer x lines, completes := d } → x.dir = .read → s.openRows.get x.bank = some r →
     let n := { s with
       now := max s.now d, path := none
       freeCount := if (s.account x.bank.set).lossFlag then s.freeCount + 1 else s.freeCount }
     let payload := (List.range x.count).flatMap (fun k => dataLine (readLine s x.bank r (x.first + k)))
     ((s.port x.port).session = .attached →
       Ends (exec .xferCompletion s) (settle x.bank (answer x.port x.tag .data (bankByte x.bank) (byteOf x.count) payload n)) ∧
       payload.length = 66 * x.count) ∧
     ((s.port x.port).session = .detached → Ends (exec .xferCompletion s) (settle x.bank n)) ∧
     ((s.port x.port).session = .detaching → Ends (exec .xferCompletion s) (endDetaching x.port (settle x.bank n)))) ∧
  (∀ (x : Xfer) (lines : List StagedLine) (suspect : Bool) (q : Port) (tag : Tag) (d : Time) (r : Row) (s : State),
     s.path = some { op := .xfer x lines, completes := d } → x.dir = .write q tag suspect → s.openRows.get x.bank = some r →
     let n := { s with
       now := max s.now d, path := none
       array := commitLines x.bank r x.first lines s.array
       staging := s.staging.filter (fun w => !decide (w.port = q ∧ w.tag = tag)) }
     ((s.port x.port).session = .attached →
       Ends (exec .xferCompletion s)
         (settle x.bank (answer x.port x.tag (if suspect then .suspect else .ok) 0 0 [] n))) ∧
     ((s.port x.port).session = .detached → Ends (exec .xferCompletion s) (settle x.bank n)) ∧
     ((s.port x.port).session = .detaching → Ends (exec .xferCompletion s) (endDetaching x.port (settle x.bank n)))) ∧
  (∀ (p : Port) (s : State), (s.port p).session = .detaching →
     ((s.port p).detachTag = none → endDetaching p s = s.setPort p { s.port p with session := .detached, detachTag := none }) ∧
     (∀ tag, (s.port p).detachTag = some tag →
       endDetaching p s =
         answer p tag .ok 0 0 [] (s.setPort p { s.port p with session := .detached, detachTag := none })))

/-- What a read takes from the array after staged lines have been committed to a row: a byte under a set mask bit is the line's data byte,
and every other byte is what it was. A line of DATA, taken as a WRITE line by a master that sends it back, is the same 64 bytes with a good
check. How a WRITE payload is cut into lines, masked or not, which mask bit is whose, and the line check (R66, R75, R170). No two bytes of
the array have one address. -/
def Obligations.LinesInTheArray : Prop :=
  (∀ (b : Bank) (r : Row) (first : Nat) (lines : List StagedLine) (s : State),
     arrayGood s = true → first + lines.length ≤ 32 → (∀ l ∈ lines, l.data.length = 64) → (s.account b.set).lossFlag = false →
     let v := { s with array := commitLines b r first lines s.array }
     (∀ k l i, lines[k]? = some l → i < 64 →
       (l.writes i = true → some (arrayByte v (lineAddress b r (first + k) + i)) = l.data[i]?) ∧
       (l.writes i = false → arrayByte v (lineAddress b r (first + k) + i) = arrayByte s (lineAddress b r (first + k) + i))) ∧
     (∀ a, ¬(lineAddress b r first ≤ a ∧ a < lineAddress b r first + 64 * lines.length) → arrayByte v a = arrayByte s a)) ∧
  (∀ bytes rest : List Byte, bytes.length = 64 →
     ∃ l, payloadLines false 1 (dataLine bytes ++ rest) = [l] ∧ l.data = bytes ∧ l.mask = none ∧ l.good = true ∧
       (dataLine bytes).length = 66) ∧
  (∀ (data mask rest : List Byte) (hi lo : Byte) (n : Nat), data.length = 64 →
     (mask.length = 8 →
       ∃ l, payloadLines true (n + 1) (data ++ mask ++ [hi, lo] ++ rest) = l :: payloadLines true n rest ∧
         l.data = data ∧ l.mask = some mask ∧ l.check = hi ++ lo ∧ (l.good = true ↔ lineCheck (data ++ mask) = hi ++ lo) ∧
         (∀ i m, mask[i / 8]? = some m → l.writes i = m.getLsbD (i % 8))) ∧
     (∃ l, payloadLines false (n + 1) (data ++ [hi, lo] ++ rest) = l :: payloadLines false n rest ∧
       l.data = data ∧ l.mask = none ∧ l.check = hi ++ lo ∧ (l.good = true ↔ lineCheck data = hi ++ lo) ∧ (∀ i, l.writes i = true))) ∧
  (∃ step : BitVec 16 → Bool → BitVec 16,
     (∀ r bit, step r bit = if bit = r.getLsbD 15 then r <<< 1 else (r <<< 1) ^^^ 0x3D65) ∧
     (∀ bytes, lineCheck bytes =
       (bytes.flatMap (fun x => [x.getLsbD 7, x.getLsbD 6, x.getLsbD 5, x.getLsbD 4, x.getLsbD 3, x.getLsbD 2, x.getLsbD 1, x.getLsbD 0])).foldl
         step 0xFFFF)) ∧
  (∀ (b c : Bank) (r q : Row) (k m i j : Nat), k < 32 → m < 32 → i < 64 → j < 64 →
     lineAddress b r k + i = lineAddress c q m + j → b = c ∧ r = q ∧ k = m ∧ i = j) ∧
  (∀ (b : Bank) (r : Row) (k : Nat) (s : State), (readLine s b r k).length = 64 ∧
     ∀ i, i < 64 → (readLine s b r k)[i]? = some (arrayByte s (lineAddress b r k + i)))

/-! ### HOLD and STATUS -/

/-- HOLD: its port's vote is set (at its admission, R106), and at its dispatch it is answered OK and changes nothing else. The five items of
STATUS at a port that is DETACHED or ATTACHED: REPORT with the item and its payload, and nothing else; the vote is as it was. The bytes of a
bank in BANKS and of a fault record in FAULTS, the numbers of every code in them, and the bytes of a number (R173, R174). -/
def Obligations.HoldAndStatus : Prop :=
  (∀ (t : Time) (p : Port) (tag : Tag) (s u : State), atDispatch t p ⟨tag, .hold⟩ [] s = some u → (u.port p).session = .attached →
     (u.port p).vote = true ∧ Ends (exec (.hold t p tag) s) (answer p tag .ok 0 0 [] u)) ∧
  (∀ (t : Time) (p : Port) (tag : Tag) (s u : State),
     let at_ (item : Byte) : Prop := atDispatch t p ⟨tag, .status item⟩ [] s = some u
     let report (item : Byte) (payload : List Byte) : State := answer p tag .report item 0 payload u
     let port (q : Port) : List Byte := [(u.port q).session.code, (u.port q).epoch, byteOfBool (u.port q).vote, 0x00]
     let set (x : BankSet) : List Byte :=
       [BitVec.ofInt 8 (u.account x).balance] ++ bytes2 (u.account x).sweep.toNat
         ++ bytes2 (((u.account x).nextTick - u.now) / 1000) ++ [byteOfBool (u.account x).lossFlag, 0x00, 0x00]
     (∀ item, at_ item → (u.port p).vote = (s.port p).vote) ∧
     (at_ 0x01 → Ends (exec (.statusPorts t p tag) s) (report 0x01 (port .p0 ++ port .p1 ++ port .p2 ++ port .p3))) ∧
     (at_ 0x02 → Ends (exec (.statusBanks t p tag) s) (report 0x02 (Bank.all.flatMap (fun b => bankPayload (u.bank b))))) ∧
     (at_ 0x03 → Ends (exec (.statusRefresh t p tag) s)
       (report 0x03 (set .a ++ set .b ++ [u.band.code, BitVec.ofInt 8 u.lastTemp, u.retention.code, 0x00]))) ∧
     (at_ 0x04 → Ends (exec (.statusFaults t p tag) s)
       (report 0x04 ([byteOf (u.port p).faults.length, byteOfBool (u.port p).overflow] ++ (u.port p).faults.flatMap FaultRecord.bytes))) ∧
     (at_ 0x05 → Ends (exec (.statusClaim t p tag) s)
       (report 0x05
         (match u.claim with
           | none => [0xFF, 0, 0, 0, 0, 0, 0, 0]
           | some h => [byteOf h.holder.toNat] ++ bytes4 ((h.expires - u.now) / 1000000) ++ [0, 0, 0])))) ∧
  ((∀ e : BankEntry,
     let has (p : Port) : Bool := if e.state = .opening then e.grantees.any (fun g => decide (g.port = p)) else (e.holders.get p).isSome
     ∃ map : Byte, bankPayload e = [e.state.code] ++ ((e.row.map (fun r => bytes2 r.toNat)).getD [0xFF, 0xFF])
         ++ [(e.mode.map modeCode).getD 0xFF, map, byteOf e.waiting.length] ∧
       (∀ p : Port, map.getLsbD p.toNat = has p) ∧ map.toNat < 16 ∧ (bankPayload e).length = 6) ∧
   (∀ f : FaultRecord,
     ∃ present : Byte, f.bytes = [f.kind.code, present, (f.bank.map bankByte).getD 0] ++ bytes2 ((f.row.map BitVec.toNat).getD 0)
         ++ [(f.line.map byteOf).getD 0, (f.tag.map (fun t => t.setWidth 8)).getD 0, (f.set.map setCode).getD 0] ∧
       present.getLsbD 0 = f.bank.isSome ∧ present.getLsbD 1 = f.row.isSome ∧ present.getLsbD 2 = f.line.isSome ∧
       present.getLsbD 3 = f.tag.isSome ∧ present.getLsbD 4 = f.set.isSome ∧ present.toNat < 32 ∧ f.bytes.length = 8)) ∧
  ([Session.detached, .attached, .detaching].map Session.code = [0x00, 0x01, 0x02] ∧
   [BankState.closed, .opening, .opened, .draining, .closing, .refreshing].map BankState.code = [0x00, 0x01, 0x02, 0x03, 0x04, 0x05] ∧
   [Mode.read, .write].map modeCode = [0x00, 0x01] ∧ [Band.cool, .normal, .hot].map Band.code = [0x00, 0x01, 0x02] ∧
   (∀ d, [Retention.active, .entering, .retained, .waking d].map Retention.code = [0x00, 0x01, 0x02, 0x03]) ∧
   [FaultKind.rejectedWrite, .suspectWrite, .header, .flood, .retentionLoss].map FaultKind.code = [0x01, 0x02, 0x03, 0x04, 0x05] ∧
   [BankSet.a, .b].map setCode = [0x00, 0x01] ∧ byteOfBool false = 0x00 ∧ byteOfBool true = 0x01 ∧
   (∀ n < 256, (byteOf n).toNat = n) ∧ (∀ n < 65536, (bytes2 n).map BitVec.toNat = [n / 256, n % 256]) ∧
   (∀ n < 4294967296, (bytes4 n).map BitVec.toNat = [n / 16777216, n / 65536 % 256, n / 256 % 256, n % 256]))

/-! ### The configuration claim, the settings and the windows -/

/-- CLAIM, by the claim holder it finds. UNCLAIM by the holder frees the claim; by any other port, or with the claim free, it is refused
NOT-CLAIMED. -/
def Obligations.ClaimAndUnclaim : Prop :=
  (∀ (t : Time) (p : Port) (tag : Tag) (s u : State), atDispatch t p ⟨tag, .claim⟩ [] s = some u → (u.port p).session = .attached →
     let o := exec (.claim t p tag) s
     (u.claim = none → Ends o (answer p tag .ok 0 0 [] { u with claim := some { holder := p, expires := u.now + ms u.settings.claimLimit } })) ∧
     (∀ e, u.claim = some { holder := p, expires := e } →
       Ends o (answer p tag .ok 0 0 [] { u with claim := some { holder := p, expires := u.now + ms u.settings.claimLimit } })) ∧
     (∀ q e, u.claim = some { holder := q, expires := e } → q ≠ p → Ends o (answer p tag .claimed 0 0 [] u))) ∧
  (∀ (t : Time) (p : Port) (tag : Tag) (s u : State), atDispatch t p ⟨tag, .unclaim⟩ [] s = some u → (u.port p).session = .attached →
     let o := exec (.unclaim t p tag) s
     (∀ e, u.claim = some { holder := p, expires := e } → Ends o (answer p tag .ok 0 0 [] { u with claim := none })) ∧
     (u.claim = none → Ends o (answer p tag .notClaimed 0 0 [] u)) ∧
     (∀ q e, u.claim = some { holder := q, expires := e } → q ≠ p → Ends o (answer p tag .notClaimed 0 0 [] u)))

/-- The expiry of the claim frees it and raises CLAIM-LOST at the former holder; with no holder nothing occurs (log entry 3). -/
def Obligations.ClaimExpiry : Prop :=
  ∀ s : State,
    (s.claim = none → exec .claimExpiry s = .next s) ∧
    (∀ q e, s.claim = some { holder := q, expires := e } → (s.port q).session = .attached →
      Ends (exec .claimExpiry s)
        ({ s with now := max s.now e, claim := none }.setPort q { s.port q with notices := mergeNotice .claimLost (s.port q).notices }))

/-- Without the claim every SET and every WINDOW is refused NOT-CLAIMED or CLAIMED, whatever it names and whatever its payload. The three
checks of a WINDOW, in order. What no named command spells, at the session gate of an ATTACHED port: a scope, an item, a setting or a payload
that names nothing; a malformed payload is looked at after the claim (R169). -/
def Obligations.SettingRefused : Prop :=
  (∀ (t : Time) (p : Port) (tag : Tag) (target : BitVec 3) (v : BitVec 32) (c : Instr) (ident : Byte) (s u : State),
     (c, ident) ∈ [(Instr.setLeaseLimit t p tag target v, (0x01 : Byte)), (.setGuard t p tag target v, 0x02),
       (.setWaitLimit t p tag target v, 0x03), (.setHoldLimit t p tag target v, 0x04), (.setUrgency t p tag target v, 0x05),
       (.setEager t p tag target v, 0x06), (.setQuickWake t p tag target v, 0x07), (.setAutoRetain t p tag target v, 0x08),
       (.setClaimLimit t p tag target v, 0x09)] →
     atDispatch t p ⟨tag, .setSetting target ident (some v)⟩ [] s = some u → (u.port p).session = .attached →
     (u.claim = none → Ends (exec c s) (answer p tag .notClaimed 0 0 [] u)) ∧
     (∀ q e, u.claim = some { holder := q, expires := e } → q ≠ p → Ends (exec c s) (answer p tag .claimed 0 0 [] u))) ∧
  (∀ (t : Time) (p : Port) (tag : Tag) (target : BitVec 3) (index : Byte) (r : WindowRecord) (s u : State),
     atDispatch t p ⟨tag, .window target index (some r)⟩ [] s = some u → (u.port p).session = .attached →
     let o := exec (.window t p tag target index r) s
     (u.claim = none → Ends o (answer p tag .notClaimed 0 0 [] u)) ∧
     (∀ q e, u.claim = some { holder := q, expires := e } → q ≠ p → Ends o (answer p tag .claimed 0 0 [] u)) ∧
     (∀ e, u.claim = some { holder := p, expires := e } →
       ((4 ≤ target.toNat ∨ 4 ≤ index.toNat ∨
         (r.valid = true ∧ (r.lastBank.toNat < r.firstBank.toNat ∨ 7 < r.lastBank.toNat ∨ r.lastRow.toNat < r.firstRow.toNat ∨
           8191 < r.lastRow.toNat ∨ 1 < r.rights.toNat))) →
         Ends o (answer p tag .badArgument 0 0 [] u)))) ∧
  (∀ (p : Port) (tag : Tag) (u : State), (u.port p).session = .attached →
     let bad := answer p tag .badArgument 0 0 [] u
     (∀ scope : BitVec 2, 2 ≤ scope.toNat → gate p ⟨tag, .clearFaults scope⟩ u = bad) ∧
     (∀ item : Byte, (item.toNat = 0 ∨ 6 ≤ item.toNat) → gate p ⟨tag, .status item⟩ u = bad) ∧
     (∀ e, u.claim = some { holder := p, expires := e } →
       (∀ target ident, gate p ⟨tag, .setSetting target ident none⟩ u = bad) ∧
       (∀ target (ident : Byte) v, (ident.toNat = 0 ∨ 10 ≤ ident.toNat) → gate p ⟨tag, .setSetting target ident (some v)⟩ u = bad) ∧
       (∀ target index, gate p ⟨tag, .window target index none⟩ u = bad)) ∧
     (u.claim = none →
       (∀ target ident value, gate p ⟨tag, .setSetting target ident value⟩ u = answer p tag .notClaimed 0 0 [] u) ∧
       (∀ target index record, gate p ⟨tag, .window target index record⟩ u = answer p tag .notClaimed 0 0 [] u)) ∧
     (∀ q e, u.claim = some { holder := q, expires := e } → q ≠ p →
       (∀ target ident value, gate p ⟨tag, .setSetting target ident value⟩ u = answer p tag .claimed 0 0 [] u) ∧
       (∀ target index record, gate p ⟨tag, .window target index record⟩ u = answer p tag .claimed 0 0 [] u)))

/-- SET of the two settings that each port has, by the claim holder. SET of the six device-wide settings that only take their value, by the
claim holder; the port field is not examined. -/
def Obligations.SetSettings : Prop :=
  (∀ (t e : Time) (p : Port) (tag : Tag) (target : BitVec 3) (v : BitVec 32) (s u : State),
     (u.port p).session = .attached → u.claim = some { holder := p, expires := e } →
     let bad := answer p tag .badArgument 0 0 [] u
     (atDispatch t p ⟨tag, .setSetting target 0x01 (some v)⟩ [] s = some u →
       let o := exec (.setLeaseLimit t p tag target v) s
       (∀ q : Port, target.toNat = q.toNat → 1 ≤ v.toNat → v.toNat ≤ 8 →
         Ends o (answer p tag .ok 0 0 []
           { u with settings := { u.settings with leaseLimit := u.settings.leaseLimit.set q v.toNat } })) ∧
       ((4 ≤ target.toNat ∨ v.toNat = 0 ∨ 8 < v.toNat) → Ends o bad)) ∧
     (atDispatch t p ⟨tag, .setSetting target 0x02 (some v)⟩ [] s = some u →
       let o := exec (.setGuard t p tag target v) s
       (∀ q : Port, target.toNat = q.toNat → v.toNat ≤ 1 →
         Ends o (answer p tag .ok 0 0 []
           { u with settings := { u.settings with guarded := u.settings.guarded.set q (decide (v.toNat = 0)) } })) ∧
       ((4 ≤ target.toNat ∨ 1 < v.toNat) → Ends o bad))) ∧
  (∀ (t e : Time) (p : Port) (tag : Tag) (target : BitVec 3) (v : BitVec 32) (s u : State),
     (u.port p).session = .attached → u.claim = some { holder := p, expires := e } →
     let sets (ident : Byte) (c : Instr) (low high : Nat) (st : Settings) : Prop :=
       atDispatch t p ⟨tag, .setSetting target ident (some v)⟩ [] s = some u →
       (low ≤ v.toNat → v.toNat ≤ high → Ends (exec c s) (answer p tag .ok 0 0 [] { u with settings := st })) ∧
       ((v.toNat < low ∨ high < v.toNat) → Ends (exec c s) (answer p tag .badArgument 0 0 [] u))
     sets 0x03 (.setWaitLimit t p tag target v) 1 10000 { u.settings with waitLimit := v.toNat } ∧
     sets 0x04 (.setHoldLimit t p tag target v) 1 10000 { u.settings with holdLimit := v.toNat } ∧
     sets 0x06 (.setEager t p tag target v) 0 1 { u.settings with eager := decide (v.toNat = 1) } ∧
     sets 0x07 (.setQuickWake t p tag target v) 0 1 { u.settings with quickWake := decide (v.toNat = 1) } ∧
     sets 0x08 (.setAutoRetain t p tag target v) 0 1 { u.settings with autoRetain := decide (v.toNat = 1) } ∧
     sets 0x09 (.setClaimLimit t p tag target v) 1 1000 { u.settings with claimLimit := v.toNat })

/-- SET of URGENCY by the claim holder: the value is stored, and Set A, then Set B, enters pressure or leaves it. -/
def Obligations.SetUrgency : Prop :=
  ∀ (t e : Time) (p : Port) (tag : Tag) (target : BitVec 3) (v : BitVec 32) (s u : State),
    atDispatch t p ⟨tag, .setSetting target 0x05 (some v)⟩ [] s = some u → (u.port p).session = .attached →
    u.claim = some { holder := p, expires := e } →
    let o := exec (.setUrgency t p tag target v) s
    let n := { u with settings := { u.settings with urgency := v.toNat } }
    let change (x : BankSet) (k : State) : State :=
      if (u.account x).balance < u.settings.urgency ∧ (v.toNat : Int) ≤ (u.account x).balance then enterPressure x k
      else if (u.settings.urgency : Int) ≤ (u.account x).balance ∧ (u.account x).balance < v.toNat then serveBanks x.banks k
      else k
    ((v.toNat < 2 ∨ 5 < v.toNat) → Ends o (answer p tag .badArgument 0 0 [] u)) ∧
    (2 ≤ v.toNat → v.toNat ≤ 5 → Ends o (answer p tag .ok 0 0 [] (change .b (change .a n))))

/-- A set is under pressure while its balance is at least URGENCY. A set that enters pressure raises RELEASE-REQUEST at each ATTACHED
holder of each of its OPEN banks, in bank order, and changes nothing else. Forcing a set under pressure: each of its OPEN banks loses its
holders and drains, or closes at once with CLOSE work in bank order if nothing is pending; each ATTACHED port that was a holder has a
REVOKED notice for the bank with reason REFRESH, in bank order; nothing else changes. Each notice joins as FaultsAndNoticesAreTaken says. -/
def Obligations.PressureAndForcing : Prop :=
  (∀ (x : BankSet) (s : State), pressure s x = true ↔ (s.settings.urgency : Int) ≤ (s.account x).balance) ∧
  (∀ (x : BankSet) (s : State),
     let v := enterPressure x s
     let held (p : Port) : List Bank :=
       Bank.all.filter (fun b => decide (b.set = x ∧ (s.bank b).state = .opened ∧ (s.bank b).isHolder p = true))
     v = { s with ports := v.ports } ∧
     (∀ p, v.port p =
       if (s.port p).session = .attached then
         { s.port p with notices := (held p).foldl (fun ns b => mergeNotice (.releaseRequest b) ns) (s.port p).notices }
       else s.port p)) ∧
  (∀ (x : BankSet) (s : State), pressure s x = true →
     let v := forceSet x s
     let held (p : Port) : List Bank :=
       Bank.all.filter (fun b => decide (b.set = x ∧ (s.bank b).state = .opened ∧ (s.bank b).isHolder p = true))
     let closes (b : Bank) : Bool := decide (b.set = x ∧ (s.bank b).state = .opened ∧ pendingTransfers s b = 0)
     v = { s with banks := v.banks, ports := v.ports, workList := s.workList ++ (Bank.all.filter closes).map WorkItem.close } ∧
     (∀ b, v.bank b =
       if b.set = x ∧ (s.bank b).state = .opened then
         { s.bank b with
           holders := PerPort.const none, mode := none, contention := none
           state := if pendingTransfers s b = 0 then .closing else .draining }
       else s.bank b) ∧
     (∀ p, v.port p =
       if (s.port p).session = .attached then
         { s.port p with notices := (held p).foldl (fun ns b => mergeNotice (.revoked b .refresh) ns) (s.port p).notices }
       else s.port p)) ∧
  (∀ (p : Port) (e : BankEntry), e.isHolder p = true ↔ e.holders.get p ≠ none)

/-- GET of a setting: OK with its value, or BAD-ARGUMENT. GET of a window: OK with its 8-byte record, or BAD-ARGUMENT where the port names
nothing. -/
def Obligations.GetAnswersTheValue : Prop :=
  (∀ (t : Time) (p : Port) (tag : Tag) (target : BitVec 3) (ident : Byte) (s u : State),
     atDispatch t p ⟨tag, .getSetting target ident⟩ [] s = some u → (u.port p).session = .attached →
     let o := exec (.getSetting t p tag target ident) s
     let ok (v : Nat) : State := answer p tag .ok ident 0 (bytes4 v) u
     (∀ q : Port, target.toNat = q.toNat →
       (ident = 0x01 → Ends o (ok (u.settings.leaseLimit.get q))) ∧
       (ident = 0x02 → Ends o (ok (if u.settings.guarded.get q then 0 else 1)))) ∧
     (ident = 0x03 → Ends o (ok u.settings.waitLimit)) ∧ (ident = 0x04 → Ends o (ok u.settings.holdLimit)) ∧
     (ident = 0x05 → Ends o (ok u.settings.urgency)) ∧ (ident = 0x06 → Ends o (ok (if u.settings.eager then 1 else 0))) ∧
     (ident = 0x07 → Ends o (ok (if u.settings.quickWake then 1 else 0))) ∧
     (ident = 0x08 → Ends o (ok (if u.settings.autoRetain then 1 else 0))) ∧ (ident = 0x09 → Ends o (ok u.settings.claimLimit)) ∧
     ((ident.toNat = 0 ∨ (10 ≤ ident.toNat ∧ ident.toNat ≤ 15) ∨ 20 ≤ ident.toNat ∨
         (4 ≤ target.toNat ∧ (ident = 0x01 ∨ ident = 0x02))) →
       Ends o (answer p tag .badArgument 0 0 [] u))) ∧
  (∀ (t : Time) (p : Port) (tag : Tag) (target : BitVec 3) (index : BitVec 2) (s u : State),
     let ident : Byte := 0x10 + index.setWidth 8
     atDispatch t p ⟨tag, .getSetting target ident⟩ [] s = some u → (u.port p).session = .attached →
     let o := exec (.getWindow t p tag target index) s
     (∀ (q : Port) (i : WindowIndex), target.toNat = q.toNat → index.toNat = i.toNat →
       ((u.windows.get q).get i = none → Ends o (answer p tag .ok ident 0 [0, 0, 0, 0, 0, 0, 0, 0] u)) ∧
       (∀ w, (u.windows.get q).get i = some w →
         Ends o (answer p tag .ok ident 0
           ([1, byteOf w.firstBank, byteOf w.lastBank, byteOfBool w.write] ++ bytes2 w.firstRow ++ bytes2 w.lastRow) u))) ∧
     (4 ≤ target.toNat → Ends o (answer p tag .badArgument 0 0 [] u)))

/-- A WINDOW that passes its checks replaces the named window alone, applies the change to the target port, and is answered OK last. Then
the target port has nothing that its windows do not cover, and each lease, pending grant and waiting entry that was covered it has kept. At
one bank: what is covered changes nothing; an uncovered lease is revoked with reason WINDOW, and the bank drains if nobody is left; an
uncovered pending grant is answered DENIED; an uncovered waiting entry is answered DENIED and withdrawn. -/
def Obligations.WindowReplaces : Prop :=
  (∀ (t e : Time) (p target : Port) (tag : Tag) (bits : BitVec 3) (i : WindowIndex) (index : Byte) (r : WindowRecord) (s u : State),
    atDispatch t p ⟨tag, .window bits index (some r)⟩ [] s = some u → (u.port p).session = .attached →
    u.claim = some { holder := p, expires := e } → bits.toNat = target.toNat → index.toNat = i.toNat →
    (r.valid = true → r.firstBank.toNat ≤ r.lastBank.toNat ∧ r.lastBank.toNat ≤ 7 ∧ r.firstRow.toNat ≤ r.lastRow.toNat ∧
      r.lastRow.toNat ≤ 8191 ∧ r.rights.toNat ≤ 1) →
    entriesGood u = true →
    let w : Option Window :=
      if r.valid then
        some { firstBank := r.firstBank.toNat, lastBank := r.lastBank.toNat, firstRow := r.firstRow.toNat, lastRow := r.lastRow.toNat
               write := decide (r.rights.toNat = 1) }
      else none
    let n := { u with windows := u.windows.set target ((u.windows.get target).set i w) }
    let v := applyWindowChange target n
    Ends (exec (.window t p tag bits index r) s) (answer p tag .ok 0 0 [] v) ∧
    v.windows = n.windows ∧
    (let at_ (b : Bank) (k : State) : State := windowChangeAt target k b
     v = at_ .b7 (at_ .b6 (at_ .b5 (at_ .b4 (at_ .b3 (at_ .b2 (at_ .b1 (at_ .b0 n)))))))) ∧
    (∀ b row mode, (v.bank b).isHolder target = true ∨ (v.bank b).isGrantee target = true →
      (v.bank b).row = some row → (v.bank b).mode = some mode → covered v target b row mode = true) ∧
    (∀ b k, k ∈ (v.bank b).waiting → k.port = target → covered v target b k.row k.mode = true) ∧
    (∀ b row mode, (u.bank b).isHolder target = true ∨ (u.bank b).isGrantee target = true → (u.bank b).row = some row →
      (u.bank b).mode = some mode → covered n target b row mode = true → v.bank b = u.bank b) ∧
    (∀ b k, k ∈ (u.bank b).waiting → k.port = target → covered n target b k.row k.mode = true → v.bank b = u.bank b) ∧
    (∀ b, (u.bank b).involves target = false → v.bank b = u.bank b)) ∧
  (∀ (p : Port) (b : Bank) (s : State), (s.bank b).shapeGood = true → (s.bank b).portsDistinct = true →
    let e := s.bank b
    let v := windowChangeAt p s b
    let left := e.holders.set p none
    let told : State :=
      if (s.port p).session = .attached then
        s.setPort p { s.port p with notices := mergeNotice (.revoked b .window) (s.port p).notices }
      else s
    (e.involves p = false → v = s) ∧
    (∀ row mode, e.row = some row → e.mode = some mode →
      (e.isHolder p = true ∨ e.isGrantee p = true → covered s p b row mode = true → v = s) ∧
      (e.isHolder p = true → covered s p b row mode = false →
        (left ≠ PerPort.const none → v = told.setBank b { e with holders := left }) ∧
        (left = PerPort.const none →
          v = settle b (told.setBank b { e with holders := left, state := .draining, mode := none, contention := none }))) ∧
      (∀ g ∈ e.grantees, g.port = p → covered s p b row mode = false →
        v = answer p g.tag .denied (bankByte b) 0 []
          (s.setBank b { e with grantees := e.grantees.filter (fun g => !decide (g.port = p)) }))) ∧
    (∀ w ∈ e.waiting, w.port = p →
      (covered s p b w.row w.mode = true → v = s) ∧
      (covered s p b w.row w.mode = false → v = withdrawWaiter b p (answer p w.tag .denied (bankByte b) 0 []) s)))

/-- Coverage is by one valid window that has the bank, the row and the rights. -/
def Obligations.CoverageByOneWindow : Prop :=
  ∀ (s : State) (p : Port) (b : Bank) (r : Row) (m : Mode),
    covered s p b r m = true ↔
      ∃ i w, (s.windows.get p).get i = some w ∧ w.firstBank ≤ b.toNat ∧ b.toNat ≤ w.lastBank ∧ w.firstRow ≤ r.toNat ∧
        r.toNat ≤ w.lastRow ∧ (m = .write → w.write = true)

/-! ### CLEAR-FAULTS -/

/-- CLEAR-FAULTS with scope own empties the port's fault list and clears its mark. CLEAR-FAULTS with scope retention clears both flags
under the claim, and is refused without it. Where a flag was set the model forgets the set's bytes, and its unwritten bytes are new free
values (log entry 9); where both were clear nothing but the answer changes. -/
def Obligations.ClearFaults : Prop :=
  (∀ (t : Time) (p : Port) (tag : Tag) (s u : State),
     atDispatch t p ⟨tag, .clearFaults 0⟩ [] s = some u → (u.port p).session = .attached →
     Ends (exec (.clearFaultsOwn t p tag) s) (answer p tag .ok 0 0 [] (u.setPort p { u.port p with faults := [], overflow := false }))) ∧
  (∀ (t : Time) (p : Port) (tag : Tag) (s u : State),
     atDispatch t p ⟨tag, .clearFaults 1⟩ [] s = some u → (u.port p).session = .attached →
     let o := exec (.clearFaultsRetention t p tag) s
     (u.claim = none → Ends o (answer p tag .notClaimed 0 0 [] u)) ∧
     (∀ q e, u.claim = some { holder := q, expires := e } → q ≠ p → Ends o (answer p tag .claimed 0 0 [] u)) ∧
     (∀ e, u.claim = some { holder := p, expires := e } →
       ∃ w, Ends o (answer p tag .ok 0 0 [] w) ∧ w = { u with accounts := w.accounts, array := w.array } ∧
         (∀ x, w.account x =
           { u.account x with
             lossFlag := false
             contents := if (u.account x).lossFlag then (u.account x).contents + 1 else (u.account x).contents }) ∧
         (∀ a, Memory.read w.array a = if (u.account (addressSet a)).lossFlag then none else Memory.read u.array a) ∧
         ((∀ x, (u.account x).lossFlag = false) → w = u) ∧
         (∀ a, (u.account (addressSet a)).lossFlag = false → arrayByte w a = arrayByte u a)))

/-! ### Refresh -/

/-- The step-wanted mark from the balance, EAGER and the lists. -/
def Obligations.StepWantedMark : Prop :=
  ∀ (s : State) (x : BankSet),
    let v := (s.account x).balance
    let quiet := ∀ b, b.set = x → (s.bank b).waiting = []
    (6 ≤ v → markFor s x = .forced) ∧
    (1 ≤ v → v ≤ 5 → markFor s x = .opportunistic) ∧
    (-3 ≤ v → v ≤ 0 → s.settings.eager = true → quiet → markFor s x = .eager) ∧
    (-3 ≤ v → v ≤ 0 → (s.settings.eager = false ∨ ¬quiet) → markFor s x = .none) ∧
    (v < -3 → markFor s x = .none)

/-- A tick below a balance of 8: the balance rises by 1, the set may enter pressure, a rise to 6 forces it, and the next tick is one
interval of the band later. A tick at a balance of 8 is missed: the flag is set, every ATTACHED port takes a RETENTION-LOSS fault in port
order, and the next tick is set as for any tick. -/
def Obligations.TickRaisesOrIsMissed : Prop :=
  (∀ (x : BankSet) (s : State), (s.account x).balance < 8 →
     let n := { s with now := max s.now (s.account x).nextTick }
     let raised := n.setAccount x { s.account x with balance := (s.account x).balance + 1 }
     let pressed := if (s.account x).balance + 1 = s.settings.urgency then enterPressure x raised else raised
     let forced := if (s.account x).balance = 5 then forceSet x pressed else pressed
     let interval := match s.band with
       | .cool => ns 12800
       | .normal => ns 6400
       | .hot => ns 3200
     Ends (exec (.tick x) s) (forced.setAccount x { s.account x with balance := (s.account x).balance + 1, nextTick := n.now + interval })) ∧
  (∀ (x : BankSet) (s : State), (s.account x).balance = 8 →
     let n := { s with now := max s.now (s.account x).nextTick }
     let f : FaultRecord := { kind := .retentionLoss, bank := none, row := none, line := none, tag := none, set := some x }
     let told := recordFault .p3 f (recordFault .p2 f (recordFault .p1 f (recordFault .p0 f n)))
     Ends (exec (.tick x) s) (told.setAccount x { s.account x with lossFlag := true, nextTick := n.now + s.band.interval }))

/-- Each sample sets the band from the band before it and the reading; after power-on reset, before the first sample, the band is NORMAL. -/
def Obligations.BandAfterSample : Prop :=
  (∀ (now freeCount a b : Nat) (temp : Int) (queue : List Instr), (State.powerOn now a b freeCount temp queue).band = .normal) ∧
  ∀ (r : Int) (s : State), ∃ v, exec (.thermalSample r) s = .next v ∧
    (s.band = .cool → 44 ≤ r → v.band = .normal) ∧ (s.band = .cool → r ≤ 43 → v.band = .cool) ∧
    (s.band = .normal → 88 ≤ r → v.band = .hot) ∧ (s.band = .normal → r ≤ 40 → v.band = .cool) ∧
    (s.band = .normal → 41 ≤ r → r ≤ 87 → v.band = .normal) ∧
    (s.band = .hot → r ≤ 84 → v.band = .normal) ∧ (s.band = .hot → 85 ≤ r → v.band = .hot)

/-- A thermal sample: the clamped reading, the next sample 100 µs later, the band; a change of band pulls the ticks earlier and raises
THERMAL at every ATTACHED port. The tick interval of each band. -/
def Obligations.ThermalSample : Prop :=
  (∀ (reading : Int) (s : State),
     let r := if reading < -40 then -40 else if 125 < reading then 125 else reading
     let now := max s.now s.nextSample
     let n := { s with now := now, lastTemp := r, nextSample := now + us 100 }
     let band := bandAfter s.band r
     (band = s.band → Ends (exec (.thermalSample reading) s) n) ∧
     (band ≠ s.band →
       let pulled (x : BankSet) : Account := { s.account x with nextTick := min (s.account x).nextTick (now + band.interval) }
       ∃ ports : PerPort PortState,
         (∀ p, ports.get p =
           if (s.port p).session = .attached then { s.port p with notices := mergeNotice (.thermal band) (s.port p).notices } else s.port p) ∧
         Ends (exec (.thermalSample reading) s) { n with band := band, accounts := ⟨pulled .a, pulled .b⟩, ports := ports })) ∧
  Band.cool.interval = ns 12800 ∧ Band.normal.interval = ns 6400 ∧ Band.hot.interval = ns 3200

/-- A wake completes: both balances rise as at a tick, Set A first; every vote is clear; RETENTION (woken) at every ATTACHED port; ACTIVE; and
immediately after, at the same time, the requests that waited are dispatched, each in an event of its own (the ports one after the other:
log entry 5). In any other retention state nothing occurs (log entry 3). What the rise of a balance does: balance plus 1 with pressure and
forcing, or a missed tick; the next tick times stay. -/
def Obligations.WakeCompletion : Prop :=
  (∀ s : State,
    ((∀ d, s.retention ≠ .waking d) → exec .wakeCompletion s = .next s) ∧
    (∀ d, s.retention = .waking d →
      let k := raiseBalance .b (raiseBalance .a { s with now := max s.now d })
      ∃ (ports : PerPort PortState) (v v0 v1 v2 v3 : State),
        (∀ p, ports.get p =
          if (s.port p).session = .attached then { k.port p with vote := false, notices := mergeNotice (.retention true) (k.port p).notices }
          else { k.port p with vote := false }) ∧
        EventEnd { k with ports := ports, retention := .active } v ∧
        QueueServed .p0 v v0 ∧ QueueServed .p1 v0 v1 ∧ QueueServed .p2 v1 v2 ∧ QueueServed .p3 v2 v3 ∧
        exec .wakeCompletion s = .next v3)) ∧
  (∀ (x : BankSet) (s : State),
    let old := (s.account x).balance
    let raised := s.setAccount x { s.account x with balance := old + 1 }
    let pressed := if old + 1 = s.settings.urgency then enterPressure x raised else raised
    let f : FaultRecord := { kind := .retentionLoss, bank := none, row := none, line := none, tag := none, set := some x }
    (old < 8 → raiseBalance x s = if old = 5 then forceSet x pressed else pressed) ∧
    (old = 8 → raiseBalance x s =
      (recordFault .p3 f (recordFault .p2 f (recordFault .p1 f (recordFault .p0 f s)))).setAccount x { s.account x with lossFlag := true }) ∧
    (∀ y, ((raiseBalance x s).account y).nextTick = (s.account y).nextTick))

/-! ### The array path -/

/-- An OPEN completes: the row is open in the array; where the set is not under pressure and a pending grantee is left, the grant stands,
and otherwise the grantees go back to the front of the list and the bank closes. -/
def Obligations.OpenCompletion : Prop :=
  ∀ (b : Bank) (row : Row) (d : Time) (s : State), s.path = some { op := .openRow b row, completes := d } →
    let n := { s with now := max s.now d, path := none, openRows := s.openRows.set b (some row) }
    (∀ mode, (s.bank b).mode = some mode → pressure s b.set = false → (s.bank b).grantees ≠ [] → (s.bank b).contention = none →
      ((s.bank b).grantees.map (·.port)).Nodup →
      ∃ k, Ends (exec .openCompletion s) (serve b k) ∧ k = { n with banks := k.banks, ports := k.ports } ∧
        (∀ c, c ≠ b → k.bank c = s.bank c) ∧
        k.bank b = { s.bank b with
          state := .opened, grantees := [], holders := (k.bank b).holders
          contention := if (s.bank b).waiting = [] then none else some (n.now + us s.settings.holdLimit) } ∧
        GroupGranted b mode ((s.bank b).grantees.map (fun g => (g.port, g.tag))) n k) ∧
    (∀ mode, (s.bank b).mode = some mode → (pressure s b.set = true ∨ (s.bank b).grantees = []) →
      Ends (exec .openCompletion s)
        { n.setBank b { s.bank b with
            state := .closing, mode := none, grantees := []
            waiting := (s.bank b).grantees.map (fun g => { port := g.port, tag := g.tag, row := row, mode := mode, deadline := g.carried })
              ++ (s.bank b).waiting } with
          workList := s.workList ++ [.close b] })

/-- A CLOSE completes: no row is open in the array, the bank is CLOSED, and its list is served. A STEP completes: the balance falls by 1,
the sweep pointer advances modulo 8192, the four banks are CLOSED and are served in bank order. A completion whose operation is not on the
path does not occur. -/
def Obligations.CloseAndStepCompletion : Prop :=
  (∀ (b : Bank) (d : Time) (s : State), s.path = some { op := .close b, completes := d } →
     Ends (exec .closeCompletion s)
       (serve b ({ s with now := max s.now d, path := none, openRows := s.openRows.set b none }.setBank b
         { s.bank b with state := .closed, row := none, mode := none }))) ∧
  (∀ (x : BankSet) (row : Row) (forced : Bool) (d : Time) (s : State), s.path = some { op := .step x row forced, completes := d } →
     ∃ (banks : PerBank BankEntry) (sweep : Row),
       (∀ b, banks.get b = if b.set = x then { s.bank b with state := .closed } else s.bank b) ∧
       sweep.toNat = ((s.account x).sweep.toNat + 1) % 8192 ∧
       Ends (exec .stepCompletion s)
         (serveBanks x.banks ({ s with now := max s.now d, path := none, banks := banks }.setAccount x
           { s.account x with balance := (s.account x).balance - 1, sweep := sweep }))) ∧
  (∀ s : State,
     ((∀ b r d, s.path ≠ some { op := .openRow b r, completes := d }) → exec .openCompletion s = .next s) ∧
     ((∀ b d, s.path ≠ some { op := .close b, completes := d }) → exec .closeCompletion s = .next s) ∧
     ((∀ x l d, s.path ≠ some { op := .xfer x l, completes := d }) → exec .xferCompletion s = .next s) ∧
     ((∀ x r f d, s.path ≠ some { op := .step x r f, completes := d }) → exec .stepCompletion s = .next s))

/-- The arbiter's order at an IDLE path: a forced STEP of the set with the higher balance, Set A first of equals; the oldest CLOSE; the
oldest XFER of the first port after the last served; the oldest OPEN; an ordinary STEP as a forced one; nothing. A BUSY path selects
nothing. The order of the ports after each last served. -/
def Obligations.ArbiterOrder : Prop :=
  (∀ s : State,
     let forced (x : BankSet) : Prop := (s.account x).mark = .forced ∧ ∀ b, b.set = x → (s.bank b).state = .closed
     let ordinary (x : BankSet) : Prop :=
       ((s.account x).mark = .opportunistic ∨ ((s.account x).mark = .eager ∧ s.retention ≠ .retained)) ∧
       (∀ d, s.retention ≠ .waking d) ∧ ∀ b, b.set = x → (s.bank b).state = .closed
     let first (c : BankSet → Prop) (x : BankSet) : Prop :=
       c x ∧ ∀ y, c y → (s.account y).balance < (s.account x).balance ∨ ((s.account y).balance = (s.account x).balance ∧ (x = .a ∨ y = .b))
     let noClose := ∀ b, WorkItem.close b ∉ s.workList
     let noXfer := ∀ x, WorkItem.xfer x ∉ s.workList
     let noOpen := ∀ b r, WorkItem.openRow b r ∉ s.workList
     let noForced := ∀ x, ¬forced x
     (s.path ≠ none → select s = s) ∧
     (s.path = none →
       (∀ x, first forced x → select s = startStep x true s) ∧
       (∀ b before after, noForced → s.workList = before ++ .close b :: after → (∀ c, WorkItem.close c ∉ before) →
         select s = startItem (.close b) s) ∧
       (∀ x before after earlier later, noForced → noClose → s.workList = before ++ .xfer x :: after →
         (∀ y, WorkItem.xfer y ∈ before → y.port ≠ x.port) → rotation s.lastServed = earlier ++ x.port :: later →
         (∀ q ∈ earlier, ∀ y, WorkItem.xfer y ∈ s.workList → y.port ≠ q) → select s = startItem (.xfer x) s) ∧
       (∀ b r before after, noForced → noClose → noXfer → s.workList = before ++ .openRow b r :: after →
         (∀ c k, WorkItem.openRow c k ∉ before) → select s = startItem (.openRow b r) s) ∧
       (∀ x, noForced → noClose → noXfer → noOpen → first ordinary x → select s = startStep x false s) ∧
       (noForced → noClose → noXfer → noOpen → (∀ x, ¬ordinary x) → select s = s))) ∧
  [Port.p0, .p1, .p2, .p3].map Machine.rotation =
    [[.p1, .p2, .p3, .p0], [.p2, .p3, .p0, .p1], [.p3, .p0, .p1, .p2], [.p0, .p1, .p2, .p3]]

/-- What the start of an item and of a STEP does: the record with its duration, the list without the item, and REFRESHING banks. -/
def Obligations.OperationsStart : Prop :=
  ∀ s : State,
    (∀ b r, startItem (.openRow b r) s =
      { s with workList := s.workList.erase (.openRow b r), path := some { op := .openRow b r, completes := s.now + ns 20 } }) ∧
    (∀ b, startItem (.close b) s =
      { s with workList := s.workList.erase (.close b), path := some { op := .close b, completes := s.now + ns 20 } }) ∧
    (∀ x, x.dir = .read → startItem (.xfer x) s =
      { s with
        workList := s.workList.erase (.xfer x), lastServed := x.port
        path := some { op := .xfer x [], completes := s.now + ns (10 + 5 * x.count) } }) ∧
    (∀ x q tag suspect, x.dir = .write q tag suspect → startItem (.xfer x) s =
      { s with
        workList := s.workList.erase (.xfer x), lastServed := x.port
        path := some { op := .xfer x (stagedLines s q tag), completes := s.now + ns (10 + 5 * x.count) } }) ∧
    (∀ x forced, ∃ banks : PerBank BankEntry,
      (∀ b, banks.get b = if b.set = x then { s.bank b with state := .refreshing } else s.bank b) ∧
      startStep x forced s =
        { s with banks := banks, path := some { op := .step x (s.account x).sweep forced, completes := s.now + ns 240 } })

/-! ### The resets -/

/-- Power-on reset: everything as after reset, at this moment, with the first sample of this reading taken. -/
def Obligations.PowerOnReset : Prop :=
  ∀ (t : Time) (reading : Int) (s : State),
    let now := max s.now t
    let r := if reading < -40 then -40 else if 125 < reading then 125 else reading
    let band := bandAfter .normal r
    let z := State.reset
    let tick (first : Time) : Time := if band = .normal then now + first else min (now + first) (now + band.interval)
    let account (x : BankSet) (first : Time) : Account :=
      { balance := 0, sweep := 0, nextTick := tick first, lossFlag := false, mark := .none, contents := (s.account x).contents + 1 }
    Ends (exec (.powerOnReset t reading) s)
      { z with
        now := now, pending := s.pending, freeCount := s.freeCount, band := band, lastTemp := r, nextSample := now + us 100
        accounts := ⟨account .a (ns 6400), account .b (ns 9600)⟩ }

/-- Warm reset: what it returns to its reset value, what it keeps, and what becomes of each bank. That the running of the closes is a bit of
state is log entry 17, and that the commands waiting outside stay is log entry 7. -/
def Obligations.WarmReset : Prop :=
  ∀ (t : Time) (s : State),
    ∃ w, Ends (exec (.warmReset t) s) w ∧
      w.now = max s.now t ∧ w.array = s.array ∧ w.openRows = s.openRows ∧ w.path = s.path ∧ w.accounts = s.accounts ∧ w.band = s.band ∧
      w.lastTemp = s.lastTemp ∧ w.nextSample = s.nextSample ∧ w.pending = s.pending ∧
      w.staging = [] ∧ w.lastServed = .p3 ∧ w.claim = none ∧ w.retention = .active ∧ w.entered = none ∧ w.resetCloses = true ∧
      w.settings = State.reset.settings ∧ w.windows = State.reset.windows ∧
      (∀ p, w.port p = { State.reset.port p with epoch := (s.port p).epoch }) ∧
      (∀ b, w.bank b = { s.bank b with
        grantees := [], holders := PerPort.const none, contention := none, waiting := []
        state := if (s.bank b).state = .opened ∨ (s.bank b).state = .draining then .closing else (s.bank b).state
        mode := if (s.bank b).state = .opened ∨ (s.bank b).state = .draining then none else (s.bank b).mode }) ∧
      w.workList = s.workList.filter (fun i => match i with
          | .xfer _ => false
          | _ => true)
        ++ (Bank.all.filter (fun b => decide ((s.bank b).state = .opened ∨ (s.bank b).state = .draining))).map WorkItem.close

/-! ### What no command touches -/

/-- The array's bytes change only by a completed transfer, a power-on reset, and the clearing of retention-loss flags (the model then forgets
bytes: log entry 9; its own counters change with them: log entry 18). The settings change only by SET and the resets, and the windows only
by WINDOW and the resets. A packet, and a wake completion that dispatches what waited, may carry out each of these requests. -/
def Obligations.ArrayAndSettingsFrame : Prop :=
  (∀ (c : Instr) (s v : State), exec c s = .next v →
     c ≠ .xferCompletion → (∀ t r, c ≠ .powerOnReset t r) → (∀ t p tag, c ≠ .clearFaultsRetention t p tag) →
     (∀ t p bytes, c ≠ .packetArrival t p bytes) → c ≠ .wakeCompletion →
     v.array = s.array ∧ v.freeCount = s.freeCount ∧ ∀ x, (v.account x).contents = (s.account x).contents) ∧
  (∀ (c : Instr) (s v : State), exec c s = .next v →
     (∀ t p bytes, c ≠ .packetArrival t p bytes) → c ≠ .wakeCompletion → (∀ t r, c ≠ .powerOnReset t r) → (∀ t, c ≠ .warmReset t) →
     ((∀ t p tag target index r, c ≠ .window t p tag target index r) → v.windows = s.windows) ∧
     ((∀ t p tag target val, c ≠ .setLeaseLimit t p tag target val ∧ c ≠ .setGuard t p tag target val ∧
         c ≠ .setWaitLimit t p tag target val ∧ c ≠ .setHoldLimit t p tag target val ∧ c ≠ .setUrgency t p tag target val ∧
         c ≠ .setEager t p tag target val ∧ c ≠ .setQuickWake t p tag target val ∧ c ≠ .setAutoRetain t p tag target val ∧
         c ≠ .setClaimLimit t p tag target val) → v.settings = s.settings))

/-! ### Invariants of every step -/

/-- The array's list keeps its canonical form. -/
def Obligations.ArrayStaysCanonical : Prop :=
  ∀ s t : State, arrayGood s = true → step s = .next t → arrayGood t = true

/-- Every step ends in a next state: the part never stops. Time never goes back (log entry 1). -/
def Obligations.StepsNeverStop : Prop :=
  ∀ s : State, ∃ t, step s = .next t ∧ s.now ≤ t.now

/-- Each set's balance stays within −4 to +8. -/
def Obligations.BalancesStayInRange : Prop :=
  ∀ s t : State, balancesGood s = true → step s = .next t → balancesGood t = true

/-- The step-wanted marks stay what the balances, EAGER and the lists decide. -/
def Obligations.MarksStayDecided : Prop :=
  ∀ s t : State, marksGood s = true → step s = .next t → marksGood t = true

/-- A port never has more than 16 requests in flight, and their tags are pairwise distinct. The Staging Pool never holds more than 32 lines
in all, nor more than 16 of one port. -/
def Obligations.InFlightAndStagingStayInBounds : Prop :=
  (∀ s t : State, inFlightGood s = true → step s = .next t → inFlightGood t = true) ∧
  (∀ s t : State, stagingGood s = true → step s = .next t → stagingGood t = true)

/-- Fault lists and notice sets keep their form. -/
def Obligations.NoticesStayDistinct : Prop :=
  ∀ s t : State, noticesGood s = true → step s = .next t → noticesGood t = true

/-- Whatever belongs to a session (leases, transfers, the claim, the vote, notices), only an ATTACHED port has, and its link is UP. -/
def Obligations.SessionsOwnTheirLeases : Prop :=
  ∀ s t : State, sessionsGood s = true → step s = .next t → sessionsGood t = true

/-- The Bank Lease Table stays sound: a WRITE lease has one holder, an OPEN bank has holders and no other has, no port appears twice, and
the work list and the path hold exactly the work the banks' states call for. The array's open row is the entry's row in OPEN, DRAINING and
CLOSING banks, and no row is open in the others. -/
def Obligations.LeasesStaySound : Prop :=
  ∀ s t : State, leasesGood s = true → step s = .next t → leasesGood t = true

/-- Every request in flight waits in exactly one place, and none waits where the Request Router may dispatch it. Outside ACTIVE no bank is
OPENING, OPEN, DRAINING or CLOSING and nobody waits for one; in ENTERING and RETAINED no request is in flight. -/
def Obligations.RetainedMeansNothingInFlight : Prop :=
  ∀ s t : State, leasesGood s = true → sessionsGood s = true → inFlightGood s = true → requestsGood s = true → retentionGood s = true →
    step s = .next t → requestsGood t = true ∧ retentionGood t = true

end Statements
end

