-- ==== Sys2Proof/Laws/State.lean ====
section
/-!
SUPPORT. What each update of one port, bank or set leaves in each field of the state, and what is read back after it. All by computation,
and all simp lemmas, so that no later proof unfolds a record update.
-/

namespace Sys2Proof

/-! ### One value for each port, bank, set and window -/

/-- What is read after one value is replaced. -/
@[simp] theorem PerPort.get_set {α : Type} (v : PerPort α) (i j : Port) (y : α) : (v.set i y).get j = if j = i then y else v.get j := by
  cases i <;> cases j <;> rfl

/-- What is read where every value is the same. -/
@[simp] theorem PerPort.get_const {α : Type} (y : α) (i : Port) : (PerPort.const y).get i = y := by
  cases i <;> rfl

/-- Two records with the same values are equal. -/
theorem PerPort.ext_get {α : Type} {v w : PerPort α} (h : ∀ i, v.get i = w.get i) : v = w := by
  cases v; cases w
  have h0 := h .p0
  have h1 := h .p1
  have h2 := h .p2
  have h3 := h .p3
  simp only [PerPort.get] at h0 h1 h2 h3
  simp only [h0, h1, h2, h3]

/-- Writing back what is there changes nothing. -/
@[simp] theorem PerPort.set_get {α : Type} (v : PerPort α) (i : Port) : v.set i (v.get i) = v := by
  cases i <;> rfl

/-- What is read after one value is replaced. -/
@[simp] theorem PerBank.get_set {α : Type} (v : PerBank α) (i j : Bank) (y : α) : (v.set i y).get j = if j = i then y else v.get j := by
  cases i <;> cases j <;> rfl

/-- What is read where every value is the same. -/
@[simp] theorem PerBank.get_const {α : Type} (y : α) (i : Bank) : (PerBank.const y).get i = y := by
  cases i <;> rfl

/-- Two records with the same values are equal. -/
theorem PerBank.ext_get {α : Type} {v w : PerBank α} (h : ∀ i, v.get i = w.get i) : v = w := by
  cases v; cases w
  have h0 := h .b0
  have h1 := h .b1
  have h2 := h .b2
  have h3 := h .b3
  have h4 := h .b4
  have h5 := h .b5
  have h6 := h .b6
  have h7 := h .b7
  simp only [PerBank.get] at h0 h1 h2 h3 h4 h5 h6 h7
  simp only [h0, h1, h2, h3, h4, h5, h6, h7]

/-- Writing back what is there changes nothing. -/
@[simp] theorem PerBank.set_get {α : Type} (v : PerBank α) (i : Bank) : v.set i (v.get i) = v := by
  cases i <;> rfl

/-- What is read after one value is replaced. -/
@[simp] theorem PerSet.get_set {α : Type} (v : PerSet α) (i j : BankSet) (y : α) : (v.set i y).get j = if j = i then y else v.get j := by
  cases i <;> cases j <;> rfl

/-- Two records with the same values are equal. -/
theorem PerSet.ext_get {α : Type} {v w : PerSet α} (h : ∀ i, v.get i = w.get i) : v = w := by
  cases v; cases w
  have h0 := h .a
  have h1 := h .b
  simp only [PerSet.get] at h0 h1
  simp only [h0, h1]

/-- Writing back what is there changes nothing. -/
@[simp] theorem PerSet.set_get {α : Type} (v : PerSet α) (i : BankSet) : v.set i (v.get i) = v := by
  cases i <;> rfl

/-- What is read after one value is replaced. -/
@[simp] theorem PerWindow.get_set {α : Type} (v : PerWindow α) (i j : WindowIndex) (y : α) : (v.set i y).get j = if j = i then y else v.get j := by
  cases i <;> cases j <;> rfl

/-- Two records with the same values are equal. -/
theorem PerWindow.ext_get {α : Type} {v w : PerWindow α} (h : ∀ i, v.get i = w.get i) : v = w := by
  cases v; cases w
  have h0 := h .w0
  have h1 := h .w1
  have h2 := h .w2
  have h3 := h .w3
  simp only [PerWindow.get] at h0 h1 h2 h3
  simp only [h0, h1, h2, h3]

/-- Writing back what is there changes nothing. -/
@[simp] theorem PerWindow.set_get {α : Type} (v : PerWindow α) (i : WindowIndex) : v.set i (v.get i) = v := by
  cases i <;> rfl

end Sys2Proof

namespace Sys2Proof.Machine

/-! ### Replacing what one port, bank or set has -/

@[simp] theorem State.now_setPort (s : State) (p : Port) (q : PortState) : (s.setPort p q).now = s.now := rfl
@[simp] theorem State.pending_setPort (s : State) (p : Port) (q : PortState) : (s.setPort p q).pending = s.pending := rfl
@[simp] theorem State.array_setPort (s : State) (p : Port) (q : PortState) : (s.setPort p q).array = s.array := rfl
@[simp] theorem State.freeCount_setPort (s : State) (p : Port) (q : PortState) : (s.setPort p q).freeCount = s.freeCount := rfl
@[simp] theorem State.openRows_setPort (s : State) (p : Port) (q : PortState) : (s.setPort p q).openRows = s.openRows := rfl
@[simp] theorem State.path_setPort (s : State) (p : Port) (q : PortState) : (s.setPort p q).path = s.path := rfl
@[simp] theorem State.workList_setPort (s : State) (p : Port) (q : PortState) : (s.setPort p q).workList = s.workList := rfl
@[simp] theorem State.lastServed_setPort (s : State) (p : Port) (q : PortState) : (s.setPort p q).lastServed = s.lastServed := rfl
@[simp] theorem State.banks_setPort (s : State) (p : Port) (q : PortState) : (s.setPort p q).banks = s.banks := rfl
@[simp] theorem State.staging_setPort (s : State) (p : Port) (q : PortState) : (s.setPort p q).staging = s.staging := rfl
@[simp] theorem State.accounts_setPort (s : State) (p : Port) (q : PortState) : (s.setPort p q).accounts = s.accounts := rfl
@[simp] theorem State.band_setPort (s : State) (p : Port) (q : PortState) : (s.setPort p q).band = s.band := rfl
@[simp] theorem State.lastTemp_setPort (s : State) (p : Port) (q : PortState) : (s.setPort p q).lastTemp = s.lastTemp := rfl
@[simp] theorem State.nextSample_setPort (s : State) (p : Port) (q : PortState) : (s.setPort p q).nextSample = s.nextSample := rfl
@[simp] theorem State.retention_setPort (s : State) (p : Port) (q : PortState) : (s.setPort p q).retention = s.retention := rfl
@[simp] theorem State.ports_setPort (s : State) (p : Port) (q : PortState) : (s.setPort p q).ports = s.ports.set p q := rfl
@[simp] theorem State.entered_setPort (s : State) (p : Port) (q : PortState) : (s.setPort p q).entered = s.entered := rfl
@[simp] theorem State.resetCloses_setPort (s : State) (p : Port) (q : PortState) : (s.setPort p q).resetCloses = s.resetCloses := rfl
@[simp] theorem State.settings_setPort (s : State) (p : Port) (q : PortState) : (s.setPort p q).settings = s.settings := rfl
@[simp] theorem State.claim_setPort (s : State) (p : Port) (q : PortState) : (s.setPort p q).claim = s.claim := rfl
@[simp] theorem State.windows_setPort (s : State) (p : Port) (q : PortState) : (s.setPort p q).windows = s.windows := rfl
@[simp] theorem State.port_setPort (s : State) (p : Port) (q : PortState) (r : Port) : (s.setPort p q).port r = if r = p then q else s.port r := by
  simp [State.port, State.setPort]
@[simp] theorem State.bank_setPort (s : State) (p : Port) (q : PortState) (r : Bank) : (s.setPort p q).bank r = s.bank r := rfl
@[simp] theorem State.account_setPort (s : State) (p : Port) (q : PortState) (r : BankSet) : (s.setPort p q).account r = s.account r := rfl

@[simp] theorem State.now_setBank (s : State) (b : Bank) (e : BankEntry) : (s.setBank b e).now = s.now := rfl
@[simp] theorem State.pending_setBank (s : State) (b : Bank) (e : BankEntry) : (s.setBank b e).pending = s.pending := rfl
@[simp] theorem State.array_setBank (s : State) (b : Bank) (e : BankEntry) : (s.setBank b e).array = s.array := rfl
@[simp] theorem State.freeCount_setBank (s : State) (b : Bank) (e : BankEntry) : (s.setBank b e).freeCount = s.freeCount := rfl
@[simp] theorem State.openRows_setBank (s : State) (b : Bank) (e : BankEntry) : (s.setBank b e).openRows = s.openRows := rfl
@[simp] theorem State.path_setBank (s : State) (b : Bank) (e : BankEntry) : (s.setBank b e).path = s.path := rfl
@[simp] theorem State.workList_setBank (s : State) (b : Bank) (e : BankEntry) : (s.setBank b e).workList = s.workList := rfl
@[simp] theorem State.lastServed_setBank (s : State) (b : Bank) (e : BankEntry) : (s.setBank b e).lastServed = s.lastServed := rfl
@[simp] theorem State.banks_setBank (s : State) (b : Bank) (e : BankEntry) : (s.setBank b e).banks = s.banks.set b e := rfl
@[simp] theorem State.staging_setBank (s : State) (b : Bank) (e : BankEntry) : (s.setBank b e).staging = s.staging := rfl
@[simp] theorem State.accounts_setBank (s : State) (b : Bank) (e : BankEntry) : (s.setBank b e).accounts = s.accounts := rfl
@[simp] theorem State.band_setBank (s : State) (b : Bank) (e : BankEntry) : (s.setBank b e).band = s.band := rfl
@[simp] theorem State.lastTemp_setBank (s : State) (b : Bank) (e : BankEntry) : (s.setBank b e).lastTemp = s.lastTemp := rfl
@[simp] theorem State.nextSample_setBank (s : State) (b : Bank) (e : BankEntry) : (s.setBank b e).nextSample = s.nextSample := rfl
@[simp] theorem State.retention_setBank (s : State) (b : Bank) (e : BankEntry) : (s.setBank b e).retention = s.retention := rfl
@[simp] theorem State.ports_setBank (s : State) (b : Bank) (e : BankEntry) : (s.setBank b e).ports = s.ports := rfl
@[simp] theorem State.entered_setBank (s : State) (b : Bank) (e : BankEntry) : (s.setBank b e).entered = s.entered := rfl
@[simp] theorem State.resetCloses_setBank (s : State) (b : Bank) (e : BankEntry) : (s.setBank b e).resetCloses = s.resetCloses := rfl
@[simp] theorem State.settings_setBank (s : State) (b : Bank) (e : BankEntry) : (s.setBank b e).settings = s.settings := rfl
@[simp] theorem State.claim_setBank (s : State) (b : Bank) (e : BankEntry) : (s.setBank b e).claim = s.claim := rfl
@[simp] theorem State.windows_setBank (s : State) (b : Bank) (e : BankEntry) : (s.setBank b e).windows = s.windows := rfl
@[simp] theorem State.port_setBank (s : State) (b : Bank) (e : BankEntry) (r : Port) : (s.setBank b e).port r = s.port r := rfl
@[simp] theorem State.bank_setBank (s : State) (b : Bank) (e : BankEntry) (r : Bank) : (s.setBank b e).bank r = if r = b then e else s.bank r := by
  simp [State.bank, State.setBank]
@[simp] theorem State.account_setBank (s : State) (b : Bank) (e : BankEntry) (r : BankSet) : (s.setBank b e).account r = s.account r := rfl

@[simp] theorem State.now_setAccount (s : State) (x : BankSet) (c : Account) : (s.setAccount x c).now = s.now := rfl
@[simp] theorem State.pending_setAccount (s : State) (x : BankSet) (c : Account) : (s.setAccount x c).pending = s.pending := rfl
@[simp] theorem State.array_setAccount (s : State) (x : BankSet) (c : Account) : (s.setAccount x c).array = s.array := rfl
@[simp] theorem State.freeCount_setAccount (s : State) (x : BankSet) (c : Account) : (s.setAccount x c).freeCount = s.freeCount := rfl
@[simp] theorem State.openRows_setAccount (s : State) (x : BankSet) (c : Account) : (s.setAccount x c).openRows = s.openRows := rfl
@[simp] theorem State.path_setAccount (s : State) (x : BankSet) (c : Account) : (s.setAccount x c).path = s.path := rfl
@[simp] theorem State.workList_setAccount (s : State) (x : BankSet) (c : Account) : (s.setAccount x c).workList = s.workList := rfl
@[simp] theorem State.lastServed_setAccount (s : State) (x : BankSet) (c : Account) : (s.setAccount x c).lastServed = s.lastServed := rfl
@[simp] theorem State.banks_setAccount (s : State) (x : BankSet) (c : Account) : (s.setAccount x c).banks = s.banks := rfl
@[simp] theorem State.staging_setAccount (s : State) (x : BankSet) (c : Account) : (s.setAccount x c).staging = s.staging := rfl
@[simp] theorem State.accounts_setAccount (s : State) (x : BankSet) (c : Account) : (s.setAccount x c).accounts = s.accounts.set x c := rfl
@[simp] theorem State.band_setAccount (s : State) (x : BankSet) (c : Account) : (s.setAccount x c).band = s.band := rfl
@[simp] theorem State.lastTemp_setAccount (s : State) (x : BankSet) (c : Account) : (s.setAccount x c).lastTemp = s.lastTemp := rfl
@[simp] theorem State.nextSample_setAccount (s : State) (x : BankSet) (c : Account) : (s.setAccount x c).nextSample = s.nextSample := rfl
@[simp] theorem State.retention_setAccount (s : State) (x : BankSet) (c : Account) : (s.setAccount x c).retention = s.retention := rfl
@[simp] theorem State.ports_setAccount (s : State) (x : BankSet) (c : Account) : (s.setAccount x c).ports = s.ports := rfl
@[simp] theorem State.entered_setAccount (s : State) (x : BankSet) (c : Account) : (s.setAccount x c).entered = s.entered := rfl
@[simp] theorem State.resetCloses_setAccount (s : State) (x : BankSet) (c : Account) : (s.setAccount x c).resetCloses = s.resetCloses := rfl
@[simp] theorem State.settings_setAccount (s : State) (x : BankSet) (c : Account) : (s.setAccount x c).settings = s.settings := rfl
@[simp] theorem State.claim_setAccount (s : State) (x : BankSet) (c : Account) : (s.setAccount x c).claim = s.claim := rfl
@[simp] theorem State.windows_setAccount (s : State) (x : BankSet) (c : Account) : (s.setAccount x c).windows = s.windows := rfl
@[simp] theorem State.port_setAccount (s : State) (x : BankSet) (c : Account) (r : Port) : (s.setAccount x c).port r = s.port r := rfl
@[simp] theorem State.bank_setAccount (s : State) (x : BankSet) (c : Account) (r : Bank) : (s.setAccount x c).bank r = s.bank r := rfl
@[simp] theorem State.account_setAccount (s : State) (x : BankSet) (c : Account) (r : BankSet) : (s.setAccount x c).account r = if r = x then c else s.account r := by
  simp [State.account, State.setAccount]

/-- Writing back what a port has changes nothing. -/
@[simp] theorem State.setPort_self (s : State) (p : Port) : s.setPort p (s.port p) = s := by
  simp [State.setPort, State.port]

/-- The later of two writes to a port stands. -/
@[simp] theorem State.setPort_setPort (s : State) (p : Port) (q r : PortState) : (s.setPort p q).setPort p r = s.setPort p r := by
  cases p <;> rfl

/-- Writing back what a bank has changes nothing. -/
@[simp] theorem State.setBank_self (s : State) (b : Bank) : s.setBank b (s.bank b) = s := by
  simp [State.setBank, State.bank]

/-- The later of two writes to a bank stands. -/
@[simp] theorem State.setBank_setBank (s : State) (b : Bank) (e f : BankEntry) : (s.setBank b e).setBank b f = s.setBank b f := by
  cases b <;> rfl

/-- The later of two writes to an account stands. -/
@[simp] theorem State.setAccount_setAccount (s : State) (x : BankSet) (c d : Account) :
    (s.setAccount x c).setAccount x d = s.setAccount x d := by
  cases x <;> rfl

/-! ### Reset -/

/-- Every port after power-on reset. -/
@[simp] theorem State.port_powerOn (t a b f : Nat) (temp : Int) (l : List Instr) (p : Port) :
    (State.powerOn t a b f temp l).port p = PortState.powerOn := by
  cases p <;> rfl

/-- Every bank after power-on reset. -/
@[simp] theorem State.bank_powerOn (t a b f : Nat) (temp : Int) (l : List Instr) (c : Bank) :
    (State.powerOn t a b f temp l).bank c = BankEntry.powerOn := by
  cases c <;> rfl

end Sys2Proof.Machine
end

