-- ==== Sys2Proof/Laws/Ops.lean ====
section
/-!
SUPPORT. Everything the shared operations can do, said once for each: which fields of the state they keep, and what they do to the port or
bank they name.
-/

namespace Sys2Proof.Machine

/-! ### The small updates -/

@[simp] theorem modPort_now (p : Port) (f : PortState → PortState) (s : State) : (modPort p f s).now = s.now := rfl
@[simp] theorem modPort_pending (p : Port) (f : PortState → PortState) (s : State) : (modPort p f s).pending = s.pending := rfl
@[simp] theorem modPort_array (p : Port) (f : PortState → PortState) (s : State) : (modPort p f s).array = s.array := rfl
@[simp] theorem modPort_freeCount (p : Port) (f : PortState → PortState) (s : State) : (modPort p f s).freeCount = s.freeCount := rfl
@[simp] theorem modPort_openRows (p : Port) (f : PortState → PortState) (s : State) : (modPort p f s).openRows = s.openRows := rfl
@[simp] theorem modPort_path (p : Port) (f : PortState → PortState) (s : State) : (modPort p f s).path = s.path := rfl
@[simp] theorem modPort_workList (p : Port) (f : PortState → PortState) (s : State) : (modPort p f s).workList = s.workList := rfl
@[simp] theorem modPort_lastServed (p : Port) (f : PortState → PortState) (s : State) : (modPort p f s).lastServed = s.lastServed := rfl
@[simp] theorem modPort_banks (p : Port) (f : PortState → PortState) (s : State) : (modPort p f s).banks = s.banks := rfl
@[simp] theorem modPort_staging (p : Port) (f : PortState → PortState) (s : State) : (modPort p f s).staging = s.staging := rfl
@[simp] theorem modPort_accounts (p : Port) (f : PortState → PortState) (s : State) : (modPort p f s).accounts = s.accounts := rfl
@[simp] theorem modPort_band (p : Port) (f : PortState → PortState) (s : State) : (modPort p f s).band = s.band := rfl
@[simp] theorem modPort_lastTemp (p : Port) (f : PortState → PortState) (s : State) : (modPort p f s).lastTemp = s.lastTemp := rfl
@[simp] theorem modPort_nextSample (p : Port) (f : PortState → PortState) (s : State) : (modPort p f s).nextSample = s.nextSample := rfl
@[simp] theorem modPort_retention (p : Port) (f : PortState → PortState) (s : State) : (modPort p f s).retention = s.retention := rfl
@[simp] theorem modPort_ports (p : Port) (f : PortState → PortState) (s : State) : (modPort p f s).ports = s.ports.set p (f (s.port p)) := rfl
@[simp] theorem modPort_entered (p : Port) (f : PortState → PortState) (s : State) : (modPort p f s).entered = s.entered := rfl
@[simp] theorem modPort_resetCloses (p : Port) (f : PortState → PortState) (s : State) : (modPort p f s).resetCloses = s.resetCloses := rfl
@[simp] theorem modPort_settings (p : Port) (f : PortState → PortState) (s : State) : (modPort p f s).settings = s.settings := rfl
@[simp] theorem modPort_claim (p : Port) (f : PortState → PortState) (s : State) : (modPort p f s).claim = s.claim := rfl
@[simp] theorem modPort_windows (p : Port) (f : PortState → PortState) (s : State) : (modPort p f s).windows = s.windows := rfl
@[simp] theorem modPort_port (p : Port) (f : PortState → PortState) (s : State) (r : Port) : (modPort p f s).port r = if r = p then f (s.port p) else s.port r := by
  simp [modPort]
@[simp] theorem modPort_bank (p : Port) (f : PortState → PortState) (s : State) (r : Bank) : (modPort p f s).bank r = s.bank r := rfl
@[simp] theorem modPort_account (p : Port) (f : PortState → PortState) (s : State) (r : BankSet) : (modPort p f s).account r = s.account r := rfl

@[simp] theorem modBank_now (b : Bank) (f : BankEntry → BankEntry) (s : State) : (modBank b f s).now = s.now := rfl
@[simp] theorem modBank_pending (b : Bank) (f : BankEntry → BankEntry) (s : State) : (modBank b f s).pending = s.pending := rfl
@[simp] theorem modBank_array (b : Bank) (f : BankEntry → BankEntry) (s : State) : (modBank b f s).array = s.array := rfl
@[simp] theorem modBank_freeCount (b : Bank) (f : BankEntry → BankEntry) (s : State) : (modBank b f s).freeCount = s.freeCount := rfl
@[simp] theorem modBank_openRows (b : Bank) (f : BankEntry → BankEntry) (s : State) : (modBank b f s).openRows = s.openRows := rfl
@[simp] theorem modBank_path (b : Bank) (f : BankEntry → BankEntry) (s : State) : (modBank b f s).path = s.path := rfl
@[simp] theorem modBank_workList (b : Bank) (f : BankEntry → BankEntry) (s : State) : (modBank b f s).workList = s.workList := rfl
@[simp] theorem modBank_lastServed (b : Bank) (f : BankEntry → BankEntry) (s : State) : (modBank b f s).lastServed = s.lastServed := rfl
@[simp] theorem modBank_banks (b : Bank) (f : BankEntry → BankEntry) (s : State) : (modBank b f s).banks = s.banks.set b (f (s.bank b)) := rfl
@[simp] theorem modBank_staging (b : Bank) (f : BankEntry → BankEntry) (s : State) : (modBank b f s).staging = s.staging := rfl
@[simp] theorem modBank_accounts (b : Bank) (f : BankEntry → BankEntry) (s : State) : (modBank b f s).accounts = s.accounts := rfl
@[simp] theorem modBank_band (b : Bank) (f : BankEntry → BankEntry) (s : State) : (modBank b f s).band = s.band := rfl
@[simp] theorem modBank_lastTemp (b : Bank) (f : BankEntry → BankEntry) (s : State) : (modBank b f s).lastTemp = s.lastTemp := rfl
@[simp] theorem modBank_nextSample (b : Bank) (f : BankEntry → BankEntry) (s : State) : (modBank b f s).nextSample = s.nextSample := rfl
@[simp] theorem modBank_retention (b : Bank) (f : BankEntry → BankEntry) (s : State) : (modBank b f s).retention = s.retention := rfl
@[simp] theorem modBank_ports (b : Bank) (f : BankEntry → BankEntry) (s : State) : (modBank b f s).ports = s.ports := rfl
@[simp] theorem modBank_entered (b : Bank) (f : BankEntry → BankEntry) (s : State) : (modBank b f s).entered = s.entered := rfl
@[simp] theorem modBank_resetCloses (b : Bank) (f : BankEntry → BankEntry) (s : State) : (modBank b f s).resetCloses = s.resetCloses := rfl
@[simp] theorem modBank_settings (b : Bank) (f : BankEntry → BankEntry) (s : State) : (modBank b f s).settings = s.settings := rfl
@[simp] theorem modBank_claim (b : Bank) (f : BankEntry → BankEntry) (s : State) : (modBank b f s).claim = s.claim := rfl
@[simp] theorem modBank_windows (b : Bank) (f : BankEntry → BankEntry) (s : State) : (modBank b f s).windows = s.windows := rfl
@[simp] theorem modBank_port (b : Bank) (f : BankEntry → BankEntry) (s : State) (r : Port) : (modBank b f s).port r = s.port r := rfl
@[simp] theorem modBank_bank (b : Bank) (f : BankEntry → BankEntry) (s : State) (r : Bank) : (modBank b f s).bank r = if r = b then f (s.bank b) else s.bank r := by
  simp [modBank]
@[simp] theorem modBank_account (b : Bank) (f : BankEntry → BankEntry) (s : State) (r : BankSet) : (modBank b f s).account r = s.account r := rfl

@[simp] theorem modAccount_now (x : BankSet) (f : Account → Account) (s : State) : (modAccount x f s).now = s.now := rfl
@[simp] theorem modAccount_pending (x : BankSet) (f : Account → Account) (s : State) : (modAccount x f s).pending = s.pending := rfl
@[simp] theorem modAccount_array (x : BankSet) (f : Account → Account) (s : State) : (modAccount x f s).array = s.array := rfl
@[simp] theorem modAccount_freeCount (x : BankSet) (f : Account → Account) (s : State) : (modAccount x f s).freeCount = s.freeCount := rfl
@[simp] theorem modAccount_openRows (x : BankSet) (f : Account → Account) (s : State) : (modAccount x f s).openRows = s.openRows := rfl
@[simp] theorem modAccount_path (x : BankSet) (f : Account → Account) (s : State) : (modAccount x f s).path = s.path := rfl
@[simp] theorem modAccount_workList (x : BankSet) (f : Account → Account) (s : State) : (modAccount x f s).workList = s.workList := rfl
@[simp] theorem modAccount_lastServed (x : BankSet) (f : Account → Account) (s : State) : (modAccount x f s).lastServed = s.lastServed := rfl
@[simp] theorem modAccount_banks (x : BankSet) (f : Account → Account) (s : State) : (modAccount x f s).banks = s.banks := rfl
@[simp] theorem modAccount_staging (x : BankSet) (f : Account → Account) (s : State) : (modAccount x f s).staging = s.staging := rfl
@[simp] theorem modAccount_accounts (x : BankSet) (f : Account → Account) (s : State) : (modAccount x f s).accounts = s.accounts.set x (f (s.account x)) := rfl
@[simp] theorem modAccount_band (x : BankSet) (f : Account → Account) (s : State) : (modAccount x f s).band = s.band := rfl
@[simp] theorem modAccount_lastTemp (x : BankSet) (f : Account → Account) (s : State) : (modAccount x f s).lastTemp = s.lastTemp := rfl
@[simp] theorem modAccount_nextSample (x : BankSet) (f : Account → Account) (s : State) : (modAccount x f s).nextSample = s.nextSample := rfl
@[simp] theorem modAccount_retention (x : BankSet) (f : Account → Account) (s : State) : (modAccount x f s).retention = s.retention := rfl
@[simp] theorem modAccount_ports (x : BankSet) (f : Account → Account) (s : State) : (modAccount x f s).ports = s.ports := rfl
@[simp] theorem modAccount_entered (x : BankSet) (f : Account → Account) (s : State) : (modAccount x f s).entered = s.entered := rfl
@[simp] theorem modAccount_resetCloses (x : BankSet) (f : Account → Account) (s : State) : (modAccount x f s).resetCloses = s.resetCloses := rfl
@[simp] theorem modAccount_settings (x : BankSet) (f : Account → Account) (s : State) : (modAccount x f s).settings = s.settings := rfl
@[simp] theorem modAccount_claim (x : BankSet) (f : Account → Account) (s : State) : (modAccount x f s).claim = s.claim := rfl
@[simp] theorem modAccount_windows (x : BankSet) (f : Account → Account) (s : State) : (modAccount x f s).windows = s.windows := rfl
@[simp] theorem modAccount_port (x : BankSet) (f : Account → Account) (s : State) (r : Port) : (modAccount x f s).port r = s.port r := rfl
@[simp] theorem modAccount_bank (x : BankSet) (f : Account → Account) (s : State) (r : Bank) : (modAccount x f s).bank r = s.bank r := rfl
@[simp] theorem modAccount_account (x : BankSet) (f : Account → Account) (s : State) (r : BankSet) : (modAccount x f s).account r = if r = x then f (s.account x) else s.account r := by
  simp [modAccount]

@[simp] theorem advance_now (t : Time) (s : State) : (advance t s).now = max s.now t := rfl
@[simp] theorem advance_pending (t : Time) (s : State) : (advance t s).pending = s.pending := rfl
@[simp] theorem advance_array (t : Time) (s : State) : (advance t s).array = s.array := rfl
@[simp] theorem advance_freeCount (t : Time) (s : State) : (advance t s).freeCount = s.freeCount := rfl
@[simp] theorem advance_openRows (t : Time) (s : State) : (advance t s).openRows = s.openRows := rfl
@[simp] theorem advance_path (t : Time) (s : State) : (advance t s).path = s.path := rfl
@[simp] theorem advance_workList (t : Time) (s : State) : (advance t s).workList = s.workList := rfl
@[simp] theorem advance_lastServed (t : Time) (s : State) : (advance t s).lastServed = s.lastServed := rfl
@[simp] theorem advance_banks (t : Time) (s : State) : (advance t s).banks = s.banks := rfl
@[simp] theorem advance_staging (t : Time) (s : State) : (advance t s).staging = s.staging := rfl
@[simp] theorem advance_accounts (t : Time) (s : State) : (advance t s).accounts = s.accounts := rfl
@[simp] theorem advance_band (t : Time) (s : State) : (advance t s).band = s.band := rfl
@[simp] theorem advance_lastTemp (t : Time) (s : State) : (advance t s).lastTemp = s.lastTemp := rfl
@[simp] theorem advance_nextSample (t : Time) (s : State) : (advance t s).nextSample = s.nextSample := rfl
@[simp] theorem advance_retention (t : Time) (s : State) : (advance t s).retention = s.retention := rfl
@[simp] theorem advance_ports (t : Time) (s : State) : (advance t s).ports = s.ports := rfl
@[simp] theorem advance_entered (t : Time) (s : State) : (advance t s).entered = s.entered := rfl
@[simp] theorem advance_resetCloses (t : Time) (s : State) : (advance t s).resetCloses = s.resetCloses := rfl
@[simp] theorem advance_settings (t : Time) (s : State) : (advance t s).settings = s.settings := rfl
@[simp] theorem advance_claim (t : Time) (s : State) : (advance t s).claim = s.claim := rfl
@[simp] theorem advance_windows (t : Time) (s : State) : (advance t s).windows = s.windows := rfl
@[simp] theorem advance_port (t : Time) (s : State) (r : Port) : (advance t s).port r = s.port r := rfl
@[simp] theorem advance_bank (t : Time) (s : State) (r : Bank) : (advance t s).bank r = s.bank r := rfl
@[simp] theorem advance_account (t : Time) (s : State) (r : BankSet) : (advance t s).account r = s.account r := rfl

@[simp] theorem placeWork_now (i : WorkItem) (s : State) : (placeWork i s).now = s.now := rfl
@[simp] theorem placeWork_pending (i : WorkItem) (s : State) : (placeWork i s).pending = s.pending := rfl
@[simp] theorem placeWork_array (i : WorkItem) (s : State) : (placeWork i s).array = s.array := rfl
@[simp] theorem placeWork_freeCount (i : WorkItem) (s : State) : (placeWork i s).freeCount = s.freeCount := rfl
@[simp] theorem placeWork_openRows (i : WorkItem) (s : State) : (placeWork i s).openRows = s.openRows := rfl
@[simp] theorem placeWork_path (i : WorkItem) (s : State) : (placeWork i s).path = s.path := rfl
@[simp] theorem placeWork_workList (i : WorkItem) (s : State) : (placeWork i s).workList = s.workList ++ [i] := rfl
@[simp] theorem placeWork_lastServed (i : WorkItem) (s : State) : (placeWork i s).lastServed = s.lastServed := rfl
@[simp] theorem placeWork_banks (i : WorkItem) (s : State) : (placeWork i s).banks = s.banks := rfl
@[simp] theorem placeWork_staging (i : WorkItem) (s : State) : (placeWork i s).staging = s.staging := rfl
@[simp] theorem placeWork_accounts (i : WorkItem) (s : State) : (placeWork i s).accounts = s.accounts := rfl
@[simp] theorem placeWork_band (i : WorkItem) (s : State) : (placeWork i s).band = s.band := rfl
@[simp] theorem placeWork_lastTemp (i : WorkItem) (s : State) : (placeWork i s).lastTemp = s.lastTemp := rfl
@[simp] theorem placeWork_nextSample (i : WorkItem) (s : State) : (placeWork i s).nextSample = s.nextSample := rfl
@[simp] theorem placeWork_retention (i : WorkItem) (s : State) : (placeWork i s).retention = s.retention := rfl
@[simp] theorem placeWork_ports (i : WorkItem) (s : State) : (placeWork i s).ports = s.ports := rfl
@[simp] theorem placeWork_entered (i : WorkItem) (s : State) : (placeWork i s).entered = s.entered := rfl
@[simp] theorem placeWork_resetCloses (i : WorkItem) (s : State) : (placeWork i s).resetCloses = s.resetCloses := rfl
@[simp] theorem placeWork_settings (i : WorkItem) (s : State) : (placeWork i s).settings = s.settings := rfl
@[simp] theorem placeWork_claim (i : WorkItem) (s : State) : (placeWork i s).claim = s.claim := rfl
@[simp] theorem placeWork_windows (i : WorkItem) (s : State) : (placeWork i s).windows = s.windows := rfl
@[simp] theorem placeWork_port (i : WorkItem) (s : State) (r : Port) : (placeWork i s).port r = s.port r := rfl
@[simp] theorem placeWork_bank (i : WorkItem) (s : State) (r : Bank) : (placeWork i s).bank r = s.bank r := rfl
@[simp] theorem placeWork_account (i : WorkItem) (s : State) (r : BankSet) : (placeWork i s).account r = s.account r := rfl

@[simp] theorem freeStaged_now (p : Port) (tag : Tag) (s : State) : (freeStaged p tag s).now = s.now := rfl
@[simp] theorem freeStaged_pending (p : Port) (tag : Tag) (s : State) : (freeStaged p tag s).pending = s.pending := rfl
@[simp] theorem freeStaged_array (p : Port) (tag : Tag) (s : State) : (freeStaged p tag s).array = s.array := rfl
@[simp] theorem freeStaged_freeCount (p : Port) (tag : Tag) (s : State) : (freeStaged p tag s).freeCount = s.freeCount := rfl
@[simp] theorem freeStaged_openRows (p : Port) (tag : Tag) (s : State) : (freeStaged p tag s).openRows = s.openRows := rfl
@[simp] theorem freeStaged_path (p : Port) (tag : Tag) (s : State) : (freeStaged p tag s).path = s.path := rfl
@[simp] theorem freeStaged_workList (p : Port) (tag : Tag) (s : State) : (freeStaged p tag s).workList = s.workList := rfl
@[simp] theorem freeStaged_lastServed (p : Port) (tag : Tag) (s : State) : (freeStaged p tag s).lastServed = s.lastServed := rfl
@[simp] theorem freeStaged_banks (p : Port) (tag : Tag) (s : State) : (freeStaged p tag s).banks = s.banks := rfl
@[simp] theorem freeStaged_staging (p : Port) (tag : Tag) (s : State) : (freeStaged p tag s).staging = s.staging.filter (fun w => !decide (w.port = p ∧ w.tag = tag)) := rfl
@[simp] theorem freeStaged_accounts (p : Port) (tag : Tag) (s : State) : (freeStaged p tag s).accounts = s.accounts := rfl
@[simp] theorem freeStaged_band (p : Port) (tag : Tag) (s : State) : (freeStaged p tag s).band = s.band := rfl
@[simp] theorem freeStaged_lastTemp (p : Port) (tag : Tag) (s : State) : (freeStaged p tag s).lastTemp = s.lastTemp := rfl
@[simp] theorem freeStaged_nextSample (p : Port) (tag : Tag) (s : State) : (freeStaged p tag s).nextSample = s.nextSample := rfl
@[simp] theorem freeStaged_retention (p : Port) (tag : Tag) (s : State) : (freeStaged p tag s).retention = s.retention := rfl
@[simp] theorem freeStaged_ports (p : Port) (tag : Tag) (s : State) : (freeStaged p tag s).ports = s.ports := rfl
@[simp] theorem freeStaged_entered (p : Port) (tag : Tag) (s : State) : (freeStaged p tag s).entered = s.entered := rfl
@[simp] theorem freeStaged_resetCloses (p : Port) (tag : Tag) (s : State) : (freeStaged p tag s).resetCloses = s.resetCloses := rfl
@[simp] theorem freeStaged_settings (p : Port) (tag : Tag) (s : State) : (freeStaged p tag s).settings = s.settings := rfl
@[simp] theorem freeStaged_claim (p : Port) (tag : Tag) (s : State) : (freeStaged p tag s).claim = s.claim := rfl
@[simp] theorem freeStaged_windows (p : Port) (tag : Tag) (s : State) : (freeStaged p tag s).windows = s.windows := rfl
@[simp] theorem freeStaged_port (p : Port) (tag : Tag) (s : State) (r : Port) : (freeStaged p tag s).port r = s.port r := rfl
@[simp] theorem freeStaged_bank (p : Port) (tag : Tag) (s : State) (r : Bank) : (freeStaged p tag s).bank r = s.bank r := rfl
@[simp] theorem freeStaged_account (p : Port) (tag : Tag) (s : State) (r : BankSet) : (freeStaged p tag s).account r = s.account r := rfl

/-! ### The frame of the Lease Manager's procedures -/

/-- A port changed only in its tags in flight (some may have left), its answers and its notices. -/
structure PortState.Frame (q r : PortState) : Prop where
  link : r.link = q.link
  paused : r.paused = q.paused
  session : r.session = q.session
  epoch : r.epoch = q.epoch
  inFlight : r.inFlight.Sublist q.inFlight
  detachTag : r.detachTag = q.detachTag
  ingress : r.ingress = q.ingress
  sending : r.sending = q.sending
  faults : r.faults = q.faults
  overflow : r.overflow = q.overflow
  vote : r.vote = q.vote

theorem PortState.Frame.refl (q : PortState) : q.Frame q :=
  ⟨rfl, rfl, rfl, rfl, List.Sublist.refl _, rfl, rfl, rfl, rfl, rfl, rfl⟩

theorem PortState.Frame.trans {q r u : PortState} (h : q.Frame r) (k : r.Frame u) : q.Frame u :=
  ⟨k.1.trans h.1, k.2.trans h.2, k.3.trans h.3, k.4.trans h.4, k.5.trans h.5, k.6.trans h.6, k.7.trans h.7, k.8.trans h.8,
    k.9.trans h.9, k.10.trans h.10, k.11.trans h.11⟩

/-- The Lease Manager's procedures change the Bank Lease Table, the work list, and of the ports their answers and notices alone. -/
structure LeaseFrame (s t : State) : Prop where
  now : t.now = s.now
  pending : t.pending = s.pending
  array : t.array = s.array
  freeCount : t.freeCount = s.freeCount
  openRows : t.openRows = s.openRows
  path : t.path = s.path
  lastServed : t.lastServed = s.lastServed
  staging : t.staging = s.staging
  accounts : t.accounts = s.accounts
  band : t.band = s.band
  lastTemp : t.lastTemp = s.lastTemp
  nextSample : t.nextSample = s.nextSample
  retention : t.retention = s.retention
  entered : t.entered = s.entered
  resetCloses : t.resetCloses = s.resetCloses
  settings : t.settings = s.settings
  claim : t.claim = s.claim
  windows : t.windows = s.windows
  ports : ∀ p, (s.port p).Frame (t.port p)

theorem LeaseFrame.refl (s : State) : LeaseFrame s s :=
  ⟨rfl, rfl, rfl, rfl, rfl, rfl, rfl, rfl, rfl, rfl, rfl, rfl, rfl, rfl, rfl, rfl, rfl, rfl, fun _ => PortState.Frame.refl _⟩

theorem LeaseFrame.trans {s t u : State} (h : LeaseFrame s t) (k : LeaseFrame t u) : LeaseFrame s u :=
  ⟨k.1.trans h.1, k.2.trans h.2, k.3.trans h.3, k.4.trans h.4, k.5.trans h.5, k.6.trans h.6, k.7.trans h.7, k.8.trans h.8, k.9.trans h.9,
    k.10.trans h.10, k.11.trans h.11, k.12.trans h.12, k.13.trans h.13, k.14.trans h.14, k.15.trans h.15, k.16.trans h.16, k.17.trans h.17,
    k.18.trans h.18, fun p => (h.19 p).trans (k.19 p)⟩

/-- The set's account is untouched. -/
theorem LeaseFrame.account {s t : State} (h : LeaseFrame s t) (x : BankSet) : t.account x = s.account x := by
  simp only [State.account, h.accounts]

/-- Pressure is untouched. -/
theorem LeaseFrame.pressure {s t : State} (h : LeaseFrame s t) (x : BankSet) : pressure t x = pressure s x := by
  simp only [Machine.pressure, h.account, h.settings]

/-- No bank but `b` changes. -/
def OnlyBank (b : Bank) (s t : State) : Prop := ∀ c, c ≠ b → t.bank c = s.bank c

theorem OnlyBank.refl (b : Bank) (s : State) : OnlyBank b s s := fun _ _ => rfl

theorem OnlyBank.trans {b : Bank} {s t u : State} (h : OnlyBank b s t) (k : OnlyBank b t u) : OnlyBank b s u :=
  fun c hc => (k c hc).trans (h c hc)

theorem setBank_frame (b : Bank) (e : BankEntry) (s : State) : LeaseFrame s (s.setBank b e) ∧ OnlyBank b s (s.setBank b e) := by
  constructor
  · exact { LeaseFrame.refl s with }
  · intro c hc; simp [hc]

theorem modBank_frame (b : Bank) (f : BankEntry → BankEntry) (s : State) :
    LeaseFrame s (modBank b f s) ∧ OnlyBank b s (modBank b f s) := setBank_frame b _ s

theorem placeWork_frame (b : Bank) (i : WorkItem) (s : State) : LeaseFrame s (placeWork i s) ∧ OnlyBank b s (placeWork i s) :=
  ⟨{ LeaseFrame.refl s with }, OnlyBank.refl b s⟩

/-- Both frames, one after the other. -/
theorem frame_trans {b : Bank} {s t u : State} (h : LeaseFrame s t ∧ OnlyBank b s t) (k : LeaseFrame t u ∧ OnlyBank b t u) :
    LeaseFrame s u ∧ OnlyBank b s u := ⟨h.1.trans k.1, h.2.trans k.2⟩

theorem frame_refl (b : Bank) (s : State) : LeaseFrame s s ∧ OnlyBank b s s := ⟨LeaseFrame.refl s, OnlyBank.refl b s⟩

/-- An update of one port's answers and notices. -/
theorem modPort_frame (b : Bank) (p : Port) (f : PortState → PortState) (s : State) (h : (s.port p).Frame (f (s.port p))) :
    LeaseFrame s (modPort p f s) ∧ OnlyBank b s (modPort p f s) := by
  refine ⟨{ LeaseFrame.refl s with ports := fun r => ?_ }, OnlyBank.refl b s⟩
  rw [modPort_port]
  split
  · subst_vars; exact h
  · exact PortState.Frame.refl _

/-! ### Answers and notices -/

theorem answer_frame (b : Bank) (p : Port) (tag : Tag) (res : Result) (i0 i1 : Byte) (payload : List Byte) (s : State) :
    LeaseFrame s (answer p tag res i0 i1 payload s) ∧ OnlyBank b s (answer p tag res i0 i1 payload s) :=
  modPort_frame b p _ s { PortState.Frame.refl (s.port p) with inFlight := List.erase_sublist }

/-- The banks are untouched by an answer. -/
theorem answer_bank (p : Port) (tag : Tag) (res : Result) (i0 i1 : Byte) (payload : List Byte) (s : State) (c : Bank) :
    (answer p tag res i0 i1 payload s).bank c = s.bank c := rfl

theorem answer_workList (p : Port) (tag : Tag) (res : Result) (i0 i1 : Byte) (payload : List Byte) (s : State) :
    (answer p tag res i0 i1 payload s).workList = s.workList := rfl

/-- What an answer does to each port. -/
theorem answer_port (p : Port) (tag : Tag) (res : Result) (i0 i1 : Byte) (payload : List Byte) (s : State) (r : Port) :
    (answer p tag res i0 i1 payload s).port r =
      if r = p then
        { s.port p with
          inFlight := (s.port p).inFlight.erase tag
          outbox := (s.port p).outbox ++ [.response tag res (s.port p).epoch i0 i1 payload] }
      else s.port r := by
  rw [answer, modPort_port]

theorem raiseNotice_frame (b : Bank) (p : Port) (n : Notice) (s : State) :
    LeaseFrame s (raiseNotice p n s) ∧ OnlyBank b s (raiseNotice p n s) := by
  apply modPort_frame
  split
  · exact { PortState.Frame.refl (s.port p) with }
  · exact PortState.Frame.refl _

theorem raiseNotice_bank (p : Port) (n : Notice) (s : State) (c : Bank) : (raiseNotice p n s).bank c = s.bank c := rfl

theorem raiseNotice_workList (p : Port) (n : Notice) (s : State) : (raiseNotice p n s).workList = s.workList := rfl

/-- What a notice does to each port. -/
theorem raiseNotice_port (p : Port) (n : Notice) (s : State) (r : Port) :
    (raiseNotice p n s).port r =
      if r = p ∧ (s.port p).session = .attached then { s.port p with notices := mergeNotice n (s.port p).notices } else s.port r := by
  rw [raiseNotice, modPort_port]
  by_cases h1 : r = p
  · by_cases h2 : (s.port p).session = .attached
    · simp [h1, h2]
    · simp [h1, h2]
  · simp [h1]

/-- Notices raised in a row at the ports of a list. -/
theorem raiseEach_frame (b : Bank) (n : Notice) (ps : List Port) (s : State) :
    LeaseFrame s (ps.foldl (fun s p => raiseNotice p n s) s) ∧ OnlyBank b s (ps.foldl (fun s p => raiseNotice p n s) s) := by
  induction ps generalizing s with
  | nil => exact frame_refl b s
  | cons p ps ih => exact frame_trans (raiseNotice_frame b p n s) (ih _)

/-! ### Granting -/

theorem refreshContention_frame (b : Bank) (s : State) : LeaseFrame s (refreshContention b s) ∧ OnlyBank b s (refreshContention b s) :=
  setBank_frame b _ s

theorem refreshContention_workList (b : Bank) (s : State) : (refreshContention b s).workList = s.workList := rfl

theorem grant_frame (b : Bank) (m : Mode) (p : Port) (tag : Tag) (s : State) :
    LeaseFrame s (grant b m p tag s) ∧ OnlyBank b s (grant b m p tag s) :=
  frame_trans (modBank_frame b _ s) (answer_frame b p tag .granted _ _ _ _)

theorem grantAll_frame (b : Bank) (m : Mode) (g : List (Port × Tag)) (s : State) :
    LeaseFrame s (grantAll b m g s) ∧ OnlyBank b s (grantAll b m g s) := by
  induction g generalizing s with
  | nil => exact frame_refl b s
  | cons x g ih => exact frame_trans (grant_frame b m x.1 x.2 s) (ih _)

theorem grantAll_workList (b : Bank) (m : Mode) (g : List (Port × Tag)) (s : State) : (grantAll b m g s).workList = s.workList := by
  induction g generalizing s with
  | nil => rfl
  | cons x g ih => exact ih _

/-- Grants change nothing of the bank's entry but its holders. -/
theorem grantAll_bank (b : Bank) (m : Mode) (g : List (Port × Tag)) (s : State) :
    ∃ h, (grantAll b m g s).bank b = { s.bank b with holders := h } ∧
      ∀ p, (∀ x ∈ g, x.1 ≠ p) → h.get p = (s.bank b).holders.get p := by
  induction g generalizing s with
  | nil => exact ⟨(s.bank b).holders, rfl, fun _ _ => rfl⟩
  | cons x g ih =>
    obtain ⟨h, e, k⟩ := ih (grant b m x.1 x.2 s)
    have hb : (grant b m x.1 x.2 s).bank b = { s.bank b with holders := (s.bank b).holders.set x.1 (some x.2) } := by
      simp [grant, answer]
    refine ⟨h, ?_, fun p hp => ?_⟩
    · show (grantAll b m g (grant b m x.1 x.2 s)).bank b = _
      rw [e, hb]
    · rw [k p (fun y hy => hp y (List.mem_cons_of_mem _ hy)), hb]
      have : p ≠ x.1 := (hp x List.mem_cons_self).symm
      simp [this]

/-! ### Serving, settling, draining and revoking -/

theorem startOpening_frame (b : Bank) (row : Row) (mode : Mode) (gs : List Grantee) (ws : List Waiter) (s : State) :
    LeaseFrame s (startOpening b row mode gs ws s) ∧ OnlyBank b s (startOpening b row mode gs ws s) :=
  frame_trans (modBank_frame b _ s) (placeWork_frame b _ _)

theorem serve_frame (b : Bank) (s : State) : LeaseFrame s (serve b s) ∧ OnlyBank b s (serve b s) := by
  unfold serve
  dsimp only
  split
  · exact frame_refl b s
  split
  · exact frame_refl b s
  split
  · exact startOpening_frame ..
  · split
    · exact frame_trans (modBank_frame b _ s) (frame_trans (grantAll_frame ..) (refreshContention_frame ..))
    · exact frame_refl b s
  · exact frame_refl b s

theorem serveBanks_frame (bs : List Bank) (s : State) : LeaseFrame s (serveBanks bs s) := by
  induction bs generalizing s with
  | nil => exact LeaseFrame.refl s
  | cons b bs ih => exact (serve_frame b s).1.trans (ih _)

/-- Serving other banks leaves a bank as it was. -/
theorem serveBanks_bank (bs : List Bank) (s : State) (c : Bank) (h : c ∉ bs) : (serveBanks bs s).bank c = s.bank c := by
  induction bs generalizing s with
  | nil => rfl
  | cons b bs ih =>
    have hc := not_or.1 (fun k => h (List.mem_cons.2 k))
    exact (ih (serve b s) hc.2).trans ((serve_frame b s).2 c hc.1)

theorem startClosing_frame (b : Bank) (s : State) : LeaseFrame s (startClosing b s) ∧ OnlyBank b s (startClosing b s) :=
  frame_trans (modBank_frame b _ s) (placeWork_frame b _ _)

theorem settle_frame (b : Bank) (s : State) : LeaseFrame s (settle b s) ∧ OnlyBank b s (settle b s) := by
  unfold settle
  dsimp only
  split
  · exact frame_refl b s
  split
  · exact startClosing_frame b s
  split
  · exact frame_trans (modBank_frame b _ s) (frame_trans (grantAll_frame ..) (refreshContention_frame ..))
  · exact startClosing_frame b s

theorem drainIfEmpty_frame (b : Bank) (s : State) : LeaseFrame s (drainIfEmpty b s) ∧ OnlyBank b s (drainIfEmpty b s) := by
  unfold drainIfEmpty
  dsimp only
  split
  · exact frame_trans (modBank_frame b _ s) (settle_frame b _)
  · exact frame_refl b s

theorem removeHolder_frame (b : Bank) (p : Port) (s : State) :
    LeaseFrame s (removeHolder b p s) ∧ OnlyBank b s (removeHolder b p s) := modBank_frame b _ s

theorem revokeEach_frame (b : Bank) (ps : List Port) (reason : Reason) (s : State) :
    LeaseFrame s (ps.foldl (fun s p => raiseNotice p (.revoked b reason) (removeHolder b p s)) s) ∧
      OnlyBank b s (ps.foldl (fun s p => raiseNotice p (.revoked b reason) (removeHolder b p s)) s) := by
  induction ps generalizing s with
  | nil => exact frame_refl b s
  | cons p ps ih => exact frame_trans (frame_trans (removeHolder_frame b p s) (raiseNotice_frame ..)) (ih _)

theorem revoke_frame (b : Bank) (ps : List Port) (reason : Reason) (s : State) :
    LeaseFrame s (revoke b ps reason s) ∧ OnlyBank b s (revoke b ps reason s) :=
  frame_trans (revokeEach_frame b ps reason s) (drainIfEmpty_frame b _)

/-- A waiting entry withdrawn with an answer or without one. -/
theorem withdrawWaiter_frame (b : Bank) (p : Port) (f : State → State) (s : State)
    (hf : ∀ u, LeaseFrame u (f u) ∧ OnlyBank b u (f u)) :
    LeaseFrame s (withdrawWaiter b p f s) ∧ OnlyBank b s (withdrawWaiter b p f s) := by
  have h := frame_trans (frame_trans (modBank_frame b
    (fun e => { e with waiting := e.waiting.filter (fun w => !decide (w.port = p)) }) s) (hf _)) (refreshContention_frame b _)
  unfold withdrawWaiter
  dsimp only
  split
  · exact frame_trans h (serve_frame b _)
  · exact h

/-! ### Pressure and forcing -/

/-- A fold of steps that each keep the lease frame keeps it. -/
theorem foldl_frame {α : Type} (f : State → α → State) (hf : ∀ s a, LeaseFrame s (f s a)) (l : List α) (s : State) :
    LeaseFrame s (l.foldl f s) := by
  induction l generalizing s with
  | nil => exact LeaseFrame.refl s
  | cons a l ih => exact (hf s a).trans (ih _)

theorem enterPressure_frame (x : BankSet) (s : State) : LeaseFrame s (enterPressure x s) := by
  apply foldl_frame
  intro s b
  split
  · exact (raiseEach_frame b (.releaseRequest b) _ s).1
  · exact LeaseFrame.refl s

theorem forceSet_frame (x : BankSet) (s : State) : LeaseFrame s (forceSet x s) := by
  apply foldl_frame
  intro s b
  split
  · exact (revoke_frame ..).1
  · exact LeaseFrame.refl s

/-- A row of notices leaves every bank and the work list as they are. -/
theorem raiseEach_bank (n : Notice) (ps : List Port) (s : State) (c : Bank) :
    (ps.foldl (fun s p => raiseNotice p n s) s).bank c = s.bank c ∧ (ps.foldl (fun s p => raiseNotice p n s) s).workList = s.workList := by
  induction ps generalizing s with
  | nil => exact ⟨rfl, rfl⟩
  | cons p ps ih => exact ih (raiseNotice p n s)

/-- Entering pressure changes no lease (R93). -/
theorem enterPressure_bank (x : BankSet) (s : State) (c : Bank) :
    (enterPressure x s).bank c = s.bank c ∧ (enterPressure x s).workList = s.workList := by
  unfold enterPressure
  generalize x.banks = bs
  induction bs generalizing s with
  | nil => exact ⟨rfl, rfl⟩
  | cons b bs ih =>
    simp only [List.foldl_cons]
    split
    · have h := raiseEach_bank (.releaseRequest b) (s.bank b).holderPorts s c
      exact ⟨(ih _).1.trans h.1, (ih _).2.trans h.2⟩
    · exact ih s

/-! ### Faults -/

/-- A fault changes nothing but one port's fault list, overflow mark and notices (R141). -/
theorem recordFault_eq (p : Port) (f : FaultRecord) (s : State) :
    ∃ l o n, recordFault p f s = s.setPort p { s.port p with faults := l, overflow := o, notices := n } := by
  have self : s = s.setPort p (s.port p) := by
    simp [State.setPort, State.port]
  unfold recordFault
  dsimp only
  split_ifs with h1 h2 h3
  · exact ⟨_, _, _, self⟩
  · refine ⟨(s.port p).faults ++ [f], (s.port p).overflow,
      mergeNotice (.fault f.kind ((s.port p).faults.length + 1) (s.port p).overflow) (s.port p).notices, ?_⟩
    have ha : (s.port p).session = .attached := by simpa using h1
    simp only [raiseNotice, modPort, ha, State.setPort]
    congr 1
    cases p <;> rfl
  · exact ⟨_, _, _, self⟩
  · refine ⟨(s.port p).faults, true, mergeNotice (.fault f.kind (s.port p).faults.length true) (s.port p).notices, ?_⟩
    have ha : (s.port p).session = .attached := by simpa using h1
    simp only [raiseNotice, modPort, ha, State.setPort]
    congr 1
    cases p <;> rfl

end Sys2Proof.Machine
end

