-- ==== Sys2Proof/Laws/Events.lean ====
section
/-!
SUPPORT. What every event ends with: the one spec lemma of `finish`, and what it says of the derived conditions.
-/

namespace Sys2Proof.Machine

/-! ### The parts of the end of an event -/

theorem updateMarks_account (s : State) (x : BankSet) : (updateMarks s).account x = { s.account x with mark := markFor s x } := by
  cases x <;> rfl

/-- The four banks of a set, changed one after the other. -/
theorem foldl_modBank (f : BankEntry → BankEntry) (bs : List Bank) (hbs : bs.Nodup) (s : State) (c : Bank) :
    (bs.foldl (fun s b => modBank b f s) s).bank c = if c ∈ bs then f (s.bank c) else s.bank c := by
  induction bs generalizing s with
  | nil => simp
  | cons b bs ih =>
    rw [List.foldl_cons, ih (List.nodup_cons.1 hbs).2, modBank_bank]
    have hb := (List.nodup_cons.1 hbs).1
    by_cases h : c = b
    · subst h; simp [hb]
    · simp [h]

/-- A bank belongs to the four banks of its set alone. -/
theorem mem_banks (x : BankSet) (c : Bank) : c ∈ x.banks ↔ c.set = x := by
  cases x <;> cases c <;> decide

theorem nodup_banks (x : BankSet) : x.banks.Nodup := by
  cases x <;> decide

theorem mem_allBanks (c : Bank) : c ∈ Bank.all := by
  cases c <;> decide

theorem mem_allPorts (p : Port) : p ∈ Port.all := by
  cases p <;> decide

theorem nodup_allPorts : Port.all.Nodup := by decide

/-- Changing banks one after the other changes nothing else. -/
theorem foldl_modBank_banks (f : BankEntry → BankEntry) (bs : List Bank) (s : State) :
    bs.foldl (fun s b => modBank b f s) s = { s with banks := (bs.foldl (fun s b => modBank b f s) s).banks } := by
  induction bs generalizing s with
  | nil => rfl
  | cons b bs ih => rw [List.foldl_cons, ih]; rfl

/-- The four banks of a set take a state, and nothing else changes. -/
theorem setStates_eq (x : BankSet) (st : BankState) (s : State) :
    ∃ k : PerBank BankEntry, (∀ c, k.get c = if c.set = x then { s.bank c with state := st } else s.bank c) ∧
      setStates x st s = { s with banks := k } := by
  refine ⟨_, fun c => ?_, foldl_modBank_banks _ _ _⟩
  have h := foldl_modBank (fun e => { e with state := st }) x.banks (nodup_banks x) s c
  simp only [mem_banks] at h
  exact h

/-- What the start of a STEP does (R13). -/
theorem startStep_eq (x : BankSet) (forced : Bool) (s : State) :
    ∃ k : PerBank BankEntry, (∀ c, k.get c = if c.set = x then { s.bank c with state := .refreshing } else s.bank c) ∧
      startStep x forced s =
        { s with
          banks := k
          path := some { op := .step x (s.account x).sweep forced, completes := s.now + Config.stepTime } } := by
  obtain ⟨k, hk, e⟩ := setStates_eq x .refreshing s
  exact ⟨k, hk, by rw [startStep, e]⟩

theorem pickSet_eligible {s : State} {f : BankSet → Bool} {x : BankSet} (h : pickSet s f = some x) : f x = true := by
  unfold pickSet at h
  split_ifs at h with h1 h2 h3 h4
  · cases h; simp_all
  · cases h; simp_all
  · cases h; exact h3
  · cases h; exact h4

/-- The cases of the arbiter (R9, R10): nothing, an item of the list, or a STEP of a set whose banks are CLOSED and whose mark allows it. -/
theorem select_cases (s : State) :
    (select s = s)
    ∨ (s.path = none ∧ ∃ w ∈ s.workList, pickItem s = some w ∧ select s = startItem w s)
    ∨ (s.path = none ∧ ∃ x forced, setClosed s x = true ∧ (s.account x).mark ≠ .none ∧
        (forced = true ↔ forcedEligible s x = true) ∧ (forced = false → ordinaryEligible s x = true) ∧ select s = startStep x forced s) := by
  unfold select
  cases hp : s.path with
  | some r => exact .inl rfl
  | none =>
    dsimp only
    cases h1 : pickSet s (forcedEligible s) with
    | some x =>
      have h := pickSet_eligible h1
      refine .inr (.inr ⟨rfl, x, true, ?_, ?_, by simp [h], by simp, rfl⟩)
      · simp only [forcedEligible, Bool.and_eq_true] at h; exact h.2
      · simp only [forcedEligible, Bool.and_eq_true, decide_eq_true_eq] at h; simp [h.1]
    | none =>
      dsimp only
      cases h2 : pickItem s with
      | some w =>
        refine .inr (.inl ⟨rfl, w, ?_, rfl, rfl⟩)
        unfold pickItem at h2
        cases h3 : s.workList.find? WorkItem.isClose with
        | some v => rw [h3] at h2; cases h2; exact List.mem_of_find?_eq_some h3
        | none =>
          rw [h3] at h2
          dsimp only at h2
          cases h4 : (rotation s.lastServed).findSome? (fun p => s.workList.find? (WorkItem.isXferFor p)) with
          | some v =>
            rw [h4] at h2; cases h2
            obtain ⟨q, _, hq⟩ := List.exists_of_findSome?_eq_some h4
            exact List.mem_of_find?_eq_some hq
          | none => rw [h4] at h2; exact List.mem_of_find?_eq_some h2
      | none =>
        dsimp only
        cases h3 : pickSet s (ordinaryEligible s) with
        | none => exact .inl rfl
        | some x =>
          have h := pickSet_eligible h3
          have hn : forcedEligible s x ≠ true := by
            intro hf
            unfold pickSet at h1
            cases x <;> simp [hf] at h1 <;> split_ifs at h1
          refine .inr (.inr ⟨rfl, x, false, ?_, ?_, by simp [hn], fun _ => h, rfl⟩)
          · simp only [ordinaryEligible, Bool.and_eq_true] at h; exact h.1.1
          · simp only [ordinaryEligible, Bool.and_eq_true, Bool.or_eq_true, decide_eq_true_eq] at h
            rcases h.2 with h | h <;> simp [h]

/-- A notice raised at every port changes nothing but notices. -/
theorem raiseEverywhere_eq (n : Notice) (s : State) :
    raiseEverywhere n s = { s with ports := (raiseEverywhere n s).ports } ∧
      ∀ p, (raiseEverywhere n s).port p =
        if (s.port p).session = .attached then { s.port p with notices := mergeNotice n (s.port p).notices } else s.port p := by
  constructor
  · rfl
  · intro p
    simp only [raiseEverywhere, Port.all, List.foldl_cons, List.foldl_nil, raiseNotice_port]
    cases p <;> simp

theorem reachRetained_cases (s : State) :
    (reachRetained s = s ∧ ¬(s.retention = .entering ∧ s.path = none)) ∨
      (s.retention = .entering ∧ s.path = none ∧ reachRetained s = raiseEverywhere (.retention false) { s with retention := .retained }) := by
  unfold reachRetained
  by_cases h : s.retention = .entering ∧ s.path = none
  · rw [if_pos h]; exact .inr ⟨h.1, h.2, rfl⟩
  · rw [if_neg h]; exact .inl ⟨rfl, h⟩

/-- The ports of `s` after RETENTION (entered) has been raised everywhere. -/
def Informed (s : State) (q : PerPort PortState) : Prop :=
  ∀ p, q.get p =
    if (s.port p).session = .attached then { s.port p with notices := mergeNotice (.retention false) (s.port p).notices } else s.port p

theorem reachRetained_eq (s : State) :
    ∃ r q, reachRetained s = { s with retention := r, ports := q } ∧
      ((r = s.retention ∧ q = s.ports ∧ ¬(s.retention = .entering ∧ s.path = none)) ∨
        (s.retention = .entering ∧ s.path = none ∧ r = .retained ∧ Informed s q)) := by
  rcases reachRetained_cases s with ⟨h, k⟩ | ⟨h1, h2, h⟩
  · exact ⟨_, _, h, .inl ⟨rfl, rfl, k⟩⟩
  · refine ⟨.retained, _, h.trans (raiseEverywhere_eq _ _).1, .inr ⟨h1, h2, rfl, fun p => ?_⟩⟩
    exact (raiseEverywhere_eq (.retention false) { s with retention := .retained }).2 p

theorem tryEnter_eq (s : State) :
    ∃ r m q, tryEnter s = { s with retention := r, entered := m, ports := q } ∧
      ((r = s.retention ∧ m = s.entered ∧ q = s.ports) ∨
        (s.retention = .active ∧ entryCondition s = true ∧
          ((r = .entering ∧ m = none ∧ q = s.ports ∧ s.path ≠ none) ∨
            (r = .retained ∧ m = some s.now ∧ s.path = none ∧ Informed s q)))) := by
  unfold tryEnter
  by_cases h : entryCondition s = true
  · rw [if_pos h]
    have ha : s.retention = .active := by
      simp only [entryCondition, Bool.and_eq_true, decide_eq_true_eq] at h
      exact h.1.1.1
    obtain ⟨r, q, e, k | ⟨_, h2, h3, h4⟩⟩ :=
      reachRetained_eq { s with retention := .entering, entered := if s.path = none then some s.now else none }
    · have hp : s.path ≠ none := fun hp => k.2.2 ⟨rfl, hp⟩
      exact ⟨r, _, q, e, .inr ⟨ha, h, .inl ⟨k.1, if_neg hp, k.2.1, hp⟩⟩⟩
    · exact ⟨r, _, q, e, .inr ⟨ha, h, .inr ⟨h3, if_pos h2, h2, h4⟩⟩⟩
  · rw [if_neg h]
    exact ⟨_, _, _, rfl, .inl ⟨rfl, rfl, rfl⟩⟩

/-- What the arbiter's selection changes: the path, the list, the last-served port, and CLOSED banks that go to REFRESHING. -/
theorem select_eq (s : State) :
    ∃ k o l p, select s = { s with banks := k, path := o, workList := l, lastServed := p } ∧
      (∀ b, k.get b = s.bank b ∨ ((s.bank b).state = .closed ∧ k.get b = { s.bank b with state := .refreshing })) := by
  rcases select_cases s with h | ⟨_, w, _, _, h⟩ | ⟨_, x, forced, hx, _, _, _, h⟩
  · exact ⟨s.banks, s.path, s.workList, s.lastServed, h, fun b => .inl rfl⟩
  · exact ⟨s.banks, _, _, _, h, fun b => .inl rfl⟩
  · obtain ⟨k, hk, e⟩ := startStep_eq x forced s
    refine ⟨k, _, _, _, h.trans e, fun b => ?_⟩
    rw [hk]
    by_cases hb : b.set = x
    · refine .inr ⟨?_, by rw [if_pos hb]⟩
      simp only [setClosed, List.all_eq_true, decide_eq_true_eq] at hx
      exact hx b ((mem_banks x b).2 hb)
    · rw [if_neg hb]; exact .inl rfl

/-- The arbiter does not look at the ports. -/
theorem select_ports (s : State) (q : PerPort PortState) : select { s with ports := q } = { select s with ports := q } := by
  obtain ⟨now, pending, array, freeCount, openRows, path, workList, lastServed, banks, staging, accounts, band, lastTemp, nextSample,
    retention, entered, ports, resetCloses, settings, claim, windows⟩ := s
  cases path with
  | some r => rfl
  | none =>
    dsimp only
    generalize hs : (State.mk now pending array freeCount openRows none workList lastServed banks staging accounts band lastTemp nextSample
      retention entered ports resetCloses settings claim windows) = s
    generalize ht : (State.mk now pending array freeCount openRows none workList lastServed banks staging accounts band lastTemp nextSample
      retention entered q resetCloses settings claim windows) = t
    have hp : s.path = none := by rw [← hs]
    have hq : t.path = none := by rw [← ht]
    have e1 : pickSet t (forcedEligible t) = pickSet s (forcedEligible s) := by rw [← hs, ← ht]; rfl
    have e2 : pickItem t = pickItem s := by rw [← hs, ← ht]; rfl
    have e3 : pickSet t (ordinaryEligible t) = pickSet s (ordinaryEligible s) := by rw [← hs, ← ht]; rfl
    unfold select
    rw [hp, hq, e1, e2, e3]
    dsimp only
    cases pickSet s (forcedEligible s) with
    | some x => rw [← hs, ← ht]; cases x <;> rfl
    | none =>
      cases pickItem s with
      | some w => rw [← hs, ← ht]; cases w <;> rfl
      | none =>
        cases pickSet s (ordinaryEligible s) with
        | some x => rw [← hs, ← ht]; cases x <;> rfl
        | none => rw [← hs, ← ht]

/-- The entry condition, read as a proposition. -/
theorem entryCondition_iff (s : State) : entryCondition s = true ↔ s.retention = .active ∧ MayRetain s := by
  unfold entryCondition MayRetain allBanksShut
  simp only [Bool.and_eq_true, decide_eq_true_eq, List.all_eq_true, List.isEmpty_iff]
  have e1 : (∀ b ∈ Bank.all, (s.bank b).state = .closed ∨ (s.bank b).state = .refreshing) ↔
      ∀ b, (s.bank b).state = .closed ∨ (s.bank b).state = .refreshing := ⟨fun h b => h b (mem_allBanks b), fun h b _ => h b⟩
  have e2 : (∀ p ∈ Port.all, (s.port p).inFlight = []) ↔ ∀ p, (s.port p).inFlight = [] :=
    ⟨fun h p => h p (mem_allPorts p), fun h p _ => h p⟩
  rw [e1, e2, and_assoc, and_assoc]
  refine and_congr Iff.rfl (and_congr Iff.rfl (and_congr Iff.rfl ?_))
  by_cases h : (Port.all.any fun p => decide ((s.port p).session = .attached)) = true
  · rw [if_pos h]
    simp only [List.any_eq_true, decide_eq_true_eq] at h
    obtain ⟨p, _, hp⟩ := h
    simp only [List.all_eq_true, decide_eq_true_eq]
    constructor
    · exact fun k => .inl ⟨⟨p, hp⟩, fun q => k q (mem_allPorts q)⟩
    · rintro (⟨_, k⟩ | ⟨k, _⟩)
      · exact fun q _ => k q
      · exact absurd hp (k p)
  · rw [if_neg h]
    have hn : ∀ p, (s.port p).session ≠ .attached := fun p hp =>
      h (List.any_eq_true.2 ⟨p, mem_allPorts p, by simpa using hp⟩)
    constructor
    · exact fun k => .inr ⟨hn, k⟩
    · rintro (⟨⟨p, hp⟩, _⟩ | ⟨_, k⟩)
      · exact absurd hp (hn p)
      · exact k

/-- CLOSED banks that go to REFRESHING keep every bank shut or not. -/
theorem allBanksShut_congr {s t : State}
    (h : ∀ b, t.bank b = s.bank b ∨ ((s.bank b).state = .closed ∧ t.bank b = { s.bank b with state := .refreshing })) :
    allBanksShut t = allBanksShut s := by
  have e : ∀ b, decide ((t.bank b).state = .closed ∨ (t.bank b).state = .refreshing)
      = decide ((s.bank b).state = .closed ∨ (s.bank b).state = .refreshing) := by
    intro b
    rcases h b with k | ⟨k1, k2⟩
    · rw [k]
    · rw [k2, k1]; rfl
  unfold allBanksShut
  congr 1
  funext b
  exact e b

/-- The spec lemma of the end of an event. -/
theorem eventEnd_finish (w : State) : EventEnd w (finish w) := by
  have hd : ∃ q1, reachRetained (updateMarks w) = { decided w with ports := q1 } ∧
      ((q1 = w.ports ∧ (decided w).retention = w.retention) ∨
        (w.retention = .entering ∧ (decided w).retention = .retained ∧ Informed w q1)) := by
    obtain ⟨r, q, e, ⟨h1, h2, h3⟩ | ⟨h1, h2, h3, h4⟩⟩ := reachRetained_eq (updateMarks w)
    · have hn : ¬(w.retention = .entering ∧ w.path = none) := h3
      have hr : (decided w).retention = w.retention := if_neg hn
      refine ⟨q, ?_, .inl ⟨h2, hr⟩⟩
      rw [e, h1]
      unfold decided
      rw [if_neg hn]
      rfl
    · have hp : w.retention = .entering ∧ w.path = none := ⟨h1, h2⟩
      have hr : (decided w).retention = .retained := if_pos hp
      refine ⟨q, ?_, .inr ⟨h1, hr, h4⟩⟩
      rw [e, h3]
      unfold decided
      rw [if_pos hp]
      rfl
  obtain ⟨q1, e1, c1⟩ := hd
  set m := decided w with hm
  obtain ⟨k, o, l, ls, e2, c2⟩ := select_eq m
  obtain ⟨r3, m3, q3, e3, c3⟩ := tryEnter_eq { select m with ports := q1 }
  have e : finish w = updateCloses { select m with retention := r3, entered := m3, ports := q3 } := by
    unfold finish
    rw [e1, select_ports, e3]
  have hr3 : (finish w).retention = r3 := by rw [e]; rfl
  have hpath : (finish w).path = (select m).path := by rw [e]; rfl
  have hret : (select m).retention = m.retention := by rw [e2]
  have hcond : entryCondition { select m with ports := q1 } = true ↔ m.retention = .active ∧ MayRetain (finish w) := by
    rw [entryCondition_iff]
    show (select m).retention = .active ∧ _ ↔ _
    rw [hret]
    refine and_congr Iff.rfl ?_
    have hq : ∀ p, (q3.get p).inFlight = (q1.get p).inFlight ∧ (q3.get p).session = (q1.get p).session
        ∧ (q3.get p).vote = (q1.get p).vote := by
      intro p
      rcases c3 with ⟨_, _, h⟩ | ⟨_, _, ⟨_, _, h, _⟩ | ⟨_, _, _, h⟩⟩
      · rw [h]; exact ⟨rfl, rfl, rfl⟩
      · rw [h]; exact ⟨rfl, rfl, rfl⟩
      · have := h p
        rw [this]
        split
        · exact ⟨rfl, rfl, rfl⟩
        · exact ⟨rfl, rfl, rfl⟩
    have hport : ∀ p, (finish w).port p = q3.get p := fun p => by rw [e]; rfl
    have hbank : ∀ b, (finish w).bank b = (select m).bank b := fun b => by rw [e]; rfl
    have hset : (finish w).settings = (select m).settings := by rw [e]; rfl
    unfold MayRetain
    simp only [hport, hbank, hset, fun p => (hq p).1, fun p => (hq p).2.1, fun p => (hq p).2.2]
    rfl
  have hports : ∀ p, (finish w).port p =
      if (w.port p).session = .attached ∧ (finish w).retention = .retained ∧ w.retention ≠ .retained then
        { w.port p with notices := mergeNotice (.retention false) (w.port p).notices }
      else w.port p := by
    intro p
    have hp3 : (finish w).port p = q3.get p := by rw [e]; rfl
    rw [hp3, hr3]
    rcases c3 with ⟨h1, _, h2⟩ | ⟨ha, _, h⟩
    · have h1' : r3 = m.retention := h1.trans hret
      rcases c1 with ⟨g1, g2⟩ | ⟨g1, g2, g3⟩
      · rw [if_neg (by rw [h1', g2]; tauto), h2]
        show q1.get p = _
        rw [g1]; rfl
      · rw [h2, h1', g2, g1]
        show q1.get p = _
        rw [g3 p]
        simp
    · have ha' : m.retention = .active := hret.symm.trans ha
      rcases c1 with ⟨g1, g2⟩ | ⟨_, g2, _⟩
      · rcases h with ⟨h1, _, h2, _⟩ | ⟨h1, _, _, h3⟩
        · rw [h1, if_neg (by simp), h2]
          show q1.get p = _
          rw [g1]; rfl
        · have := h3 p
          rw [h1, this]
          show (if (q1.get p).session = .attached then _ else _) = _
          rw [g1, ← g2, ha']
          simp only [ne_eq, reduceCtorEq, not_false_eq_true, and_true]
          rfl
      · rw [g2] at ha'; exact absurd ha' (by simp)
  have hm3 : (finish w).entered = m3 := by rw [e]; rfl
  have hnow : (finish w).now = (select m).now := by rw [e]; rfl
  have entry : entryCondition { select m with ports := q1 } = true →
      (r3 = .entering ∧ m3 = none ∧ (select m).path ≠ none) ∨ (r3 = .retained ∧ m3 = some (select m).now ∧ (select m).path = none) := by
    intro hc
    rcases c3 with ⟨g, _⟩ | ⟨_, _, ⟨g, g1, _, g2⟩ | ⟨g, g1, g2, _⟩⟩
    · exfalso
      have ha := ((entryCondition_iff _).1 hc).1
      obtain ⟨r, q, k, c⟩ := reachRetained_eq { { select m with ports := q1 } with
        retention := .entering
        entered := if ({ select m with ports := q1 } : State).path = none then some ({ select m with ports := q1 } : State).now else none }
      unfold tryEnter at e3
      rw [if_pos hc, k] at e3
      have e4 : r = r3 := congrArg State.retention e3
      rw [g, ha] at e4
      rcases c with ⟨h, _⟩ | ⟨_, _, h, _⟩ <;> rw [h] at e4 <;> cases e4
    · exact .inl ⟨g, g1, g2⟩
    · exact .inr ⟨g, g1, g2⟩
  constructor
  case accounts =>
    intro x
    have : (finish w).account x = m.account x := by rw [e, e2]; rfl
    rw [this]; cases x <;> rfl
  case ports => exact hports
  case enters =>
    intro h1 h2
    rw [hr3, hpath]
    rcases entry (hcond.2 ⟨h1, h2⟩) with ⟨g, _, g2⟩ | ⟨g, _, g2⟩
    · rw [g, if_neg g2]
    · rw [g, if_pos g2]
  case enteredNow =>
    intro h1 h2
    rw [hm3, hpath, hnow]
    rcases entry (hcond.2 ⟨h1, h2⟩) with ⟨_, g, g2⟩ | ⟨_, g, g2⟩
    · rw [g, if_neg g2]
    · rw [g, if_pos g2]
  case enteredBefore =>
    intro h
    rcases c3 with ⟨_, g, _⟩ | ⟨_, g, _⟩
    · rw [hm3, g, e2]; rfl
    · exact absurd (hcond.1 g) h
  case stays =>
    intro h
    rcases c3 with ⟨g, _⟩ | ⟨_, g, _⟩
    · rw [hr3, g]; exact hret
    · exact absurd (hcond.1 g) h
  case resetCloses =>
    have h1 : (finish w).resetCloses = (w.resetCloses && !allBanksShut (finish w)) := by
      rw [e, e2]; rfl
    rw [h1, allBanksShut_congr (s := w) (t := finish w)]
    intro b
    have : (finish w).bank b = k.get b := by rw [e, e2]; rfl
    rw [this]
    exact c2 b
  case banks => rw [e]; rfl
  case path => exact hpath
  case workList => rw [e]; rfl
  case lastServed => rw [e]; rfl
  all_goals rw [e, e2]; rfl

/-- A command whose outcome is the end of an event at `w`. -/
theorem ends_finish (w : State) : Ends (.next (finish w)) w := ⟨_, rfl, eventEnd_finish w⟩

end Sys2Proof.Machine
end

