-- ==== Sys2Proof/Laws/Leases.lean ====
section
/-!
SUPPORT. The Lease Manager's procedures, each said once: granting a group, revoking, serving and settling, and who is left at a bank.
-/

namespace Sys2Proof.Machine

/-! ### The head group -/

/-- A waiting list is its head group followed by what stands behind it. -/
theorem headGroup_append (ws : List Waiter) : headGroup ws ++ behindHeadGroup ws = ws := by
  have h : headGroup ws <+: ws := by
    cases ws with
    | nil => exact List.prefix_rfl
    | cons w ws =>
      simp only [headGroup]
      split
      · exact ⟨ws, rfl⟩
      · obtain ⟨r, hr⟩ := List.takeWhile_prefix (l := ws) (fun v => decide (v.mode = .read ∧ v.row = w.row))
        exact ⟨r, by rw [List.cons_append, hr]⟩
  obtain ⟨r, hr⟩ := h
  unfold behindHeadGroup
  have e : List.drop (headGroup ws).length ws = r := by
    generalize headGroup ws = g at hr ⊢
    rw [← hr]; simp
  rw [e, hr]

/-- The head group is a part of the list. -/
theorem mem_of_mem_headGroup {ws : List Waiter} {w} (h : w ∈ headGroup ws) : w ∈ ws := by
  cases ws with
  | nil => simp [headGroup] at h
  | cons x xs =>
    have := headGroup_append (x :: xs)
    rw [← this]; exact List.mem_append_left _ h

/-- What stands behind the head group is a part of the list. -/
theorem mem_of_mem_behindHeadGroup {ws : List Waiter} {w} (h : w ∈ behindHeadGroup ws) : w ∈ ws := by
  unfold behindHeadGroup at h
  exact List.mem_of_mem_drop h

/-- No port appears twice in the head group of a list in which none does. -/
theorem headGroup_nodup {w : Waiter} {ws : List Waiter} (h : ((w :: ws).map (fun w : Waiter => w.port)).Nodup) :
    (((headGroup (w :: ws)).map (fun w : Waiter => (w.port, w.tag))).map (·.1)).Nodup := by
  rw [List.map_map]
  rw [← headGroup_append (w :: ws), List.map_append, List.nodup_append] at h
  exact h.1

/-! ### Granting and revoking -/

/-- Granting to a group does what `GroupGranted` says. -/
theorem grantAll_spec (b : Bank) (m : Mode) : ∀ (g : List (Port × Tag)) (s : State), (g.map (·.1)).Nodup →
    GroupGranted b m g s (grantAll b m g s) := by
  intro g
  induction g with
  | nil => intro s _; exact ⟨by simp, fun _ _ => ⟨rfl, rfl⟩, by simp⟩
  | cons x g ih =>
    intro s hn
    have hn' := List.nodup_cons.1 hn
    have I := ih (grant b m x.1 x.2 s) hn'.2
    have hx : ∀ y ∈ g, y.1 ≠ x.1 := fun y hy e => hn'.1 (List.mem_map.2 ⟨y, hy, e⟩)
    have e : grantAll b m (x :: g) s = grantAll b m g (grant b m x.1 x.2 s) := rfl
    have gb : ((grant b m x.1 x.2 s).bank b).holders = (s.bank b).holders.set x.1 (some x.2) := by simp [grant, answer]
    have gp : ∀ r, (grant b m x.1 x.2 s).port r = if r = x.1 then
        { s.port x.1 with
          inFlight := (s.port x.1).inFlight.erase x.2
          outbox := (s.port x.1).outbox ++ [.response x.2 .granted (s.port x.1).epoch (bankByte b) (modeCode m) []] } else s.port r := by
      intro r; rw [grant, answer_port]; rfl
    rw [e]
    refine ⟨fun p tag hp => ?_, fun p hp => ?_, fun p tag hp => ?_⟩
    · rcases List.mem_cons.1 hp with rfl | hp
      · rw [(I.others p hx).1, gb]; simp
      · exact I.holders p tag hp
    · have := I.others p (fun y hy => hp y (List.mem_cons_of_mem _ hy))
      have hpx := hp x List.mem_cons_self
      rw [this.1, this.2, gb, gp]
      simp [hpx.symm]
    · rcases List.mem_cons.1 hp with rfl | hp
      · rw [(I.others p hx).2, gp]; simp
      · rw [I.answers p tag hp, gp]
        have : p ≠ x.1 := hx _ hp
        simp [this]

/-- Granting to a group changes nothing but banks and ports. -/
theorem grantAll_eq (b m g s) : grantAll b m g s = { s with banks := (grantAll b m g s).banks, ports := (grantAll b m g s).ports } := by
  obtain ⟨h, _⟩ := grantAll_frame b m g s
  have := grantAll_workList b m g s
  obtain ⟨h1,h2,h3,h4,h5,h6,h7,h8,h9,h10,h11,h12,h13,h14,h15,h16,h17,_⟩ := h
  cases hv : grantAll b m g s
  rw [hv] at h1 h2 h3 h4 h5 h6 h7 h8 h9 h10 h11 h12 h13 h14 h15 h16 h17 this
  simp_all

/-- The holders are the ports that hold. -/
theorem mem_holderPorts (e : BankEntry) (p) : p ∈ e.holderPorts ↔ e.isHolder p = true := by
  simp [BankEntry.holderPorts, mem_allPorts]

/-- No holder is listed twice. -/
theorem nodup_holderPorts (e : BankEntry) : e.holderPorts.Nodup := List.Nodup.filter _ nodup_allPorts

/-- Ports revoked one after the other: their grant tags go, and each ATTACHED one has its REVOKED notice. -/
theorem revokeEach_spec (b : Bank) (reason : Reason) : ∀ (ps : List Port) (s : State), ps.Nodup →
   let v := ps.foldl (fun s p => raiseNotice p (.revoked b reason) (removeHolder b p s)) s
   (∃ k n, v = { s with banks := s.banks.set b { s.bank b with holders := k }, ports := n } ∧ (∀ p, k.get p = if p ∈ ps then none else
       (s.bank b).holders.get p) ∧
     ∀ p, n.get p = if p ∈ ps ∧ (s.port p).session =
         .attached then { s.port p with notices := mergeNotice (.revoked b reason) (s.port p).notices } else s.port p) := by
  intro ps
  induction ps with
  | nil =>
    intro s _
    refine ⟨(s.bank b).holders, s.ports, ?_, by simp, fun p => by simp [State.port]⟩
    show s = _
    have := State.setBank_self s b
    exact this.symm
  | cons x ps ih =>
    intro s hn
    have hn' := List.nodup_cons.1 hn
    obtain ⟨k, n, e, hk, hp⟩ := ih (raiseNotice x (.revoked b reason) (removeHolder b x s)) hn'.2
    refine ⟨k, n, ?_, fun p => ?_, fun p => ?_⟩
    · show List.foldl _ _ ps = _
      rw [e]
      have hb : (raiseNotice x (.revoked b reason) (removeHolder b x s)).bank b =
          { s.bank b with holders := (s.bank b).holders.set x none } := by
        simp [raiseNotice, removeHolder]
      rw [hb]
      simp only [raiseNotice, removeHolder, modPort, modBank, State.setPort, State.setBank]
      congr 1
      cases b <;> rfl
    · rw [hk]
      have hb : (raiseNotice x (.revoked b reason) (removeHolder b x s)).bank b =
          { s.bank b with holders := (s.bank b).holders.set x none } := by
        simp [raiseNotice, removeHolder]
      rw [hb]
      by_cases h : p = x <;> simp [h]
    · rw [hp, raiseNotice_port]
      have hs : ∀ q, (removeHolder b x s).port q = s.port q := fun _ => rfl
      simp only [hs]
      by_cases h : p = x
      · subst h; simp [hn'.1]
      · simp [h]

/-- Revoking every holder of an OPEN bank drains it. -/
theorem revoke_holders_spec (b : Bank) (reason : Reason) (s : State) (h : (s.bank b).state = .opened) :
   ∃ n : PerPort PortState, (∀ p, n.get p = if (s.bank b).isHolder p = true ∧ (s.port p).session =
       .attached then { s.port p with notices := mergeNotice (.revoked b reason) (s.port p).notices } else s.port p) ∧
   revoke b (s.bank b).holderPorts reason s = settle b
       ({ s with ports := n }.setBank b
           { s.bank b with holders := PerPort.const none, state := .draining, mode := none, contention := none }) := by
  obtain ⟨k, n, e, hk, hp⟩ := revokeEach_spec b reason (s.bank b).holderPorts s (nodup_holderPorts _)
  refine ⟨n, fun p => by rw [hp]; simp only [mem_holderPorts], ?_⟩
  have hkn : k = PerPort.const none := by
    apply PerPort.ext_get
    intro p
    rw [hk]
    simp only [mem_holderPorts]
    unfold BankEntry.isHolder
    cases h : (s.bank b).holders.get p <;> simp
  have hb : State.bank { s with banks := s.banks.set b { s.bank b with holders := PerPort.const none }, ports := n } b =
      { s.bank b with holders := PerPort.const none } := by
    simp [State.bank]
  have hb2 : ∀ (f : BankEntry → BankEntry),
      modBank b f { s with banks := s.banks.set b { s.bank b with holders := PerPort.const none }, ports := n } =
     ({ s with ports := n } : State).setBank b (f { s.bank b with holders := PerPort.const none }) := by
    intro f
    show State.setBank _ b (f (State.bank _ b)) = _
    rw [hb]
    simp only [State.setBank]
    congr 1
    cases b <;> rfl
  unfold revoke
  rw [e, hkn]
  generalize State.mk _ _ _ _ _ _ _ _ _ _ _ _ _ _ _ _ _ _ _ _ = X at hb hb2 ⊢
  unfold drainIfEmpty
  dsimp only
  rw [if_pos (by rw [hb]; exact ⟨h, rfl⟩), hb2]

/-- Under pressure a settle grants nothing. -/
theorem settle_of_pressure {b : Bank} {s : State} (hp : pressure s b.set = true) :
   (settle b s = s ∨ settle b s = startClosing b s) := by
  unfold settle
  dsimp only
  split
  · exact .inl rfl
  split
  · exact .inr rfl
  · rw [if_neg (by rw [hp]; simp)]; exact .inr rfl

/-- A notice raised at the ports of a list. -/
theorem raiseEach_spec (n : Notice) (ps : List Port) (s : State) (hn : ps.Nodup) :
  ∃ q : PerPort PortState, ps.foldl (fun s p => raiseNotice p n s) s = { s with ports := q } ∧
    ∀ p, q.get p = if p ∈ ps ∧ (s.port p).session =
        .attached then { s.port p with notices := mergeNotice n (s.port p).notices } else s.port p := by
  induction ps generalizing s with
  | nil => exact ⟨s.ports, rfl, fun p => by simp [State.port]⟩
  | cons x ps ih =>
    have hn' := List.nodup_cons.1 hn
    obtain ⟨q, e, hq⟩ := ih (raiseNotice x n s) hn'.2
    refine ⟨q, e, fun p => ?_⟩
    rw [hq, raiseNotice_port]
    by_cases h : p = x
    · subst h; simp [hn'.1]
    · simp [h]

/-! ### Notices -/

/-- To be of one kind and bank is symmetric. -/
theorem Notice.sameMatter_comm (a b : Notice) : a.sameMatter b = b.sameMatter a := by
  cases a <;> cases b <;> simp [Notice.sameMatter, eq_comm]

/-- To be of one kind and bank is transitive. -/
theorem Notice.sameMatter_trans {a b c : Notice} (h : a.sameMatter b = true) (k : b.sameMatter c = true) : a.sameMatter c = true := by
  cases a <;> cases b <;> cases c <;> simp_all [Notice.sameMatter]

/-- Distinct notices, as a pairwise law. -/
theorem noticesDistinct_pairwise {ns : List Notice} (h : noticesDistinct ns = true) : ns.Pairwise (fun a b => a.sameMatter b = false) := by
  induction ns with
  | nil => exact .nil
  | cons n ns ih =>
    simp [noticesDistinct] at h
    exact .cons h.1 (ih h.2)

/-- A raised notice is pending. -/
theorem mem_mergeNotice_self (n : Notice) (ns) : n ∈ mergeNotice n ns := by
  unfold mergeNotice
  split_ifs with h
  · simp only [List.any_eq_true] at h
    obtain ⟨m, hm, hs⟩ := h
    exact List.mem_map.2 ⟨m, hm, by simp [hs]⟩
  · simp

/-- A pending notice of another matter stays. -/
theorem mem_mergeNotice_of_mem {n m : Notice} {ns} (h : n.sameMatter m = false) (hm : m ∈ ns) : m ∈ mergeNotice n ns := by
  unfold mergeNotice
  split_ifs
  · exact List.mem_map.2 ⟨m, hm, by simp [h]⟩
  · simp [hm]

/-- A merge adds nothing but the raised notice. -/
theorem mem_or_eq_of_mem_mergeNotice {n m : Notice} {ns} (hm : m ∈ mergeNotice n ns) : m = n ∨ m ∈ ns := by
  unfold mergeNotice at hm
  split_ifs at hm
  · obtain ⟨k, hk, e⟩ := List.mem_map.1 hm
    split_ifs at e
    · exact .inl e.symm
    · exact .inr (e ▸ hk)
  · simpa [or_comm] using hm

/-! ### Who is left at a bank -/

/-- A port that is neither holder, nor pending grantee, nor waiter. -/
theorem BankEntry.involves_eq_false_iff (e : BankEntry) (p) : e.involves p = false ↔ (e.holders.get p = none ∧ (∀ g ∈ e.grantees,
    g.port ≠ p) ∧ (∀ w ∈ e.waiting, w.port ≠ p)) := by
  simp [BankEntry.involves, BankEntry.isHolder, BankEntry.isGrantee, BankEntry.isWaiter, and_assoc]

/-- The contention deadline involves nobody. -/
theorem involves_refreshContention (b : Bank) (s : State) (p c) : ((refreshContention b s).bank c).involves p = (s.bank c).involves p := by
  unfold refreshContention
  rw [State.bank_setBank]
  by_cases h : c = b
  · subst h; rw [if_pos rfl]; rfl
  · rw [if_neg h]

/-- A close involves nobody. -/
theorem involves_startClosing (b : Bank) (s : State) (p c) : ((startClosing b s).bank c).involves p = (s.bank c).involves p := by
  show ((modBank b (fun e => { e with state := .closing, mode := none }) s).bank c).involves p = _
  rw [modBank_bank]
  by_cases h : c = b
  · subst h; rw [if_pos rfl]; rfl
  · rw [if_neg h]

/-- A port that does not wait is not in the head group. -/
theorem waiterTags_headGroup_ne {ws : List Waiter} {p} (h : ∀ w ∈ ws, w.port ≠ p) : ∀ x ∈ waiterTags (headGroup ws), x.1 ≠ p := by
  intro x hx
  obtain ⟨w, hw, rfl⟩ := List.mem_map.1 hx
  exact h w (mem_of_mem_headGroup hw)

/-- A grant to a head group involves nobody new. -/
theorem not_involves_grantAll {b : Bank} {m : Mode} {s : State} {p ws} (f : BankEntry → BankEntry) (hw : ∀ w ∈ ws, w.port ≠ p) (hf : (f
    (s.bank b)).involves p = false) :
   ((refreshContention b (grantAll b m (waiterTags (headGroup ws)) (modBank b f s))).bank b).involves p = false := by
  rw [involves_refreshContention]
  obtain ⟨h, e, k⟩ := grantAll_bank b m (waiterTags (headGroup ws)) (modBank b f s)
  rw [e, modBank_bank, if_pos rfl, BankEntry.involves_eq_false_iff]
  rw [BankEntry.involves_eq_false_iff] at hf
  refine ⟨?_, hf.2⟩
  have := k p (waiterTags_headGroup_ne hw)
  rw [modBank_bank, if_pos rfl] at this
  exact this.trans hf.1

/-- A serve involves nobody new. -/
theorem not_involves_serve {b : Bank} {s : State} {p} (h : (s.bank b).involves p = false) : ((serve b s).bank b).involves p = false := by
  have h' := h
  rw [BankEntry.involves_eq_false_iff] at h'
  unfold serve
  dsimp only
  split
  · exact h
  split
  · exact h
  · next hd tl hw =>
    have hww : ∀ w ∈ (s.bank b).waiting, w.port ≠ p := h'.2.2
    split
    · show ((modBank b (fun e =>
          { e with
            state := .opening, row := some hd.row, mode := some hd.mode
            grantees := (headGroup (s.bank b).waiting).map Waiter.toGrantee, waiting := behindHeadGroup (s.bank b).waiting }) s).bank
          b).involves p = false
      rw [modBank_bank, if_pos rfl, BankEntry.involves_eq_false_iff]
      refine ⟨h'.1, fun g hg => ?_, fun w hw => ?_⟩
      · obtain ⟨w, hw, rfl⟩ := List.mem_map.1 hg
        exact hww w (mem_of_mem_headGroup hw)
      · exact hww w (mem_of_mem_behindHeadGroup hw)
    · split
      · refine not_involves_grantAll _ hww ?_
        rw [BankEntry.involves_eq_false_iff]; exact ⟨h'.1, h'.2.1, fun w hw => hww w (mem_of_mem_behindHeadGroup hw)⟩
      · exact h
    · exact h

/-- A settle involves nobody new. -/
theorem not_involves_settle {b : Bank} {s : State} {p} (h : (s.bank b).involves p = false) : ((settle b s).bank b).involves p = false := by
  have h' := h
  rw [BankEntry.involves_eq_false_iff] at h'
  unfold settle
  dsimp only
  split
  · exact h
  split
  · rw [involves_startClosing]; exact h
  split
  · refine not_involves_grantAll _ h'.2.2 ?_
    rw [BankEntry.involves_eq_false_iff]; exact ⟨h'.1, h'.2.1, fun w hw => h'.2.2 w (mem_of_mem_behindHeadGroup hw)⟩
  · rw [involves_startClosing]; exact h

/-- A drain involves nobody new. -/
theorem not_involves_drainIfEmpty {b : Bank} {s : State} {p} (h : (s.bank b).involves p = false) : ((drainIfEmpty b s).bank b).involves p =
    false := by
  unfold drainIfEmpty
  dsimp only
  split
  · apply not_involves_settle
    rw [modBank_bank, if_pos rfl]; exact h
  · exact h

/-! ### The work list -/

/-- From `s` to `t` no transfer has joined the work list. -/
def NoNewTransfer (s t : State) : Prop := ∀ x, WorkItem.xfer x ∈ t.workList → WorkItem.xfer x ∈ s.workList

/-- One after the other. -/
theorem NoNewTransfer.trans {s t u} (h : NoNewTransfer s t) (k : NoNewTransfer t u) : NoNewTransfer s u := fun x hx => h x (k x hx)

/-- A close places no transfer. -/
theorem noNewTransfer_startClosing (b s) : NoNewTransfer s (startClosing b s) := by
  intro x hx
  simpa [startClosing, placeWork] using hx

/-- A serve places no transfer. -/
theorem noNewTransfer_serve (b s) : NoNewTransfer s (serve b s) := by
  intro x hx
  unfold serve at hx
  dsimp only at hx
  split at hx
  · exact hx
  split at hx
  · exact hx
  split at hx
  · simpa [startOpening, placeWork] using hx
  · split at hx
    · rw [refreshContention_workList, grantAll_workList] at hx; exact hx
    · exact hx
  · exact hx

/-- A settle places no transfer. -/
theorem noNewTransfer_settle (b s) : NoNewTransfer s (settle b s) := by
  intro x hx
  unfold settle at hx
  dsimp only at hx
  split at hx
  · exact hx
  split at hx
  · exact noNewTransfer_startClosing b s x hx
  split at hx
  · rw [refreshContention_workList, grantAll_workList] at hx; exact hx
  · exact noNewTransfer_startClosing b s x hx

/-- A drain places no transfer. -/
theorem noNewTransfer_drainIfEmpty (b s) : NoNewTransfer s (drainIfEmpty b s) := by
  intro x hx
  unfold drainIfEmpty at hx
  dsimp only at hx
  split at hx
  · have := noNewTransfer_settle b _ x hx
    exact this
  · exact hx

/-! ### Conditions -/

/-- All banks of the set are CLOSED. -/
theorem setClosed_iff (s : State) (x) : setClosed s x = true ↔ ∀ b, b.set = x → (s.bank b).state = .closed := by
  unfold setClosed
  simp only [List.all_eq_true, decide_eq_true_eq, mem_banks]

/-! ### When nothing is left to do -/

/-- A bank that is not DRAINING does not settle. -/
theorem settle_of_not_draining {b : Bank} {s : State} (h : (s.bank b).state ≠ .draining) : settle b s = s := by
  unfold settle
  dsimp only
  rw [if_pos (.inl h)]

/-- A bank that is not OPEN, or has holders, does not drain. -/
theorem drainIfEmpty_of_not_empty {b : Bank} {s : State} (h : ¬((s.bank b).state = .opened ∧ (s.bank b).holders =
    PerPort.const none)) : drainIfEmpty b s = s := by
  unfold drainIfEmpty
  dsimp only
  rw [if_neg h]

/-- Settling twice is settling once. -/
theorem settle_settle (b : Bank) (s : State) : settle b (settle b s) = settle b s := by
  by_cases h : (s.bank b).state ≠ .draining ∨ pendingTransfers s b ≠ 0
  · have : settle b s = s := by unfold settle; dsimp only; rw [if_pos h]
    rw [this, this]
  · apply settle_of_not_draining
    unfold settle
    dsimp only
    rw [if_neg h]
    have hc : ((startClosing b s).bank b).state ≠ .draining := by
      simp [startClosing, placeWork, modBank, State.bank, State.setBank]
    split
    · exact hc
    · split
      · unfold refreshContention
        simp only [State.bank_setBank, if_true]
        obtain ⟨k, e, _⟩ := grantAll_bank b ‹Waiter›.mode (waiterTags (headGroup (s.bank b).waiting))
          (modBank b (fun e => { e with state := .opened, mode := some ‹Waiter›.mode, waiting := behindHeadGroup e.waiting }) s)
        rw [e]
        simp
      · exact hc

/-- A DRAINING bank under pressure closes, or waits for its transfers. -/
theorem settle_under_pressure {b : Bank} {s : State} (hd : (s.bank b).state = .draining) (hp : pressure s b.set = true) :
    settle b s = if pendingTransfers s b = 0 then startClosing b s else s := by
  unfold settle
  dsimp only
  by_cases h : pendingTransfers s b = 0
  · rw [if_neg (by simp [hd, h]), if_pos h]
    split
    · rfl
    · rw [if_neg (by rw [hp]; simp)]
  · rw [if_pos (by simp [h]), if_neg h]

/-- An entry of the right shape has the contention deadline R22 asks for. -/
theorem refreshContention_of_shapeGood {b : Bank} {s : State} (h : (s.bank b).shapeGood = true) : refreshContention b s = s := by
  have hc : (if (s.bank b).state = .opened ∧ (s.bank b).waiting ≠ [] then
      some ((s.bank b).contention.getD (s.now + us s.settings.holdLimit)) else none) = (s.bank b).contention := by
    unfold BankEntry.shapeGood at h
    split at h
    · next h1 =>
      simp only [Bool.and_eq_true, decide_eq_true_eq] at h
      have := h.1.2
      cases hw : (s.bank b).waiting <;> cases hk : (s.bank b).contention <;> simp_all
    all_goals
      next h1 =>
      simp only [Bool.and_eq_true, Option.isNone_iff_eq_none] at h
      rw [if_neg (by simp [h1])]
      first
        | exact h.2.symm
        | exact h.1.2.symm
  unfold refreshContention
  dsimp only
  rw [hc]
  unfold State.setBank
  congr 1
  cases b <;> rfl

/-- A holder is one of an OPEN bank. -/
theorem shapeGood_holder {e : BankEntry} (h : e.shapeGood = true) {p} (hp : e.isHolder p = true) : e.state = .opened ∧ e.grantees = [] := by
  have hm := (mem_holderPorts e p).2 hp
  unfold BankEntry.shapeGood at h
  split at h
  · next h1 => simp at h; exact ⟨h1, h.1.1.2⟩
  all_goals
    simp only [Bool.and_eq_true, List.isEmpty_iff] at h
    exact absurd hm (by rw [h.1.1.2]; simp)

/-- What the shape of an entry says of its holders, grantees and contention deadline. -/
theorem shapeGood_fields {e : BankEntry} (h : e.shapeGood = true) : (e.state ≠ .opened → e.contention = none ∧ e.holders =
    PerPort.const none) ∧ (e.state ≠ .opening → e.grantees = []) ∧
   (e.state = .opened → (e.contention.isSome = !e.waiting.isEmpty) ∧ e.holders ≠ PerPort.const none) := by
  have hh : e.holderPorts = [] → e.holders = PerPort.const none := by
    intro h0
    apply PerPort.ext_get; intro q
    have : q ∉ e.holderPorts := by rw [h0]; simp
    rw [mem_holderPorts] at this
    simpa [BankEntry.isHolder] using this
  have hh' : e.holderPorts ≠ [] → e.holders ≠ PerPort.const none := by
    intro h0 hc
    apply h0
    rw [List.eq_nil_iff_forall_not_mem]
    intro q hq
    rw [mem_holderPorts] at hq
    simp [BankEntry.isHolder, hc] at hq
  unfold BankEntry.shapeGood at h
  split at h
  all_goals
    next h1 =>
    simp only [Bool.and_eq_true, Option.isNone_iff_eq_none, List.isEmpty_iff, decide_eq_true_eq] at h
    simp only [h1]
    simp_all

/-- A grant takes no lease away. -/
theorem grantAll_keeps_holder (b : Bank) (m : Mode) (q : Port) : ∀ (g : List (Port × Tag)) (s : State), ((s.bank b).holders.get q).isSome =
    true →
    (((grantAll b m g s).bank b).holders.get q).isSome = true := by
  intro g
  induction g with
  | nil => intro s h; exact h
  | cons x g ih =>
    intro s h
    apply ih
    simp only [grant, answer_bank, modBank_bank, if_true]
    by_cases hq : q = x.1
    · simp [hq]
    · simp [hq, h]

/-- After a serve the bank is not DRAINING, and has holders if it is OPEN. -/
theorem serve_keeps_holders {b : Bank} {s : State} (h1 : (s.bank b).state ≠ .draining) (h2 : (s.bank b).state = .opened →
    (s.bank b).holders ≠ PerPort.const none) :
    ((serve b s).bank b).state ≠ .draining ∧ (((serve b s).bank b).state = .opened → ((serve b s).bank b).holders ≠ PerPort.const none) := by
  unfold serve
  dsimp only
  split
  · exact ⟨h1, h2⟩
  split
  · exact ⟨h1, h2⟩
  split
  · next hs => simp [startOpening, placeWork, modBank, State.bank, State.setBank]
  · next hs =>
    split
    · have hh : ∃ q, ((s.bank b).holders.get q).isSome = true := by
        by_contra hc
        simp only [not_exists, Bool.not_eq_true, Option.isSome_eq_false_iff, Option.isNone_iff_eq_none] at hc
        exact h2 hs (PerPort.ext_get (fun q => by rw [hc q]; simp))
      obtain ⟨q, hq⟩ := hh
      set m := modBank b (fun e => { e with waiting := behindHeadGroup e.waiting }) s with hm
      have h := grantAll_keeps_holder b .read q (waiterTags (headGroup (s.bank b).waiting)) m (by rw [hm, modBank_bank, if_pos rfl]; exact hq)
      obtain ⟨k, e, _⟩ := grantAll_bank b .read (waiterTags (headGroup (s.bank b).waiting)) m
      have hst : ((grantAll b .read (waiterTags (headGroup (s.bank b).waiting)) m).bank b).state = .opened := by
        rw [e, hm, modBank_bank, if_pos rfl]; exact hs
      unfold refreshContention
      simp only [State.bank_setBank, if_true]
      refine ⟨by rw [hst]; simp, fun _ hc => ?_⟩
      rw [hc] at h
      simp at h
    · exact ⟨h1, h2⟩
  · exact ⟨h1, h2⟩

end Sys2Proof.Machine
end

