-- ==== Sys2Proof/Laws/Cleanup.lean ====
section
/-!
SUPPORT. Port cleanup and the removal of an ingress queue (R118, R123), bank by bank.
-/

namespace Sys2Proof.Machine

/-- What cleanup of the banks keeps: all but banks, work list, staging, and of the ports their answers and notices. -/
structure CleanupFrame (s t : State) : Prop where
  now : t.now = s.now
  pending : t.pending = s.pending
  array : t.array = s.array
  freeCount : t.freeCount = s.freeCount
  openRows : t.openRows = s.openRows
  path : t.path = s.path
  lastServed : t.lastServed = s.lastServed
  accounts : t.accounts = s.accounts
  band : t.band = s.band
  lastTemp : t.lastTemp = s.lastTemp
  nextSample : t.nextSample = s.nextSample
  retention : t.retention = s.retention
  entered : t.entered = s.entered
  resetCloses : t.resetCloses = s.resetCloses
  settings : t.settings = s.settings
  claim : t.claim = s.claim
  windows : t.windows = s.windows
  ports : ∀ p, (s.port p).Frame (t.port p)

/-- Nothing done. -/
theorem CleanupFrame.refl (s : State) : CleanupFrame s s := ⟨rfl, rfl, rfl, rfl, rfl, rfl, rfl, rfl, rfl, rfl, rfl, rfl, rfl, rfl, rfl,
    rfl, rfl, fun _ => PortState.Frame.refl _⟩

/-- One after the other. -/
theorem CleanupFrame.trans {s t u : State} (h : CleanupFrame s t) (k : CleanupFrame t u) : CleanupFrame s u :=
  ⟨k.1.trans h.1, k.2.trans h.2, k.3.trans h.3, k.4.trans h.4, k.5.trans h.5, k.6.trans h.6, k.7.trans h.7, k.8.trans h.8, k.9.trans h.9,
      k.10.trans h.10, k.11.trans h.11, k.12.trans h.12, k.13.trans h.13, k.14.trans h.14, k.15.trans h.15, k.16.trans h.16,
    k.17.trans h.17, fun p => (h.18 p).trans (k.18 p)⟩

/-- A lease procedure keeps as much. -/
theorem CleanupFrame.of {s t : State} (h : LeaseFrame s t) : CleanupFrame s t := { h with }

/-- Removing transfers changes the work list and the staging pool alone. -/
theorem removeXfers_eq (p b) (s : State) : ∃ st, removeXfers p b s =
    { s with workList := s.workList.filter (fun w => !w.isXferOfAt p b), staging := st } := by
  unfold removeXfers
  have : ∀ (l : List WorkItem) (k : State), ∃ st, l.foldl freeItem k = { k with staging := st } := by
    intro l
    induction l with
    | nil => intro k; exact ⟨k.staging, rfl⟩
    | cons i l ih =>
      intro k
      obtain ⟨st, e⟩ := ih (freeItem k i)
      refine ⟨st, ?_⟩
      rw [List.foldl_cons, e]
      unfold freeItem
      split <;> rfl
  exact this _ _

/-- Cleanup at one bank: afterwards the port is nothing there and has no transfer there. -/
theorem cleanupBank_spec (p : Port) (s : State) (b : Bank) :
   CleanupFrame s (cleanupBank p s b) ∧ OnlyBank b s (cleanupBank p s b) ∧ ((cleanupBank p s b).bank b).involves p = false ∧
   NoNewTransfer s (cleanupBank p s b) ∧ (∀ x, WorkItem.xfer x ∈ (cleanupBank p s b).workList → ¬(x.port = p ∧ x.bank = b)) := by
  unfold cleanupBank
  dsimp only
  obtain ⟨st, e⟩ := removeXfers_eq p b s
  rw [e]
  set s0 : State := { s with workList := s.workList.filter (fun w => !w.isXferOfAt p b), staging := st } with hs0
  have c0 : CleanupFrame s s0 := { CleanupFrame.refl s with }
  set s2 := modBank b (fun e => { e with grantees := e.grantees.filter (fun g => !decide (g.port = p)) }) (removeHolder b p s0) with hs2
  have f2 : LeaseFrame s0 s2 ∧ OnlyBank b s0 s2 := frame_trans (removeHolder_frame b p s0) (modBank_frame b _ _)
  have f3 := withdrawWaiter_frame b p id s2 (fun u => frame_refl b u)
  have f4 := frame_trans f3 (frame_trans (drainIfEmpty_frame b (withdrawWaiter b p id s2)) (settle_frame b _))
  have F := frame_trans f2 f4
  have hb2 : s2.bank b =
      { s.bank b with holders := (s.bank b).holders.set p none, grantees := (s.bank b).grantees.filter (fun g => !decide (g.port = p)) } := by
    have : s0.bank b = s.bank b := rfl
    simp [hs2, removeHolder, this]
  have hI : ((withdrawWaiter b p id s2).bank b).involves p = false := by
    have h0 : ((refreshContention b (id (modBank b
        (fun e => { e with waiting := e.waiting.filter (fun w => !decide (w.port = p)) }) s2))).bank b).involves p = false := by
      rw [involves_refreshContention, id, modBank_bank, if_pos rfl, hb2, BankEntry.involves_eq_false_iff]
      refine ⟨by simp, fun g hg => ?_, fun w hw => ?_⟩
      · simpa using (List.mem_filter.1 hg).2
      · simpa using (List.mem_filter.1 hw).2
    unfold withdrawWaiter
    dsimp only
    split
    · exact not_involves_serve h0
    · exact h0
  have hN : NoNewTransfer s0 (settle b (drainIfEmpty b (withdrawWaiter b p id s2))) := by
    refine NoNewTransfer.trans ?_ (NoNewTransfer.trans (noNewTransfer_drainIfEmpty b _) (noNewTransfer_settle b _))
    unfold withdrawWaiter
    dsimp only
    split
    · exact noNewTransfer_serve b _
    · exact fun x hx => hx
  refine ⟨c0.trans (CleanupFrame.of F.1), fun c hc => F.2 c hc, not_involves_settle (not_involves_drainIfEmpty hI), fun x hx => ?_,
      fun x hx => ?_⟩
  · exact (List.mem_filter.1 (hN x hx)).1
  · have := (List.mem_filter.1 (hN x hx)).2
    intro hc
    simp [WorkItem.isXferOfAt, hc] at this

/-- Cleanup at several banks. -/
theorem cleanupBanks_spec (p : Port) : ∀ (bs : List Bank) (s : State),
   let v := bs.foldl (cleanupBank p) s
   CleanupFrame s v ∧ (∀ b, b ∈ bs ∨ (s.bank b).involves p = false → (v.bank b).involves p = false) ∧ NoNewTransfer s v ∧
     (∀ x, WorkItem.xfer x ∈ v.workList → x.bank ∈ bs → x.port ≠ p) := by
  intro bs
  induction bs with
  | nil => intro s; exact ⟨CleanupFrame.refl s, fun b h => by simpa using h, fun x h => h, by simp⟩
  | cons c bs ih =>
    intro s
    obtain ⟨h1, h2, h3, h4⟩ := ih (cleanupBank p s c)
    obtain ⟨k1, k2, k3, k4, k5⟩ := cleanupBank_spec p s c
    dsimp only
    rw [List.foldl_cons]
    refine ⟨k1.trans h1, fun b hb => h2 b ?_, k4.trans h3, fun x hx hb => ?_⟩
    · by_cases hbc : b = c
      · right; rw [hbc]; exact k3
      · rcases hb with hb | hb
        · exact .inl (by simpa [hbc] using hb)
        · right; rw [k2 b hbc]; exact hb
    · rcases List.mem_cons.1 hb with hb | hb
      · intro hp
        exact k5 x (h3 x hx) ⟨hp, hb⟩
      · exact h4 x hx hb

/-- Removing an ingress queue frees the staged lines of its WRITEs, and nothing else. -/
theorem dropIngress_eq (p) (s : State) : ∃ st, dropIngress p s = ({ s with staging := st } : State).setPort p { s.port p with ingress := [] } ∧
   ∀ w, w ∈ st ↔ w ∈ s.staging ∧ ¬(w.port = p ∧ ∃ r ∈ (s.port p).ingress, r.tag = w.tag ∧ ∃ b m f c, r.body = .writeLines b m f c) := by
  unfold dropIngress
  have : ∀ (l : List Request) (k : State), ∃ st, l.foldl (freeQueued p) k = { k with staging := st } ∧ ∀ w, w ∈ st ↔ w ∈ k.staging ∧
      ¬(w.port = p ∧ ∃ r ∈ l, r.tag = w.tag ∧ ∃ b m f c, r.body = .writeLines b m f c) := by
    intro l
    induction l with
    | nil => intro k; exact ⟨k.staging, rfl, by simp⟩
    | cons i l ih =>
      intro k
      obtain ⟨st, e, h⟩ := ih (freeQueued p k i)
      rw [List.foldl_cons]
      by_cases hi : ∃ b m f c, i.body = .writeLines b m f c
      · have e2 : freeQueued p k i = freeStaged p i.tag k := by
          obtain ⟨b, m, f, c, hi⟩ := hi
          unfold freeQueued; rw [hi]
        refine ⟨st, by rw [e, e2]; rfl, fun w => ?_⟩
        rw [h, e2]
        simp only [freeStaged, List.mem_filter, List.mem_cons]
        constructor
        · rintro ⟨⟨h1, h2⟩, h3⟩
          refine ⟨h1, ?_⟩
          rintro ⟨h4, r, hr, h5, h6⟩
          rcases hr with rfl | hr
          · simp [h4, h5] at h2
          · exact h3 ⟨h4, r, hr, h5, h6⟩
        · rintro ⟨h1, h2⟩
          refine ⟨⟨h1, ?_⟩, fun ⟨h4, r, hr, h5⟩ => h2 ⟨h4, r, .inr hr, h5⟩⟩
          simp only [Bool.not_eq_true', decide_eq_false_iff_not]
          rintro ⟨h4, h5⟩
          exact h2 ⟨h4, i, .inl rfl, h5.symm, hi⟩
      · have e2 : freeQueued p k i = k := by
          unfold freeQueued
          split
          · next b m f c hb => exact absurd ⟨b, m, f, c, hb⟩ hi
          · rfl
        refine ⟨st, by rw [e, e2], fun w => ?_⟩
        rw [h, e2]
        simp only [List.mem_cons]
        constructor
        · rintro ⟨h1, h2⟩
          refine ⟨h1, ?_⟩
          rintro ⟨h4, r, hr, h5, h6⟩
          rcases hr with rfl | hr
          · exact hi h6
          · exact h2 ⟨h4, r, hr, h5, h6⟩
        · rintro ⟨h1, h2⟩
          exact ⟨h1, fun ⟨h4, r, hr, h5⟩ => h2 ⟨h4, r, .inr hr, h5⟩⟩
  obtain ⟨st, e, h⟩ := this (s.port p).ingress s
  exact ⟨st, by rw [e]; rfl, h⟩

/-- Dropping queue and claim leaves the path. -/
theorem pathXferFor_drop (p : Port) (c : State) : pathXferFor (dropClaim p (dropIngress p c)) p = pathXferFor c p := by
  obtain ⟨st, e, _⟩ := dropIngress_eq p c
  have hp : (dropIngress p c).path = c.path := by rw [e]; rfl
  have : (dropClaim p (dropIngress p c)).path = c.path := by
    generalize dropIngress p c = k at hp ⊢
    unfold dropClaim
    split
    · split
      · exact hp
      · exact hp
    · exact hp
  unfold pathXferFor
  rw [this]

/-- Cleanup leaves the path. -/
theorem pathXferFor_cleanupBanks (p : Port) (s : State) : pathXferFor (dropClaim p (dropIngress p (Bank.all.foldl (cleanupBank p) s))) p =
    pathXferFor s p := by
  have h1 := (cleanupBanks_spec p Bank.all s).1
  rw [pathXferFor_drop]
  unfold pathXferFor
  rw [h1.path]

/-! ### The Staging Pool and the banks, exactly -/

/-- The item is a write whose staged lines are those of port `q` with this tag. -/
def carriesWrite (q : Port) (tag : Tag) : WorkItem → Bool
  | .xfer x => match x.dir with
    | .write q' tag' _ => decide (q' = q ∧ tag' = tag)
    | .read => false
  | _ => false

/-- Which items carry a write. -/
theorem carriesWrite_iff (q : Port) (tag : Tag) (i : WorkItem) : carriesWrite q tag i = true ↔ ∃ x suspect, i = .xfer x ∧ x.dir =
    .write q tag suspect := by
  cases i with
  | xfer x =>
    cases hd : x.dir with
    | read => simp [carriesWrite, hd]
    | write a b c =>
      simp only [carriesWrite, hd, decide_eq_true_eq]
      constructor
      · rintro ⟨rfl, rfl⟩; exact ⟨x, c, rfl, hd⟩
      · rintro ⟨y, d, h, h2⟩; cases h; rw [hd] at h2; cases h2; exact ⟨rfl, rfl⟩
  | openRow => simp [carriesWrite]
  | close => simp [carriesWrite]

/-- The staged lines of removed writes are freed, and nothing else. -/
theorem foldl_freeItem (l : List WorkItem) (k : State) : l.foldl freeItem k =
    { k with staging := k.staging.filter (fun w => !l.any (carriesWrite w.port w.tag)) } := by
  induction l generalizing k with
  | nil => simp
  | cons i l ih =>
    rw [List.foldl_cons, ih]
    have : freeItem k i = { k with staging := k.staging.filter (fun w => !carriesWrite w.port w.tag i) } := by
      unfold freeItem
      cases i with
      | xfer x =>
        cases x with
        | mk bank port tag dir first count =>
          cases dir with
          | read => simp [carriesWrite]
          | write q t c =>
            simp only [freeStaged, carriesWrite]
            congr 1
            apply List.filter_congr
            intro w _
            congr 1
            apply decide_eq_decide.2
            exact ⟨fun h => ⟨h.1.symm, h.2.symm⟩, fun h => ⟨h.1.symm, h.2.symm⟩⟩
      | openRow => simp [carriesWrite]
      | close => simp [carriesWrite]
    rw [this]
    dsimp only
    rw [List.filter_filter]
    congr 1
    apply List.filter_congr
    intro w _
    rw [List.any_cons, Bool.not_or, Bool.and_comm]

/-- Removing transfers, exactly. -/
theorem removeXfers_filter (p b) (s : State) : removeXfers p b s =
   { s with workList := s.workList.filter (fun w => !w.isXferOfAt p b)
            staging := s.staging.filter (fun w => !s.workList.any (fun i => i.isXferOfAt p b && carriesWrite w.port w.tag i)) } := by
  unfold removeXfers
  rw [foldl_freeItem]
  dsimp only
  congr 1
  apply List.filter_congr
  intro w _
  rw [List.any_filter]

/-- Cleanup at one bank, its transfers removed. -/
theorem cleanupBank_eq (p : Port) (b : Bank) (s : State) : let k := removeXfers p b s
   let e := s.bank b
   let s2 := k.setBank b { e with holders := e.holders.set p none, grantees := e.grantees.filter (fun g => !decide (g.port = p)) }
   cleanupBank p s b = settle b (drainIfEmpty b (withdrawWaiter b p id s2)) := by
  dsimp only
  unfold cleanupBank
  dsimp only
  unfold removeHolder modBank
  rw [State.setBank_setBank]
  have : (removeXfers p b s).bank b = s.bank b := by rw [removeXfers_filter]; rfl
  simp only [this, State.bank_setBank, if_true]

/-- A waiting entry withdrawn without an answer. -/
theorem withdrawWaiter_id_eq (b p) (s : State) : withdrawWaiter b p id s =
   let w := s.setBank b { s.bank b with waiting := (s.bank b).waiting.filter (fun w => !decide (w.port = p))
                                        contention := if (s.bank b).state = .opened ∧ (s.bank b).waiting.filter (fun w => !decide (w.port =
                                            p)) ≠ [] then some ((s.bank b).contention.getD (s.now + us s.settings.holdLimit)) else none }
   if (s.bank b).isHead p then serve b w else w := by
  unfold withdrawWaiter refreshContention modBank
  dsimp only [id]
  rw [State.setBank_setBank]
  simp only [State.bank_setBank, if_true]
  rfl

/-- A filter by port that removes nobody. -/
theorem filter_ne_self {α} (f : α → Port) (l : List α) (p : Port) (h : ∀ x ∈ l, f x ≠ p) : l.filter (fun x => !decide (f x = p)) = l := by
  rw [List.filter_eq_self]; intro x hx; simpa using h x hx

/-- Taking a grant tag from a port that has none. -/
theorem holders_set_none {h : PerPort (Option Tag)} {p} (hp : h.get p = none) : h.set p none = h := by
  apply PerPort.ext_get; intro q
  by_cases hq : q = p
  · subst hq; simp [hp]
  · simp [hq]

/-- A transfer of port `p` on bank `b` carries the staged write. -/
def carriedAt (s : State) (p : Port) (b : Bank) (w : StagedWrite) : Bool := s.workList.any (fun i => i.isXferOfAt p b && carriesWrite
    w.port w.tag i)

/-- A settle neither adds nor removes transfers. -/
theorem settle_any_xfer (b) (s : State) (f : WorkItem → Bool) (hf : ∀ i, f i = true → ∃ x, i = .xfer x) : (settle b s).workList.any f =
    s.workList.any f := by
  have hc : ∀ c, f (.close c) = false := by
    intro c; by_contra h; rw [Bool.not_eq_false] at h; obtain ⟨x, hx⟩ := hf _ h; cases hx
  have h0 : (startClosing b s).workList.any f = s.workList.any f := by
    simp [startClosing, placeWork, hc]
  unfold settle
  dsimp only
  split
  · rfl
  split
  · exact h0
  split
  · rw [refreshContention_workList, grantAll_workList]; rfl
  · exact h0

/-- Nor does a drain. -/
theorem drainIfEmpty_any_xfer (b) (s : State) (f : WorkItem → Bool) (hf : ∀ i, f i = true → ∃ x, i =
    .xfer x) : (drainIfEmpty b s).workList.any f = s.workList.any f := by
  unfold drainIfEmpty
  dsimp only
  split
  · rw [settle_any_xfer b _ f hf]; rfl
  · rfl

/-- Nor does a serve. -/
theorem serve_any_xfer (b) (s : State) (f : WorkItem → Bool) (hf : ∀ i, f i = true → ∃ x, i = .xfer x) : (serve b s).workList.any f =
    s.workList.any f := by
  have hc : ∀ c r, f (.openRow c r) = false := by
    intro c r; by_contra h; rw [Bool.not_eq_false] at h; obtain ⟨x, hx⟩ := hf _ h; cases hx
  unfold serve
  dsimp only
  split
  · rfl
  split
  · rfl
  split
  · simp [startOpening, placeWork, hc]
  · split
    · rw [refreshContention_workList, grantAll_workList]; rfl
    · rfl
  · rfl

/-- What cleanup at one bank frees, and which transfers it leaves. -/
theorem cleanupBank_staging (p : Port) (b : Bank) (s : State) : (cleanupBank p s b).staging = s.staging.filter (fun w => !carriedAt s p b w) ∧
   ∀ f : WorkItem → Bool, (∀ i, f i = true → ∃ x, i = .xfer x ∧ x.bank ≠ b) → (cleanupBank p s b).workList.any f = s.workList.any f := by
  have h := cleanupBank_eq p b s
  dsimp only at h
  rw [h]
  constructor
  · have f3 := withdrawWaiter_frame b p id (( removeXfers p b s).setBank
        b { s.bank b with holders := (s.bank b).holders.set p none, grantees := (s.bank b).grantees.filter (fun g => !decide (g.port = p)) }) (fun u => frame_refl b u)
    rw [(settle_frame b _).1.staging, (drainIfEmpty_frame b _).1.staging, f3.1.staging]
    show (removeXfers p b s).staging = _
    rw [removeXfers_filter]; rfl
  · intro f hf
    have hf' : ∀ i, f i = true → ∃ x, i = .xfer x := fun i hi => ⟨_, (hf i hi).choose_spec.1⟩
    rw [settle_any_xfer b _ f hf', drainIfEmpty_any_xfer b _ f hf', withdrawWaiter_id_eq]
    have e : ((removeXfers p b s).workList).any f = s.workList.any f := by
      rw [removeXfers_filter]
      dsimp only
      rw [List.any_filter]
      congr 1
      funext i
      cases hi : f i with
      | false => simp
      | true =>
        obtain ⟨x, rfl, hx⟩ := hf i hi
        simp [WorkItem.isXferOfAt, hx]
    dsimp only
    split
    · rw [serve_any_xfer b _ f hf']; exact e
    · exact e

/-- What cleanup at several banks frees. -/
theorem cleanupBanks_staging (p : Port) : ∀ (bs : List Bank) (s : State), bs.Nodup → (bs.foldl (cleanupBank p) s).staging =
    s.staging.filter (fun w => !bs.any (fun b => carriedAt s p b w)) := by
  intro bs
  induction bs with
  | nil => intro s _; simp
  | cons b bs ih =>
    intro s hn
    have hn' := List.nodup_cons.1 hn
    obtain ⟨h1, h2⟩ := cleanupBank_staging p b s
    rw [List.foldl_cons, ih _ hn'.2, h1, List.filter_filter]
    apply List.filter_congr
    intro w _
    rw [List.any_cons, Bool.not_or, Bool.and_comm]
    congr 2
    apply Bool.eq_iff_iff.2
    simp only [List.any_eq_true]
    apply exists_congr
    intro c
    apply and_congr_right
    intro hc
    have : carriedAt (cleanupBank p s b) p c w = carriedAt s p c w := by
      unfold carriedAt
      apply h2
      intro i hi
      cases i with
      | xfer x =>
        refine ⟨x, rfl, ?_⟩
        simp [WorkItem.isXferOfAt] at hi
        rw [hi.1.2]; intro hcb; exact hn'.1 (hcb ▸ hc)
      | openRow => simp [WorkItem.isXferOfAt] at hi
      | close => simp [WorkItem.isXferOfAt] at hi
    rw [this]

/-- The request is a WRITE. -/
def isWriteLines (r : Request) : Bool := match r.body with
  | .writeLines .. => true
  | _ => false

/-- Which requests are WRITEs. -/
theorem isWriteLines_iff (r : Request) : isWriteLines r = true ↔ ∃ b m f c, r.body = .writeLines b m f c := by
  unfold isWriteLines
  cases h : r.body <;> simp

/-- Freeing the lines of one queued request: those of its WRITE, if it is one. -/
theorem freeQueued_eq (p : Port) (k : State) (r : Request) : freeQueued p k r =
    { k with staging := k.staging.filter (fun w => !(decide (w.port = p) && (isWriteLines r && decide (r.tag = w.tag)))) } := by
  by_cases hw : isWriteLines r = true
  · have e : freeQueued p k r = freeStaged p r.tag k := by
      obtain ⟨b, m, f, c, hb⟩ := (isWriteLines_iff r).1 hw
      unfold freeQueued
      rw [hb]
    rw [e, hw]
    unfold freeStaged
    congr 1
    apply List.filter_congr
    intro w _
    rw [Bool.true_and, Bool.decide_and]
    congr 2
    exact decide_eq_decide.2 eq_comm
  · have e : freeQueued p k r = k := by
      unfold freeQueued
      split
      · next b m f c hb => exact absurd ((isWriteLines_iff r).2 ⟨b, m, f, c, hb⟩) hw
      · rfl
    rw [e, Bool.eq_false_iff.2 hw]
    simp

/-- Removing an ingress queue, exactly. -/
theorem dropIngress_staging (p : Port) (s : State) : dropIngress p s =
    ({ s with
      staging := s.staging.filter (fun w =>
        !(decide (w.port = p) && (s.port p).ingress.any (fun r => isWriteLines r && decide (r.tag = w.tag)))) } : State).setPort p
      { s.port p with ingress := [] } := by
  have all : ∀ (l : List Request) (k : State), l.foldl (freeQueued p) k =
      { k with
        staging := k.staging.filter (fun w =>
          !(decide (w.port = p) && l.any (fun r => isWriteLines r && decide (r.tag = w.tag)))) } := by
    intro l
    induction l with
    | nil => intro k; simp
    | cons r l ih =>
      intro k
      rw [List.foldl_cons, ih, freeQueued_eq]
      dsimp only
      rw [List.filter_filter]
      congr 1
      apply List.filter_congr
      intro w _
      rw [List.any_cons]
      cases decide (w.port = p) <;> simp [Bool.and_comm]
  unfold dropIngress
  rw [all]
  rfl

end Sys2Proof.Machine
end

