-- ==== Sys2Proof/Laws/Requests.lean ====
section
/-!
SUPPORT. A request event in one line: where the request goes through the session gate, the event is the gate's effect and the end of the
event; where it does not, it is the arrival of the packet.
-/

namespace Sys2Proof.Machine

/-- A request dispatched in this event goes through the session gate in the state `atDispatch` names. -/
theorem requestEvent_of_atDispatch {t : Time} {p : Port} {r : Request} {lines : List StagedLine} {s u : State}
    (h : atDispatch t p r lines s = some u) : requestEvent t p r lines s = finish (gate p r u) := by
  unfold atDispatch at h
  unfold requestEvent
  dsimp only at h ⊢
  split_ifs at h with h2
  cases h
  simp only [Bool.and_eq_true, Option.isNone_iff_eq_none] at h2
  obtain ⟨⟨h3, h4⟩, h5⟩ := h2
  have h6 : takesPackets (advance t s) p ≠ false := by simp [h3]
  simp only [arrive, if_neg h6, h4, admission, h5, if_true]
  rfl

/-- The gate of an ATTACHED port hands the request to its owner. -/
theorem gate_attached {p : Port} {r : Request} {u : State} (h : (u.port p).session = .attached) : gate p r u = toOwner p r u := by
  simp [gate, h]

/-- The gate of a port that is not ATTACHED. -/
theorem gate_detached {p : Port} {r : Request} {u : State} (h : (u.port p).session ≠ .attached) : gate p r u = atDetached p r u := by
  simp [gate, h]

/-- What a request command that is dispatched at an ATTACHED port ends in. -/
theorem ends_toOwner {t : Time} {p : Port} {r : Request} {lines : List StagedLine} {s u : State}
    (h : atDispatch t p r lines s = some u) (ha : (u.port p).session = .attached) :
    Ends (.next (requestEvent t p r lines s)) (toOwner p r u) := by
  rw [requestEvent_of_atDispatch h, gate_attached ha]
  exact ends_finish _

/-- What a request command that is dispatched at a port that is not ATTACHED ends in. -/
theorem ends_atDetached {t : Time} {p : Port} {r : Request} {lines : List StagedLine} {s u : State}
    (h : atDispatch t p r lines s = some u) (ha : (u.port p).session ≠ .attached) :
    Ends (.next (requestEvent t p r lines s)) (atDetached p r u) := by
  rw [requestEvent_of_atDispatch h, gate_detached ha]
  exact ends_finish _

/-- Steps 1 to 4 of the admission at time `t` give the state the statements name. -/
theorem enqueue_advance (t p r lines s) : enqueue p r lines (advance t s) = Queued t p r lines s := by
  unfold enqueue Queued stage
  obtain ⟨tag, body⟩ := r
  cases body <;> simp only [modPort, State.setPort, List.append_nil] <;> try rfl
  split <;> simp_all [State.port] <;> rfl

/-- Which packets pass the checks. -/
theorem admissionRefusal_eq_none {s : State} {p : Port} {r : Request} (t) : admissionRefusal (advance t s) p r = none ↔ Admissible s p r := by
  have h3' : hasRoom (advance t s) p r = hasRoom s p r := rfl
  have h1' : (advance t s).port p = s.port p := rfl
  unfold admissionRefusal Admissible
  rw [h3', h1']
  by_cases h1 : r.tag ∈ (s.port p).inFlight
  · simp [h1]
  by_cases h2 : Config.responsePlaces ≤ (s.port p).placesTaken
  · simp [h1, h2, Nat.not_lt.2 h2]
  · simp [h1, h2, Nat.lt_of_not_le h2]

/-- What the admission has written of its port. -/
theorem Queued_port (t p r lines s) : (Queued t p r lines s).port p =
    { s.port p with
      inFlight := (s.port p).inFlight ++ [r.tag]
      vote := if (s.port p).session = .attached then voteAfter (s.port p).vote r.body else (s.port p).vote
      ingress := (s.port p).ingress ++ [r] } := by
  simp [Queued, State.port]

/-- The retention state that an admission finds, read back (R108, R109). -/
theorem retentionAtAdmission_cases (s : State) :
    (retentionAtAdmission s = .entering ∧ s.retention = .retained ∧ s.entered = some s.now) ∨
      (retentionAtAdmission s = s.retention ∧ ¬(s.retention = .retained ∧ s.entered = some s.now)) := by
  unfold retentionAtAdmission
  by_cases h : s.retention = .retained ∧ s.entered = some s.now
  · exact .inl ⟨if_pos h, h⟩
  · exact .inr ⟨if_neg h, h⟩

/-- A wake cause that falls together with the entry on an IDLE path makes the part ACTIVE, as it does in ENTERING, with no latency (R109). -/
theorem admitted_together {p : Port} {r : Request} {lines : List StagedLine} {s : State} (hr : s.retention = .retained)
    (he : s.entered = some s.now) (hw : wakeCause s p r.body = true) :
    admitted p r lines s = { enqueue p r lines s with retention := .active } := by
  simp [admitted, retentionAtAdmission, hr, he, hw]

/-- A request that goes through the gate in its admission event finds its port as the admission left it, but for the queue. -/
theorem port_of_atDispatch {t : Time} {p : Port} {r : Request} {lines : List StagedLine} {s u : State}
    (h : atDispatch t p r lines s = some u) :
    u.port p = { (Queued t p r lines s).port p with ingress := ((s.port p).ingress ++ [r]).erase r } := by
  have hq := Queued_port t p r lines s
  have port : ∀ k : State, k.port p = (Queued t p r lines s).port p →
      (unqueue p r k).port p = { (Queued t p r lines s).port p with ingress := ((s.port p).ingress ++ [r]).erase r } := by
    intro k hk
    have : (unqueue p r k).port p = { k.port p with ingress := (k.port p).ingress.erase r } := by simp [unqueue, modPort]
    rw [this, hk, hq]
  unfold atDispatch at h
  dsimp only at h
  split_ifs at h with h2
  cases h
  simp only [Bool.and_eq_true] at h2
  have h3 := h2.2
  unfold dispatchedAtOnce at h3
  unfold admitted
  dsimp only
  rw [enqueue_advance]
  apply port
  split_ifs with hw
  · rfl
  · split
    · rfl
    · rename_i hr
      simp only [hr, Bool.and_eq_true, Bool.not_eq_true'] at h3
      exact absurd h3.1 hw
    · rfl

/-- A sound request packet is the request. -/
theorem packetArrival_of_decodePacket {t p bytes r lines s} (hd : decodePacket bytes = .request r lines) :
   execPacketArrival t p bytes s = .next (requestEvent t p r lines s) := by
  simp only [execPacketArrival, hd, requestEvent]

end Sys2Proof.Machine
end

