-- ==== Sys2Proof/Laws/Dispatch.lean ====
section
/-!
SUPPORT. Dispatch after dispatch (R129): no request changes what waits in an ingress queue, but for the DETACH that empties its own, so that
a queue whose requests are dispatched one after the other is served to its end.
-/

namespace Sys2Proof.Machine

/-- Every port's ingress queue is as it was. -/
structure KeepsIngress (s t : State) : Prop where
  ingress : ∀ p, (t.port p).ingress = (s.port p).ingress

theorem KeepsIngress.refl (s : State) : KeepsIngress s s := ⟨fun _ => rfl⟩

theorem KeepsIngress.trans {s t u : State} (h : KeepsIngress s t) (k : KeepsIngress t u) : KeepsIngress s u :=
  ⟨fun p => (k.ingress p).trans (h.ingress p)⟩

/-- Nothing but other fields than the ports. -/
theorem KeepsIngress.of_ports {s t : State} (h : t.ports = s.ports) : KeepsIngress s t := ⟨fun p => by rw [State.port, State.port, h]⟩

/-- After a change of other fields than the ports. -/
theorem KeepsIngress.after {s t u : State} (k : KeepsIngress t u) (h : t.ports = s.ports) : KeepsIngress s u :=
  (KeepsIngress.of_ports h).trans k

theorem LeaseFrame.keepsIngress {s t : State} (h : LeaseFrame s t) : KeepsIngress s t := ⟨fun p => (h.ports p).ingress⟩

theorem keepsIngress_answer (p : Port) (tag : Tag) (res : Result) (i0 i1 : Byte) (payload : List Byte) (s : State) :
    KeepsIngress s (answer p tag res i0 i1 payload s) := (answer_frame .b0 ..).1.keepsIngress

theorem keepsIngress_reply (p : Port) (tag : Tag) (res : Result) (s : State) : KeepsIngress s (reply p tag res s) :=
  keepsIngress_answer ..

theorem keepsIngress_recordFault (p : Port) (f : FaultRecord) (s : State) : KeepsIngress s (recordFault p f s) := by
  obtain ⟨l, o, n, e⟩ := recordFault_eq p f s
  refine ⟨fun q => ?_⟩
  rw [e, State.port_setPort]
  split_ifs with h
  · rw [h]
  · rfl

/-! ### The owners -/

theorem keepsIngress_openRequest (p : Port) (tag : Tag) (b : Bank) (row : Row) (mode : Mode) (s : State) :
    KeepsIngress s (openRequest p tag b row mode s) := by
  unfold openRequest openWaits
  dsimp only
  split_ifs
  · exact keepsIngress_answer ..
  · exact keepsIngress_reply ..
  · exact keepsIngress_reply ..
  · exact (startOpening_frame ..).1.keepsIngress
  · exact (grant_frame ..).1.keepsIngress
  · exact .of_ports rfl
  · exact (frame_trans (setBank_frame b _ s) (frame_trans (refreshContention_frame b _) (serve_frame b _))).1.keepsIngress
  · exact .of_ports rfl

theorem keepsIngress_releaseRequest (p : Port) (tag : Tag) (b : Bank) (s : State) : KeepsIngress s (releaseRequest p tag b s) := by
  unfold releaseRequest
  split_ifs
  · exact ((removeHolder_frame b p s).1.keepsIngress.trans (keepsIngress_reply ..)).trans (drainIfEmpty_frame b _).1.keepsIngress
  · exact keepsIngress_reply ..

theorem keepsIngress_cancelRequest (p : Port) (tag : Tag) (target : Byte) (s : State) : KeepsIngress s (cancelRequest p tag target s) := by
  unfold cancelRequest
  dsimp only
  split_ifs
  · exact keepsIngress_reply ..
  · split
    · exact (withdrawWaiter_frame _ p _ s (fun u => answer_frame _ ..)).1.keepsIngress.trans (keepsIngress_reply ..)
    · exact keepsIngress_reply ..
  · split
    · exact (withdrawWaiter_frame _ p _ s (fun u => answer_frame _ ..)).1.keepsIngress.trans (keepsIngress_reply ..)
    · exact keepsIngress_reply ..

theorem keepsIngress_readRequest (p : Port) (tag : Tag) (b : Bank) (first : BitVec 5) (count : Nat) (s : State) :
    KeepsIngress s (readRequest p tag b first count s) := by
  unfold readRequest
  split_ifs
  · exact keepsIngress_reply ..
  · exact keepsIngress_reply ..
  · exact .of_ports rfl

theorem keepsIngress_writeRequest (p : Port) (tag : Tag) (b : Bank) (first : BitVec 5) (count : Nat) (s : State) :
    KeepsIngress s (writeRequest p tag b first count s) := by
  have freed : ∀ res, KeepsIngress s (reply p tag res (freeStaged p tag s)) := fun res =>
    (keepsIngress_reply p tag res (freeStaged p tag s)).after rfl
  have checked : KeepsIngress s (checkedWrite p tag b first count s) := by
    unfold checkedWrite
    dsimp only
    split
    · exact .of_ports rfl
    · split_ifs
      · exact ((keepsIngress_recordFault p _ (freeStaged p tag s)).trans (keepsIngress_reply ..)).after rfl
      · exact (keepsIngress_recordFault ..).after rfl
  unfold writeRequest
  split_ifs
  · exact freed _
  · exact freed _
  · exact freed _
  · exact checked

theorem keepsIngress_statusRequest (p : Port) (tag : Tag) (item : Byte) (s : State) : KeepsIngress s (statusRequest p tag item s) := by
  unfold statusRequest
  split <;> exact keepsIngress_answer ..

theorem keepsIngress_changeUrgency (v : Nat) (s : State) : KeepsIngress s (changeUrgency v s) := by
  have step : ∀ (x : BankSet) (t : State), KeepsIngress t
      (if pressure s x = false ∧ pressure t x = true then enterPressure x t
       else if pressure s x = true ∧ pressure t x = false then serveBanks x.banks t else t) := by
    intro x t
    split_ifs
    · exact (enterPressure_frame x t).keepsIngress
    · exact (serveBanks_frame _ t).keepsIngress
    · exact .refl t
  unfold changeUrgency
  simp only [BankSet.all, List.foldl_cons, List.foldl_nil]
  exact ((step .a { s with settings := { s.settings with urgency := v } }).trans (step .b _)).after rfl

/-- A stored setting touches a queue nowhere. -/
theorem keepsIngress_storeSetting {target : BitVec 3} {ident : Byte} {v : BitVec 32} {s t : State}
    (h : storeSetting target ident v s = some t) : KeepsIngress s t := by
  have two : ∀ {c : Prop} [Decidable c] {u v : State}, (if c then some u else none) = some v → KeepsIngress s u → KeepsIngress s v := by
    intro c _ u v hv hu
    split_ifs at hv
    cases hv
    exact hu
  unfold storeSetting at h
  split at h
  · unfold storeLeaseLimit at h
    split at h
    · cases h
    · exact two h (.of_ports rfl)
  · unfold storeGuard at h
    split at h
    · cases h
    · exact two h (.of_ports rfl)
  · exact two h (.of_ports rfl)
  · exact two h (.of_ports rfl)
  · exact two h (keepsIngress_changeUrgency ..)
  · exact two h (.of_ports rfl)
  · exact two h (.of_ports rfl)
  · exact two h (.of_ports rfl)
  · exact two h (.of_ports rfl)
  · cases h

theorem keepsIngress_setRequest (p : Port) (tag : Tag) (target : BitVec 3) (ident : Byte) (value : Option (BitVec 32)) (s : State) :
    KeepsIngress s (setRequest p tag target ident value s) := by
  unfold setRequest
  split
  · exact keepsIngress_reply ..
  · split
    · next t h =>
      obtain ⟨v, _, h⟩ := Option.bind_eq_some_iff.1 h
      exact (keepsIngress_storeSetting h).trans (keepsIngress_reply ..)
    · exact keepsIngress_reply ..

theorem keepsIngress_windowChangeAt (t : Port) (s : State) (b : Bank) : KeepsIngress s (windowChangeAt t s b) := by
  unfold windowChangeAt
  dsimp only
  split
  · split
    · exact .refl s
    · exact (revoke_frame ..).1.keepsIngress
  · split
    · split
      · exact .refl s
      · exact (keepsIngress_answer ..).after rfl
    · split
      · split
        · exact .refl s
        · exact (withdrawWaiter_frame b t _ s (fun u => answer_frame b ..)).1.keepsIngress
      · exact .refl s

theorem keepsIngress_windowRequest (p : Port) (tag : Tag) (target : BitVec 3) (index : Byte) (r : Option WindowRecord) (s : State) :
    KeepsIngress s (windowRequest p tag target index r s) := by
  have all : ∀ (t : Port) (bs : List Bank) (k : State), KeepsIngress k (bs.foldl (windowChangeAt t) k) := by
    intro t bs
    induction bs with
    | nil => exact fun k => .refl k
    | cons b bs ih => exact fun k => (keepsIngress_windowChangeAt t k b).trans (ih _)
  unfold windowRequest
  split
  · exact keepsIngress_reply ..
  · split
    · split
      · exact ((all _ Bank.all _).trans (keepsIngress_reply ..)).after rfl
      · exact keepsIngress_reply ..
    · exact keepsIngress_reply ..

theorem keepsIngress_clearFaultsRequest (p : Port) (tag : Tag) (scope : BitVec 2) (s : State) :
    KeepsIngress s (clearFaultsRequest p tag scope s) := by
  have loss : ∀ (x : BankSet) (k : State), KeepsIngress k (clearLoss x k) := by
    intro x k
    unfold clearLoss
    split_ifs
    · exact .of_ports rfl
    · exact .refl k
  unfold clearFaultsRequest
  split
  · refine KeepsIngress.trans ⟨fun q => ?_⟩ (keepsIngress_reply ..)
    rw [modPort_port]
    split_ifs with h
    · rw [h]
    · rfl
  · split
    · exact keepsIngress_reply ..
    · exact ((loss .a s).trans (loss .b _)).trans (keepsIngress_reply ..)
  · exact keepsIngress_reply ..

/-! ### The gate -/

/-- Cleanup empties the ingress queue of its port. -/
theorem cleanup_ingress (p : Port) (kept : Option Tag) (s : State) : ((cleanup p kept s).port p).ingress = [] := by
  obtain ⟨st, e, _⟩ := dropIngress_eq p (Bank.all.foldl (cleanupBank p) s)
  unfold cleanup
  dsimp only
  rw [modPort_port, if_pos rfl]
  show ((dropClaim p (dropIngress p (Bank.all.foldl (cleanupBank p) s))).port p).ingress = []
  rw [e]
  generalize Bank.all.foldl (cleanupBank p) s = c
  have : (({ c with staging := st } : State).setPort p { c.port p with ingress := [] }).port p = { c.port p with ingress := [] } := by
    rw [State.port_setPort, if_pos rfl]
  unfold dropClaim
  split
  · split_ifs
    · show ((({ c with staging := st } : State).setPort p { c.port p with ingress := [] }).port p).ingress = []
      rw [this]
    · rw [this]
  · rw [this]

/-- What a dispatched request leaves in its port's queue: what waited there, or nothing. -/
theorem gate_ingress (p : Port) (r : Request) (s : State) :
    ((gate p r s).port p).ingress = (s.port p).ingress ∨ ((gate p r s).port p).ingress = [] := by
  have key : KeepsIngress s (gate p r s) ∨ ((gate p r s).port p).ingress = [] := by
    unfold gate
    split
    · unfold toOwner
      split
      · exact .inl (keepsIngress_reply ..)
      · refine .inr ?_
        unfold detachPort
        dsimp only
        split_ifs
        · rw [(keepsIngress_reply ..).ingress]; exact cleanup_ingress ..
        · exact cleanup_ingress ..
      · exact .inl (keepsIngress_openRequest ..)
      · exact .inl (keepsIngress_releaseRequest ..)
      · exact .inl (keepsIngress_cancelRequest ..)
      · exact .inl (keepsIngress_readRequest ..)
      · exact .inl (keepsIngress_writeRequest ..)
      · exact .inl (keepsIngress_reply ..)
      · exact .inl (keepsIngress_statusRequest ..)
      · unfold claimRequest
        split_ifs
        · exact .inl (keepsIngress_reply ..)
        · exact .inl ((keepsIngress_reply ..).after rfl)
      · unfold unclaimRequest
        split_ifs
        · exact .inl ((keepsIngress_reply ..).after rfl)
        · exact .inl (keepsIngress_reply ..)
      · exact .inl (keepsIngress_setRequest ..)
      · unfold getRequest
        split
        · exact .inl (keepsIngress_answer ..)
        · exact .inl (keepsIngress_reply ..)
      · exact .inl (keepsIngress_windowRequest ..)
      · exact .inl (keepsIngress_clearFaultsRequest ..)
    · unfold atDetached
      split
      · unfold attachPort
        dsimp only
        refine .inl (KeepsIngress.trans ⟨fun q => ?_⟩ (keepsIngress_answer ..))
        rw [modPort_port]
        split_ifs with h
        · rw [h]
        · rfl
      · exact .inl (keepsIngress_statusRequest ..)
      · exact .inl ((keepsIngress_reply ..).after rfl)
      · exact .inl (keepsIngress_reply ..)
  exact key.imp (fun h => h.ingress p) id

/-- The end of an event leaves every queue. -/
theorem finish_ingress (w : State) (p : Port) : ((finish w).port p).ingress = (w.port p).ingress := by
  rw [(eventEnd_finish w).ports p]
  split_ifs <;> rfl

/-! ### Serving a queue -/

/-- The head of a queue leaves it. -/
theorem unqueue_head {p : Port} {r : Request} {rest : List Request} {s : State} (h : (s.port p).ingress = r :: rest) :
    unqueue p r s = s.setPort p { s.port p with ingress := rest } := by
  simp [unqueue, modPort, h]

/-- With as many turns as requests wait, a port's queue is served to its end (R129). -/
theorem queueServed_runQueue (p : Port) (n : Nat) (s : State) (h : (s.port p).ingress.length ≤ n) : QueueServed p s (runQueue p n s) := by
  induction n generalizing s with
  | zero => exact .nothing (.inl (List.length_eq_zero_iff.1 (Nat.le_zero.1 h)))
  | succ n ih =>
    show QueueServed p s (runQueue p n (dispatchNext p s))
    have stays : ∀ m, dispatchNext p s = s → runQueue p m s = s := by
      intro m e
      induction m with
      | zero => rfl
      | succ m im => show runQueue p m (dispatchNext p s) = s; rw [e, im]
    unfold dispatchNext at stays ⊢
    split at stays
    · next hi => rw [stays n rfl]; exact .nothing (.inl hi)
    · next r rest hi =>
      by_cases hr : routerRuns s p = true
      · rw [if_pos hr]
        refine .next hr hi (eventEnd_finish _) ?_
        unfold dispatch
        rw [unqueue_head hi]
        apply ih
        rw [finish_ingress]
        rcases gate_ingress p r (s.setPort p { s.port p with ingress := rest }) with e | e
        · rw [e, State.port_setPort, if_pos rfl]
          rw [hi] at h
          simpa using h
        · rw [e]; simp
      · rw [if_neg hr] at stays ⊢
        rw [stays n rfl]
        exact .nothing (.inr (by simpa using hr))

/-- When dispatch resumes, the four queues are served, one after the other (log entry 5). -/
theorem queueServed_resumeDispatch (s : State) : ∃ v0 v1 v2, QueueServed .p0 s v0 ∧ QueueServed .p1 v0 v1 ∧ QueueServed .p2 v1 v2 ∧
    QueueServed .p3 v2 (resumeDispatch s) := by
  unfold resumeDispatch
  simp only [Port.all, List.foldl_cons, List.foldl_nil]
  exact ⟨_, _, _, queueServed_runQueue .p0 _ s le_rfl, queueServed_runQueue .p1 _ _ le_rfl, queueServed_runQueue .p2 _ _ le_rfl,
    queueServed_runQueue .p3 _ _ le_rfl⟩

end Sys2Proof.Machine
end

