-- ==== Sys2Proof/Laws/Memory.lean ====
section
/-!
SUPPORT. The array's list of bytes: what a read finds after a write, that every operation keeps the canonical form, and which addresses the
commit of staged lines reaches.
-/

namespace Sys2Proof.Machine

/-! ### One byte -/

/-- A read finds the byte just written at its address, and elsewhere what was there before. -/
theorem Memory.read_write (m : List Host.Cell) (a b : Nat) (v : Byte) (h : Memory.wf m = true) :
    Memory.read (Memory.write m a v) b = if b = a then some v else Memory.read m b := by
  induction m with
  | nil => simp [Memory.write, Memory.read, eq_comm]
  | cons c m ih =>
    simp only [Memory.wf, Bool.and_eq_true] at h
    unfold Memory.write
    by_cases h1 : a < c.1
    · rw [if_pos h1]
      simp only [Memory.read, eq_comm]
    · rw [if_neg h1]
      by_cases h2 : c.1 = a
      · rw [if_pos h2]
        simp only [Memory.read, h2, eq_comm]
        split_ifs <;> simp_all
      · rw [if_neg h2]
        simp only [Memory.read, ih h.2]
        split_ifs with h3 h4
        · exact absurd (h3.trans h4) h2
        · rfl
        · rfl
        · rfl

/-- Every address of a written list is the written one or was listed before. -/
theorem Memory.mem_write {m : List Host.Cell} {a : Nat} {v : Byte} {d : Host.Cell} (h : d ∈ Memory.write m a v) :
    d = (a, v) ∨ d ∈ m := by
  induction m with
  | nil => simpa [Memory.write] using h
  | cons c m ih =>
    unfold Memory.write at h
    split_ifs at h with h1 h2
    · simpa using h
    · rcases List.mem_cons.1 h with h | h
      · exact .inl h
      · exact .inr (List.mem_cons_of_mem _ h)
    · rcases List.mem_cons.1 h with h | h
      · exact .inr (h ▸ List.mem_cons_self)
      · exact (ih h).imp id (List.mem_cons_of_mem _)

/-- A write keeps the canonical form. -/
theorem Memory.wf_write (m : List Host.Cell) (a : Nat) (v : Byte) (h : Memory.wf m = true) :
    Memory.wf (Memory.write m a v) = true := by
  induction m with
  | nil => simp [Memory.write, Memory.wf]
  | cons c m ih =>
    have h' := h
    simp only [Memory.wf, Bool.and_eq_true, List.all_eq_true, decide_eq_true_eq] at h
    unfold Memory.write
    split_ifs with h1 h2
    · simp only [Memory.wf, Bool.and_eq_true, List.all_eq_true, decide_eq_true_eq]
      refine ⟨fun d hd => ?_, h⟩
      rcases List.mem_cons.1 hd with rfl | hd
      · exact h1
      · exact lt_trans h1 (h.1 d hd)
    · simp only [Memory.wf, Bool.and_eq_true, List.all_eq_true, decide_eq_true_eq]
      exact ⟨fun d hd => h2 ▸ h.1 d hd, h.2⟩
    · simp only [Memory.wf, Bool.and_eq_true, List.all_eq_true, decide_eq_true_eq]
      refine ⟨fun d hd => ?_, ih h.2⟩
      rcases Memory.mem_write hd with rfl | hd
      · show c.1 < a
        omega
      · exact h.1 d hd

/-- Taking entries away keeps the canonical form. -/
theorem Memory.wf_filter (m : List Host.Cell) (f : Host.Cell → Bool) (h : Memory.wf m = true) : Memory.wf (m.filter f) = true := by
  induction m with
  | nil => rfl
  | cons c m ih =>
    simp only [Memory.wf, Bool.and_eq_true, List.all_eq_true, decide_eq_true_eq] at h
    rw [List.filter_cons]
    split
    · simp only [Memory.wf, Bool.and_eq_true, List.all_eq_true, decide_eq_true_eq]
      exact ⟨fun d hd => h.1 d (List.mem_filter.1 hd).1, ih h.2⟩
    · exact ih h.2

/-! ### Staged lines -/

/-- Committing bytes of a line keeps the canonical form. -/
theorem Memory.wf_commitBytes (l : StagedLine) (base : Nat) (vs : List Byte) :
    ∀ (i : Nat) (m : List Host.Cell), Memory.wf m = true → Memory.wf (commitBytes l base i vs m) = true := by
  induction vs with
  | nil => intro i m h; exact h
  | cons v vs ih =>
    intro i m h
    unfold commitBytes
    apply ih
    split
    · exact Memory.wf_write _ _ _ h
    · exact h

/-- Committing staged lines keeps the canonical form. -/
theorem Memory.wf_commitLines (b : Bank) (r : Row) (ls : List StagedLine) :
    ∀ (first : Nat) (m : List Host.Cell), Memory.wf m = true → Memory.wf (commitLines b r first ls m) = true := by
  induction ls with
  | nil => intro first m h; exact h
  | cons l ls ih =>
    intro first m h
    unfold commitLines
    exact ih _ _ (Memory.wf_commitBytes _ _ _ _ _ h)

/-- Committing bytes of a line from its byte `i` on: a byte of those under a set mask bit reads as the data, and every other address as
before. -/
theorem Memory.read_commitBytes (l : StagedLine) (base a : Nat) (vs : List Byte) :
    ∀ (i : Nat) (m : List Host.Cell), Memory.wf m = true →
      Memory.read (commitBytes l base i vs m) a =
        if base + i ≤ a ∧ a < base + i + vs.length ∧ l.writes (a - base) = true then vs[a - (base + i)]? else Memory.read m a := by
  induction vs with
  | nil =>
    intro i m _
    have : ¬(base + i ≤ a ∧ a < base + i + ([] : List Byte).length ∧ l.writes (a - base) = true) := by simp; omega
    rw [if_neg this]; rfl
  | cons v vs ih =>
    intro i m h
    unfold commitBytes
    have hw : Memory.wf (if l.writes i then Memory.write m (base + i) v else m) = true := by
      split
      · exact Memory.wf_write _ _ _ h
      · exact h
    rw [ih _ _ hw]
    have hm : Memory.read (if l.writes i then Memory.write m (base + i) v else m) a
        = if a = base + i ∧ l.writes i = true then some v else Memory.read m a := by
      by_cases hwi : l.writes i = true
      · simp [hwi, Memory.read_write _ _ _ _ h]
      · simp [hwi]
    rw [hm]
    by_cases ha : a = base + i
    · subst ha
      have e : base + i - base = i := by omega
      have n : ¬(base + (i + 1) ≤ base + i) := by omega
      simp [e]
    · by_cases hr : base + (i + 1) ≤ a
      · have e : a - (base + i) = (a - (base + (i + 1))) + 1 := by omega
        have c1 : base + i ≤ a := by omega
        have c2 : (a < base + (i + 1) + vs.length) ↔ (a < base + i + (v :: vs).length) := by simp; omega
        simp only [hr, c1, c2, e, List.getElem?_cons_succ, ha, false_and, if_false]
      · have c1 : ¬ base + i ≤ a := by omega
        simp [hr, c1, ha]

/-- A read of a list whose entries were filtered by address. -/
theorem Memory.read_filter (m : List Host.Cell) (f : Nat → Bool) (a) : Memory.read (m.filter (fun c => f c.1)) a = if f a then
    Memory.read m a else none := by
  induction m with
  | nil => simp [Memory.read]
  | cons c m ih =>
    rw [List.filter_cons]
    by_cases hc : f c.1 = true
    · rw [if_pos hc]
      simp only [Memory.read]
      by_cases h : c.1 = a
      · subst h; simp [hc]
      · simp [h, ih]
    · rw [if_neg hc, ih]
      simp only [Memory.read]
      by_cases h : c.1 = a
      · subst h; simp [hc]
      · simp [h]

end Sys2Proof.Machine
end

