-- ==== Sys2Proof/Laws/Settings.lean ====
section
/-!
SUPPORT. The claim check, the port and window numbers, and the argument check, each by its cases.
-/

namespace Sys2Proof.Machine

/-- The claim is free. -/
theorem claimRefusal_of_free {u : State} {p} (h : u.claim = none) : claimRefusal u p = some .notClaimed := by simp [claimRefusal, h]

/-- The port holds the claim. -/
theorem claimRefusal_of_holder {u : State} {p e} (h : u.claim = some ⟨p, e⟩) : claimRefusal u p = none := by simp [claimRefusal, h]

/-- Another port holds the claim. -/
theorem claimRefusal_of_other {u : State} {p q e} (h : u.claim = some ⟨q, e⟩) (hq : q ≠ p) : claimRefusal u p = some .claimed :=
    by simp [claimRefusal, h, hq]

/-- A port by its number. -/
theorem portOfNat_toNat (q : Port) : Port.ofNat? q.toNat = some q := by cases q <;> rfl

/-- A number that is no port. -/
theorem portOfNat_of_le {n : Nat} (h : 4 ≤ n) : Port.ofNat? n = none := by
  unfold Port.ofNat?; split <;> first | omega | rfl

/-- A window by its index. -/
theorem windowOfNat_toNat (q : WindowIndex) : WindowIndex.ofNat? q.toNat = some q := by cases q <;> rfl

/-- An index that is no window. -/
theorem windowOfNat_of_le {n : Nat} (h : 4 ≤ n) : WindowIndex.ofNat? n = none := by
  unfold WindowIndex.ofNat?; split <;> first | omega | rfl

/-- The argument check fails. -/
theorem rangeGood_eq_false {first : BitVec 5} {count} (h : ¬(1 ≤ count ∧ count ≤ 8 ∧ first.toNat + count ≤ 32)) : rangeGood first count =
    false := decide_eq_false h

/-- The argument check passes. -/
theorem rangeGood_eq_true {first : BitVec 5} {count} (h : (1 ≤ count ∧ count ≤ 8 ∧ first.toNat + count ≤ 32)) : rangeGood first count =
    true := decide_eq_true h

/-- The clearing of one flag (log entry 9). -/
theorem clearLoss_spec (x) (v : State) : clearLoss x v = { v with array := (clearLoss x v).array, accounts := (clearLoss x v).accounts } ∧
   (∀ y, (clearLoss x v).account y = if y = x then { v.account x with lossFlag := false, contents := if (v.account x).lossFlag then
       (v.account x).contents + 1 else (v.account x).contents } else v.account y) ∧
   (∀ a, Memory.read (clearLoss x v).array a = if addressSet a = x ∧ (v.account x).lossFlag then none else Memory.read v.array a) ∧
   ((v.account x).lossFlag = false → clearLoss x v = v) := by
  unfold clearLoss
  by_cases h : (v.account x).lossFlag = true
  · rw [if_pos h]
    refine ⟨rfl, fun y => ?_, fun a => ?_, fun k => by rw [h] at k; exact absurd k (by simp)⟩
    · unfold forgetContents modAccount
      cases x <;> cases y <;> simp_all [State.account, State.setAccount]
    · have := Memory.read_filter v.array (fun a => decide (addressSet a ≠ x)) a
      show Memory.read (v.array.filter _) a = _
      rw [this]
      by_cases ha : addressSet a = x <;> simp [ha, h]
  · rw [if_neg h]
    have h' : (v.account x).lossFlag = false := by simpa using h
    refine ⟨rfl, fun y => ?_, fun a => by simp [h'], fun _ => rfl⟩
    by_cases hy : y = x
    · subst hy; rw [if_pos rfl]; simp only [h', Bool.false_eq_true, if_false]
      cases hh : v.account y; simp_all
    · rw [if_neg hy]

end Sys2Proof.Machine
end

