-- ==== Sys2Proof/Laws/Timers.lean ====
section
/-!
SUPPORT. The refresh and reset procedures, each said once: faults and accounts, a rise of the balance, a wake, a warm reset.
-/

namespace Sys2Proof.Machine

/-- The reading taken. -/
theorem clampReading_eq (r : Int) : clampReading r = if r < -40 then -40 else if 125 < r then 125 else r := by
  unfold clampReading; split_ifs <;> omega

/-- A fault leaves the accounts. -/
theorem recordFault_account (p f s) (x : BankSet) : (recordFault p f s).account x = s.account x := by
  obtain ⟨l, o, n, e⟩ := recordFault_eq p f s
  rw [e]; rfl

/-- A fault leaves the time and the band. -/
theorem recordFault_now (p f s) : (recordFault p f s).now = s.now ∧ (recordFault p f s).band = s.band := by
  obtain ⟨l, o, n, e⟩ := recordFault_eq p f s
  rw [e]; exact ⟨rfl, rfl⟩

/-- A fault and a change of an account do not touch each other. -/
theorem recordFault_setAccount (p f s) (x : BankSet) (c) : recordFault p f (s.setAccount x c) = (recordFault p f s).setAccount x c := by
  unfold recordFault
  dsimp only
  have : (s.setAccount x c).port p = s.port p := rfl
  rw [this]
  split_ifs <;> rfl

/-- A rise of the balance changes no session. -/
theorem raiseBalance_session (x s p) : ((raiseBalance x s).port p).session = (s.port p).session := by
  unfold raiseBalance missTick
  dsimp only
  split_ifs <;> try simp only [Port.all, List.foldl_cons, List.foldl_nil]
  · have rf : ∀ q f k, ((recordFault q f k).port p).session = (k.port p).session := by
      intro q f k
      obtain ⟨l, o, n, e⟩ := recordFault_eq q f k
      rw [e, State.port_setPort]; split_ifs with h
      · rw [h]
      · rfl
    rw [rf, rf, rf, rf]; rfl
  · rw [((forceSet_frame x _).ports p).session, ((enterPressure_frame x _).ports p).session]; rfl
  · rw [((forceSet_frame x _).ports p).session]; rfl
  · rw [((enterPressure_frame x _).ports p).session]; rfl
  · rfl

/-- Two changes of ports alone are one. -/
theorem ports_trans {k c r : State} (hc : c = { k with ports := c.ports }) (hr : r = { c with ports := r.ports }) :
    r = { k with ports := r.ports } := by
  cases k; cases c; cases r
  simp_all only [State.mk.injEq]

/-- Changes of ports alone, one after the other. -/
theorem foldl_ports {f : State → Port → State} (h : ∀ s p, f s p = { s with ports := (f s p).ports }) :
    ∀ (l : List Port) (s : State), l.foldl f s = { s with ports := (l.foldl f s).ports }
  | [], _ => rfl
  | p :: l, s => ports_trans (h s p) (foldl_ports h l (f s p))

/-- The notices and votes of a wake change nothing but ports. -/
theorem completeWake_ports (k : State) : ({ raiseEverywhere (.retention true) (clearVotes k) with retention := .active } : State) =
    { k with ports := (raiseEverywhere (.retention true) (clearVotes k)).ports, retention := .active } := by
  have h1 : clearVotes k = { k with ports := (clearVotes k).ports } := foldl_ports (fun _ _ => rfl) Port.all k
  have h2 := ports_trans h1 (raiseEverywhere_eq (.retention true) (clearVotes k)).1
  generalize raiseEverywhere (.retention true) (clearVotes k) = r at h2 ⊢
  exact congrArg (fun s : State => { s with retention := .active }) h2

/-- A wake completion: the rises of both balances, ports, and ACTIVE. -/
theorem completeWake_eq (s : State) : completeWake s =
    { raiseBalance .b (raiseBalance .a s) with ports := (completeWake s).ports, retention := .active } := by
  unfold completeWake
  exact completeWake_ports _

/-- Warm reset at one bank. -/
theorem warmResetBank_eq (s : State) (b : Bank) :
   (warmResetBank s b) = { s.setBank b { s.bank b with
        grantees := [], holders := PerPort.const none, contention := none, waiting := []
        state := if (s.bank b).state = .opened ∨ (s.bank b).state = .draining then .closing else (s.bank b).state
        mode := if (s.bank b).state = .opened ∨ (s.bank b).state = .draining then none else (s.bank b).mode } with
      workList := s.workList ++ if (s.bank b).state = .opened ∨ (s.bank b).state = .draining then [.close b] else [] } := by
  unfold warmResetBank
  dsimp only
  split_ifs with h
  · unfold startClosing placeWork modBank
    simp [State.setBank_setBank]
  · simp; rfl

/-- Warm reset at several banks. -/
theorem warmResetBanks_spec : ∀ (bs : List Bank) (s : State), bs.Nodup →
   ∃ k : PerBank BankEntry, bs.foldl warmResetBank s =
       { s with banks := k, workList := s.workList ++ (bs.filter (fun b => decide ((s.bank b).state = .opened ∨ (s.bank b).state =
           .draining))).map WorkItem.close } ∧
    ∀ b, k.get b = if b ∈ bs then { s.bank b with
        grantees := [], holders := PerPort.const none, contention := none, waiting := []
        state := if (s.bank b).state = .opened ∨ (s.bank b).state = .draining then .closing else (s.bank b).state
        mode := if (s.bank b).state = .opened ∨ (s.bank b).state = .draining then none else (s.bank b).mode } else s.bank b := by
  intro bs
  induction bs with
  | nil => intro s _; exact ⟨s.banks, by simp, fun b => by simp [State.bank]⟩
  | cons c bs ih =>
    intro s hn
    have hn' := List.nodup_cons.1 hn
    obtain ⟨k, e, hk⟩ := ih (warmResetBank s c) hn'.2
    have hb : ∀ b, b ≠ c → (warmResetBank s c).bank b = s.bank b := by
      intro b hb; rw [warmResetBank_eq]; show ((s.setBank c _).bank b) = _; simp [hb]
    have hfilter : bs.filter (fun b => decide (((warmResetBank s c).bank b).state = .opened ∨ ((warmResetBank s c).bank b).state =
        .draining)) = bs.filter (fun b => decide ((s.bank b).state = .opened ∨ (s.bank b).state = .draining)) := by
      apply List.filter_congr
      intro b hbm
      have : b ≠ c := fun h => hn'.1 (h ▸ hbm)
      rw [hb b this]
    refine ⟨k, ?_, fun b => ?_⟩
    · rw [List.foldl_cons, e, hfilter, warmResetBank_eq]
      by_cases h : (s.bank c).state = .opened ∨ (s.bank c).state = .draining
      · simp only [h, if_true, List.filter_cons, decide_true, List.map_cons, List.append_assoc]
        rfl
      · simp only [h, if_false, List.filter_cons, decide_false, List.append_nil, Bool.false_eq_true]
        rfl
    · rw [hk]
      by_cases h : b = c
      · subst h
        simp only [hn'.1, if_false, List.mem_cons, true_or, if_true]
        rw [warmResetBank_eq]; show ((s.setBank b _).bank b) = _; simp
      · simp only [List.mem_cons, h, false_or, hb b h]

/-- URGENCY changes alone where no bank is OPEN and nobody waits. -/
theorem changeUrgency_of_nothing (v : Nat) (s : State) (h : ∀ b, (s.bank b).state ≠ .opened ∧ (s.bank b).waiting = []) :
   changeUrgency v s = { s with settings := { s.settings with urgency := v } } := by
  have hp : ∀ (x : BankSet) (k : State), (∀ b, k.bank b = s.bank b) → enterPressure x k = k := by
    intro x k hk
    unfold enterPressure
    generalize x.banks = bs
    induction bs with
    | nil => rfl
    | cons b bs ih => rw [List.foldl_cons, hk b, if_neg (h b).1, ih]
  have hs : ∀ (x : BankSet) (k : State), (∀ b, k.bank b = s.bank b) → serveBanks x.banks k = k := by
    intro x k hk
    unfold serveBanks
    generalize x.banks = bs
    induction bs with
    | nil => rfl
    | cons b bs ih =>
      have : serve b k = k := by
        unfold serve
        dsimp only
        rw [hk b, (h b).2]
        split <;> rfl
      rw [List.foldl_cons, this, ih]
  unfold changeUrgency
  simp only [BankSet.all, List.foldl_cons, List.foldl_nil]
  have e1 : ∀ x, (if pressure s x = false ∧ pressure { s with settings := { s.settings with urgency := v } } x =
      true then enterPressure x { s with settings := { s.settings with urgency := v } }
    else if pressure s x = true ∧ pressure { s with settings := { s.settings with urgency := v } } x =
        false then serveBanks x.banks { s with settings := { s.settings with urgency := v } }
    else { s with settings := { s.settings with urgency := v } }) = { s with settings := { s.settings with urgency := v } } := by
    intro x
    split_ifs
    · exact hp _ _ (fun _ => rfl)
    · exact hs _ _ (fun _ => rfl)
    · rfl
  rw [e1, e1]

/-- Bank `b` is OPEN and port `p` holds it. -/
def heldBy (s : State) (p : Port) (b : Bank) : Bool := decide ((s.bank b).state = .opened ∧ (s.bank b).isHolder p = true)

/-- The banks of a set that a port holds, in bank order. -/
theorem filter_heldBy (x : BankSet) (s : State) (p : Port) : x.banks.filter (heldBy s p) =
    Bank.all.filter (fun b => decide (b.set = x ∧ (s.bank b).state = .opened ∧ (s.bank b).isHolder p = true)) := by
  unfold heldBy
  cases x <;> simp [Bank.all, BankSet.banks, List.filter_cons, Bank.set]

/-- RELEASE-REQUEST raised at the holders of the OPEN ones of several banks (R93). -/
theorem pressEach_spec (bs : List Bank) (s : State) :
    let v := bs.foldl (fun s b =>
      if (s.bank b).state = .opened then (s.bank b).holderPorts.foldl (fun s p => raiseNotice p (.releaseRequest b) s) s else s) s
    v = { s with ports := v.ports } ∧
    (∀ p, v.port p = if (s.port p).session = .attached then
      { s.port p with notices := (bs.filter (heldBy s p)).foldl (fun ns b => mergeNotice (.releaseRequest b) ns) (s.port p).notices }
      else s.port p) := by
  induction bs generalizing s with
  | nil => exact ⟨rfl, fun p => by simp⟩
  | cons c bs ih =>
    have step : ∃ s1 : State, (if (s.bank c).state = .opened then
        (s.bank c).holderPorts.foldl (fun s p => raiseNotice p (.releaseRequest c) s) s else s) = s1 ∧ s1 = { s with ports := s1.ports } ∧
        ∀ p, s1.port p = if heldBy s p c = true ∧ (s.port p).session = .attached then
          { s.port p with notices := mergeNotice (.releaseRequest c) (s.port p).notices } else s.port p := by
      by_cases ho : (s.bank c).state = .opened
      · obtain ⟨q, e, hq⟩ := raiseEach_spec (.releaseRequest c) (s.bank c).holderPorts s (nodup_holderPorts _)
        rw [if_pos ho]
        refine ⟨_, e, rfl, fun p => ?_⟩
        show q.get p = _
        rw [hq]
        simp only [mem_holderPorts, heldBy, ho, true_and, decide_eq_true_eq]
      · rw [if_neg ho]
        exact ⟨s, rfl, rfl, fun p => by simp [heldBy, ho]⟩
    obtain ⟨s1, e1, es, hp⟩ := step
    obtain ⟨k1, k2⟩ := ih s1
    dsimp only at k1 k2 ⊢
    rw [List.foldl_cons, e1]
    refine ⟨?_, fun p => ?_⟩
    · rw [k1, es]
    · have hf : bs.filter (heldBy s1 p) = bs.filter (heldBy s p) := by rw [es]; rfl
      have hs : (s1.port p).session = (s.port p).session := by rw [hp]; split_ifs <;> rfl
      rw [k2, hs, hf, hp p]
      by_cases ha : (s.port p).session = .attached
      · by_cases h : heldBy s p c = true
        · simp [ha, h]
        · simp [ha, h]
      · simp [ha]

/-- Banks of a set under pressure forced one after the other (R96). -/
theorem forceEach_spec (x : BankSet) : ∀ (bs : List Bank) (s : State), bs.Nodup → (∀ b ∈ bs, b.set = x) → pressure s x = true →
   let v := bs.foldl (fun s b => if (s.bank b).state = .opened then revoke b (s.bank b).holderPorts .refresh s else s) s
   v = { s with banks := v.banks, ports := v.ports, workList := s.workList ++
      (bs.filter (fun b => decide ((s.bank b).state = .opened ∧ pendingTransfers s b = 0))).map WorkItem.close } ∧
   (∀ b, v.bank b = if b ∈ bs ∧ (s.bank b).state = .opened then
      { s.bank b with holders := PerPort.const none, mode := none, contention := none
                      state := if pendingTransfers s b = 0 then .closing else .draining } else s.bank b) ∧
   (∀ p, v.port p = if (s.port p).session = .attached then
      { s.port p with notices := (bs.filter (heldBy s p)).foldl (fun ns b => mergeNotice (.revoked b .refresh) ns) (s.port p).notices }
      else s.port p) := by
  intro bs
  induction bs with
  | nil => intro s _ _ _; exact ⟨by simp, fun b => by simp, fun p => by simp⟩
  | cons c bs ih =>
    intro s hn hs hp
    have hn' := List.nodup_cons.1 hn
    have hcx : c.set = x := hs c List.mem_cons_self
    have step1 : ∃ s1 : State, (if (s.bank c).state = .opened then revoke c (s.bank c).holderPorts .refresh s else s) = s1 ∧
       s1 = { s with banks := s1.banks, ports := s1.ports, workList := s.workList ++
         if (s.bank c).state = .opened ∧ pendingTransfers s c = 0 then [.close c] else [] } ∧
       (∀ b, s1.bank b = if b = c ∧ (s.bank c).state = .opened then
          { s.bank c with holders := PerPort.const none, mode := none, contention := none
                          state := if pendingTransfers s c = 0 then .closing else .draining } else s.bank b) ∧
       (∀ p, s1.port p = if (s.bank c).state = .opened ∧ (s.bank c).isHolder p = true ∧ (s.port p).session = .attached then
           { s.port p with notices := mergeNotice (.revoked c .refresh) (s.port p).notices } else s.port p) := by
      by_cases ho : (s.bank c).state = .opened
      · rw [if_pos ho]
        obtain ⟨n, h1, e⟩ := revoke_holders_spec c .refresh s ho
        rw [e]
        set d := ({ s with ports := n } : State).setBank c
            { s.bank c with holders := PerPort.const none, state := .draining, mode := none, contention := none } with hd
        have db : d.bank c = { s.bank c with holders := PerPort.const none, state := .draining, mode := none, contention := none }
            := by simp [hd]
        have dp : ∀ p, d.port p = n.get p := fun p => rfl
        have hpd : pressure d c.set = true := by rw [hcx]; exact hp
        have hpend : pendingTransfers d c = pendingTransfers s c := rfl
        have db' : ∀ b, b ≠ c → d.bank b = s.bank b := by intro b hb; simp [hd, hb]; rfl
        rw [settle_under_pressure (by rw [db]) hpd, hpend]
        refine ⟨_, rfl, ?_, fun b => ?_, fun p => ?_⟩
        · by_cases h0 : pendingTransfers s c = 0
          · simp only [h0, ho, if_true, and_self]; rfl
          · simp only [h0, ho, if_false, and_false, List.append_nil]; rfl
        · by_cases h0 : pendingTransfers s c = 0
          · simp only [h0, if_true]
            show (modBank c (fun e => { e with state := .closing, mode := none }) d).bank b = _
            rw [modBank_bank]
            by_cases hb : b = c
            · subst hb; simp [ho, db]
            · simp [hb, db' b hb]
          · simp only [h0, if_false]
            by_cases hb : b = c
            · subst hb; simp [ho, db]
            · simp [hb, db' b hb]
        · have : (if pendingTransfers s c = 0 then startClosing c d else d).port p = d.port p := by split_ifs <;> rfl
          rw [this, dp, h1]; simp [ho]
      · rw [if_neg ho]
        exact ⟨s, rfl, by simp [ho], fun b => by simp [ho], fun p => by simp [ho]⟩
    obtain ⟨s1, e1, es, hb1, hpt⟩ := step1
    have hpr : pressure s1 x = true := by rw [es]; exact hp
    have hpend : ∀ b, pendingTransfers s1 b = pendingTransfers s b := by
      intro b
      have hw : s1.workList = s.workList ++ if (s.bank c).state = .opened ∧ pendingTransfers s c = 0 then [.close c] else [] := by rw [es]
      have hpa : s1.path = s.path := by rw [es]
      unfold pendingTransfers pathXferOf
      rw [hw, hpa, List.countP_append]
      split_ifs <;> simp [WorkItem.isXferOf]
    have I := ih s1 hn'.2 (fun b hb => hs b (List.mem_cons_of_mem _ hb)) hpr
    dsimp only at I
    rw [List.foldl_cons, e1]
    set v := List.foldl (fun s b => if (s.bank b).state = .opened then revoke b (s.bank b).holderPorts .refresh s else s) s1 bs with hv
    obtain ⟨k1, k2, k3⟩ := I
    have hsess : ∀ p, (s1.port p).session = (s.port p).session := by intro p; rw [hpt]; split_ifs <;> rfl
    have hbs : ∀ b ∈ bs, s1.bank b = s.bank b := by
      intro b hb; rw [hb1, if_neg]; rintro ⟨rfl, _⟩; exact hn'.1 hb
    refine ⟨?_, fun b => ?_, fun p => ?_⟩
    · have hf : bs.filter (fun b => decide ((s1.bank b).state = .opened ∧ pendingTransfers s1 b = 0)) =
         bs.filter (fun b => decide ((s.bank b).state = .opened ∧ pendingTransfers s b = 0)) := by
        apply List.filter_congr
        intro b hb; rw [hbs b hb, hpend]
      rw [hf] at k1
      clear_value v
      rw [k1, es, List.filter_cons]
      by_cases h : (s.bank c).state = .opened ∧ pendingTransfers s c = 0
      · simp [h]
      · simp [h]
    · rw [k2]
      by_cases hb : b ∈ bs
      · have hbc : b ≠ c := fun h => hn'.1 (h ▸ hb)
        simp [hb, hbs b hb, hpend]
      · simp only [hb, false_and, if_false, List.mem_cons, or_false, hb1]
        by_cases hbc : b = c
        · subst hbc; simp
        · simp [hbc]
    · have hf : bs.filter (heldBy s1 p) = bs.filter (heldBy s p) := by
        apply List.filter_congr
        intro b hb
        unfold heldBy
        rw [hbs b hb]
      rw [k3 p, hsess, hf, hpt p]
      by_cases ha : (s.port p).session = .attached
      · by_cases h : (s.bank c).state = .opened ∧ (s.bank c).isHolder p = true
        · simp [ha, h, heldBy]
        · have h' : heldBy s p c = false := by simpa [heldBy] using h
          rw [if_pos ha, if_pos ha, if_neg (fun k => h ⟨k.1, k.2.1⟩), List.filter_cons, h']
          rfl
      · simp [ha]

end Sys2Proof.Machine
end

