-- ==== Sys2Proof/Laws/Windows.lean ====
section
/-!
SUPPORT. What a window change does at each bank (R154).
-/

namespace Sys2Proof.Machine

/-- A holder neither is granted nor waits. -/
theorem portsDistinct_holder {e : BankEntry} (h : e.portsDistinct = true) {p} (hp : e.isHolder p = true) : (∀ g ∈ e.grantees, g.port ≠ p) ∧
    ∀ w ∈ e.waiting, w.port ≠ p := by
  simp only [BankEntry.portsDistinct, decide_eq_true_eq, List.nodup_append, List.mem_append, mem_holderPorts, List.mem_map] at h
  refine ⟨fun g hg hc => ?_, fun w hw hc => ?_⟩
  · exact h.1.2.2 p hp _ ⟨g, hg, rfl⟩ hc.symm
  · exact h.2.2 p (.inl hp) _ ⟨w, hw, rfl⟩ hc.symm

/-- A pending grantee does not wait. -/
theorem portsDistinct_grantee {e : BankEntry} (h : e.portsDistinct = true) {p} (hp : ∃ g ∈ e.grantees, g.port = p) : ∀ w ∈ e.waiting,
    w.port ≠ p := by
  simp only [BankEntry.portsDistinct, decide_eq_true_eq, List.nodup_append, List.mem_append, mem_holderPorts, List.mem_map] at h
  intro w hw hc
  exact h.2.2 p (.inr hp) _ ⟨w, hw, rfl⟩ hc.symm

/-- A port has one waiting entry. -/
theorem portsDistinct_waiter {e : BankEntry} (h : e.portsDistinct = true) {a b} (ha : a ∈ e.waiting) (hb : b ∈ e.waiting) (hab : a.port =
    b.port) : a = b := by
  simp only [BankEntry.portsDistinct, decide_eq_true_eq, List.nodup_append] at h
  exact List.inj_on_of_nodup_map h.2.1 ha hb hab

/-- A window change at one bank: what the port keeps there is covered, and a covered holding is kept. -/
theorem windowChangeAt_spec (t : Port) (s : State) (b : Bank) (hd : (s.bank b).portsDistinct = true) :
   let v := windowChangeAt t s b
   LeaseFrame s v ∧ OnlyBank b s v ∧
   (∀ row mode, (v.bank b).isHolder t = true ∨ (v.bank b).isGrantee t = true → (v.bank b).row = some row → (v.bank b).mode = some mode →
       covered s t b row mode = true) ∧
   (∀ k, k ∈ (v.bank b).waiting → k.port = t → covered s t b k.row k.mode = true) ∧
   ((s.bank b).isHolder t = true → bankCovered s t b = true → v.bank b = s.bank b) := by
  have fin : ∀ (v : State), LeaseFrame s v ∧ OnlyBank b s v → (v.bank b).involves t = false → ¬((s.bank b).isHolder t = true ∧
      bankCovered s t b = true) →
     LeaseFrame s v ∧ OnlyBank b s v ∧
     (∀ row mode, (v.bank b).isHolder t = true ∨ (v.bank b).isGrantee t = true → (v.bank b).row = some row → (v.bank b).mode = some mode →
         covered s t b row mode = true) ∧
     (∀ k, k ∈ (v.bank b).waiting → k.port = t → covered s t b k.row k.mode = true) ∧
     ((s.bank b).isHolder t = true → bankCovered s t b = true → v.bank b = s.bank b) := by
    intro v F h hn
    refine ⟨F.1, F.2, fun row mode hh => ?_, fun k hk hp => ?_, fun h1 h2 => absurd ⟨h1, h2⟩ hn⟩
    · simp only [BankEntry.involves, Bool.or_eq_false_iff] at h
      rcases hh with hh | hh
      · rw [h.1.1] at hh; exact absurd hh (by simp)
      · rw [h.1.2] at hh; exact absurd hh (by simp)
    · rw [BankEntry.involves_eq_false_iff] at h
      exact absurd hp (h.2.2 k hk)
  have cov : ∀ row mode, bankCovered s t b = true → (s.bank b).row = some row → (s.bank b).mode = some mode → covered s t b row mode = true := by
    intro row mode h h1 h2
    unfold bankCovered at h; rw [h1, h2] at h; exact h
  unfold windowChangeAt
  dsimp only
  by_cases hh : (s.bank b).isHolder t = true
  · rw [if_pos hh]
    have hno := portsDistinct_holder hd hh
    by_cases hc : bankCovered s t b = true
    · rw [if_pos hc]
      exact ⟨LeaseFrame.refl s, OnlyBank.refl b s, fun row mode _ h1 h2 => cov row mode hc h1 h2, fun k hk hp => absurd hp (hno.2 k hk),
          fun _ _ => rfl⟩
    · rw [if_neg hc]
      refine fin _ (revoke_frame b [t] .window s) ?_ (fun h => hc h.2)
      unfold revoke
      apply not_involves_drainIfEmpty
      simp only [List.foldl_cons, List.foldl_nil]
      rw [raiseNotice_bank]
      unfold removeHolder
      rw [modBank_bank, if_pos rfl, BankEntry.involves_eq_false_iff]
      exact ⟨by simp, hno.1, hno.2⟩
  · rw [if_neg hh]
    have hh0 : (s.bank b).holders.get t = none := by
      simpa [BankEntry.isHolder] using hh
    have hn : ¬((s.bank b).isHolder t = true ∧ bankCovered s t b = true) := fun h => hh h.1
    split
    · next g hg =>
      have hgm := List.mem_of_find?_eq_some hg
      have hgp : g.port = t := by simpa using List.find?_some hg
      have hw := portsDistinct_grantee hd ⟨g, hgm, hgp⟩
      by_cases hc : bankCovered s t b = true
      · rw [if_pos hc]
        exact ⟨LeaseFrame.refl s, OnlyBank.refl b s, fun row mode _ h1 h2 => cov row mode hc h1 h2, fun k hk hp => absurd hp (hw k hk),
            fun _ _ => rfl⟩
      · rw [if_neg hc]
        refine fin _ (frame_trans (setBank_frame b _ s) (answer_frame b ..)) ?_ hn
        rw [answer_bank, State.bank_setBank, if_pos rfl, BankEntry.involves_eq_false_iff]
        exact ⟨hh0, fun g hg => by simpa using (List.mem_filter.1 hg).2, hw⟩
    · next hg =>
      have hgn : ∀ g ∈ (s.bank b).grantees, g.port ≠ t := by
        rw [List.find?_eq_none] at hg; intro g hgm; simpa using hg g hgm
      split
      · next w hw =>
        have hwm := List.mem_of_find?_eq_some hw
        have hwp : w.port = t := by simpa using List.find?_some hw
        by_cases hc : covered s t b w.row w.mode = true
        · rw [if_pos hc]
          refine ⟨LeaseFrame.refl s, OnlyBank.refl b s, fun row mode hx => ?_, fun k hk hp => ?_, fun _ _ => rfl⟩
          · rcases hx with hx | hx
            · exact absurd hx hh
            · simp [BankEntry.isGrantee] at hx
              obtain ⟨g, hg1, hg2⟩ := hx
              exact absurd hg2 (hgn g hg1)
          · rw [portsDistinct_waiter hd hk hwm (hp.trans hwp.symm)]; exact hc
        · rw [if_neg hc]
          refine fin _ (withdrawWaiter_frame b t _ s (fun u => answer_frame b ..)) ?_ hn
          have h0 : ((refreshContention b (answer t w.tag .denied (bankByte b) 0 [] (modBank b
              (fun e => { e with waiting := e.waiting.filter (fun w => !decide (w.port = t)) }) s))).bank b).involves t = false := by
            rw [involves_refreshContention, answer_bank, modBank_bank, if_pos rfl, BankEntry.involves_eq_false_iff]
            exact ⟨hh0, hgn, fun w hw => by simpa using (List.mem_filter.1 hw).2⟩
          unfold withdrawWaiter
          dsimp only
          split
          · exact not_involves_serve h0
          · exact h0
      · next hw =>
        have hwn : ∀ w ∈ (s.bank b).waiting, w.port ≠ t := by
          rw [List.find?_eq_none] at hw; intro g hgm; simpa using hw g hgm
        refine fin s (frame_refl b s) ?_ hn
        rw [BankEntry.involves_eq_false_iff]; exact ⟨hh0, hgn, hwn⟩

/-- Coverage depends on the windows alone. -/
theorem covered_congr {s t : State} (h : t.windows = s.windows) (p b r m) : covered t p b r m = covered s p b r m := by
  unfold covered; rw [h]

/-- A window change at several banks. -/
theorem windowChanges_spec (t : Port) : ∀ (bs : List Bank) (s : State), bs.Nodup → (∀ b ∈ bs, (s.bank b).portsDistinct = true) →
   let v := bs.foldl (windowChangeAt t) s
   LeaseFrame s v ∧ (∀ b, b ∉ bs → v.bank b = s.bank b) ∧
   (∀ b, b ∈ bs →
   (∀ row mode, (v.bank b).isHolder t = true ∨ (v.bank b).isGrantee t = true → (v.bank b).row = some row → (v.bank b).mode = some mode →
       covered s t b row mode = true) ∧
   (∀ k, k ∈ (v.bank b).waiting → k.port = t → covered s t b k.row k.mode = true) ∧
   ((s.bank b).isHolder t = true → bankCovered s t b = true → v.bank b = s.bank b)) := by
  intro bs
  induction bs with
  | nil => intro s _ _; exact ⟨LeaseFrame.refl s, fun _ _ => rfl, by simp⟩
  | cons c bs ih =>
    intro s hn hd
    have hn' := List.nodup_cons.1 hn
    obtain ⟨f, ob, h1, h2, h3⟩ := windowChangeAt_spec t s c (hd c List.mem_cons_self)
    obtain ⟨F, ob', H⟩ := ih (windowChangeAt t s c) hn'.2 (fun b hb => by
      rw [ob b (fun h => hn'.1 (h ▸ hb))]; exact hd b (List.mem_cons_of_mem _ hb))
    rw [List.foldl_cons]
    refine ⟨f.trans F, fun b hb => ?_, fun b hb => ?_⟩
    · have := not_or.1 (fun k => hb (List.mem_cons.2 k))
      rw [ob' b this.2, ob b this.1]
    · rcases List.mem_cons.1 hb with rfl | hb2
      · rw [ob' _ hn'.1]; exact ⟨h1, h2, h3⟩
      · have hbc : b ≠ c := fun h => hn'.1 (h ▸ hb2)
        obtain ⟨k1, k2, k3⟩ := H b hb2
        have hc : ∀ r m, covered (windowChangeAt t s c) t b r m = covered s t b r m := fun r m => covered_congr f.windows t b r m
        have hbc' : bankCovered (windowChangeAt t s c) t b = bankCovered s t b := by
          unfold bankCovered; rw [ob b hbc]; simp only [hc]
        rw [ob b hbc, hbc'] at k3
        simp only [hc] at k1 k2
        exact ⟨k1, k2, k3⟩

/-! ### A bank at a time -/

/-- Where the port is nothing, nothing changes. -/
theorem windowChangeAt_of_not_involved {p : Port} {b : Bank} {s : State} (h : (s.bank b).involves p = false) : windowChangeAt p s b = s := by
  rw [BankEntry.involves_eq_false_iff] at h
  unfold windowChangeAt
  dsimp only
  have h1 : (s.bank b).isHolder p = false := by simp [BankEntry.isHolder, h.1]
  have h2 : (s.bank b).grantees.find? (fun g => decide (g.port = p)) = none := by simpa using h.2.1
  have h3 : (s.bank b).waiting.find? (fun g => decide (g.port = p)) = none := by simpa using h.2.2
  simp [h1, h2, h3]

/-- A pending grantee is the one its port finds. -/
theorem find_grantee_of_mem {e : BankEntry} (hd : e.portsDistinct = true) {g : Grantee} (hg : g ∈ e.grantees) :
    e.grantees.find? (fun x => decide (x.port = g.port)) = some g := by
  cases hf : e.grantees.find? (fun x => decide (x.port = g.port)) with
  | none => rw [List.find?_eq_none] at hf; exact absurd (by simp) (hf g hg)
  | some k =>
    have hk := List.mem_of_find?_eq_some hf
    have hp : k.port = g.port := by simpa using List.find?_some hf
    simp only [BankEntry.portsDistinct, decide_eq_true_eq, List.nodup_append] at hd
    rw [List.inj_on_of_nodup_map hd.1.2.1 hk hg hp]

/-- A waiting entry is the one its port finds. -/
theorem find_waiter_of_mem {e : BankEntry} (hd : e.portsDistinct = true) {g : Waiter} (hg : g ∈ e.waiting) :
    e.waiting.find? (fun x => decide (x.port = g.port)) = some g := by
  cases hf : e.waiting.find? (fun x => decide (x.port = g.port)) with
  | none => rw [List.find?_eq_none] at hf; exact absurd (by simp) (hf g hg)
  | some k =>
    have hk := List.mem_of_find?_eq_some hf
    have hp : k.port = g.port := by simpa using List.find?_some hf
    rw [portsDistinct_waiter hd hk hg hp]

/-- Who waits or is to be granted does not hold. -/
theorem not_isHolder_of_mem {e : BankEntry} (hd : e.portsDistinct = true) {p : Port} (h : (∃ g ∈ e.grantees, g.port = p) ∨ ∃ w ∈ e.waiting,
    w.port = p) :
    e.isHolder p = false := by
  by_contra hc
  rw [Bool.not_eq_false] at hc
  obtain ⟨h1, h2⟩ := portsDistinct_holder hd hc
  rcases h with ⟨g, hg, e⟩ | ⟨g, hg, e⟩
  · exact h1 g hg e
  · exact h2 g hg e

/-- A waiter: kept if covered, else answered DENIED and withdrawn. -/
theorem windowChangeAt_of_waiter {s : State} {b : Bank} {w : Waiter} (hd : (s.bank b).portsDistinct = true) (hw : w ∈ (s.bank b).waiting) :
    windowChangeAt w.port s b = if covered s w.port b w.row w.mode then
        s else withdrawWaiter b w.port (answer w.port w.tag .denied (bankByte b) 0 []) s := by
  unfold windowChangeAt
  dsimp only
  have h2 : (s.bank b).grantees.find? (fun g => decide (g.port = w.port)) = none := by
    rw [List.find?_eq_none]; intro g hg hc
    exact portsDistinct_grantee hd ⟨g, hg, by simpa using hc⟩ w hw rfl
  rw [not_isHolder_of_mem hd (.inr ⟨w, hw, rfl⟩), h2, find_waiter_of_mem hd hw]
  rfl

/-- A pending grantee: kept if covered, else answered DENIED. -/
theorem windowChangeAt_of_grantee {s : State} {b : Bank} {g : Grantee} (hd : (s.bank b).portsDistinct = true) (hg : g ∈ (s.bank b).grantees) :
    windowChangeAt g.port s b = if bankCovered s g.port b then s else answer g.port g.tag .denied (bankByte b) 0 []
        (s.setBank b { s.bank b with grantees := (s.bank b).grantees.filter (fun x => !decide (x.port = g.port)) }) := by
  unfold windowChangeAt
  dsimp only
  rw [not_isHolder_of_mem hd (.inl ⟨g, hg, rfl⟩), find_grantee_of_mem hd hg]
  rfl

/-- A holder: kept if covered, else revoked. -/
theorem windowChangeAt_of_holder {s : State} {b : Bank} {p : Port} (h : (s.bank b).isHolder p = true) :
    windowChangeAt p s b = if bankCovered s p b then s else revoke b [p] .window s := by
  unfold windowChangeAt
  dsimp only
  rw [if_pos h]

/-- Coverage of a bank that has a row and a mode. -/
theorem bankCovered_eq {s : State} {b p row mode} (h1 : (s.bank b).row = some row) (h2 : (s.bank b).mode = some mode) : bankCovered s p b =
    covered s p b row mode := by
  unfold bankCovered; rw [h1, h2]

/-- A bank that the change at it leaves is left by the change at all banks. -/
theorem windowChanges_keep (t : Port) : ∀ (bs : List Bank) (s : State), bs.Nodup → ∀ b, (∀ k : State, k.bank b = s.bank b → k.windows =
    s.windows → (windowChangeAt t k b).bank b = k.bank b) → (∀ c ∈ bs, (s.bank c).portsDistinct = true) →
   (bs.foldl (windowChangeAt t) s).bank b = s.bank b := by
  intro bs
  induction bs with
  | nil => intros; rfl
  | cons c bs ih =>
    intro s hn b hk hd
    have hn' := List.nodup_cons.1 hn
    obtain ⟨f, ob, _⟩ := windowChangeAt_spec t s c (hd c List.mem_cons_self)
    have hb : (windowChangeAt t s c).bank b = s.bank b := by
      by_cases h : b = c
      · subst h; exact hk s rfl rfl
      · exact ob b h
    rw [List.foldl_cons, ih _ hn'.2 b, hb]
    · intro k h1 h2; exact hk k (h1.trans hb) (h2.trans f.windows)
    · intro d hd'; rw [ob d (fun h => hn'.1 (h ▸ hd'))]; exact hd d (List.mem_cons_of_mem _ hd')

end Sys2Proof.Machine
end

