-- ==== Sys2Proof/Tests/Slice0.lean ====
section
/-!
SUPPORT. The model's own tests: the well-formedness check, packets whose bytes are written out from spec/11, single steps, and for every
statement that has hypotheses a concrete state that meets them (`test_meets_<statement>`), clause by clause at the edges of its ranges.
-/

-- One theorem at a time, so that the file needs no more threads than the check's memory limit allows.
set_option Elab.async false
namespace Sys2Proof.Machine.Tests

/-! ### Small states -/

/-- The part after reset with a port attached in its first session. -/
def attach (p : Port) (s : State) : State := modPort p (fun q => { q with link := .up, session := .attached, epoch := 1 }) s

/-- P0 and P1 attached. -/
def on : State := attach .p1 (attach .p0 State.reset)

/-- P0 has `n` requests in flight, with the tags from 32 on. -/
def busy (n : Nat) (s : State) : State := modPort .p0 (fun q => { q with inFlight := (List.range n).map (fun i => BitVec.ofNat 6 (32 + i)) }) s

/-- A bank OPEN on row 5 with these holders, each with grant tag 1. -/
def opened (b : Bank) (mode : Mode) (ps : List Port) (s : State) : State :=
  modBank b (fun e => { e with
    state := .opened, row := some 5, mode := some mode
    holders := ps.foldl (fun h p => h.set p (some 1)) (PerPort.const none) }) s

/-- A waiting entry of row `row`. -/
def waiter (p : Port) (row : Row) (mode : Mode) : Waiter := { port := p, tag := 2, row := row, mode := mode, deadline := us 100 }

/-- An entry joins a bank's waiting list. -/
def waits (b : Bank) (w : Waiter) (s : State) : State := refreshContention b (modBank b (fun e => { e with waiting := e.waiting ++ [w] }) s)

/-- A set's balance. -/
def owes (x : BankSet) (n : Int) (s : State) : State := modAccount x (fun c => { c with balance := n }) s

/-- A port holds the claim. -/
def claimed (p : Port) (s : State) : State := { s with claim := some { holder := p, expires := ms 10 } }

/-- The state in which P0's request of tag 3 goes through the gate when it arrives at `s` at time 0; `State.reset` where it does not. -/
def gateState (body : Body) (lines : List StagedLine) (s : State) : State := (atDispatch 0 .p0 ⟨3, body⟩ lines s).getD State.reset

/-- P0's request of tag 3 goes through the gate in its arrival event, at a port that is ATTACHED. -/
abbrev Reaches (body : Body) (lines : List StagedLine) (s : State) : Prop :=
  atDispatch 0 .p0 ⟨3, body⟩ lines s = some (gateState body lines s) ∧ ((gateState body lines s).port .p0).session = .attached

/-- A request is dispatched where `atDispatch` names a state. -/
theorem reaches {body : Body} {lines : List StagedLine} {s : State} (h : (atDispatch 0 .p0 ⟨3, body⟩ lines s).isSome = true)
    (k : ((gateState body lines s).port .p0).session = .attached) : Reaches body lines s := by
  refine ⟨?_, k⟩
  unfold gateState
  cases hd : atDispatch 0 .p0 ⟨3, body⟩ lines s with
  | none => rw [hd] at h; cases h
  | some u => rfl

/-- An unmasked line of zeros with a check. -/
def line (check : BitVec 16) : StagedLine := { data := List.replicate 64 0, mask := none, check := check }

/-- The check of 64 zeros. -/
def good : BitVec 16 := lineCheck (List.replicate 64 0)

/-- The bytes of that line. -/
def lineBytes (check : BitVec 16) : List Byte := List.replicate 64 0 ++ [check.extractLsb' 8 8, check.extractLsb' 0 8]

/-- A transfer of P0 on B0. -/
def xfer (dir : Direction) : Xfer := { bank := .b0, port := .p0, tag := 3, dir := dir, first := 31, count := 1 }

/-- The path carries an operation that completes at 50 ns. -/
def runs (op : Operation) (s : State) : State := { s with path := some { op := op, completes := ns 50 } }

/-! ### Well-formedness -/

theorem test_wellFormed_write : (Instr.writeLines 0 .p0 0 .b0 false 0 0 (lineBytes 0)).wellFormed = true := by decide +kernel
theorem test_illFormed_write_short : (Instr.writeLines 0 .p0 0 .b0 false 0 0 []).wellFormed = false := by decide
theorem test_illFormed_write_maskless : (Instr.writeLines 0 .p0 0 .b0 true 0 0 (lineBytes 0)).wellFormed = false := by decide +kernel
theorem test_illFormed_getSetting_window : (Instr.getSetting 0 .p0 0 0 0x10).wellFormed = false := by decide
theorem test_wellFormed_getSetting : (Instr.getSetting 0 .p0 0 0 0x0F).wellFormed = true := by decide

/-! ### Packets of spec/11 -/

theorem test_packet_open : decodePacket [0x03, 0x09, 0x0D, 0x01, 0x2C, 0x00, 0x00, 0xA2] = .request ⟨9, .openRow .b5 300 .write⟩ [] := by
  decide +kernel
theorem test_packet_badCheck : decodePacket [0x03, 0x09, 0x0D, 0x01, 0x2C, 0x00, 0x00, 0xA3] = .damaged := by decide +kernel
theorem test_packet_short : decodePacket [0x03, 0x09, 0x0D, 0x01, 0x2C, 0x00, 0x00] = .damaged := by decide +kernel
theorem test_packet_write_wrongLength :
    decodePacket (closeHeader [0x07, 0x15, 0x16, 0x00, 0x00, 0x7C, 0x00] ++ List.replicate 264 0)
      = .request ⟨21, .writeLines .b6 true 28 0⟩ [] := by decide +kernel
theorem test_packet_noKind : decodePacket (closeHeader [0x10, 0x47, 0, 0, 0, 0, 0]) = .noKind 7 := by decide +kernel
theorem test_packet_read :
    decodePacket (closeHeader [0x06, 0x02, 0x07, 0x00, 0x00, 0xFF, 0x00]) = .request ⟨2, .readLines .b7 31 8⟩ [] := by decide +kernel
theorem test_packet_set :
    decodePacket (closeHeader [0x0C, 0x02, 0x03, 0x00, 0x00, 0x00, 0x01] ++ [0, 0, 1, 8])
      = .request ⟨2, .setSetting 3 1 (some 264)⟩ [] := by decide +kernel
theorem test_packet_set_malformed :
    decodePacket (closeHeader [0x0C, 0x02, 0x03, 0x00, 0x00, 0x00, 0x01] ++ [0, 0, 1]) = .request ⟨2, .setSetting 3 1 none⟩ [] := by decide +kernel
theorem test_packet_window :
    decodePacket (closeHeader [0x0E, 0x02, 0x01, 0, 0, 0, 0x02] ++ [0x01, 0x02, 0x05, 0x01, 0x00, 0x40, 0x00, 0x7F])
      = .request ⟨2, .window 1 2 (some ⟨true, 2, 5, 1, 64, 127⟩)⟩ [] := by decide +kernel
theorem test_packet_clearRetention : decodePacket (closeHeader [0x0F, 0x02, 0x20, 0, 0, 0, 0]) = .request ⟨2, .clearFaults 1⟩ [] := by
  decide +kernel
theorem test_notice_bytes :
    (Packet.notice (.fault .header 4 true) 3).bytes.take 7 = [0x03, 0xFF, 0x03, 0x03, 0x03, 0x84, 0x00] := by decide +kernel

/-! ### Single steps -/

/-- The state a step ends in. -/
def after (s : State) (c : Instr) : State :=
  match step { s with pending := [c] } with
  | .next t => t
  | _ => State.reset

theorem test_step_open_starts :
    (after on (.openRow 0 .p0 3 .b2 5 .write)).path = some { op := .openRow .b2 5, completes := ns 20 } := by decide +kernel
theorem test_step_open_completes :
    (after (after on (.openRow 0 .p0 3 .b2 5 .write)) .openCompletion).port .p0
      = { on.port .p0 with outbox := [.response 3 .granted 1 2 1 []] } := by decide +kernel
theorem test_step_attach :
    ((after (modPort .p0 (fun q => { q with link := .up }) State.reset) (.attach 7 .p0 3)).port .p0).outbox = [.response 3 .ok 1 0 0 []] := by
  decide +kernel
theorem test_step_tick : ((after on (.tick .a)).account .a) =
    { balance := 1, sweep := 0, nextTick := ns 12800, lossFlag := false, mark := .opportunistic, contents := 0 } := by decide +kernel
theorem test_step_tick_starts_step : (after on (.tick .a)).path = some { op := .step .a 0 false, completes := ns 6640 } := by decide +kernel
theorem test_step_sample : (after on (.thermalSample 90)).band = .hot := by decide +kernel
theorem test_step_retained : (after (modPort .p1 (fun q => { q with vote := true }) on) (.hold 0 .p0 3)).retention = .retained := by
  decide +kernel
theorem test_step_status : ((after on (.statusClaim 0 .p0 3)).port .p0).outbox = [.response 3 .report 1 5 0 [0xFF, 0, 0, 0, 0, 0, 0, 0]] := by
  decide +kernel
theorem test_step_get : ((after on (.getSetting 0 .p0 3 0 5)).port .p0).outbox = [.response 3 .ok 1 5 0 [0, 0, 0, 4]] := by decide +kernel
theorem test_step_warmReset : ((after on (.warmReset 5)).port .p0) = { PortState.powerOn with epoch := 1 } := by decide +kernel

/-! ### What the statements assume is met -/

theorem test_meets_StepRunsFrontCommand :
    ({ on with pending := [.openCompletion] } : State).pending = .openCompletion :: [] ∧ on.pending = [] := ⟨rfl, rfl⟩

/-- P0 has a STATUS waiting. -/
def queued (s : State) : State := modPort .p0 (fun q => { q with inFlight := [3], ingress := [⟨3, .status 1⟩] }) s

/-- The part is in RETAINED: both ports have voted. -/
def retained : State :=
  { modPort .p0 (fun q => { q with vote := true }) (modPort .p1 (fun q => { q with vote := true }) on) with retention := .retained }

/-- The part has entered at time 0, on an IDLE path. -/
def justRetained : State := { retained with entered := some 0 }

/-- The part wakes until 2 µs. -/
def waking : State := { retained with retention := .waking (us 2) }

/-- The part waits in ENTERING for the STEP in progress. -/
def entering : State := { runs (.step .a 0 false) retained with retention := .entering }

/-- P0 takes the packet of this request and admits it. -/
abbrev Taken (s : State) (body : Body) : Prop :=
  (s.port .p0).link = .up ∧ (s.port .p0).session ≠ .detaching ∧ Admissible s .p0 ⟨3, body⟩

/-- The tests of `Taken`, as the admission makes them. -/
theorem taken {s : State} {body : Body} (h : takesPackets s .p0 && (admissionRefusal s .p0 ⟨3, body⟩).isNone) : Taken s body := by
  simp only [Bool.and_eq_true, Option.isNone_iff_eq_none, takesPackets, decide_eq_true_eq] at h
  refine ⟨h.1.1, h.1.2, ?_⟩
  have k := h.2
  unfold admissionRefusal at k
  split_ifs at k with h1 h2 h3
  exact ⟨h1, Nat.lt_of_not_le h2, by simpa using h3⟩

theorem test_meets_RequestReachesItsOwner :
    (Taken on .hold ∧ on.retention = .active ∧ (on.port .p0).ingress = []) ∧ (Taken entering .hold ∧ entering.retention = .entering)
    ∧ (Taken retained (.status 1) ∧ retained.retention = .retained ∧ wakeCause retained .p0 (.status 1) = false
        ∧ (retained.port .p0).ingress = [])
    ∧ (Taken justRetained .claim ∧ justRetained.retention = .retained ∧ justRetained.entered = some (max justRetained.now 0)
        ∧ retained.entered ≠ some (max retained.now 0) ∧ justRetained.entered ≠ some (max justRetained.now 1)
        ∧ ((queued justRetained).port .p0).ingress ≠ [])
    ∧ (Taken waking (.status 1) ∧ waking.retention = .waking (us 2))
    ∧ ((queued on).retention = .active ∧ ((queued on).port .p0).ingress ≠ []) ∧ wakeCause retained .p0 .claim = true
    ∧ (∀ item, Body.claim ≠ .status item) ∧ ¬Taken State.reset .hold
    ∧ (hasRoom (busy 15 on) .p0 ⟨3, .hold⟩ = true ∧ Taken (busy 15 on) .hold) :=
  ⟨⟨taken (by decide +kernel), rfl, rfl⟩, ⟨taken (by decide +kernel), rfl⟩, ⟨taken (by decide +kernel), rfl, rfl, rfl⟩,
    ⟨taken (by decide +kernel), rfl, rfl, by decide +kernel, by decide +kernel, by decide +kernel⟩, ⟨taken (by decide +kernel), rfl⟩, ⟨rfl, by decide +kernel⟩, by decide +kernel,
    fun _ h => (by cases h), fun h => absurd h.1 (by decide +kernel), rfl, taken (by decide +kernel)⟩

/-- `n` lines of a port are staged. -/
def stages (p : Port) (n : Nat) (s : State) : State :=
  { s with staging := s.staging ++ [{ port := p, tag := 1, guarded := true, lines := List.replicate n (line 0) }] }

theorem test_room_for_a_write :
    hasRoom (stages .p0 8 on) .p0 ⟨3, .writeLines .b0 false 0 8⟩ = true ∧ hasRoom (stages .p0 9 on) .p0 ⟨3, .writeLines .b0 false 0 8⟩ = false
    ∧ hasRoom (stages .p2 8 (stages .p1 16 on)) .p0 ⟨3, .writeLines .b0 false 0 8⟩ = true
    ∧ hasRoom (stages .p2 9 (stages .p1 16 on)) .p0 ⟨3, .writeLines .b0 false 0 8⟩ = false := by decide +kernel

theorem test_wake_causes :
    wakeCause on .p0 .claim = true ∧ wakeCause on .p0 .hold = false ∧ wakeCause on .p0 (.status 0) = false ∧ wakeCause on .p0 .detach = false
    ∧ wakeCause on .p2 .attach = true ∧ wakeCause on .p2 .claim = false ∧ (on.port .p2).session = .detached := by decide +kernel

theorem test_meets_PacketsSpellCommands : requestPacket (.hold 0 .p0 3) = some (0, .p0, requestHeader 0x08 3 0 0 0 0) := by decide +kernel

/-- The packet of a request with tag 3, by its kind byte and selector. -/
def packet (kind selector : Byte) : List Byte := requestHeader kind 3 0 0 0 selector

theorem test_meets_PacketAdmitted :
    decodePacket (packet 0x08 0) = .request ⟨3, .hold⟩ [] ∧ decodePacket (packet 0x09 1) = .request ⟨3, .status 1⟩ []
    ∧ decodePacket (packet 0x0A 0) = .request ⟨3, .claim⟩ []
    ∧ wakeCause on .p0 .hold = false ∧ wakeCause on .p0 .claim = true ∧ wakeCause entering .p0 .claim = true
    ∧ wakeCause retained .p0 .hold = false ∧ wakeCause retained .p0 .claim = true
    ∧ (on.port .p0).ingress = [] ∧ ((queued on).port .p0).ingress ≠ [] ∧ (retained.port .p0).ingress = []
    ∧ ({ retained with settings := { on.settings with quickWake := true } } : State).settings.quickWake = true
    ∧ retained.settings.quickWake = false
    ∧ (runs (.step .a 0 false) retained).path = some { op := .step .a 0 false, completes := ns 50 } ∧ retained.path = none := by decide +kernel

/-- P0 has a STATUS of another tag waiting. -/
def behind (s : State) : State := modPort .p0 (fun q => { q with inFlight := [4], ingress := [⟨4, .status 1⟩] }) s

theorem test_meets_PacketAdmitted_states :
    (Taken on .hold ∧ on.retention = .active) ∧ (Taken (behind on) .hold ∧ (behind on).retention = .active)
    ∧ (Taken entering .claim ∧ entering.retention = .entering)
    ∧ (Taken waking (.status 1) ∧ Taken waking .claim ∧ Taken (behind waking) .claim ∧ (behind waking).retention = .waking (us 2))
    ∧ (Taken retained .hold ∧ Taken retained .claim ∧ retained.retention = .retained)
    ∧ (Taken { runs (.step .a 0 false) retained with settings := { on.settings with quickWake := true } } .claim) :=
  ⟨⟨taken (by decide +kernel), rfl⟩, ⟨taken (by decide +kernel), rfl⟩, ⟨taken (by decide +kernel), rfl⟩,
    ⟨taken (by decide +kernel), taken (by decide +kernel), taken (by decide +kernel), rfl⟩,
    ⟨taken (by decide +kernel), taken (by decide +kernel), rfl⟩, taken (by decide +kernel)⟩

/-- P0's HOLD at 1 µs is the last vote; a wake cause at the same time finds the part as in ENTERING, and a later one wakes it (R109, R112). -/
def entersAt1 : State := after (modPort .p1 (fun q => { q with vote := true }) on) (.hold (us 1) .p0 3)

theorem test_step_entry_and_wake_cause_together :
    entersAt1.retention = .retained ∧ entersAt1.entered = some (us 1)
    ∧ (after entersAt1 (.claim (us 1) .p1 4)).retention = .active
    ∧ ((after entersAt1 (.claim (us 1) .p1 4)).port .p1).outbox = [.response 4 .ok 1 0 0 []]
    ∧ (after entersAt1 (.claim (us 1 + 1) .p1 4)).retention = .waking (us 3 + 1)
    ∧ (after (after entersAt1 (.statusPorts (us 1) .p0 5)) (.claim (us 1) .p1 4)).retention = .active := by decide +kernel

/-- P0, the last ATTACHED port, detaches at 1 µs with AUTO-RETAIN on. -/
def leftAt1 : State := after { attach .p0 State.reset with settings := { on.settings with autoRetain := true } } (.detach (us 1) .p0 3)

theorem test_step_entry_and_attach_together :
    leftAt1.retention = .retained ∧ leftAt1.entered = some (us 1)
    ∧ (after leftAt1 (.attach (us 1) .p0 4)).retention = .active
    ∧ ((after leftAt1 (.attach (us 1) .p0 4)).port .p0).session = .attached
    ∧ (after leftAt1 (.attach (us 2) .p0 4)).retention = .waking (us 4) := by decide +kernel

/-- P0's refusal slots hold `n` refusals. -/
def refusals (n : Nat) (s : State) : State := modPort .p0 (fun q => { q with outbox := List.replicate n (.refusal 9 .full 1) }) s

theorem test_meets_PacketNotAdmitted :
    (State.reset.port .p0).link = .down ∧ ((modPort .p0 (fun q => { q with session := .detaching }) on).port .p0).session = .detaching
    ∧ decodePacket [] = .damaged ∧ decodePacket (packet 0x00 0) = .noKind 3 ∧ decodePacket (packet 0x10 0) = .noKind 3
    ∧ ((refusals 3 on).port .p0).slotsTaken < 4 ∧ 4 ≤ ((refusals 4 on).port .p0).slotsTaken
    ∧ (32 : Tag) ∈ ((busy 1 on).port .p0).inFlight ∧ 16 ≤ ((busy 16 on).port .p0).placesTaken
    ∧ hasRoom (stages .p0 9 on) .p0 ⟨3, .writeLines .b0 false 0 8⟩ = false := by decide +kernel

/-- P0 has `n` fault records. -/
def faulty (n : Nat) (mark : Bool) (s : State) : State :=
  modPort .p0 (fun q => { q with faults := List.replicate n (FaultRecord.bare .header), overflow := mark }) s

theorem test_meets_FaultsAndNoticesAreTaken :
    (State.reset.port .p0).session ≠ .attached ∧ ((faulty 3 false on).port .p0).faults.length < 4
    ∧ ((faulty 4 false on).port .p0).overflow = false ∧ ((faulty 4 true on).port .p0).faults.length = 4
    ∧ ((faulty 4 true on).port .p0).overflow = true
    ∧ noticesDistinct [.claimLost, .revoked .b0 .window, .revoked .b1 .window] = true
    ∧ Notice.sameMatter (.revoked .b0 .refresh) (.revoked .b0 .window) = true
    ∧ Notice.sameMatter (.revoked .b2 .refresh) (.revoked .b0 .window) = false := by decide +kernel

/-- P0's link is UP and P0 is DETACHED. -/
def linked : State := modPort .p0 (fun q => { q with link := .up }) State.reset

theorem test_meets_SessionGateAndAttach :
    (atDispatch 0 .p0 ⟨3, .hold⟩ [] linked = some (gateState .hold [] linked) ∧ ((gateState .hold [] linked).port .p0).session = .detached)
    ∧ (atDispatch 0 .p0 ⟨3, .attach⟩ [] linked = some (gateState .attach [] linked)
        ∧ ((gateState .attach [] linked).port .p0).session = .detached)
    ∧ Reaches .attach [] on := by decide +kernel

theorem test_meets_DetachCleansUp :
    Reaches .detach [] on ∧ pathXferFor (gateState .detach [] on) .p0 = false
    ∧ Reaches .detach [] (runs (.xfer (xfer .read) []) on)
    ∧ pathXferFor (gateState .detach [] (runs (.xfer (xfer .read) []) on)) .p0 = true := by decide +kernel

/-- The entry of B0 is sound. -/
abbrev Sound (s : State) : Prop := (s.bank .b0).shapeGood = true ∧ (s.bank .b0).portsDistinct = true

/-- B0 opens row 5 for P0, and the OPEN is on the path. -/
def opening (s : State) : State :=
  runs (.openRow .b0 5) (modBank .b0 (fun e => { e with
    state := .opening, row := some 5, mode := some .write, grantees := [{ port := .p0, tag := 3, carried := us 100 }] }) s)

/-- B0 drains from row 5. -/
def drains (s : State) : State := modBank .b0 (fun e => { e with state := .draining, row := some 5 }) s

theorem test_meets_CleanupLeavesNothing :
    (Sound (opened .b0 .read [.p0, .p1] on) ∧ ((opened .b0 .read [.p0, .p1] on).bank .b0).isHolder .p0 = true
      ∧ ((opened .b0 .read [.p0, .p1] on).bank .b0).holders.set .p0 none ≠ PerPort.const none)
    ∧ (Sound (opened .b0 .read [.p0] on) ∧ ((opened .b0 .read [.p0] on).bank .b0).isHolder .p0 = true
      ∧ ((opened .b0 .read [.p0] on).bank .b0).holders.set .p0 none = PerPort.const none)
    ∧ (Sound (opening on) ∧ ((opening on).bank .b0).isGrantee .p0 = true)
    ∧ (Sound (waits .b0 (waiter .p0 5 .read) (drains on)) ∧ ((waits .b0 (waiter .p0 5 .read) (drains on)).bank .b0).state = .draining)
    ∧ (Sound (waits .b0 (waiter .p1 6 .read) (waits .b0 (waiter .p0 5 .read) on))
      ∧ ((waits .b0 (waiter .p0 5 .read) on).bank .b0).isWaiter .p0 = true ∧ (on.bank .b0).state ≠ .draining
      ∧ ((waits .b0 (waiter .p1 6 .read) (waits .b0 (waiter .p0 5 .read) on)).bank .b0).isHead .p0 = true
      ∧ ((waits .b0 (waiter .p0 6 .read) (waits .b0 (waiter .p1 5 .read) on)).bank .b0).isHead .p0 = false)
    ∧ (Sound on ∧ (on.bank .b0).involves .p0 = false) ∧ (claimed .p1 on).claim = some { holder := .p1, expires := ms 10 } := by
  decide +kernel

theorem test_meets_LinkChanges :
    (State.reset.port .p0).link = .down ∧ (on.port .p0).link = .up ∧ (on.port .p0).session = .attached
    ∧ ((modPort .p0 (fun q => { q with session := .detaching }) on).port .p0).session = .detaching
    ∧ (linked.port .p0).link = .up ∧ (linked.port .p0).session = .detached
    ∧ on.resetCloses = false ∧ ({ on with resetCloses := true } : State).resetCloses = true := by decide +kernel

theorem test_meets_EgressSends :
    (on.port .p0).link = .up ∧ (on.port .p0).paused = false ∧ (on.port .p0).sending = none ∧ (on.port .p0).notices = []
    ∧ ((refusals 1 on).port .p0).outbox = [.refusal 9 .full 1]
    ∧ ((raiseNotice .p0 .claimLost on).port .p0).notices = [.claimLost] ∧ (State.reset.port .p0).link = .down
    ∧ ((modPort .p0 (fun q => { q with sending := some (.answer (.refusal 9 .full 1)) }) on).port .p0).slotsTaken = 1
    ∧ ((modPort .p0 (fun q => { q with sending := some (.answer (.response 9 .ok 1 0 0 [])) }) on).port .p0).placesTaken = 1 := by
  decide +kernel

theorem test_meets_HeadGroup :
    headGroup [waiter .p0 5 .read, waiter .p1 5 .read, waiter .p2 6 .read] = [waiter .p0 5 .read, waiter .p1 5 .read]
    ∧ headGroup [waiter .p0 5 .write, waiter .p1 5 .write] = [waiter .p0 5 .write]
    ∧ (([waiter .p0 5 .read, waiter .p1 5 .read, waiter .p2 5 .read, waiter .p3 5 .read] : List Waiter).map (·.port)).Nodup := by decide +kernel

/-- P0's LEASE-LIMIT. -/
def limit (n : Nat) (s : State) : State := { s with settings := { s.settings with leaseLimit := s.settings.leaseLimit.set .p0 n } }

/-- What the checks of an OPEN read. -/
def openChecks (b : Bank) (row : Row) (mode : Mode) (s : State) : Bool × Bool × Nat × Nat :=
  let u := gateState (.openRow b row mode) [] s
  (covered u .p0 b row mode, (u.bank b).involves .p0, leaseCount u .p0, u.settings.leaseLimit.get .p0)

/-- P0's only window is READ. -/
def readWindow (s : State) : State :=
  let w : Window := { firstBank := 0, lastBank := 7, firstRow := 0, lastRow := 8191, write := false }
  { s with windows := s.windows.set .p0 { w0 := some w, w1 := none, w2 := none, w3 := none } }

theorem test_meets_OpenRefused :
    Reaches (.openRow .b0 5 .write) [] (readWindow on) ∧ openChecks .b0 5 .write (readWindow on) = (false, false, 0, 4)
    ∧ Reaches (.openRow .b0 5 .read) [] (opened .b0 .read [.p0] on) ∧ openChecks .b0 5 .read (opened .b0 .read [.p0] on) = (true, true, 1, 4)
    ∧ Reaches (.openRow .b0 5 .read) [] (limit 1 (opened .b1 .read [.p0] on))
    ∧ openChecks .b0 5 .read (limit 1 (opened .b1 .read [.p0] on)) = (true, false, 1, 1) := by decide +kernel

theorem test_meets_OpenGrantedOrJoins :
    Reaches (.openRow .b0 8191 .write) [] (limit 2 (opened .b1 .read [.p0] on))
    ∧ openChecks .b0 8191 .write (limit 2 (opened .b1 .read [.p0] on)) = (true, false, 1, 2)
    ∧ pressure (owes .a 3 on) .a = false
    ∧ Reaches (.openRow .b0 5 .read) [] (opened .b0 .read [.p1] on) ∧ openChecks .b0 5 .read (opened .b0 .read [.p1] on) = (true, false, 0, 4)
    ∧ ((opened .b0 .read [.p1] on).bank .b0).mode = some .read ∧ ((opened .b0 .read [.p1] on).bank .b0).waiting = []
    ∧ openChecks .b0 5 .read (modBank .b0 (fun e => { e with state := .opening }) (opened .b0 .read [] on)) = (true, false, 0, 4) := by
  decide +kernel

theorem test_meets_OpenWaits :
    Reaches (.openRow .b0 5 .write) [] (opened .b0 .write [.p1] on) ∧ openChecks .b0 5 .write (opened .b0 .write [.p1] on) = (true, false, 0, 4)
    ∧ Reaches (.openRow .b0 5 .read) [] (waits .b0 (waiter .p1 6 .read) on)
    ∧ openChecks .b0 5 .read (waits .b0 (waiter .p1 6 .read) on) = (true, false, 0, 4)
    ∧ pressure (owes .a 4 on) .a = true ∧ openChecks .b0 5 .read (owes .a 4 on) = (true, false, 0, 4)
    ∧ openChecks .b0 5 .read (modBank .b0 (fun e => { e with state := .draining }) on) = (true, false, 0, 4)
    ∧ openChecks .b0 5 .read (modBank .b0 (fun e => { e with state := .closing }) on) = (true, false, 0, 4)
    ∧ openChecks .b0 5 .read (modBank .b0 (fun e => { e with state := .refreshing }) on) = (true, false, 0, 4)
    ∧ openChecks .b0 6 .read (modBank .b0 (fun e => { e with state := .opening }) (opened .b0 .read [] on)) = (true, false, 0, 4) := by
  decide +kernel

theorem test_meets_ReleaseEndsTheLease :
    Reaches (.release .b0) [] on ∧ holdsLease (gateState (.release .b0) [] on) .p0 .b0 = false
    ∧ Reaches (.release .b0) [] (opened .b0 .read [.p0, .p1] on)
    ∧ ((opened .b0 .read [.p0, .p1] on).bank .b0).holders.set .p0 none ≠ PerPort.const none
    ∧ ((opened .b0 .read [.p0] on).bank .b0).holders.set .p0 none = PerPort.const none
    ∧ pendingTransfers (opened .b0 .read [.p0] on) .b0 = 0
    ∧ pendingTransfers (runs (.xfer (xfer .read) []) (opened .b0 .read [.p0] on)) .b0 = 1 := by decide +kernel

theorem test_meets_SettleKeepsTheRowOrCloses :
    ((waits .b0 (waiter .p1 5 .read) (drains on)).bank .b0).waiting = [waiter .p1 5 .read]
    ∧ ((waits .b0 (waiter .p1 5 .read) (drains on)).bank .b0).contention = none
    ∧ pendingTransfers (drains on) .b0 = 0 ∧ pressure (drains on) .a = false
    ∧ pendingTransfers (runs (.xfer (xfer .read) []) (drains on)) .b0 ≠ 0
    ∧ ((drains on).bank .b0).waiting = [] ∧ pressure (owes .a 4 (drains on)) .a = true
    ∧ ((waits .b0 (waiter .p1 6 .read) (drains on)).bank .b0).row ≠ some 6 := by decide +kernel

theorem test_meets_ServeRule :
    (on.bank .b0).waiting = [] ∧ ((drains on).bank .b0).state ≠ .closed ∧ ((drains on).bank .b0).state ≠ .opened
    ∧ ((waits .b0 (waiter .p1 5 .write) on).bank .b0).waiting = [waiter .p1 5 .write]
    ∧ ((waits .b0 (waiter .p1 5 .read) (opened .b0 .read [.p0] on)).bank .b0).contention ≠ none
    ∧ ((waits .b0 (waiter .p1 6 .read) (opened .b0 .read [.p0] on)).bank .b0).row ≠ some 6 := by decide +kernel

theorem test_meets_CancelByWhereTheTagIs :
    Reaches (.cancel 0x40) [] on ∧ (0x3F : Byte) = (63 : Tag).setWidth 8 ∧ Reaches (.cancel 2) [] (waits .b0 (waiter .p0 5 .read) on)
    ∧ waiter .p0 5 .read ∈ ((waits .b0 (waiter .p0 5 .read) on).bank .b0).waiting
    ∧ ((opened .b0 .read [.p0] on).bank .b0).holders.get .p0 = some 1
    ∧ Reaches (.cancel 1) [] (opened .b0 .read [.p0] on) ∧ Reaches (.cancel 0x3F) [] on := by decide +kernel

theorem test_meets_WaitDeadlineExpiry :
    ((waits .b0 (waiter .p1 5 .read) on).bank .b0).waiting = [] ++ waiter .p1 5 .read :: [] ∧ (waiter .p1 5 .read).port = .p1
    ∧ (on.bank .b0).waiting = []
    ∧ ((waits .b0 (waiter .p1 6 .read) (opened .b0 .read [.p0] on)).bank .b0).contention ≠ none
    ∧ ((opened .b0 .read [.p0] on).bank .b0).contention = none := by decide +kernel

theorem test_meets_ContentionDeadlineExpiry :
    (on.bank .b0).contention = none
    ∧ ((waits .b0 (waiter .p1 6 .read) (opened .b0 .read [.p0] on)).bank .b0).contention = some (us 50)
    ∧ ((waits .b0 (waiter .p1 6 .read) (opened .b0 .read [.p0] on)).bank .b0).state = .opened := by decide +kernel

theorem test_meets_ReadPlacesOneTransfer :
    Reaches (.readLines .b0 31 2) [] on ∧ Reaches (.readLines .b0 31 1) [] on
    ∧ holdsLease (gateState (.readLines .b0 31 1) [] on) .p0 .b0 = false
    ∧ Reaches (.readLines .b0 31 1) [] (opened .b0 .read [.p0] on)
    ∧ holdsLease (gateState (.readLines .b0 31 1) [] (opened .b0 .read [.p0] on)) .p0 .b0 = true := by decide +kernel

/-- A WRITE of one line at line `first` of B0, as its packet gives it. -/
def writing (first : BitVec 5) (payload : List Byte) : Body × List StagedLine := writeBody .b0 false first 0 payload

theorem test_meets_WriteRefused :
    Reaches (writing 0 []).1 (writing 0 []).2 on
    ∧ (lineBytes good).length = writePayloadLength false 0 ∧ (31 : BitVec 5).toNat + 1 = 32
    ∧ Reaches (writing 31 (lineBytes good)).1 (writing 31 (lineBytes good)).2 on
    ∧ holdsLease (opened .b0 .read [.p0] on) .p0 .b0 = true ∧ ((opened .b0 .read [.p0] on).bank .b0).mode ≠ some .write :=
  ⟨reaches (by decide +kernel) (by decide +kernel), by decide +kernel, by decide +kernel, reaches (by decide +kernel) (by decide +kernel),
    by decide +kernel, by decide +kernel⟩

/-- The state at the gate of a WRITE of one line by the holder of a WRITE lease. -/
def writeGate (check : BitVec 16) (guarded : Bool) : State :=
  let s := opened .b0 .write [.p0] on
  gateState (writing 31 (lineBytes check)).1 (writing 31 (lineBytes check)).2
    { s with settings := { s.settings with guarded := PerPort.const guarded } }

/-- The line that payload stages. -/
def staged (check : BitVec 16) : List StagedLine := payloadLines false 1 (lineBytes check)

theorem test_staged (check : BitVec 16) : staged check = [line check] := by
  have h : (check.extractLsb' 8 8 ++ check.extractLsb' 0 8 : BitVec 16) = check := by
    ext i hi
    rw [BitVec.getElem_append]
    split
    · simp [BitVec.getLsbD_eq_getElem hi]
    · have e : 8 + (i - 8) = i := by omega
      simp [e, BitVec.getLsbD_eq_getElem hi]
  simp [staged, payloadLines, lineBytes, line, h]

theorem test_line_good : (line good).good = true := by simp [StagedLine.good, line, good]

theorem test_line_bad : (line (~~~good)).good = false := by
  have h : (line (~~~good)).good = (good == ~~~good) := by simp [StagedLine.good, line, good]
  rw [h]
  generalize good = c
  rw [beq_eq_false_iff_ne]
  intro e
  have k := congrArg (fun x : BitVec 16 => x.getLsbD 0) e
  simp at k

theorem test_meets_WriteChecked :
    (writeGate good true).staging = [{ port := .p0, tag := 3, guarded := true, lines := staged good }]
    ∧ (writeGate (~~~good) true).staging = [{ port := .p0, tag := 3, guarded := true, lines := staged (~~~good) }]
    ∧ (writeGate (~~~good) false).staging = [{ port := .p0, tag := 3, guarded := false, lines := staged (~~~good) }]
    ∧ holdsLease (writeGate good true) .p0 .b0 = true ∧ ((writeGate good true).bank .b0).mode = some .write
    ∧ ((writeGate good true).port .p0).session = .attached := ⟨rfl, rfl, rfl, rfl, rfl, rfl⟩

/-- B0 has row 5 open in the array and a transfer of P0 runs on it. -/
def transfers (dir : Direction) (lines : List StagedLine) (s : State) : State :=
  { runs (.xfer (xfer dir) lines) s with openRows := s.openRows.set .b0 (some 5) }

theorem test_meets_TransferCompletes :
    (transfers .read [] on).path = some { op := .xfer (xfer .read) [], completes := ns 50 } ∧ (xfer .read).dir = .read
    ∧ (transfers .read [] on).openRows.get (xfer .read).bank = some 5
    ∧ (xfer (.write .p0 3 true)).dir = .write .p0 3 true
    ∧ (on.port .p0).session = .attached ∧ (linked.port .p0).session = .detached
    ∧ ((modPort .p0 (fun q => { q with session := .detaching, detachTag := some 3 }) on).port .p0).detachTag = some 3
    ∧ (linked.port .p0).detachTag = none := by decide +kernel

theorem test_meets_LinesInTheArray :
    arrayGood on = true ∧ 31 + [line good].length ≤ 32 ∧ (line good).data.length = 64 ∧ (on.account .a).lossFlag = false
    ∧ (List.replicate 64 (0 : Byte)).length = 64 ∧ (List.replicate 8 (0 : Byte)).length = 8
    ∧ ({ line good with mask := some [0, 0, 0, 0, 0, 0, 0, 0x80] } : StagedLine).writes 63 = true
    ∧ (line good).writes 63 = true ∧ ({ line good with mask := some (List.replicate 8 0) } : StagedLine).writes 63 = false := by decide +kernel

theorem test_meets_HoldAndStatus :
    Reaches .hold [] on ∧ ((gateState .hold [] on).port .p0).vote = true ∧ (on.port .p0).vote = false
    ∧ Reaches (.status 1) [] on ∧ Reaches (.status 2) [] on ∧ Reaches (.status 3) [] on ∧ Reaches (.status 4) [] on
    ∧ Reaches (.status 5) [] on := by decide +kernel

theorem test_meets_ClaimAndUnclaim :
    Reaches .claim [] on ∧ Reaches .claim [] (claimed .p0 on) ∧ Reaches .claim [] (claimed .p1 on) ∧ Reaches .unclaim [] on
    ∧ Reaches .unclaim [] (claimed .p0 on) ∧ (claimed .p1 on).claim = some { holder := .p1, expires := ms 10 } := by decide +kernel

theorem test_meets_ClaimExpiry :
    on.claim = none ∧ (claimed .p1 on).claim = some { holder := .p1, expires := ms 10 } ∧ ((claimed .p1 on).port .p1).session = .attached := by
  decide +kernel

theorem test_meets_SettingRefused :
    Reaches (.setSetting 7 9 (some 0)) [] on ∧ Reaches (.setSetting 7 1 (some 0)) [] (claimed .p1 on)
    ∧ Reaches (.window 4 0 (some ⟨false, 0, 0, 0, 0, 0⟩)) [] (claimed .p0 on)
    ∧ Reaches (.window 3 4 (some ⟨false, 0, 0, 0, 0, 0⟩)) [] (claimed .p0 on)
    ∧ Reaches (.window 3 3 (some ⟨true, 1, 0, 0, 0, 0⟩)) [] (claimed .p0 on)
    ∧ Reaches (.window 3 3 (some ⟨true, 0, 8, 0, 0, 0⟩)) [] (claimed .p0 on)
    ∧ Reaches (.window 3 3 (some ⟨true, 0, 7, 0, 1, 0⟩)) [] (claimed .p0 on)
    ∧ Reaches (.window 3 3 (some ⟨true, 0, 7, 0, 0, 8192⟩)) [] (claimed .p0 on)
    ∧ Reaches (.window 3 3 (some ⟨true, 0, 7, 2, 0, 8191⟩)) [] (claimed .p0 on)
    ∧ Reaches (.clearFaults 2) [] on ∧ Reaches (.status 0) [] on ∧ Reaches (.status 6) [] on
    ∧ Reaches (.setSetting 0 10 (some 0)) [] (claimed .p0 on) ∧ Reaches (.setSetting 0 0 (some 0)) [] (claimed .p1 on)
    ∧ Reaches (.setSetting 0 10 none) [] on ∧ Reaches (.window 0 0 none) [] (claimed .p1 on) ∧ on.claim = none ∧ (on.port .p0).session = .attached
    ∧ (claimed .p1 on).claim = some { holder := .p1, expires := ms 10 } := by decide +kernel

theorem test_meets_SetSettings :
    Reaches (.setSetting 3 1 (some 8)) [] (claimed .p0 on) ∧ Reaches (.setSetting 4 1 (some 1)) [] (claimed .p0 on)
    ∧ Reaches (.setSetting 0 1 (some 9)) [] (claimed .p0 on) ∧ Reaches (.setSetting 0 2 (some 1)) [] (claimed .p0 on)
    ∧ Reaches (.setSetting 0 2 (some 2)) [] (claimed .p0 on) ∧ Reaches (.setSetting 7 3 (some 10000)) [] (claimed .p0 on)
    ∧ Reaches (.setSetting 7 4 (some 10001)) [] (claimed .p0 on) ∧ Reaches (.setSetting 7 6 (some 1)) [] (claimed .p0 on)
    ∧ Reaches (.setSetting 7 7 (some 2)) [] (claimed .p0 on) ∧ Reaches (.setSetting 7 8 (some 0)) [] (claimed .p0 on)
    ∧ Reaches (.setSetting 7 9 (some 1000)) [] (claimed .p0 on) := by decide +kernel

theorem test_meets_SetUrgency :
    Reaches (.setSetting 0 5 (some 1)) [] (claimed .p0 on) ∧ Reaches (.setSetting 0 5 (some 2)) [] (claimed .p0 (owes .a 2 on))
    ∧ Reaches (.setSetting 0 5 (some 5)) [] (claimed .p0 (owes .b 4 on)) ∧ Reaches (.setSetting 0 5 (some 6)) [] (claimed .p0 on) := by
  decide +kernel

/-- P0 holds B0 and B2 of a set with a balance of 6, and has a notice of the revocation of B2 pending. -/
def pressed : State := raiseNotice .p0 (.revoked .b2 .window) (owes .a 6 (opened .b2 .write [.p0] (opened .b0 .read [.p0, .p1] on)))

theorem test_notices_in_bank_order :
    ((enterPressure .a pressed).port .p0).notices = [.revoked .b2 .window, .releaseRequest .b0, .releaseRequest .b2]
    ∧ ((forceSet .a pressed).port .p0).notices = [.revoked .b2 .refresh, .revoked .b0 .refresh]
    ∧ ((forceSet .a pressed).port .p1).notices = [.revoked .b0 .refresh]
    ∧ (forceSet .a pressed).workList = [.close .b0, .close .b2] := by decide +kernel

theorem test_meets_PressureAndForcing :
    pressure (owes .a 6 (opened .b0 .read [.p0, .p1] on)) .a = true
    ∧ ((opened .b0 .read [.p0, .p1] on).bank .b0).isHolder .p1 = true ∧ (on.port .p1).session = .attached
    ∧ (on.bank .b0).holders = PerPort.const none ∧ pendingTransfers (opened .b0 .read [.p0] on) .b0 = 0
    ∧ pendingTransfers (runs (.xfer (xfer .read) []) (opened .b0 .read [.p0] on)) .b0 = 1 := by decide +kernel

theorem test_meets_GetAnswersTheValue :
    Reaches (.getSetting 3 1) [] on ∧ Reaches (.getSetting 4 2) [] on ∧ Reaches (.getSetting 7 3) [] on ∧ Reaches (.getSetting 7 9) [] on
    ∧ Reaches (.getSetting 0 0) [] on ∧ Reaches (.getSetting 0 10) [] on ∧ Reaches (.getSetting 0 15) [] on ∧ Reaches (.getSetting 0 20) [] on
    ∧ Reaches (.getSetting 3 0x13) [] on ∧ (on.windows.get .p3).get .w3 = none ∧ Reaches (.getSetting 4 0x10) [] on
    ∧ (on.windows.get .p0).get .w0 ≠ none := by decide +kernel

theorem test_meets_WindowReplaces :
    Reaches (.window 0 0 (some ⟨true, 0, 7, 1, 0, 8191⟩)) [] (claimed .p0 (opened .b0 .read [.p0] on))
    ∧ entriesGood (gateState (.window 0 0 (some ⟨true, 0, 7, 1, 0, 8191⟩)) [] (claimed .p0 (opened .b0 .read [.p0] on))) = true
    ∧ Reaches (.window 1 3 (some ⟨false, 9, 0, 2, 1, 0⟩)) [] (claimed .p0 on) := by decide +kernel

theorem test_meets_WindowReplaces_at_a_bank :
    (Sound (opened .b0 .read [.p0] on) ∧ covered on .p0 .b0 5 .read = true ∧ ((opened .b0 .read [.p0] on).bank .b0).isHolder .p0 = true)
    ∧ (Sound (opened .b0 .write [.p0] (readWindow on)) ∧ covered (readWindow on) .p0 .b0 5 .write = false
      ∧ ((opened .b0 .write [.p0] on).bank .b0).holders.set .p0 none = PerPort.const none
      ∧ ((opened .b0 .read [.p0, .p1] on).bank .b0).holders.set .p0 none ≠ PerPort.const none)
    ∧ (Sound (opening (readWindow on)) ∧ ((opening (readWindow on)).bank .b0).isGrantee .p0 = true
      ∧ ((opening (readWindow on)).bank .b0).grantees = [{ port := .p0, tag := 3, carried := us 100 }] ∧ covered on .p0 .b0 5 .write = true)
    ∧ (Sound (waits .b0 (waiter .p0 5 .write) on) ∧ waiter .p0 5 .write ∈ ((waits .b0 (waiter .p0 5 .write) on).bank .b0).waiting)
    ∧ (on.bank .b0).involves .p0 = false := by decide +kernel

theorem test_meets_ClearFaults :
    Reaches (.clearFaults 0) [] on ∧ Reaches (.clearFaults 1) [] on ∧ Reaches (.clearFaults 1) [] (claimed .p1 on)
    ∧ Reaches (.clearFaults 1) [] (claimed .p0 on) ∧ (on.account .a).lossFlag = false ∧ (on.account .b).lossFlag = false
    ∧ Reaches (.clearFaults 1) [] (claimed .p0 (modAccount .a (fun c => { c with lossFlag := true }) on))
    ∧ (on.account (addressSet 0)).lossFlag = false := by decide +kernel

theorem test_meets_StepWantedMark :
    markFor (owes .a 6 on) .a = .forced ∧ markFor (owes .a 5 on) .a = .opportunistic ∧ markFor (owes .a 1 on) .a = .opportunistic
    ∧ markFor { on with settings := { on.settings with eager := true } } .a = .eager ∧ markFor on .a = .none
    ∧ markFor { owes .a (-4) on with settings := { on.settings with eager := true } } .a = .none := by decide +kernel

theorem test_meets_TickRaisesOrIsMissed :
    ((owes .a 7 on).account .a).balance < 8 ∧ ((owes .a 8 on).account .a).balance = 8
    ∧ ((owes .a 3 on).account .a).balance + 1 = on.settings.urgency ∧ ((owes .a 5 on).account .a).balance = 5 := by decide +kernel

theorem test_meets_BandAfterSample :
    on.band = .normal ∧ ({ on with band := .cool } : State).band = .cool ∧ ({ on with band := .hot } : State).band = .hot := by decide +kernel

theorem test_meets_ThermalSample : bandAfter on.band 87 = on.band ∧ bandAfter on.band 88 ≠ on.band := by decide +kernel

theorem test_meets_WakeCompletion :
    (∀ d, on.retention ≠ .waking d) ∧ waking.retention = .waking (us 2) ∧ ((owes .a 7 on).account .a).balance < 8
    ∧ ((owes .a 8 on).account .a).balance = 8 ∧ ((owes .a 5 on).account .a).balance = 5
    ∧ ((owes .a 3 on).account .a).balance + 1 = on.settings.urgency :=
  ⟨fun _ h => (by cases h), rfl, by decide +kernel, by decide +kernel, by decide +kernel, by decide +kernel⟩

/-- A CLAIM, and then an UNCLAIM, wait at P1 for the wake, and a HOLD at P0. -/
def wakers : State :=
  modPort .p0 (fun q => { q with inFlight := [3], ingress := [⟨3, .hold⟩] })
    (modPort .p1 (fun q => { q with inFlight := [3, 4], ingress := [⟨3, .claim⟩, ⟨4, .unclaim⟩] }) waking)

theorem test_step_wake_dispatches :
    (((after wakers .wakeCompletion).port .p0).ingress, ((after wakers .wakeCompletion).port .p1).ingress) = ([], [])
    ∧ ((after wakers .wakeCompletion).port .p0).outbox = [.response 3 .ok 1 0 0 []]
    ∧ ((after wakers .wakeCompletion).port .p1).outbox = [.response 3 .ok 1 0 0 [], .response 4 .ok 1 0 0 []]
    ∧ (after wakers .wakeCompletion).now = us 2 := by decide +kernel

theorem test_meets_OpenCompletion :
    (opening on).path = some { op := .openRow .b0 5, completes := ns 50 } ∧ ((opening on).bank .b0).mode = some .write
    ∧ pressure (opening on) .a = false ∧ ((opening on).bank .b0).grantees ≠ [] ∧ ((opening on).bank .b0).contention = none
    ∧ (((opening on).bank .b0).grantees.map (·.port)).Nodup ∧ pressure (owes .a 4 (opening on)) .a = true := by decide +kernel

theorem test_meets_CloseAndStepCompletion :
    (runs (.close .b0) on).path = some { op := .close .b0, completes := ns 50 }
    ∧ (runs (.step .b 8191 true) on).path = some { op := .step .b 8191 true, completes := ns 50 } ∧ on.path = none := by decide +kernel

/-- A list with one item of each kind. -/
def busyList (s : State) : State := { s with workList := [.openRow .b1 5, .xfer (xfer .read), .close .b0] }

theorem test_meets_ArbiterOrder :
    (updateMarks (owes .a 6 (owes .b 7 on))).account .b = { on.account .b with balance := 7, mark := .forced }
    ∧ setClosed on .b = true ∧ on.path = none ∧ (runs (.close .b0) on).path ≠ none
    ∧ (busyList on).workList = [.openRow .b1 5, .xfer (xfer .read)] ++ .close .b0 :: []
    ∧ rotation .p3 = [] ++ .p0 :: [.p1, .p2, .p3]
    ∧ ((updateMarks (owes .a 1 on)).account .a).mark = .opportunistic ∧ on.retention = .active := by decide +kernel

theorem test_meets_OperationsStart : (xfer .read).dir = .read ∧ (xfer (.write .p0 3 false)).dir = .write .p0 3 false := by decide +kernel

theorem test_meets_ArrayAndSettingsFrame : exec (.tick .a) on = .next (finish (tickSet .a (advance (ns 6400) on))) := rfl

theorem test_meets_the_invariants :
    arrayGood on = true ∧ balancesGood on = true ∧ marksGood on = true ∧ noticesGood on = true ∧ inFlightGood on = true
    ∧ stagingGood on = true ∧ sessionsGood on = true ∧ leasesGood on = true ∧ requestsGood on = true ∧ retentionGood on = true := by
  decide +kernel

theorem test_meets_RetainedMeansNothingInFlight :
    (leasesGood retained = true ∧ sessionsGood retained = true ∧ inFlightGood retained = true ∧ requestsGood retained = true
      ∧ retentionGood retained = true)
    ∧ (leasesGood wakers = true ∧ sessionsGood wakers = true ∧ inFlightGood wakers = true ∧ requestsGood wakers = true
      ∧ retentionGood wakers = true) := by decide +kernel

theorem test_meets_a_next_step : step on = .next on := rfl

end Sys2Proof.Machine.Tests
end

section
/-!
SUPPORT. Bank leases: what OPEN and RELEASE do once they reach the Lease Manager, how a bank settles, what the completions of OPEN, CLOSE
and STEP do, and the two reset statements (spec/02, and the reset rules of every chapter).
-/

namespace Sys2Proof.Machine.BankLeases

/-! ### OPEN and RELEASE at the Lease Manager -/

/-- An OPEN that is dispatched ends in what the Lease Manager makes of it. -/
theorem ends_openRow {t : Time} {p : Port} {tag : Tag} {b : Bank} {row : Row} {mode : Mode} {s u w : State}
    (h : atDispatch t p ⟨tag, .openRow b row mode⟩ [] s = some u) (ha : (u.port p).session = .attached)
    (hw : openRequest p tag b row mode u = w) : Ends (exec (.openRow t p tag b row mode) s) w :=
  hw ▸ ends_toOwner h ha

/-- A RELEASE that is dispatched ends in what the Lease Manager makes of it. -/
theorem ends_release {t : Time} {p : Port} {tag : Tag} {b : Bank} {s u w : State}
    (h : atDispatch t p ⟨tag, .release b⟩ [] s = some u) (ha : (u.port p).session = .attached)
    (hw : releaseRequest p tag b u = w) : Ends (exec (.release t p tag b) s) w :=
  hw ▸ ends_toOwner h ha

/-! ### The checks of an OPEN (R23) -/

theorem openRequest_not_covered {p : Port} {tag : Tag} {b : Bank} {row : Row} {mode : Mode} {u : State}
    (hc : covered u p b row mode = false) : openRequest p tag b row mode u = answer p tag .denied (bankByte b) 0 [] u :=
  if_pos hc

theorem openRequest_involved {p : Port} {tag : Tag} {b : Bank} {row : Row} {mode : Mode} {u : State}
    (hc : covered u p b row mode = true) (hi : (u.bank b).involves p = true) :
    openRequest p tag b row mode u = answer p tag .duplicate 0 0 [] u := by
  simp [openRequest, hc, hi, reply]

theorem openRequest_at_limit {p : Port} {tag : Tag} {b : Bank} {row : Row} {mode : Mode} {u : State}
    (hc : covered u p b row mode = true) (hi : (u.bank b).involves p = false) (hl : u.settings.leaseLimit.get p ≤ leaseCount u p) :
    openRequest p tag b row mode u = answer p tag .limit 0 0 [] u := by
  simp [openRequest, hc, hi, hl, reply]

/-- What decides about an OPEN that passes its three checks (R25 to R28). -/
theorem openRequest_passed {p : Port} {tag : Tag} {b : Bank} {row : Row} {mode : Mode} {u : State}
    (hc : covered u p b row mode = true) (hi : (u.bank b).involves p = false) (hl : leaseCount u p < u.settings.leaseLimit.get p) :
    openRequest p tag b row mode u =
      if mayGrant u b then startOpening b row mode [{ port := p, tag := tag, carried := waitDeadline u }] [] u
      else if mayJoin u b row mode .opened then grant b .read p tag u
      else if mayJoin u b row mode .opening then
        u.setBank b { u.bank b with grantees := (u.bank b).grantees ++ [{ port := p, tag := tag, carried := waitDeadline u }] }
      else openWaits p tag b row mode u := by
  simp [openRequest, hc, hi, Nat.not_le.2 hl]

theorem mayGrant_iff (s : State) (b : Bank) :
    mayGrant s b = true ↔ (s.bank b).state = .closed ∧ (s.bank b).waiting = [] ∧ pressure s b.set = false := by
  simp [mayGrant, and_assoc]

theorem mayJoin_iff (s : State) (b : Bank) (row : Row) (mode : Mode) (st : BankState) :
    mayJoin s b row mode st = true ↔
      (s.bank b).state = st ∧ (s.bank b).mode = some .read ∧ (s.bank b).row = some row ∧ mode = .read ∧ (s.bank b).waiting = [] ∧
        pressure s b.set = false := by
  simp [mayJoin, and_assoc]

/-! ### The lease count (R21) -/

theorem leaseCount_eq_length (p : Port) (s : State) :
    leaseCount s p = (Bank.all.filter (fun b => (s.bank b).involves p)).length :=
  List.countP_eq_length_filter

theorem involves_iff (e : BankEntry) (p : Port) :
    e.involves p = true ↔ e.holders.get p ≠ none ∨ (∃ g ∈ e.grantees, g.port = p) ∨ ∃ w ∈ e.waiting, w.port = p := by
  simp [BankEntry.involves, BankEntry.isHolder, BankEntry.isGrantee, BankEntry.isWaiter, Option.isSome_iff_ne_none, or_assoc]

theorem involves_of_grantee {e : BankEntry} {g : Grantee} (h : g ∈ e.grantees) : e.involves g.port = true :=
  (involves_iff e g.port).2 (.inr (.inl ⟨g, h, rfl⟩))

theorem involves_of_waiter {e : BankEntry} {w : Waiter} (h : w ∈ e.waiting) : e.involves w.port = true :=
  (involves_iff e w.port).2 (.inr (.inr ⟨w, h, rfl⟩))

theorem nodup_allBanks : Bank.all.Nodup := by decide

/-- A port that comes to one more bank counts one more lease. -/
theorem leaseCount_succ {s t : State} {p : Port} (b : Bank) (hb : OnlyBank b s t) (hs : (s.bank b).involves p = false)
    (ht : (t.bank b).involves p = true) : leaseCount t p = leaseCount s p + 1 := by
  have perm : Bank.all.Perm (b :: Bank.all.erase b) := List.perm_cons_erase (mem_allBanks b)
  have others : (Bank.all.erase b).countP (fun c => (t.bank c).involves p) = (Bank.all.erase b).countP (fun c => (s.bank c).involves p) :=
    List.countP_congr fun c hc => by rw [hb c ((nodup_allBanks.mem_erase_iff).1 hc).1]
  unfold leaseCount
  rw [perm.countP_eq, perm.countP_eq, List.countP_cons, List.countP_cons, others, hs, ht]
  rfl

/-! ### An OPEN that waits (R28) -/

/-- The bank does not let an OPEN in at once: somebody waits, its set is under pressure, it is on its way to CLOSED or under a STEP, or its
lease is not one that a READ of this row may share. -/
def MustWait (u : State) (b : Bank) (row : Row) (mode : Mode) : Prop :=
  (u.bank b).waiting ≠ [] ∨ pressure u b.set = true ∨ (u.bank b).state = .draining ∨ (u.bank b).state = .closing ∨
    (u.bank b).state = .refreshing ∨
    (((u.bank b).state = .opened ∨ (u.bank b).state = .opening) ∧
      (mode = .write ∨ (u.bank b).mode ≠ some .read ∨ (u.bank b).row ≠ some row))

theorem MustWait.not_mayGrant {u : State} {b : Bank} {row : Row} {mode : Mode} (h : MustWait u b row mode) : mayGrant u b = false := by
  rw [Bool.eq_false_iff, ne_eq, mayGrant_iff]
  rintro ⟨hs, hw, hp⟩
  simp [MustWait, hs, hw, hp] at h

theorem MustWait.not_mayJoin {u : State} {b : Bank} {row : Row} {mode : Mode} (h : MustWait u b row mode) {st : BankState}
    (hst : st = .opened ∨ st = .opening) : mayJoin u b row mode st = false := by
  rw [Bool.eq_false_iff, ne_eq, mayJoin_iff]
  rintro ⟨hs, hm, hr, rfl, hw, hp⟩
  rcases hst with rfl | rfl <;> simp [MustWait, hs, hm, hr, hw, hp] at h

/-- The state in which an OPEN waits: its entry is last in the list, and an OPEN bank has a contention deadline (R22, R28, R50). -/
def waitingFor (p : Port) (tag : Tag) (b : Bank) (row : Row) (mode : Mode) (u : State) : State :=
  u.setBank b { u.bank b with
    waiting := (u.bank b).waiting ++ [{ port := p, tag := tag, row := row, mode := mode, deadline := u.now + us u.settings.waitLimit }]
    contention := if (u.bank b).state = .opened then some ((u.bank b).contention.getD (u.now + us u.settings.holdLimit)) else none }

/-- Where the list was empty, the serve rule finds nobody to let in. -/
theorem serve_waitingFor {p : Port} {tag : Tag} {b : Bank} {row : Row} {mode : Mode} {u : State} (h : MustWait u b row mode)
    (hw : (u.bank b).waiting = []) : serve b (waitingFor p tag b row mode u) = waitingFor p tag b row mode u := by
  have hp : pressure (waitingFor p tag b row mode u) b.set = pressure u b.set := rfl
  unfold serve
  rw [hp]
  simp only [waitingFor, State.bank_setBank, if_true, hw, List.nil_append]
  rcases h with h | h | h | h | h | ⟨hs | hs, h⟩
  · exact absurd hw h
  · rw [if_pos h]
  · simp [h]
  · simp [h]
  · simp [h]
  · rcases h with h | h | h <;> simp [hs, h]
  · simp [hs]

theorem openWaits_eq {p : Port} {tag : Tag} {b : Bank} {row : Row} {mode : Mode} {u : State} (h : MustWait u b row mode) :
    openWaits p tag b row mode u = waitingFor p tag b row mode u := by
  have appended : refreshContention b (u.setBank b { u.bank b with
      waiting := (u.bank b).waiting ++ [{ port := p, tag := tag, row := row, mode := mode, deadline := waitDeadline u }] })
      = waitingFor p tag b row mode u := by
    simp [refreshContention, waitingFor, waitDeadline]
  unfold openWaits
  dsimp only at appended ⊢
  rw [appended]
  split
  · next hw => exact serve_waitingFor h hw
  · rfl

/-! ### Settling (R36 to R38) -/

theorem settle_of_pending {b : Bank} {s : State} (h : pendingTransfers s b ≠ 0) : settle b s = s :=
  if_pos (.inr h)

/-- A DRAINING bank that cannot keep its row for the head of its list closes (R38). -/
theorem settle_closes {b : Bank} {s : State} (hd : (s.bank b).state = .draining) (h0 : pendingTransfers s b = 0)
    (h : pressure s b.set = true ∨ (s.bank b).waiting = [] ∨ ∃ w ws, (s.bank b).waiting = w :: ws ∧ (s.bank b).row ≠ some w.row) :
    settle b s = startClosing b s := by
  unfold settle
  rcases h with hp | hw | ⟨w, ws, hw, hr⟩
  · cases hw : (s.bank b).waiting <;> simp [hd, h0, hp, hw]
  · simp [hd, h0, hw]
  · simp [hd, h0, hw, hr]

/-- A DRAINING bank whose row the head of its list names keeps it for the head group (R37). -/
theorem settle_keeps {b : Bank} {s : State} {w : Waiter} {ws : List Waiter} (hd : (s.bank b).state = .draining)
    (h0 : pendingTransfers s b = 0) (hw : (s.bank b).waiting = w :: ws) (hp : pressure s b.set = false)
    (hr : (s.bank b).row = some w.row) :
    settle b s = refreshContention b (grantAll b w.mode (waiterTags (headGroup (w :: ws)))
      (s.setBank b { s.bank b with state := .opened, mode := some w.mode, waiting := behindHeadGroup (w :: ws) })) := by
  simp [settle, hd, h0, hw, hp, hr, modBank]

/-- Nothing but banks and ports has changed where the lease frame and the work list are kept. -/
theorem eq_of_leaseFrame {s v : State} (h : LeaseFrame s v) (hw : v.workList = s.workList) :
    v = { s with banks := v.banks, ports := v.ports } := by
  obtain ⟨h1, h2, h3, h4, h5, h6, h7, h8, h9, h10, h11, h12, h13, h14, h15, h16, h17, h18, _⟩ := h
  cases v
  simp_all

/-- The contention deadline of R22, at its bank. -/
theorem refreshContention_bank (b : Bank) (s : State) : (refreshContention b s).bank b = { s.bank b with
    contention := if (s.bank b).state = .opened ∧ (s.bank b).waiting ≠ [] then
      some ((s.bank b).contention.getD (s.now + us s.settings.holdLimit)) else none } := by
  simp [refreshContention]

/-- A bank goes to OPEN with entry `e` for a group whose ports are granted (R34, R37): the ports hold it and are answered, and a contention
deadline is set where somebody still waits. -/
theorem granted_spec {b : Bank} {e : BankEntry} {m : Mode} {g : List (Port × Tag)} {s : State} (ho : e.state = .opened)
    (hc : e.contention = none) (hh : e.holders = (s.bank b).holders) (hg : (g.map (·.1)).Nodup) :
    let v := refreshContention b (grantAll b m g (s.setBank b e))
    v = { s with banks := v.banks, ports := v.ports } ∧ (∀ c, c ≠ b → v.bank c = s.bank c) ∧
    v.bank b = { e with
      holders := (v.bank b).holders
      contention := if e.waiting = [] then none else some (s.now + us s.settings.holdLimit) } ∧
    GroupGranted b m g s v := by
  intro v
  have frame : LeaseFrame s v ∧ OnlyBank b s v :=
    frame_trans (setBank_frame b e s) (frame_trans (grantAll_frame b m g _) (refreshContention_frame b _))
  have before : (s.setBank b e).bank b = e := by simp
  have list : v.workList = s.workList := grantAll_workList b m g (s.setBank b e)
  obtain ⟨lease, only⟩ := grantAll_frame b m g (s.setBank b e)
  obtain ⟨k, hk, _⟩ := grantAll_bank b m g (s.setBank b e)
  have entry : v.bank b = { e with
      holders := k
      contention := if e.waiting = [] then none else some (s.now + us s.settings.holdLimit) } := by
    show (refreshContention b _).bank b = _
    rw [refreshContention_bank, hk, before, lease.now, lease.settings]
    simp [ho, hc]
  have holders : (v.bank b).holders = ((grantAll b m g (s.setBank b e)).bank b).holders := by rw [entry, hk]
  have spec := grantAll_spec b m g (s.setBank b e) hg
  refine ⟨eq_of_leaseFrame frame.1 list, frame.2, by rw [entry], ⟨fun p tag hp => ?_, fun p hp => ?_, spec.answers⟩⟩
  · rw [holders]; exact spec.holders p tag hp
  · obtain ⟨kept, port⟩ := spec.others p hp
    exact ⟨by rw [holders, kept, before, hh], port⟩

/-! ### RELEASE (R30, R31, R36) -/

theorem releaseRequest_not_holder {p : Port} {tag : Tag} {b : Bank} {u : State} (h : holdsLease u p b = false) :
    releaseRequest p tag b u = answer p tag .noLease 0 0 [] u := by
  apply if_neg
  simpa [holdsLease] using h

theorem releaseRequest_holder {p : Port} {tag : Tag} {b : Bank} {u : State} (h : holdsLease u p b = true) :
    releaseRequest p tag b u =
      drainIfEmpty b (answer p tag .ok 0 0 [] (u.setBank b { u.bank b with holders := (u.bank b).holders.set p none })) := by
  apply if_pos
  simpa [holdsLease] using h

/-- An OPEN bank without holders drains (R36). -/
theorem drainIfEmpty_of_empty {b : Bank} {s : State} (ho : (s.bank b).state = .opened) (hh : (s.bank b).holders = PerPort.const none) :
    drainIfEmpty b s = settle b (s.setBank b { s.bank b with state := .draining, mode := none, contention := none }) :=
  if_pos ⟨ho, hh⟩

/-- An answer and a new entry of a bank, in either order. -/
theorem setBank_answer (b : Bank) (e : BankEntry) (p : Port) (tag : Tag) (res : Result) (i0 i1 : Byte) (payload : List Byte) (s : State) :
    (answer p tag res i0 i1 payload s).setBank b e = answer p tag res i0 i1 payload (s.setBank b e) := rfl

/-! ### Completions (R12, R14, R34, R35, R39) -/

theorem completeOpen_stands {b : Bank} {row : Row} {s : State} (hp : pressure s b.set = false) (hg : (s.bank b).grantees ≠ []) :
    completeOpen b row s = grantStands b (setOpenRow b (some row) (freePath s)) :=
  if_pos ⟨hp, hg⟩

theorem completeOpen_fails {b : Bank} {row : Row} {s : State} (h : pressure s b.set = true ∨ (s.bank b).grantees = []) :
    completeOpen b row s = grantFails b row (setOpenRow b (some row) (freePath s)) := by
  apply if_neg
  rcases h with h | h <;> simp [h]

/-- The pending grantees return to the front of the list, and the bank goes to CLOSING with CLOSE work (R35). -/
theorem grantFails_eq (b : Bank) (row : Row) (s : State) : grantFails b row s =
    { s.setBank b { s.bank b with
        state := .closing, mode := none, grantees := []
        waiting := (s.bank b).grantees.map (Grantee.toWaiter row ((s.bank b).mode.getD .read)) ++ (s.bank b).waiting } with
      workList := s.workList ++ [.close b] } := by
  simp [grantFails, startClosing, placeWork, modBank]

theorem ends_openCompletion {b : Bank} {row : Row} {d : Time} {s w : State} (h : s.path = some { op := .openRow b row, completes := d })
    (hw : completeOpen b row (advance d s) = w) : Ends (exec .openCompletion s) w := by
  have e : exec .openCompletion s = .next (finish (completeOpen b row (advance d s))) := by
    simp only [exec, execOpenCompletion, h]
  rw [e, hw]
  exact ends_finish w

theorem ends_closeCompletion {b : Bank} {d : Time} {s : State} (h : s.path = some { op := .close b, completes := d }) :
    Ends (exec .closeCompletion s) (completeClose b (advance d s)) := by
  have e : exec .closeCompletion s = .next (finish (completeClose b (advance d s))) := by
    simp only [exec, execCloseCompletion, h]
  rw [e]
  exact ends_finish _

theorem ends_stepCompletion {x : BankSet} {row : Row} {forced : Bool} {d : Time} {s : State}
    (h : s.path = some { op := .step x row forced, completes := d }) :
    Ends (exec .stepCompletion s) (completeStep x (advance d s)) := by
  have e : exec .stepCompletion s = .next (finish (completeStep x (advance d s))) := by
    simp only [exec, execStepCompletion, h]
  rw [e]
  exact ends_finish _

/-- A completion whose operation is not on the path does not occur (log entry 3). -/
theorem completion_absent (s : State) :
    ((∀ b r d, s.path ≠ some { op := .openRow b r, completes := d }) → exec .openCompletion s = .next s) ∧
    ((∀ b d, s.path ≠ some { op := .close b, completes := d }) → exec .closeCompletion s = .next s) ∧
    ((∀ x l d, s.path ≠ some { op := .xfer x l, completes := d }) → exec .xferCompletion s = .next s) ∧
    ((∀ x r f d, s.path ≠ some { op := .step x r f, completes := d }) → exec .stepCompletion s = .next s) := by
  refine ⟨fun h => ?_, fun h => ?_, fun h => ?_, fun h => ?_⟩
  · show execOpenCompletion s = _
    unfold execOpenCompletion
    split
    · next e => exact absurd e (h _ _ _)
    · rfl
  · show execCloseCompletion s = _
    unfold execCloseCompletion
    split
    · next e => exact absurd e (h _ _)
    · rfl
  · show execXferCompletion s = _
    unfold execXferCompletion
    split
    · next e => exact absurd e (h _ _ _)
    · rfl
  · show execStepCompletion s = _
    unfold execStepCompletion
    split
    · next e => exact absurd e (h _ _ _ _)
    · rfl

/-! ### Power-on reset -/

/-- A notice that no port is ATTACHED to take is discarded everywhere (R137). -/
theorem raiseEverywhere_of_detached {n : Notice} {s : State} (h : ∀ p, (s.port p).session ≠ .attached) : raiseEverywhere n s = s := by
  obtain ⟨e, ports⟩ := raiseEverywhere_eq n s
  have same : (raiseEverywhere n s).ports = s.ports :=
    PerPort.ext_get fun p => (ports p).trans (if_neg (h p))
  rw [e, same]

/-- No port is ATTACHED after a power-on reset (R134). -/
theorem powerOn_detached (reading : Int) (s : State) (p : Port) : ((powerOn reading s).port p).session ≠ .attached := by
  rw [powerOn, State.port_powerOn]
  decide

/-- A sample that leaves the band (R100, R101). -/
theorem takeSample_of_same_band {reading : Int} {s : State} (h : bandAfter s.band (clampReading reading) = s.band) :
    takeSample reading s = { s with lastTemp := clampReading reading, nextSample := s.now + Config.samplePeriod } := by
  unfold takeSample
  dsimp only
  rw [if_pos h, h]

/-- A sample that changes the band at a part with no port ATTACHED: both ticks are pulled, and nobody is told (R102). -/
theorem takeSample_of_new_band {reading : Int} {s : State} (h : bandAfter s.band (clampReading reading) ≠ s.band)
    (hd : ∀ p, (s.port p).session ≠ .attached) :
    let band := bandAfter s.band (clampReading reading)
    let pulled (x : BankSet) : Account :=
      { s.account x with nextTick := min (s.account x).nextTick (s.now + band.interval) }
    takeSample reading s =
      { s with
        lastTemp := clampReading reading, nextSample := s.now + Config.samplePeriod, band := band
        accounts := { a := pulled .a, b := pulled .b } } := by
  unfold takeSample
  dsimp only
  rw [if_neg h]
  exact raiseEverywhere_of_detached hd

/-! ### The obligations -/

/-- Settles O15: each of the three checks, in order. -/
theorem openRefused : Obligations.OpenRefused := by
  refine ⟨fun t p tag b row mode s u h ha => ⟨fun hc => ?_, fun hc hi => ?_, fun hc hi hl => ?_⟩, leaseCount_eq_length,
    fun p e => involves_iff e p⟩
  · exact ends_openRow h ha (openRequest_not_covered hc)
  · exact ends_openRow h ha (openRequest_involved hc hi)
  · exact ends_openRow h ha (openRequest_at_limit hc hi hl)

/-- Settles O16: the branch of the Lease Manager that each hypothesis on the bank selects. -/
theorem openGrantedOrJoins : Obligations.OpenGrantedOrJoins := by
  refine ⟨fun t p tag b row mode s u h ha hc hi hl hs hw hp => ?_,
    fun t p tag b row s u h ha hc hi hl hm hr hw hp => ⟨fun hs => ?_, fun hs => ?_⟩⟩
  · have grants : mayGrant u b = true := (mayGrant_iff u b).2 ⟨hs, hw, hp⟩
    refine ⟨ends_openRow h ha ?_, leaseCount_succ b (setBank_frame b _ u).2 hi ?_⟩
    · simp [openRequest_passed hc hi hl, grants, startOpening, placeWork, modBank, waitDeadline, hw]
    · exact involves_of_grantee (g := { port := p, tag := tag, carried := u.now + us u.settings.waitLimit }) (by simp [State.bank])
  · have grants : ¬mayGrant u b = true := by simp [mayGrant_iff, hs]
    have joins : mayJoin u b row .read .opened = true := (mayJoin_iff ..).2 ⟨hs, hm, hr, rfl, hw, hp⟩
    refine ends_openRow h ha ?_
    rw [openRequest_passed hc hi hl, if_neg grants, if_pos joins]
    rfl
  · have grants : ¬mayGrant u b = true := by simp [mayGrant_iff, hs]
    have opened : ¬mayJoin u b row .read .opened = true := by simp [mayJoin_iff, hs]
    have joins : mayJoin u b row .read .opening = true := (mayJoin_iff ..).2 ⟨hs, hm, hr, rfl, hw, hp⟩
    refine ends_openRow h ha ?_
    rw [openRequest_passed hc hi hl, if_neg grants, if_neg opened, if_pos joins]
    rfl

/-- Settles O17: neither a grant nor a join is open to it, and the serve rule does not let it in. -/
theorem openWaits : Obligations.OpenWaits := by
  intro t p tag b row mode s u h ha hc hi hl must
  have wait : MustWait u b row mode := must
  refine ⟨ends_openRow h ha ?_, leaseCount_succ b (setBank_frame b _ u).2 hi ?_⟩
  · simp only [openRequest_passed hc hi hl, wait.not_mayGrant, wait.not_mayJoin (.inl rfl), wait.not_mayJoin (.inr rfl),
      Bool.false_eq_true, if_false]
    exact openWaits_eq wait
  · exact involves_of_waiter (w := { port := p, tag := tag, row := row, mode := mode, deadline := u.now + us u.settings.waitLimit })
      (by simp)

/-- Settles O18: whether a holder is left decides between staying OPEN and draining. -/
theorem releaseEndsTheLease : Obligations.ReleaseEndsTheLease := by
  intro t p tag b s u h ha o left
  refine ⟨fun hl => ends_release h ha (releaseRequest_not_holder hl), fun hl => ⟨fun hleft => ?_, fun hleft => ?_⟩⟩
  · refine ends_release h ha ((releaseRequest_holder hl).trans (drainIfEmpty_of_not_empty ?_))
    simpa [answer_bank] using fun _ => hleft
  · have opened : (u.bank b).state = .opened := by
      simp only [holdsLease, Bool.and_eq_true, decide_eq_true_eq] at hl
      exact hl.1
    intro d
    have drains : releaseRequest p tag b u = settle b d := by
      rw [releaseRequest_holder hl, drainIfEmpty_of_empty (by simpa [answer_bank] using opened) (by simpa [answer_bank] using hleft)]
      simp [setBank_answer, answer_bank, d, left]
    exact ⟨fun hn => ends_release h ha (drains.trans (settle_of_pending (s := d) hn)), fun _ => ends_release h ha drains⟩

/-- Settles O19: the row is kept for the head group by `granted_spec`; every other case closes or waits for its transfers. -/
theorem settleKeepsTheRowOrCloses : Obligations.SettleKeepsTheRowOrCloses := by
  refine ⟨fun b s w ws hd h0 hw hp hr hc hn => ?_, fun b s hd => ⟨settle_of_pending, fun h0 h => settle_closes hd h0 h⟩⟩
  have spec := granted_spec (b := b) (m := w.mode) (s := s) (g := waiterTags (headGroup (w :: ws)))
    (e := { s.bank b with state := .opened, mode := some w.mode, waiting := behindHeadGroup (w :: ws) }) rfl hc rfl (headGroup_nodup hn)
  rw [← settle_keeps hd h0 hw hp hr] at spec
  exact spec

/-- Settles O45: the grant stands by `granted_spec`, and otherwise the bank starts closing. -/
theorem openCompletion : Obligations.OpenCompletion := by
  intro b row d s h n
  have reads : ∀ {mode}, (s.bank b).mode = some mode → (s.bank b).mode.getD .read = mode := fun hm => by rw [hm]; rfl
  refine ⟨fun mode hm hp hg hc hn => ?_, fun mode hm hf => ?_⟩
  · refine ⟨_, ends_openCompletion h (completeOpen_stands hp hg), ?_⟩
    have grantees : ((s.bank b).grantees.map (fun g => (g.port, g.tag))).map (·.1) = (s.bank b).grantees.map (·.port) := by
      simp
    have spec := granted_spec (b := b) (m := mode) (s := n) (g := (s.bank b).grantees.map (fun g => (g.port, g.tag)))
      (e := { s.bank b with state := .opened, grantees := [] }) rfl hc rfl (grantees ▸ hn)
    rw [← reads hm] at spec ⊢
    exact spec
  · refine ends_openCompletion h ((completeOpen_fails (s := advance d s) hf).trans ?_)
    rw [← reads hm]
    exact grantFails_eq ..

/-- Settles O46: each completion is its own operation; the four banks of a STEP are read off by `setStates_eq`. -/
theorem closeAndStepCompletion : Obligations.CloseAndStepCompletion := by
  refine ⟨fun b d s h => ends_closeCompletion h, fun x row forced d s h => ?_, completion_absent⟩
  obtain ⟨banks, get, e⟩ := setStates_eq x .closed
    (modAccount x (fun c => { c with balance := c.balance - 1, sweep := c.sweep + 1 }) (freePath (advance d s)))
  refine ⟨banks, (s.account x).sweep + 1, get, by simp [BitVec.toNat_add], ?_⟩
  have done := ends_stepCompletion h
  rw [completeStep, e] at done
  exact done

/-- Settles O49: by whether the first sample leaves the band NORMAL; a new band pulls both ticks, and no port is ATTACHED to be told. -/
theorem powerOnReset : Obligations.PowerOnReset := by
  intro t reading s now r band z tick account
  have clamped : clampReading reading = r := clampReading_eq reading
  have done : Ends (exec (.powerOnReset t reading) s) (takeSample reading (powerOn reading (advance t s))) := ends_finish _
  by_cases hb : band = .normal
  · have same : bandAfter (powerOn reading (advance t s)).band (clampReading reading) = (powerOn reading (advance t s)).band := by
      rw [clamped]; exact hb
    rw [takeSample_of_same_band same, clamped] at done
    simp only [account, tick, hb]
    exact done
  · have new : bandAfter (powerOn reading (advance t s)).band (clampReading reading) ≠ (powerOn reading (advance t s)).band := by
      rw [clamped]; exact hb
    rw [takeSample_of_new_band new (powerOn_detached reading _), clamped] at done
    simp only [account, tick, if_neg hb]
    exact done

/-- Settles O2: every field of the reset value, read off. -/
theorem resetValues : Obligations.ResetValues := by
  refine ⟨rfl, rfl, rfl, rfl, rfl, rfl, rfl, rfl, rfl, rfl, rfl, rfl, fun b => ⟨?_, ?_⟩, fun x => ?_, rfl, rfl, fun p => ?_, fun p => ?_,
    rfl, rfl, rfl, rfl, rfl, rfl, rfl, fun p => ?_⟩
  · exact PerBank.get_const none b
  · exact State.bank_powerOn ..
  · cases x <;> exact ⟨rfl, rfl, rfl, rfl⟩
  · exact State.port_powerOn ..
  · exact ⟨PerPort.get_const 4 p, PerPort.get_const true p, by cases p <;> rfl, rfl⟩
  · cases p <;> exact ⟨rfl, rfl, rfl, rfl⟩

/-- Settles O3: the reset value is one concrete state, on which each invariant is evaluated. -/
theorem resetIsSound : Obligations.ResetIsSound :=
  ⟨rfl, rfl, rfl, rfl, rfl, rfl, rfl, rfl, rfl, rfl⟩

end Sys2Proof.Machine.BankLeases
end

section
/-!
SUPPORT. Waiting lists: the head group, the serve rule at each bank state, a waiting entry that is cancelled, expires or is withdrawn, and
the contention deadline that revokes a bank's holders (spec/03).
-/

namespace Sys2Proof.Machine.WaitingLists

open BankLeases

/-! ### The head group (R44) -/

theorem headGroup_write {w : Waiter} (ws : List Waiter) (h : w.mode = .write) : headGroup (w :: ws) = [w] := by
  simp [headGroup, h]

theorem headGroup_read {w : Waiter} (ws : List Waiter) (h : w.mode = .read) :
    headGroup (w :: ws) = w :: ws.takeWhile (fun v => decide (v.mode = .read ∧ v.row = w.row)) := by
  simp [headGroup, h]

/-- The entry at which `takeWhile` stops does not satisfy the predicate. -/
theorem not_head_dropWhile {α : Type} {f : α → Bool} {l vs : List α} {v : α} (h : l.dropWhile f = v :: vs) : f v = false := by
  have stops := List.head_dropWhile_not f (l := l) (by simp [h])
  simpa [h] using stops

/-- Every entry of a head group has the head entry's mode and row. -/
theorem headGroup_uniform {w : Waiter} {ws : List Waiter} : ∀ v ∈ headGroup (w :: ws), v.mode = w.mode ∧ v.row = w.row := by
  intro v hv
  cases hm : w.mode with
  | write =>
    rw [headGroup_write ws hm, List.mem_singleton] at hv
    subst hv
    exact ⟨hm, rfl⟩
  | read =>
    rw [headGroup_read ws hm] at hv
    rcases List.mem_cons.1 hv with rfl | behind
    · exact ⟨hm, rfl⟩
    · simpa using List.mem_takeWhile_imp behind

/-- There are four ports. -/
theorem length_le_four_of_nodup {ps : List Port} (h : ps.Nodup) : ps.length ≤ 4 :=
  (List.subperm_of_subset h (fun p _ => mem_allPorts p)).length_le

theorem headGroup_length_le {w : Waiter} {ws : List Waiter} (h : ((w :: ws).map (·.port)).Nodup) : (headGroup (w :: ws)).length ≤ 4 := by
  have ports := length_le_four_of_nodup (headGroup_nodup h)
  simpa using ports

/-! ### The serve rule (R45 to R48) -/

theorem serve_of_idle {b : Bank} {s : State} (h : pressure s b.set = true ∨ (s.bank b).waiting = []) : serve b s = s := by
  unfold serve
  rcases h with hp | hw
  · exact if_pos hp
  · simp [hw]

theorem serve_of_state {b : Bank} {s : State} (hc : (s.bank b).state ≠ .closed) (ho : (s.bank b).state ≠ .opened) : serve b s = s := by
  cases hw : (s.bank b).waiting with
  | nil => exact serve_of_idle (.inr hw)
  | cons w ws =>
    cases hs : (s.bank b).state with
    | closed => exact absurd hs hc
    | opened => exact absurd hs ho
    | opening | draining | closing | refreshing => simp [serve, hw, hs]

/-- A CLOSED bank opens for the head group (R46). -/
theorem serve_closed {b : Bank} {s : State} {w : Waiter} {ws : List Waiter} (hw : (s.bank b).waiting = w :: ws)
    (hp : pressure s b.set = false) (hs : (s.bank b).state = .closed) :
    serve b s = startOpening b w.row w.mode ((headGroup (w :: ws)).map Waiter.toGrantee) (behindHeadGroup (w :: ws)) s := by
  simp [serve, hw, hp, hs]

/-- At an OPEN bank the serve rule lets in a READ head that names the row of a READ lease, and nobody else. -/
theorem serve_opened {b : Bank} {s : State} {w : Waiter} {ws : List Waiter} (hw : (s.bank b).waiting = w :: ws)
    (hp : pressure s b.set = false) (ho : (s.bank b).state = .opened) :
    serve b s =
      if (s.bank b).mode = some .read ∧ w.mode = .read ∧ (s.bank b).row = some w.row then
        refreshContention b (grantAll b .read (waiterTags (headGroup (w :: ws)))
          (s.setBank b { s.bank b with waiting := behindHeadGroup (w :: ws) }))
      else s := by
  simp [serve, hw, hp, ho, modBank]

/-- A group that joins an OPEN bank with entry `e` (R47): its ports hold the bank and are answered, and the contention deadline stays where
somebody still waits. -/
theorem joined_spec {b : Bank} {e : BankEntry} {m : Mode} {g : List (Port × Tag)} {s : State} (ho : e.state = .opened)
    (hc : e.contention ≠ none) (hh : e.holders = (s.bank b).holders) (hg : (g.map (·.1)).Nodup) :
    let v := refreshContention b (grantAll b m g (s.setBank b e))
    v = { s with banks := v.banks, ports := v.ports } ∧ (∀ c, c ≠ b → v.bank c = s.bank c) ∧
    v.bank b = { e with holders := (v.bank b).holders, contention := if e.waiting = [] then none else e.contention } ∧
    GroupGranted b m g s v := by
  intro v
  have frame : LeaseFrame s v ∧ OnlyBank b s v :=
    frame_trans (setBank_frame b e s) (frame_trans (grantAll_frame b m g _) (refreshContention_frame b _))
  have list : v.workList = s.workList := grantAll_workList b m g (s.setBank b e)
  have before : (s.setBank b e).bank b = e := by simp
  obtain ⟨k, granted, _⟩ := grantAll_bank b m g (s.setBank b e)
  rw [before] at granted
  obtain ⟨d, deadline⟩ := Option.ne_none_iff_exists'.1 hc
  have entry : v.bank b = { e with holders := k, contention := if e.waiting = [] then none else e.contention } := by
    show (refreshContention b _).bank b = _
    rw [refreshContention_bank, granted]
    simp [ho, deadline]
  have holders : (v.bank b).holders = ((grantAll b m g (s.setBank b e)).bank b).holders := by rw [entry, granted]
  obtain ⟨held, others, answers⟩ := grantAll_spec b m g (s.setBank b e) hg
  refine ⟨eq_of_leaseFrame frame.1 list, frame.2, by rw [entry], ⟨fun p tag hp => ?_, fun p hp => ?_, answers⟩⟩
  · rw [holders]; exact held p tag hp
  · obtain ⟨kept, port⟩ := others p hp
    exact ⟨by rw [holders, kept, before, hh], port⟩

/-! ### CANCEL (R53) -/

/-- A CANCEL that is dispatched ends in what the Lease Manager makes of it. -/
theorem ends_cancel {t : Time} {p : Port} {tag : Tag} {target : Byte} {s u w : State}
    (h : atDispatch t p ⟨tag, .cancel target⟩ [] s = some u) (ha : (u.port p).session = .attached)
    (hw : cancelRequest p tag target u = w) : Ends (exec (.cancel t p tag target) s) w :=
  hw ▸ ends_toOwner h ha

/-- A CANCEL reads its target as a tag where it is the byte of one (R168). -/
theorem extractLsb_setWidth_tag (k : Tag) : (k.setWidth 8 : Byte).extractLsb' 0 6 = k := by
  apply BitVec.eq_of_toNat_eq
  simp only [BitVec.extractLsb'_toNat, BitVec.toNat_setWidth]
  omega

theorem not_high_of_tag (k : Tag) : ¬64 ≤ (k.setWidth 8 : Byte).toNat := by
  simp only [BitVec.toNat_setWidth]
  omega

/-- A CANCEL whose target waits withdraws the entry. -/
theorem cancelRequest_waiting {p : Port} {tag k : Tag} {b : Bank} {u : State} (h : waitingOpen u p k = some b) :
    cancelRequest p tag (k.setWidth 8) u =
      answer p tag .ok 0 0 [] (withdrawWaiter b p (answer p k .cancelled (bankByte b) 0 []) u) := by
  simp only [cancelRequest, if_neg (not_high_of_tag k), extractLsb_setWidth_tag, h, reply]

/-- A CANCEL whose target does not wait is answered TOO-LATE or NOT-FOUND. -/
theorem cancelRequest_not_waiting {p : Port} {tag k : Tag} {u : State} (h : waitingOpen u p k = none) :
    cancelRequest p tag (k.setWidth 8) u = answer p tag (if grantedOpen u p k then .tooLate else .notFound) 0 0 [] u := by
  simp only [cancelRequest, if_neg (not_high_of_tag k), extractLsb_setWidth_tag, h, reply]

theorem any_waiter_iff (u : State) (p : Port) (k : Tag) (b : Bank) :
    (u.bank b).waiting.any (fun w => decide (w.port = p ∧ w.tag = k)) = true ↔ ∃ w ∈ (u.bank b).waiting, w.port = p ∧ w.tag = k := by
  simp

theorem waitingOpen_eq_some {u : State} {p : Port} {k : Tag} {b : Bank} {w : Waiter} (hw : w ∈ (u.bank b).waiting) (hp : w.port = p)
    (hk : w.tag = k) (only : ∀ c v, v ∈ (u.bank c).waiting → v.port = p → v.tag = k → c = b) : waitingOpen u p k = some b := by
  cases found : waitingOpen u p k with
  | none =>
    have nobody := List.find?_eq_none.1 found b (mem_allBanks b)
    exact absurd ((any_waiter_iff u p k b).2 ⟨w, hw, hp, hk⟩) nobody
  | some c =>
    obtain ⟨v, hv, vp, vk⟩ := (any_waiter_iff u p k c).1 (List.find?_some (a := c) found)
    rw [only c v hv vp vk]

theorem waitingOpen_eq_none {u : State} {p : Port} {k : Tag} (h : ∀ b w, w ∈ (u.bank b).waiting → ¬(w.port = p ∧ w.tag = k)) :
    waitingOpen u p k = none := by
  refine List.find?_eq_none.2 fun b _ found => ?_
  obtain ⟨w, hw, same⟩ := (any_waiter_iff u p k b).1 found
  exact h b w hw same

theorem grantedOpen_iff (u : State) (p : Port) (k : Tag) :
    grantedOpen u p k = true ↔ ∃ b, (∃ g ∈ (u.bank b).grantees, g.port = p ∧ g.tag = k) ∨ (u.bank b).holders.get p = some k := by
  simp [grantedOpen, mem_allBanks]

/-! ### A waiting entry that leaves (R22, R45, R51) -/

/-- The expiry of the wait deadline of the first entry of port `p`. -/
theorem ends_waitDeadlineExpiry {b : Bank} {p : Port} {s : State} {w : Waiter} {before after : List Waiter}
    (hw : (s.bank b).waiting = before ++ w :: after) (hp : w.port = p) (hb : ∀ v ∈ before, v.port ≠ p) :
    Ends (exec (.waitDeadlineExpiry b p) s)
      (withdrawWaiter b p (answer p w.tag .timeout (bankByte b) 0 []) (advance w.deadline s)) := by
  have found : (s.bank b).waiting.find? (fun v => decide (v.port = p)) = some w :=
    List.find?_eq_some_iff_append.2 ⟨by simpa using hp, before, after, hw, by simpa using hb⟩
  have event : exec (.waitDeadlineExpiry b p) s =
      .next (finish (withdrawWaiter b p (answer p w.tag .timeout (bankByte b) 0 []) (advance w.deadline s))) := by
    simp only [exec, execWaitDeadlineExpiry, found]
  rw [event]
  exact ends_finish _

theorem waitDeadlineExpiry_absent {b : Bank} {p : Port} {s : State} (h : ∀ w ∈ (s.bank b).waiting, w.port ≠ p) :
    exec (.waitDeadlineExpiry b p) s = .next s := by
  have absent : (s.bank b).waiting.find? (fun v => decide (v.port = p)) = none := by simpa using h
  simp only [exec, execWaitDeadlineExpiry, absent]

theorem isHead_iff (e : BankEntry) (p : Port) : e.isHead p = true ↔ ∃ w ws, e.waiting = w :: ws ∧ w.port = p := by
  unfold BankEntry.isHead
  cases e.waiting <;> simp

/-- A bank has a contention deadline exactly while it is OPEN and somebody waits (R22). -/
def ContentionTracksList (e : BankEntry) : Prop := e.contention ≠ none ↔ (e.state = .opened ∧ e.waiting ≠ [])

/-- The contention deadline of R22 after part of the list has gone: it ends with the list and is otherwise kept. -/
theorem ContentionTracksList.after_removal {e : BankEntry} (h : ContentionTracksList e) {rest : List Waiter} (sub : rest ⊆ e.waiting) (d : Time) :
    (if e.state = .opened ∧ rest ≠ [] then some (e.contention.getD d) else none) = if rest = [] then none else e.contention := by
  by_cases hr : rest = []
  · simp [hr]
  · have waits : e.waiting ≠ [] := fun he => hr (List.eq_nil_of_subset_nil (he ▸ sub))
    cases hc : e.contention with
    | none =>
      have shut : e.state ≠ .opened := fun ho => h.2 ⟨ho, waits⟩ hc
      simp [shut]
    | some c =>
      obtain ⟨ho, _⟩ := h.1 (by simp [hc])
      simp [ho, hr]

/-- The state in which port `p` has left the list of bank `b` with an answer, before the serve rule. -/
def withdrawn (b : Bank) (p : Port) (tag : Tag) (res : Result) (s : State) : State :=
  let rest := (s.bank b).waiting.filter (fun w => !decide (w.port = p))
  answer p tag res (bankByte b) 0 []
    (s.setBank b { s.bank b with waiting := rest, contention := if rest = [] then none else (s.bank b).contention })

/-- An answer and the contention deadline, in either order. -/
theorem refreshContention_answer (b : Bank) (p : Port) (tag : Tag) (res : Result) (i0 i1 : Byte) (payload : List Byte) (s : State) :
    refreshContention b (answer p tag res i0 i1 payload s) = answer p tag res i0 i1 payload (refreshContention b s) := rfl

theorem withdrawWaiter_answer {b : Bank} {p : Port} {tag : Tag} {res : Result} {s : State} (h : ContentionTracksList (s.bank b)) :
    withdrawWaiter b p (answer p tag res (bankByte b) 0 []) s =
      if (s.bank b).isHead p then serve b (withdrawn b p tag res s) else withdrawn b p tag res s := by
  have deadline := h.after_removal (rest := (s.bank b).waiting.filter (fun w => !decide (w.port = p)))
    (List.filter_subset_self _) (s.now + us s.settings.holdLimit)
  have refreshed : refreshContention b (answer p tag res (bankByte b) 0 []
      (modBank b (fun e => { e with waiting := e.waiting.filter (fun w => !decide (w.port = p)) }) s)) = withdrawn b p tag res s := by
    rw [refreshContention_answer, withdrawn, ← deadline]
    simp [refreshContention, modBank]
  unfold withdrawWaiter
  rw [refreshed]

/-! ### The contention deadline (R55, R59) -/

theorem contentionDeadlineExpiry_absent {b : Bank} {s : State} (h : (s.bank b).contention = none) :
    exec (.contentionDeadlineExpiry b) s = .next s := by
  simp only [exec, execContentionDeadlineExpiry, h]

/-- A contention deadline that runs out revokes every holder of its bank. -/
theorem ends_contentionDeadlineExpiry {b : Bank} {d : Time} {s : State} (h : (s.bank b).contention = some d) :
    Ends (exec (.contentionDeadlineExpiry b) s) (revoke b (s.bank b).holderPorts .contention (advance d s)) := by
  have event : exec (.contentionDeadlineExpiry b) s =
      .next (finish (revoke b (s.bank b).holderPorts .contention (advance d s))) := by
    simp only [exec, execContentionDeadlineExpiry, h]
  rw [event]
  exact ends_finish _

/-! ### The obligations -/

/-- Settles O14: by the mode of the head entry; the READ run is the `takeWhile` of the list behind it. -/
theorem headGroup : Obligations.HeadGroup := by
  refine ⟨rfl, fun w ws => ⟨headGroup_write ws, fun hr => ?_, headGroup_length_le, headGroup_uniform, headGroup_append (w :: ws)⟩⟩
  refine ⟨_, _, List.takeWhile_append_dropWhile.symm, headGroup_read ws hr, fun v hv => ?_, fun v vs rest => ?_⟩
  · simpa using List.mem_takeWhile_imp hv
  · simpa using not_head_dropWhile rest

/-- Settles O20: by the bank's state; the group that joins an OPEN READ bank is `joined_spec`'s. -/
theorem serveRule : Obligations.ServeRule := by
  refine fun b s => ⟨serve_of_idle, serve_of_state, fun w ws hw hp => ⟨fun hs => ?_, fun hs => ⟨fun other => ?_, ?_⟩⟩⟩
  · exact serve_closed hw hp hs
  · rw [serve_opened hw hp hs, if_neg other]
  · intro hm hr row hn hc
    have spec := joined_spec (b := b) (m := .read) (s := s) (g := waiterTags (Machine.headGroup (w :: ws)))
      (e := { s.bank b with waiting := behindHeadGroup (w :: ws) }) hs hc rfl (headGroup_nodup hn)
    rw [← (serve_opened hw hp hs).trans (if_pos ⟨hm, hr, row⟩)] at spec
    exact spec

/-- Settles O21: by whether the target is a tag, waits, or has been granted. -/
theorem cancelByWhereTheTagIs : Obligations.CancelByWhereTheTagIs := by
  intro t p tag target s u h ha
  refine ⟨fun high => ends_cancel h ha (if_pos high), ?_⟩
  rintro k rfl
  refine ⟨fun b w hw hp hk only => ?_, fun nobody => ⟨fun granted => ?_, fun absent => ?_⟩⟩
  · exact ends_cancel h ha (cancelRequest_waiting (waitingOpen_eq_some hw hp hk only))
  · refine ends_cancel h ha ?_
    rw [cancelRequest_not_waiting (waitingOpen_eq_none nobody), if_pos ((grantedOpen_iff u p k).2 granted)]
  · have never : ¬grantedOpen u p k = true := fun found => by
      obtain ⟨b, ⟨g, hg, same⟩ | holds⟩ := (grantedOpen_iff u p k).1 found
      · exact (absent b).1 g hg same
      · exact (absent b).2 holds
    refine ends_cancel h ha ?_
    rw [cancelRequest_not_waiting (waitingOpen_eq_none nobody), if_neg never]

/-- Settles O22: the expiry finds the port's entry or none; a withdrawal serves the bank exactly where the entry was the head. -/
theorem waitDeadlineExpiry : Obligations.WaitDeadlineExpiry := by
  refine ⟨fun b p s => ⟨fun w before after hw hp hb => ends_waitDeadlineExpiry hw hp hb, waitDeadlineExpiry_absent⟩,
    fun b p tag res s hc => ⟨fun head => ?_, fun behind => ?_⟩⟩
  · exact (withdrawWaiter_answer hc).trans (if_pos ((isHead_iff _ p).2 head))
  · have notHead : ¬(s.bank b).isHead p = true := fun head => by
      obtain ⟨w, ws, hw, hp⟩ := (isHead_iff _ p).1 head
      exact behind w ws hw hp
    exact (withdrawWaiter_answer hc).trans (if_neg notHead)

/-- Settles O23: the holders' notices and the drain are `revoke_holders_spec`'s, at the time of the deadline. -/
theorem contentionDeadlineExpiry : Obligations.ContentionDeadlineExpiry := by
  refine fun b s => ⟨contentionDeadlineExpiry_absent, fun d hd ho => ?_⟩
  obtain ⟨n, notices, drains⟩ := revoke_holders_spec b .contention (advance d s) ho
  exact ⟨n, notices, drains ▸ ends_contentionDeadlineExpiry hd⟩

end Sys2Proof.Machine.WaitingLists
end

section
/-!
SUPPORT. Line access and write checking: what READ and WRITE do once they reach the Access Engine, the Write Check, and the bounds on the
requests in flight and on the Staging Pool, which only an admission can raise (spec/04, R125).
-/

namespace Sys2Proof.Machine.LineAccess

/-! ### No intake: the Staging Pool gains nothing, and no request comes into flight -/

/-- From `s` to `t` nothing has been taken in: staged lines and tags in flight have at most gone, but for a port cleaned up by a DETACH,
which is left with that tag alone (R122, R123). -/
structure NoIntake (s t : State) : Prop where
  staging : t.staging.Sublist s.staging
  inFlight : ∀ p, (t.port p).inFlight.Sublist (s.port p).inFlight ∨ (t.port p).inFlight.length ≤ 1

theorem NoIntake.refl (s : State) : NoIntake s s := ⟨.refl _, fun _ => .inl (.refl _)⟩

theorem NoIntake.trans {s t u : State} (h : NoIntake s t) (k : NoIntake t u) : NoIntake s u := by
  refine ⟨k.staging.trans h.staging, fun p => ?_⟩
  rcases k.inFlight p with sub | one
  · exact (h.inFlight p).imp sub.trans sub.length_le.trans
  · exact .inr one

/-- Other fields than the ports have changed, and the Staging Pool has gained nothing. -/
theorem NoIntake.of_ports {s t : State} (hp : t.ports = s.ports) (hs : t.staging.Sublist s.staging) : NoIntake s t :=
  ⟨hs, fun p => .inl (by rw [State.port, State.port, hp])⟩

/-- Other fields than the ports and the Staging Pool have changed. -/
theorem NoIntake.of_kept {s t : State} (hp : t.ports = s.ports) (hs : t.staging = s.staging) : NoIntake s t :=
  .of_ports hp (hs ▸ .refl _)

/-- After a change of other fields than the ports and the Staging Pool. -/
theorem NoIntake.after {s t u : State} (k : NoIntake t u) (hp : t.ports = s.ports) (hs : t.staging = s.staging) : NoIntake s u :=
  (NoIntake.of_kept hp hs).trans k

/-- A change of one port that brings no tag into flight. -/
theorem NoIntake.of_modPort {p : Port} {f : PortState → PortState} {s : State}
    (h : (f (s.port p)).inFlight.Sublist (s.port p).inFlight ∨ (f (s.port p)).inFlight.length ≤ 1) : NoIntake s (modPort p f s) := by
  refine ⟨.refl _, fun q => ?_⟩
  rw [modPort_port]
  split_ifs with same
  · exact same ▸ h
  · exact .inl (.refl _)

/-- Changes of a kind that take nothing in, one after the other. -/
theorem noIntake_foldl {α : Type} {f : State → α → State} (h : ∀ s a, NoIntake s (f s a)) (l : List α) (s : State) :
    NoIntake s (l.foldl f s) := by
  induction l generalizing s with
  | nil => exact .refl s
  | cons a l ih => exact (h s a).trans (ih _)

theorem noIntake_of_leaseFrame {s t : State} (h : LeaseFrame s t) : NoIntake s t :=
  ⟨h.staging ▸ .refl _, fun p => .inl (h.ports p).inFlight⟩

/-! ### The shared operations take nothing in -/

theorem noIntake_advance (t : Time) (s : State) : NoIntake s (advance t s) := .of_kept rfl rfl

theorem noIntake_answer (p : Port) (tag : Tag) (res : Result) (i0 i1 : Byte) (payload : List Byte) (s : State) :
    NoIntake s (answer p tag res i0 i1 payload s) := noIntake_of_leaseFrame (answer_frame .b0 ..).1

theorem noIntake_reply (p : Port) (tag : Tag) (res : Result) (s : State) : NoIntake s (reply p tag res s) := noIntake_answer ..

theorem noIntake_raiseNotice (p : Port) (n : Notice) (s : State) : NoIntake s (raiseNotice p n s) :=
  noIntake_of_leaseFrame (raiseNotice_frame .b0 p n s).1

theorem noIntake_recordFault (p : Port) (f : FaultRecord) (s : State) : NoIntake s (recordFault p f s) := by
  obtain ⟨l, o, n, e⟩ := recordFault_eq p f s
  rw [e]
  exact .of_modPort (f := fun q => { q with faults := l, overflow := o, notices := n }) (.inl (.refl _))

theorem noIntake_refuse (p : Port) (tag : Tag) (res : Result) (s : State) : NoIntake s (refuse p tag res s) := by
  unfold refuse
  split_ifs
  · exact .of_modPort (.inl (.refl _))
  · exact noIntake_recordFault ..

theorem noIntake_freeStaged (p : Port) (tag : Tag) (s : State) : NoIntake s (freeStaged p tag s) :=
  .of_ports rfl List.filter_sublist

theorem noIntake_setStates (x : BankSet) (st : BankState) (s : State) : NoIntake s (setStates x st s) := by
  obtain ⟨k, _, e⟩ := setStates_eq x st s
  rw [e]
  exact .of_kept rfl rfl

theorem noIntake_changeUrgency (v : Nat) (s : State) : NoIntake s (changeUrgency v s) := by
  refine (noIntake_foldl (fun t x => ?_) BankSet.all { s with settings := { s.settings with urgency := v } }).after rfl rfl
  split_ifs
  · exact noIntake_of_leaseFrame (enterPressure_frame x t)
  · exact noIntake_of_leaseFrame (serveBanks_frame _ t)
  · exact .refl t

/-- The end of an event changes no more of a port than its notices (R108). -/
theorem noIntake_finish (w : State) : NoIntake w (finish w) := by
  have done := eventEnd_finish w
  refine ⟨done.staging ▸ .refl _, fun p => .inl ?_⟩
  rw [done.ports p]
  split_ifs <;> exact .refl _

/-! ### The owners of the requests take nothing in -/

theorem openRequest_frame (p : Port) (tag : Tag) (b : Bank) (row : Row) (mode : Mode) (s : State) :
    LeaseFrame s (openRequest p tag b row mode s) := by
  unfold openRequest openWaits
  dsimp only
  split_ifs
  · exact (answer_frame b ..).1
  · exact (answer_frame b ..).1
  · exact (answer_frame b ..).1
  · exact (startOpening_frame ..).1
  · exact (grant_frame ..).1
  · exact (setBank_frame ..).1
  · exact (frame_trans (setBank_frame b _ s) (frame_trans (refreshContention_frame b _) (serve_frame b _))).1
  · exact (frame_trans (setBank_frame b _ s) (refreshContention_frame b _)).1

theorem releaseRequest_frame (p : Port) (tag : Tag) (b : Bank) (s : State) : LeaseFrame s (releaseRequest p tag b s) := by
  unfold releaseRequest
  split_ifs
  · exact (frame_trans (removeHolder_frame b p s) (frame_trans (answer_frame b ..) (drainIfEmpty_frame b _))).1
  · exact (answer_frame b ..).1

theorem cancelRequest_frame (p : Port) (tag : Tag) (target : Byte) (s : State) : LeaseFrame s (cancelRequest p tag target s) := by
  unfold cancelRequest
  dsimp only
  split
  · exact (answer_frame .b0 ..).1
  · split
    · next b _ => exact (frame_trans (withdrawWaiter_frame b p _ s fun u => answer_frame b ..) (answer_frame b ..)).1
    · exact (answer_frame .b0 ..).1

theorem readRequest_frame (p : Port) (tag : Tag) (b : Bank) (first : BitVec 5) (count : Nat) (s : State) :
    LeaseFrame s (readRequest p tag b first count s) := by
  unfold readRequest
  split_ifs
  · exact (answer_frame b ..).1
  · exact (answer_frame b ..).1
  · exact (placeWork_frame b _ s).1

theorem statusRequest_frame (p : Port) (tag : Tag) (item : Byte) (s : State) : LeaseFrame s (statusRequest p tag item s) := by
  unfold statusRequest
  split <;> exact (answer_frame .b0 ..).1

theorem getRequest_frame (p : Port) (tag : Tag) (target : BitVec 3) (ident : Byte) (s : State) :
    LeaseFrame s (getRequest p tag target ident s) := by
  unfold getRequest
  split <;> exact (answer_frame .b0 ..).1

theorem windowChangeAt_frame (p : Port) (s : State) (b : Bank) : LeaseFrame s (windowChangeAt p s b) := by
  unfold windowChangeAt
  dsimp only
  split
  · split
    · exact .refl s
    · exact (revoke_frame ..).1
  · split
    · split
      · exact .refl s
      · exact (frame_trans (setBank_frame b _ s) (answer_frame b ..)).1
    · split
      · split
        · exact .refl s
        · exact (withdrawWaiter_frame b p _ s fun u => answer_frame b ..).1
      · exact .refl s

/-- The Write Check stages nothing; it frees the lines of a WRITE it rejects (R79). -/
theorem noIntake_checkedWrite (p : Port) (tag : Tag) (b : Bank) (first : BitVec 5) (count : Nat) (s : State) :
    NoIntake s (checkedWrite p tag b first count s) := by
  unfold checkedWrite
  dsimp only
  split
  · exact .of_kept rfl rfl
  · split_ifs
    · exact (noIntake_freeStaged p tag s).trans ((noIntake_recordFault ..).trans (noIntake_reply ..))
    · exact (noIntake_recordFault ..).after rfl rfl

theorem noIntake_writeRequest (p : Port) (tag : Tag) (b : Bank) (first : BitVec 5) (count : Nat) (s : State) :
    NoIntake s (writeRequest p tag b first count s) := by
  have freed : ∀ res, NoIntake s (reply p tag res (freeStaged p tag s)) := fun res =>
    (noIntake_freeStaged p tag s).trans (noIntake_reply ..)
  unfold writeRequest
  split_ifs
  · exact freed _
  · exact freed _
  · exact freed _
  · exact noIntake_checkedWrite ..

theorem noIntake_claimRequest (p : Port) (tag : Tag) (s : State) : NoIntake s (claimRequest p tag s) := by
  unfold claimRequest
  split_ifs
  · exact noIntake_reply ..
  · exact (noIntake_reply ..).after rfl rfl

theorem noIntake_unclaimRequest (p : Port) (tag : Tag) (s : State) : NoIntake s (unclaimRequest p tag s) := by
  unfold unclaimRequest
  split_ifs
  · exact (noIntake_reply ..).after rfl rfl
  · exact noIntake_reply ..

/-- A setting is stored beside the ports and the Staging Pool; a new URGENCY serves and presses the banks as well (R98). -/
theorem noIntake_storeSetting {target : BitVec 3} {ident : Byte} {v : BitVec 32} {s t : State}
    (h : storeSetting target ident v s = some t) : NoIntake s t := by
  have stored : ∀ {c : Prop} [Decidable c] {u : State}, (if c then some u else none) = some t → NoIntake s u → NoIntake s t := by
    intro c _ u hu k
    split_ifs at hu
    cases hu
    exact k
  unfold storeSetting at h
  split at h
  · unfold storeLeaseLimit at h
    split at h
    · cases h
    · exact stored h (.of_kept rfl rfl)
  · unfold storeGuard at h
    split at h
    · cases h
    · exact stored h (.of_kept rfl rfl)
  · exact stored h (.of_kept rfl rfl)
  · exact stored h (.of_kept rfl rfl)
  · exact stored h (noIntake_changeUrgency ..)
  · exact stored h (.of_kept rfl rfl)
  · exact stored h (.of_kept rfl rfl)
  · exact stored h (.of_kept rfl rfl)
  · exact stored h (.of_kept rfl rfl)
  · cases h

theorem noIntake_setRequest (p : Port) (tag : Tag) (target : BitVec 3) (ident : Byte) (value : Option (BitVec 32)) (s : State) :
    NoIntake s (setRequest p tag target ident value s) := by
  unfold setRequest
  split
  · exact noIntake_reply ..
  · split
    · next t h =>
      obtain ⟨v, _, stored⟩ := Option.bind_eq_some_iff.1 h
      exact (noIntake_storeSetting stored).trans (noIntake_reply ..)
    · exact noIntake_reply ..

theorem noIntake_windowRequest (p : Port) (tag : Tag) (target : BitVec 3) (index : Byte) (r : Option WindowRecord) (s : State) :
    NoIntake s (windowRequest p tag target index r s) := by
  unfold windowRequest
  split
  · exact noIntake_reply ..
  · split
    · split
      · have applied := fun (t : Port) (k : State) => noIntake_of_leaseFrame (foldl_frame _ (windowChangeAt_frame t) Bank.all k)
        exact ((applied _ _).trans (noIntake_reply ..)).after rfl rfl
      · exact noIntake_reply ..
    · exact noIntake_reply ..

theorem noIntake_clearLoss (x : BankSet) (s : State) : NoIntake s (clearLoss x s) := by
  unfold clearLoss
  split_ifs
  · exact .of_kept rfl rfl
  · exact .refl s

theorem noIntake_clearFaultsRequest (p : Port) (tag : Tag) (scope : BitVec 2) (s : State) :
    NoIntake s (clearFaultsRequest p tag scope s) := by
  unfold clearFaultsRequest
  split
  · exact NoIntake.trans (.of_modPort (.inl (.refl _))) (noIntake_reply ..)
  · split
    · exact noIntake_reply ..
    · exact ((noIntake_clearLoss .a s).trans (noIntake_clearLoss .b _)).trans (noIntake_reply ..)
  · exact noIntake_reply ..

/-! ### Cleanup and the session gate take nothing in -/

theorem noIntake_dropIngress (p : Port) (s : State) : NoIntake s (dropIngress p s) := by
  rw [dropIngress_staging]
  refine ⟨List.filter_sublist, fun q => .inl ?_⟩
  rw [State.port_setPort]
  split_ifs with same
  · exact same ▸ .refl _
  · exact .refl _

theorem noIntake_dropClaim (p : Port) (s : State) : NoIntake s (dropClaim p s) := by
  unfold dropClaim
  split
  · split_ifs
    · exact .of_kept rfl rfl
    · exact .refl s
  · exact .refl s

theorem noIntake_cleanupBanks (p : Port) (s : State) : NoIntake s (Bank.all.foldl (cleanupBank p) s) := by
  refine ⟨?_, fun q => .inl ((cleanupBanks_spec p Bank.all s).1.ports q).inFlight⟩
  rw [cleanupBanks_staging p Bank.all s (by decide)]
  exact List.filter_sublist

/-- Cleanup leaves at most the DETACH being taken in flight (R123). -/
theorem noIntake_cleanup (p : Port) (kept : Option Tag) (s : State) : NoIntake s (cleanup p kept s) := by
  have atMostOne : kept.toList.length ≤ 1 := by cases kept <;> simp
  unfold cleanup
  dsimp only
  exact (noIntake_cleanupBanks p s).trans <| (noIntake_dropIngress p _).trans <| (noIntake_dropClaim p _).trans <|
    .of_modPort (.inr atMostOne)

theorem noIntake_detachPort (p : Port) (tag : Tag) (s : State) : NoIntake s (detachPort p tag s) := by
  unfold detachPort
  dsimp only
  split_ifs
  · exact (noIntake_cleanup p _ s).trans (noIntake_reply ..)
  · exact noIntake_cleanup p _ s

theorem noIntake_endDetaching (p : Port) (s : State) : NoIntake s (endDetaching p s) := by
  have ends : NoIntake s (s.setPort p { s.port p with session := .detached, detachTag := none }) :=
    .of_modPort (f := fun q => { q with session := .detached, detachTag := none }) (.inl (.refl _))
  unfold endDetaching
  dsimp only
  split_ifs
  · split
    · exact ends.trans (noIntake_reply ..)
    · exact ends
  · exact .refl s

theorem noIntake_toOwner (p : Port) (r : Request) (s : State) : NoIntake s (toOwner p r s) := by
  unfold toOwner
  split
  · exact noIntake_reply ..
  · exact noIntake_detachPort ..
  · exact noIntake_of_leaseFrame (openRequest_frame ..)
  · exact noIntake_of_leaseFrame (releaseRequest_frame ..)
  · exact noIntake_of_leaseFrame (cancelRequest_frame ..)
  · exact noIntake_of_leaseFrame (readRequest_frame ..)
  · exact noIntake_writeRequest ..
  · exact noIntake_reply ..
  · exact noIntake_of_leaseFrame (statusRequest_frame ..)
  · exact noIntake_claimRequest ..
  · exact noIntake_unclaimRequest ..
  · exact noIntake_setRequest ..
  · exact noIntake_of_leaseFrame (getRequest_frame ..)
  · exact noIntake_windowRequest ..
  · exact noIntake_clearFaultsRequest ..

theorem noIntake_atDetached (p : Port) (r : Request) (s : State) : NoIntake s (atDetached p r s) := by
  unfold atDetached
  split
  · exact NoIntake.trans (.of_modPort (.inl (.refl _))) (noIntake_answer ..)
  · exact noIntake_of_leaseFrame (statusRequest_frame ..)
  · exact (noIntake_freeStaged ..).trans (noIntake_reply ..)
  · exact noIntake_reply ..

theorem noIntake_gate (p : Port) (r : Request) (s : State) : NoIntake s (gate p r s) := by
  unfold gate
  split_ifs
  · exact noIntake_toOwner ..
  · exact noIntake_atDetached ..

theorem noIntake_dispatch (p : Port) (r : Request) (s : State) : NoIntake s (dispatch p r s) :=
  NoIntake.trans (.of_modPort (.inl (.refl _))) (noIntake_gate ..)

theorem noIntake_dispatchNext (p : Port) (s : State) : NoIntake s (dispatchNext p s) := by
  unfold dispatchNext
  split
  · exact .refl s
  · split_ifs
    · exact (noIntake_dispatch ..).trans (noIntake_finish _)
    · exact .refl s

theorem noIntake_runQueue (p : Port) (n : Nat) (s : State) : NoIntake s (runQueue p n s) := by
  induction n generalizing s with
  | zero => exact .refl s
  | succ n ih => exact (noIntake_dispatchNext p s).trans (ih _)

/-- The requests that waited for a wake were taken in at their admission (R129). -/
theorem noIntake_resumeDispatch (s : State) : NoIntake s (resumeDispatch s) :=
  noIntake_foldl (fun s p => noIntake_runQueue p _ s) _ _

/-! ### The part's own events take nothing in -/

theorem noIntake_raiseEverywhere (n : Notice) (s : State) : NoIntake s (raiseEverywhere n s) :=
  noIntake_foldl (fun s p => noIntake_raiseNotice p n s) _ _

theorem noIntake_completeOpen (b : Bank) (row : Row) (s : State) : NoIntake s (completeOpen b row s) := by
  have stands : ∀ k, LeaseFrame k (grantStands b k) := fun k =>
    (frame_trans (setBank_frame b _ k)
      (frame_trans (grantAll_frame ..) (frame_trans (refreshContention_frame ..) (serve_frame ..)))).1
  have fails : ∀ k, LeaseFrame k (grantFails b row k) := fun k => (frame_trans (setBank_frame b _ k) (startClosing_frame b _)).1
  unfold completeOpen
  dsimp only
  split_ifs
  · exact (noIntake_of_leaseFrame (stands _)).after rfl rfl
  · exact (noIntake_of_leaseFrame (fails _)).after rfl rfl

theorem noIntake_completeClose (b : Bank) (s : State) : NoIntake s (completeClose b s) :=
  (noIntake_of_leaseFrame (serve_frame b _).1).after rfl rfl

/-- A transfer that ends frees its staged lines and answers its request (R12). -/
theorem noIntake_xferEffect (x : Xfer) (lines : List StagedLine) (s : State) : NoIntake s (xferEffect x lines s) := by
  have commits : NoIntake s (commitXfer x lines s) := by
    unfold commitXfer
    split
    · exact .refl s
    · exact .of_kept rfl rfl
  unfold xferEffect
  dsimp only
  split
  · split_ifs
    · exact (noIntake_answer ..).after rfl rfl
    · exact .of_kept rfl rfl
  · have freed := fun q tag => commits.trans (noIntake_freeStaged q tag _)
    split
    · exact (freed ..).trans (noIntake_reply ..)
    · exact freed ..

theorem noIntake_completeXfer (x : Xfer) (lines : List StagedLine) (s : State) : NoIntake s (completeXfer x lines s) :=
  ((noIntake_xferEffect x lines (freePath s)).trans
    ((noIntake_of_leaseFrame (settle_frame x.bank _).1).trans (noIntake_endDetaching x.port _))).after rfl rfl

theorem noIntake_completeStep (x : BankSet) (s : State) : NoIntake s (completeStep x s) :=
  ((noIntake_setStates x .closed _).trans (noIntake_of_leaseFrame (serveBanks_frame ..))).after rfl rfl

theorem noIntake_raiseBalance (x : BankSet) (s : State) : NoIntake s (raiseBalance x s) := by
  have misses : NoIntake s (missTick x s) := (noIntake_foldl (fun s p => noIntake_recordFault p _ s) _ _).after rfl rfl
  have forces : ∀ k, NoIntake k (forceSet x k) := fun k => noIntake_of_leaseFrame (forceSet_frame x k)
  have presses : ∀ k, NoIntake k (enterPressure x k) := fun k => noIntake_of_leaseFrame (enterPressure_frame x k)
  unfold raiseBalance
  dsimp only
  split_ifs
  · exact misses
  · exact ((presses _).trans (forces _)).after rfl rfl
  · exact (forces _).after rfl rfl
  · exact (presses _).after rfl rfl
  · exact .of_kept rfl rfl

theorem noIntake_takeSample (reading : Int) (s : State) : NoIntake s (takeSample reading s) := by
  unfold takeSample
  dsimp only
  split_ifs
  · exact .of_kept rfl rfl
  · exact (noIntake_raiseEverywhere ..).after rfl rfl

theorem noIntake_completeWake (s : State) : NoIntake s (completeWake s) := by
  have votes : ∀ k, NoIntake k (clearVotes k) := fun k => noIntake_foldl (fun k p => .of_modPort (.inl (.refl _))) _ k
  have wakes : ∀ n k, NoIntake k { raiseEverywhere n k with retention := .active } := fun n k =>
    (noIntake_raiseEverywhere n k).trans (.of_kept rfl rfl)
  unfold completeWake
  exact (noIntake_raiseBalance .a s).trans <| (noIntake_raiseBalance .b _).trans <| (votes _).trans (wakes _ _)

theorem noIntake_loseLink (p : Port) (s : State) : NoIntake s (loseLink p s) := by
  have loses : NoIntake s (loseSession p s) := by
    unfold loseSession
    split
    · exact noIntake_cleanup ..
    · exact .of_modPort (.inr (by simp))
    · exact (noIntake_dropIngress p s).trans (.of_modPort (.inr (by simp)))
  unfold loseLink
  split_ifs
  · exact .refl s
  · exact loses.trans (.of_modPort (.inl (.refl _)))

theorem nextPacket_inFlight (q : PortState) : (nextPacket q).inFlight = q.inFlight := by
  unfold nextPacket
  split
  · rfl
  · split <;> rfl

theorem noIntake_powerOn (reading : Int) (s : State) : NoIntake s (powerOn reading s) := by
  refine ⟨List.nil_sublist _, fun p => .inr ?_⟩
  rw [powerOn, State.port_powerOn]
  decide

/-- A warm reset empties the Staging Pool and every in-flight set (R74, R134). -/
theorem noIntake_warmReset (s : State) : NoIntake s (warmReset s) := by
  have banks : ∀ k b, NoIntake k (warmResetBank k b) := fun k b => by
    rw [warmResetBank_eq]
    exact .of_kept rfl rfl
  have resets : ∀ k v st, NoIntake k { changeUrgency v k with settings := st } := fun k v st =>
    (noIntake_changeUrgency v k).trans (.of_kept rfl rfl)
  unfold warmReset
  dsimp only
  refine NoIntake.trans (NoIntake.trans ?_ (noIntake_foldl banks Bank.all _)) (resets _ _ _)
  exact ⟨List.nil_sublist _, fun p => .inr (by cases p <;> exact Nat.zero_le 1)⟩

/-! ### What arrives -/

/-- The packet stages no more lines than the decoded count of its WRITE (R169). -/
def StagesItsCount (a : Arrival) : Prop :=
  ∀ r lines b m f c, a = .request r lines → r.body = .writeLines b m f c → lines.length ≤ c

theorem length_payloadLines (masked : Bool) (n : Nat) (bytes : List Byte) : (payloadLines masked n bytes).length = n := by
  induction n generalizing bytes with
  | zero => rfl
  | succ n ih => simp [payloadLines, ih]

theorem stagesItsCount_of_not_write {r : Request} {lines : List StagedLine} (h : isWriteLines r = false) :
    StagesItsCount (.request r lines) := by
  rintro _ _ b m f c ⟨⟩ write
  exact absurd ((isWriteLines_iff r).2 ⟨b, m, f, c, write⟩) (by simp [h])

theorem stagesItsCount_writeBody (tag : Tag) (b : Bank) (masked : Bool) (first : BitVec 5) (less1 : BitVec 3) (payload : List Byte) :
    StagesItsCount (.request ⟨tag, (writeBody b masked first less1 payload).1⟩ (writeBody b masked first less1 payload).2) := by
  unfold writeBody
  split_ifs
  · rintro _ _ _ _ _ _ ⟨⟩ ⟨⟩
    exact (length_payloadLines ..).le
  · rintro _ _ _ _ _ _ ⟨⟩ ⟨⟩
    exact le_rfl

/-- Of the kinds of request only a WRITE carries lines (R168, R170). -/
theorem stagesItsCount_decodeBody {kind b2 b3 b4 b5 b6 : Byte} {payload : List Byte} {body : Body} {lines : List StagedLine} (tag : Tag)
    (h : decodeBody kind b2 b3 b4 b5 b6 payload = some (body, lines)) : StagesItsCount (.request ⟨tag, body⟩ lines) := by
  unfold decodeBody at h
  dsimp only at h
  split at h
  case h_7 =>
    rw [Option.some.injEq] at h
    have write := stagesItsCount_writeBody tag (Bank.ofBits (b2.extractLsb' 0 3)) (b2.getLsbD 4) (b5.extractLsb' 0 5)
      (b5.extractLsb' 5 3) payload
    rw [h] at write
    exact write
  case h_16 => cases h
  all_goals
    cases h
    exact stagesItsCount_of_not_write rfl

theorem stagesItsCount_decodePacket (bytes : List Byte) : StagesItsCount (decodePacket bytes) := by
  unfold decodePacket
  split
  · split
    · dsimp only
      split
      · next h => exact stagesItsCount_decodeBody _ h
      · rintro _ _ _ _ _ _ ⟨⟩
    · rintro _ _ _ _ _ _ ⟨⟩
  · rintro _ _ _ _ _ _ ⟨⟩

/-- The wake that a request begins may abandon a STEP and serve its banks (R15, R112). -/
theorem noIntake_beginWake (s : State) : NoIntake s (beginWake s) := by
  have abandons : ∀ k, NoIntake k (abandonStep k) := by
    intro k
    unfold abandonStep
    split
    · exact (noIntake_setStates _ .closed k).trans ((noIntake_of_leaseFrame (serveBanks_frame ..)).after rfl rfl)
    · exact .refl k
  unfold beginWake
  split_ifs
  · exact (abandons _).after rfl rfl
  · exact .of_kept rfl rfl

/-- What an admission event does after the request has been queued takes nothing more in (R127). -/
theorem noIntake_admission (p : Port) (r : Request) (lines : List StagedLine) (s : State) :
    NoIntake (enqueue p r lines s) (admission p r lines s) := by
  have wakes : NoIntake (enqueue p r lines s) (admitted p r lines s) := by
    unfold admitted
    dsimp only
    split_ifs
    · exact .refl _
    · split
      · exact .of_kept rfl rfl
      · exact noIntake_beginWake _
      · exact .refl _
  unfold admission
  dsimp only
  split_ifs
  · exact wakes.trans (noIntake_dispatch ..)
  · exact wakes

/-- A packet that arrives takes nothing in, unless it is a request that passes the checks and is queued (R125, R127). -/
theorem arrive_cases (p : Port) (a : Arrival) (s : State) :
    NoIntake s (arrive p a s) ∨
      ∃ r lines, a = .request r lines ∧ admissionRefusal s p r = none ∧ NoIntake (enqueue p r lines s) (arrive p a s) := by
  unfold arrive
  split_ifs
  · exact .inl (.refl s)
  · split
    · exact .inl (noIntake_recordFault ..)
    · exact .inl (noIntake_refuse ..)
    · split
      · exact .inl (noIntake_refuse ..)
      · next hr => exact .inr ⟨_, _, rfl, hr, noIntake_admission ..⟩

/-! ### What a command takes in -/

/-- A command's event takes nothing in, or is the arrival of one packet. -/
def TakesInAtMostAnArrival (o : Outcome) (s : State) : Prop :=
  (∃ v, o = .next v ∧ NoIntake s v) ∨ ∃ t p a, StagesItsCount a ∧ o = .next (finish (arrive p a (advance t s)))

theorem takesIn_event {t : Time} {s w : State} (h : NoIntake (advance t s) w) : TakesInAtMostAnArrival (.next (finish w)) s :=
  .inl ⟨_, rfl, ((noIntake_advance t s).trans h).trans (noIntake_finish w)⟩

theorem takesIn_nothing (s : State) : TakesInAtMostAnArrival (.next s) s := .inl ⟨s, rfl, .refl s⟩

/-- A request command other than a WRITE is the arrival of a packet that stages no lines. -/
theorem takesIn_request (t : Time) (p : Port) (tag : Tag) (body : Body) (s : State) (h : isWriteLines ⟨tag, body⟩ = false) :
    TakesInAtMostAnArrival (.next (requestEvent t p ⟨tag, body⟩ [] s)) s :=
  .inr ⟨t, p, .request ⟨tag, body⟩ [], stagesItsCount_of_not_write h, rfl⟩

theorem takesIn_exec (c : Instr) (s : State) : TakesInAtMostAnArrival (exec c s) s := by
  cases c with
  | packetArrival t p bytes => exact .inr ⟨t, p, _, stagesItsCount_decodePacket bytes, rfl⟩
  | writeLines t p tag b masked first less1 payload =>
    exact .inr ⟨t, p, _, stagesItsCount_writeBody tag b masked first less1 payload, rfl⟩
  | egressSendBegin t p =>
    refine takesIn_event (t := t) (.of_modPort (.inl ?_))
    split_ifs
    · rw [nextPacket_inFlight]
    · exact .refl _
  | egressSendEnd t p => exact takesIn_event (t := t) (.of_modPort (.inl (.refl _)))
  | egressPause t p => exact takesIn_event (t := t) (.of_modPort (.inl (.refl _)))
  | egressResume t p => exact takesIn_event (t := t) (.of_modPort (.inl (.refl _)))
  | linkDown t p => exact takesIn_event (noIntake_loseLink p (advance t s))
  | linkUp t p =>
    refine takesIn_event (t := t) (.of_modPort (.inl ?_))
    split_ifs <;> exact .refl _
  | powerOnReset t reading => exact takesIn_event ((noIntake_powerOn reading (advance t s)).trans (noIntake_takeSample ..))
  | warmReset t => exact takesIn_event (noIntake_warmReset (advance t s))
  | openCompletion =>
    show TakesInAtMostAnArrival (execOpenCompletion s) s
    unfold execOpenCompletion
    split
    · exact takesIn_event (noIntake_completeOpen ..)
    · exact takesIn_nothing s
  | closeCompletion =>
    show TakesInAtMostAnArrival (execCloseCompletion s) s
    unfold execCloseCompletion
    split
    · exact takesIn_event (noIntake_completeClose ..)
    · exact takesIn_nothing s
  | xferCompletion =>
    show TakesInAtMostAnArrival (execXferCompletion s) s
    unfold execXferCompletion
    split
    · exact takesIn_event (noIntake_completeXfer ..)
    · exact takesIn_nothing s
  | stepCompletion =>
    show TakesInAtMostAnArrival (execStepCompletion s) s
    unfold execStepCompletion
    split
    · exact takesIn_event (noIntake_completeStep ..)
    · exact takesIn_nothing s
  | tick x => exact takesIn_event ((noIntake_raiseBalance x (advance _ s)).trans (.of_kept rfl rfl))
  | thermalSample reading => exact takesIn_event (noIntake_takeSample reading (advance _ s))
  | waitDeadlineExpiry b p =>
    show TakesInAtMostAnArrival (execWaitDeadlineExpiry b p s) s
    unfold execWaitDeadlineExpiry
    split
    · exact takesIn_event (noIntake_of_leaseFrame (withdrawWaiter_frame b p _ _ fun u => answer_frame b ..).1)
    · exact takesIn_nothing s
  | contentionDeadlineExpiry b =>
    show TakesInAtMostAnArrival (execContentionDeadlineExpiry b s) s
    unfold execContentionDeadlineExpiry
    split
    · exact takesIn_event (noIntake_of_leaseFrame (revoke_frame ..).1)
    · exact takesIn_nothing s
  | claimExpiry =>
    show TakesInAtMostAnArrival (execClaimExpiry s) s
    unfold execClaimExpiry
    split
    · next h _ => exact takesIn_event (t := h.expires) ((noIntake_raiseNotice ..).after rfl rfl)
    · exact takesIn_nothing s
  | wakeCompletion =>
    show TakesInAtMostAnArrival (execWakeCompletion s) s
    unfold execWakeCompletion
    split
    · exact .inl ⟨_, rfl, (noIntake_advance _ s).trans <| (noIntake_completeWake _).trans <|
        (noIntake_finish _).trans (noIntake_resumeDispatch _)⟩
    · exact takesIn_nothing s
  | _ => exact takesIn_request _ _ _ _ s rfl

/-! ### The bounds -/

/-- What holds where nothing is taken in, and across the queueing of a request that passes the checks of its admission, holds across every
step. -/
theorem step_keeps {P : State → Prop} (kept : ∀ {s t}, NoIntake s t → P s → P t)
    (queued : ∀ {p r lines s}, StagesItsCount (.request r lines) → admissionRefusal s p r = none → P s → P (enqueue p r lines s))
    {s t : State} (h : step s = .next t) (hs : P s) : P t := by
  have exec_keeps : ∀ c k, P k → exec c k = .next t → P t := by
    intro c k hk hc
    rcases takesIn_exec c k with ⟨v, hv, none⟩ | ⟨m, p, a, count, hv⟩
    · obtain rfl : v = t := Host.Outcome.next.inj (hv.symm.trans hc)
      exact kept none hk
    · obtain rfl : finish (arrive p a (advance m k)) = t := Host.Outcome.next.inj (hv.symm.trans hc)
      have now : P (advance m k) := kept (noIntake_advance m k) hk
      refine kept (noIntake_finish _) ?_
      rcases arrive_cases p a (advance m k) with none | ⟨r, lines, rfl, passed, none⟩
      · exact kept none now
      · exact kept none (queued count passed now)
  unfold step at h
  split at h
  · exact Host.Outcome.next.inj h ▸ hs
  · refine exec_keeps _ _ (kept ?_ hs) h
    exact .of_kept rfl rfl

theorem admissionRefusal_none {s : State} {p : Port} {r : Request} (h : admissionRefusal s p r = none) : Admissible s p r :=
  (admissionRefusal_eq_none (s := s) s.now).1 h

theorem inFlightGood_iff (s : State) : inFlightGood s = true ↔
    ∀ p, (s.port p).inFlight.length ≤ Config.responsePlaces ∧ (s.port p).inFlight.Nodup := by
  simp [inFlightGood, mem_allPorts]

theorem stagingGood_iff (s : State) : stagingGood s = true ↔
    usedCount s ≤ Config.stagingLines ∧ ∀ p, stagedCount s p ≤ Config.stagingLinesPerPort := by
  simp [stagingGood, mem_allPorts]

theorem inFlightGood_of_noIntake {s t : State} (h : NoIntake s t) (hs : inFlightGood s = true) : inFlightGood t = true := by
  rw [inFlightGood_iff] at hs ⊢
  intro p
  obtain ⟨few, distinct⟩ := hs p
  rcases h.inFlight p with sub | one
  · exact ⟨sub.length_le.trans few, distinct.sublist sub⟩
  · refine ⟨one.trans (by decide), ?_⟩
    match hl : (t.port p).inFlight with
    | [] => exact List.nodup_nil
    | [tag] => exact List.nodup_singleton tag
    | _ :: _ :: _ => simp [hl] at one

theorem inFlight_enqueue (p : Port) (r : Request) (lines : List StagedLine) (s : State) (q : Port) :
    ((enqueue p r lines s).port q).inFlight = if q = p then (s.port p).inFlight ++ [r.tag] else (s.port q).inFlight := by
  have stage_port : (stage p r lines s).port = s.port := by
    unfold stage
    split
    · split_ifs <;> rfl
    · rfl
  unfold enqueue
  rw [modPort_port, stage_port]
  split_ifs <;> rfl

/-- A request that passes check 3 has a new tag, and one that passes check 4 finds a place (R125). -/
theorem inFlightGood_enqueue {p : Port} {r : Request} {lines : List StagedLine} {s : State} (h : Admissible s p r)
    (hs : inFlightGood s = true) : inFlightGood (enqueue p r lines s) = true := by
  obtain ⟨new, place, _⟩ := h
  have room : (s.port p).inFlight.length < Config.responsePlaces := by
    unfold PortState.placesTaken at place
    omega
  rw [inFlightGood_iff] at hs ⊢
  intro q
  rw [inFlight_enqueue]
  split_ifs
  · exact ⟨by simpa using room, List.concat_eq_append ▸ (hs p).2.concat new⟩
  · exact hs q

theorem stagingGood_of_noIntake {s t : State} (h : NoIntake s t) (hs : stagingGood s = true) : stagingGood t = true := by
  rw [stagingGood_iff] at hs ⊢
  obtain ⟨used, staged⟩ := hs
  have fewer : ∀ {l m : List StagedWrite}, l.Sublist m →
      (l.map (fun w => w.lines.length)).sum ≤ (m.map (fun w => w.lines.length)).sum := fun sub => (sub.map _).sum_le_sum fun _ _ => Nat.zero_le _
  exact ⟨(fewer h.staging).trans used, fun p => (fewer (h.staging.filter _)).trans (staged p)⟩

/-- What a request stages: nothing, or the lines of a WRITE (R71, R72). -/
theorem staging_enqueue (p : Port) (r : Request) (lines : List StagedLine) (s : State) :
    (enqueue p r lines s).staging = s.staging ∨
      ∃ b m f c guarded, r.body = .writeLines b m f c ∧
        (enqueue p r lines s).staging = s.staging ++ [{ port := p, tag := r.tag, guarded := guarded, lines := lines }] := by
  show (stage p r lines s).staging = _ ∨ ∃ b m f c guarded, _ ∧ (stage p r lines s).staging = _
  unfold stage
  split
  · next b m f c hb =>
    split_ifs
    · exact .inl rfl
    · exact .inr ⟨b, m, f, c, _, hb, rfl⟩
  · exact .inl rfl

/-- The staging room test of a WRITE leaves the Staging Pool within its bounds (R72). -/
theorem stagingGood_enqueue {p : Port} {r : Request} {lines : List StagedLine} {s : State} (count : StagesItsCount (.request r lines))
    (h : Admissible s p r) (hs : stagingGood s = true) : stagingGood (enqueue p r lines s) = true := by
  obtain ⟨_, _, room⟩ := h
  rw [stagingGood_iff] at hs ⊢
  obtain ⟨used, staged⟩ := hs
  rcases staging_enqueue p r lines s with same | ⟨b, m, f, c, guarded, write, more⟩
  · simp only [usedCount, stagedCount, same]
    exact ⟨used, staged⟩
  · have few : lines.length ≤ c := count r lines b m f c rfl write
    have fits : stagedCount s p + c ≤ Config.stagingLinesPerPort ∧ c ≤ Config.stagingLines - usedCount s := by
      simpa [hasRoom, write, stagingRoom] using room
    obtain ⟨fitsPort, fitsPool⟩ := fits
    have usedAfter : usedCount (enqueue p r lines s) = usedCount s + lines.length := by simp [usedCount, more]
    have stagedAfter : ∀ q, stagedCount (enqueue p r lines s) q = stagedCount s q + if p = q then lines.length else 0 := by
      intro q
      unfold stagedCount
      rw [more, List.filter_append, List.map_append, List.sum_append]
      by_cases same : p = q <;> simp [same]
    refine ⟨by omega, fun q => ?_⟩
    rw [stagedAfter]
    split_ifs with same
    · subst same; omega
    · exact staged q

/-! ### READ (R64, R65, R68) -/

/-- A READ that is dispatched ends in what the Access Engine makes of it. -/
theorem ends_read {t : Time} {p : Port} {tag : Tag} {b : Bank} {first : BitVec 5} {less1 : BitVec 3} {s u w : State}
    (h : atDispatch t p ⟨tag, .readLines b first (less1.toNat + 1)⟩ [] s = some u) (ha : (u.port p).session = .attached)
    (hw : readRequest p tag b first (less1.toNat + 1) u = w) : Ends (exec (.readLines t p tag b first less1) s) w :=
  hw ▸ ends_toOwner h ha

/-- A count that a packet carries in its three bits is 1 to 8, so the argument check is that the lines lie in the row (R64). -/
theorem rangeGood_of_bits (first : BitVec 5) (less1 : BitVec 3) :
    rangeGood first (less1.toNat + 1) = decide (first.toNat + (less1.toNat + 1) ≤ 32) := by
  have few : less1.toNat < 8 := less1.isLt
  by_cases h : first.toNat + (less1.toNat + 1) ≤ 32
  · rw [rangeGood_eq_true ⟨by omega, by omega, h⟩, decide_eq_true h]
  · rw [rangeGood_eq_false (by omega), decide_eq_false h]

theorem readRequest_out_of_range {p : Port} {tag : Tag} {b : Bank} {first : BitVec 5} {count : Nat} {u : State}
    (h : rangeGood first count = false) : readRequest p tag b first count u = answer p tag .badArgument 0 0 [] u :=
  if_pos h

theorem readRequest_no_lease {p : Port} {tag : Tag} {b : Bank} {first : BitVec 5} {count : Nat} {u : State}
    (h : rangeGood first count = true) (hl : holdsLease u p b = false) :
    readRequest p tag b first count u = answer p tag .noLease 0 0 [] u := by
  simp [readRequest, h, hl, reply]

theorem readRequest_placed {p : Port} {tag : Tag} {b : Bank} {first : BitVec 5} {count : Nat} {u : State}
    (h : rangeGood first count = true) (hl : holdsLease u p b = true) :
    readRequest p tag b first count u =
      placeWork (.xfer { bank := b, port := p, tag := tag, dir := .read, first := first.toNat, count := count }) u := by
  simp [readRequest, h, hl]

/-- The lease check (R68). -/
theorem holdsLease_iff (s : State) (p : Port) (b : Bank) :
    holdsLease s p b = true ↔ (s.bank b).state = .opened ∧ (s.bank b).holders.get p ≠ none := by
  simp [holdsLease, BankEntry.isHolder, Option.isSome_iff_ne_none]

theorem pendingTransfers_placeWork (x : Xfer) (s : State) :
    pendingTransfers (placeWork (.xfer x) s) x.bank = pendingTransfers s x.bank + 1 := by
  have path : pathXferOf (placeWork (.xfer x) s) x.bank = pathXferOf s x.bank := rfl
  have item : (WorkItem.xfer x).isXferOf x.bank = true := decide_eq_true rfl
  simp only [pendingTransfers, placeWork_workList, List.countP_append, List.countP_singleton, path, item, if_true]
  omega

/-! ### WRITE: the checks before the Write Check (R67, R169) -/

/-- A WRITE that is dispatched ends in what the Access Engine makes of it. -/
theorem ends_write {t : Time} {p : Port} {tag : Tag} {b : Bank} {masked : Bool} {first : BitVec 5} {less1 : BitVec 3}
    {payload : List Byte} {s u w : State}
    (h : atDispatch t p ⟨tag, (writeBody b masked first less1 payload).1⟩ (writeBody b masked first less1 payload).2 s = some u)
    (ha : (u.port p).session = .attached)
    (hw : toOwner p ⟨tag, (writeBody b masked first less1 payload).1⟩ u = w) :
    Ends (exec (.writeLines t p tag b masked first less1 payload) s) w :=
  hw ▸ ends_toOwner h ha

/-- The decoded count of a WRITE: what its header names, or 0 where its payload has another length than that calls for (R169). -/
def decodedCount (masked : Bool) (less1 : BitVec 3) (payload : List Byte) : Nat :=
  if payload.length = writePayloadLength masked less1 then less1.toNat + 1 else 0

/-- The Access Engine takes a WRITE with its decoded count. -/
theorem toOwner_write (p : Port) (tag : Tag) (b : Bank) (masked : Bool) (first : BitVec 5) (less1 : BitVec 3) (payload : List Byte)
    (u : State) :
    toOwner p ⟨tag, (writeBody b masked first less1 payload).1⟩ u =
      writeRequest p tag b first (decodedCount masked less1 payload) u := by
  unfold writeBody decodedCount
  split_ifs <;> rfl

/-- The argument check of a WRITE passes where its payload has the length its header calls for and its lines lie in the row. -/
theorem rangeGood_decodedCount (masked : Bool) (first : BitVec 5) (less1 : BitVec 3) (payload : List Byte) :
    rangeGood first (decodedCount masked less1 payload) = true ↔
      payload.length = writePayloadLength masked less1 ∧ first.toNat + (less1.toNat + 1) ≤ 32 := by
  unfold decodedCount
  split_ifs with h
  · simp [rangeGood_of_bits, h]
  · simp [rangeGood_eq_false, h]

theorem writeRequest_out_of_range {p : Port} {tag : Tag} {b : Bank} {first : BitVec 5} {count : Nat} {u : State}
    (h : ¬rangeGood first count = true) :
    writeRequest p tag b first count u = answer p tag .badArgument 0 0 [] (freeStaged p tag u) := by
  simp [writeRequest, h, reply]

theorem writeRequest_no_lease {p : Port} {tag : Tag} {b : Bank} {first : BitVec 5} {count : Nat} {u : State}
    (h : rangeGood first count = true) (hl : holdsLease u p b = false) :
    writeRequest p tag b first count u = answer p tag .noLease 0 0 [] (freeStaged p tag u) := by
  simp [writeRequest, h, hl, reply]

theorem writeRequest_wrong_mode {p : Port} {tag : Tag} {b : Bank} {first : BitVec 5} {count : Nat} {u : State}
    (h : rangeGood first count = true) (hl : holdsLease u p b = true) (hm : (u.bank b).mode ≠ some .write) :
    writeRequest p tag b first count u = answer p tag .wrongMode 0 0 [] (freeStaged p tag u) := by
  simp [writeRequest, h, hl, hm, reply]

theorem writeRequest_passed {p : Port} {tag : Tag} {b : Bank} {first : BitVec 5} {count : Nat} {u : State}
    (h : rangeGood first count = true) (hl : holdsLease u p b = true) (hm : (u.bank b).mode = some .write) :
    writeRequest p tag b first count u = checkedWrite p tag b first count u := by
  simp [writeRequest, h, hl, hm]

theorem writePayloadLength_eq (less1 : BitVec 3) :
    writePayloadLength false less1 = 66 * (less1.toNat + 1) ∧ writePayloadLength true less1 = 74 * (less1.toNat + 1) :=
  ⟨Nat.mul_comm _ _, Nat.mul_comm _ _⟩

/-! ### The Write Check (R78 to R81) -/

theorem firstBadLine_of_good {first : Nat} {lines : List StagedLine} (h : ∀ l ∈ lines, l.good = true) :
    firstBadLine first lines = none := by
  have none : lines.findIdx? (fun l => !l.good) = none := List.findIdx?_eq_none_iff.2 (by simpa using h)
  rw [firstBadLine, none]
  rfl

theorem firstBadLine_of_bad {first : Nat} {good rest : List StagedLine} {l : StagedLine} (hg : ∀ k ∈ good, k.good = true)
    (hl : l.good = false) : firstBadLine first (good ++ l :: rest) = some (first + good.length) := by
  have none : good.findIdx? (fun l => !l.good) = none := List.findIdx?_eq_none_iff.2 (by simpa using hg)
  simp [firstBadLine, List.findIdx?_append, none, List.findIdx?_cons, hl]

section Staged

variable {p : Port} {tag : Tag} {guarded : Bool} {lines : List StagedLine} {u : State}
  (staged : u.staging.filter (fun w => decide (w.port = p ∧ w.tag = tag)) =
    [{ port := p, tag := tag, guarded := guarded, lines := lines }])
include staged

theorem stagedLines_of_staged : stagedLines u p tag = lines := by
  rw [stagedLines, staged, List.flatMap_singleton]

theorem stagedGuard_of_staged : stagedGuard u p tag = guarded := by
  rw [stagedGuard, staged, List.all_cons, List.all_nil, Bool.and_true]

theorem checkedWrite_good (b : Bank) (first : BitVec 5) (count : Nat) (h : ∀ l ∈ lines, l.good = true) :
    checkedWrite p tag b first count u =
      placeWork (.xfer { bank := b, port := p, tag := tag, dir := .write p tag false, first := first.toNat, count := count }) u := by
  simp only [checkedWrite, stagedLines_of_staged staged, firstBadLine_of_good h]

/-- A bad line: a guarded WRITE is rejected with nothing left of it, an unguarded one goes on as suspect (R79, R80). -/
theorem checkedWrite_bad (b : Bank) (first : BitVec 5) (count : Nat) {good rest : List StagedLine} {l : StagedLine}
    (hlines : lines = good ++ l :: rest) (hg : ∀ k ∈ good, k.good = true) (hl : l.good = false) :
    checkedWrite p tag b first count u =
      if guarded then
        reply p tag .rejected (recordFault p (writeFault .rejectedWrite u b (first.toNat + good.length) tag) (freeStaged p tag u))
      else recordFault p (writeFault .suspectWrite u b (first.toNat + good.length) tag)
        (placeWork (.xfer { bank := b, port := p, tag := tag, dir := .write p tag true, first := first.toNat, count := count }) u) := by
  have bad : firstBadLine first.toNat lines = some (first.toNat + good.length) := hlines ▸ firstBadLine_of_bad hg hl
  simp only [checkedWrite, stagedLines_of_staged staged, stagedGuard_of_staged staged, bad]

end Staged

/-! ### The obligations -/

/-- Settles O56: only the queueing of an admitted request raises a count, and the checks of its admission leave it within its bound. -/
theorem inFlightAndStagingStayInBounds : Obligations.InFlightAndStagingStayInBounds :=
  ⟨fun _ _ hs h => step_keeps (P := fun s => inFlightGood s = true) inFlightGood_of_noIntake
      (fun _ passed => inFlightGood_enqueue (admissionRefusal_none passed)) h hs,
   fun _ _ hs h => step_keeps (P := fun s => stagingGood s = true) stagingGood_of_noIntake
      (fun count passed => stagingGood_enqueue count (admissionRefusal_none passed)) h hs⟩

/-- Settles O24: by the two checks in order; a placed transfer counts one more at its bank. -/
theorem readPlacesOneTransfer : Obligations.ReadPlacesOneTransfer := by
  refine ⟨?_, fun p b s => holdsLease_iff s p b, fun b s => ?_⟩
  · intro t p tag b first less1 s u count h ha
    refine ⟨fun far => ?_, fun near hl => ?_, fun near hl => ?_⟩
    · have range : rangeGood first count = false := (rangeGood_of_bits first less1).trans (decide_eq_false (Nat.not_le.2 far))
      exact ends_read h ha (readRequest_out_of_range range)
    · have range : rangeGood first count = true := (rangeGood_of_bits first less1).trans (decide_eq_true near)
      exact ends_read h ha (readRequest_no_lease range hl)
    · have range : rangeGood first count = true := (rangeGood_of_bits first less1).trans (decide_eq_true near)
      exact ⟨ends_read h ha (readRequest_placed range hl), pendingTransfers_placeWork _ u⟩
  · rw [pendingTransfers, List.countP_eq_length_filter]
    refine congrArg₂ (· + ·) (congrArg (fun f => (s.workList.filter f).length) (funext fun i => ?_)) ?_
    · cases i <;> rfl
    · unfold pathXferOf
      obtain _ | ⟨op, _⟩ := s.path
      · rfl
      · cases op <;> simp

/-- Settles O25: the three checks in order; a payload of the wrong length fails the first by its decoded count. -/
theorem writeRefused : Obligations.WriteRefused := by
  refine ⟨?_, writePayloadLength_eq⟩
  intro t p tag b masked first less1 payload s u body h ha
  have ends : ∀ {w}, writeRequest p tag b first (decodedCount masked less1 payload) u = w →
      Ends (exec (.writeLines t p tag b masked first less1 payload) s) w := fun hw => ends_write h ha ((toOwner_write ..).trans hw)
  refine ⟨fun wrong => ends (writeRequest_out_of_range ?_), fun length near => ?_⟩
  · rw [rangeGood_decodedCount]
    rintro ⟨length, near⟩
    omega
  · have range := (rangeGood_decodedCount masked first less1 payload).2 ⟨length, near⟩
    exact ⟨fun hl => ends (writeRequest_no_lease range hl), fun hl hm => ends (writeRequest_wrong_mode range hl hm)⟩

/-- Settles O26: by whether a staged line is bad, and then by the guard its WRITE was admitted with. -/
theorem writeChecked : Obligations.WriteChecked := by
  intro t p tag b masked first less1 payload s u guarded lines body count h ha length near hl hm staged
  have range := (rangeGood_decodedCount masked first less1 payload).2 ⟨length, near⟩
  have named : decodedCount masked less1 payload = count := if_pos length
  have ends : ∀ {w}, checkedWrite p tag b first count u = w →
      Ends (exec (.writeLines t p tag b masked first less1 payload) s) w := fun hw =>
    ends_write h ha (((toOwner_write ..).trans (writeRequest_passed range hl hm)).trans (named ▸ hw))
  refine ⟨fun hg => ends (checkedWrite_good staged b first count hg), fun good l rest hlines hg hb => ?_⟩
  have bad := checkedWrite_bad staged b first count hlines hg hb
  refine ⟨fun guard => ends (bad.trans (if_pos guard)), fun unguarded => ends (bad.trans (if_neg ?_))⟩
  simp [unguarded]

end Sys2Proof.Machine.LineAccess
end

section
/-!
SUPPORT. What a step can do, said once: a command leaves the state as it is, or takes one of the events below, whose state the end of the
event follows; a wake completion takes the dispatches of what waited as events of their own (R129). An invariant of every step is then an
invariant of every event.
-/

namespace Sys2Proof.Machine.Events

/-- The events of the part: `Event s w` where one of them, taken in `s`, leads to `w`, from which the end of the event begins. -/
inductive Event (s : State) : State → Prop
  | arrived (t : Time) (p : Port) (a : Arrival) : Event s (arrive p a (advance t s))
  /-- A request that waited for a wake leaves its queue and goes through the gate (R129). -/
  | dispatched {p : Port} {r : Request} {rest : List Request} :
      (s.port p).ingress = r :: rest → routerRuns s p = true → Event s (dispatch p r s)
  | sendBegun (t : Time) (p : Port) : Event s (modPort p (fun q => if q.mayBegin then nextPacket q else q) (advance t s))
  | sendEnded (t : Time) (p : Port) : Event s (modPort p (fun q => { q with sending := none }) (advance t s))
  | paused (t : Time) (p : Port) :
      Event s (modPort p (fun q => { q with paused := q.paused || decide (q.link = .up) }) (advance t s))
  | resumed (t : Time) (p : Port) : Event s (modPort p (fun q => { q with paused := false }) (advance t s))
  | linkLost (t : Time) (p : Port) : Event s (loseLink p (advance t s))
  | linkUp (t : Time) (p : Port) : Event s (modPort p (fun q => if s.resetCloses then q else { q with link := .up }) (advance t s))
  | powerOnReset (t : Time) (reading : Int) : Event s (takeSample reading (powerOn reading (advance t s)))
  | warmReset (t : Time) : Event s (warmReset (advance t s))
  | openCompleted {b : Bank} {row : Row} {d : Time} :
      s.path = some { op := .openRow b row, completes := d } → Event s (completeOpen b row (advance d s))
  | closeCompleted {b : Bank} {d : Time} :
      s.path = some { op := .close b, completes := d } → Event s (completeClose b (advance d s))
  | xferCompleted {x : Xfer} {lines : List StagedLine} {d : Time} :
      s.path = some { op := .xfer x lines, completes := d } → Event s (completeXfer x lines (advance d s))
  | stepCompleted {x : BankSet} {row : Row} {forced : Bool} {d : Time} :
      s.path = some { op := .step x row forced, completes := d } → Event s (completeStep x (advance d s))
  | ticked (x : BankSet) : Event s (tickSet x (advance (s.account x).nextTick s))
  | sampled (reading : Int) : Event s (takeSample reading (advance s.nextSample s))
  | waitExpired {b : Bank} {p : Port} {w : Waiter} :
      (s.bank b).waiting.find? (fun w => decide (w.port = p)) = some w →
      Event s (withdrawWaiter b p (answer p w.tag .timeout (bankByte b) 0 []) (advance w.deadline s))
  | contentionExpired {b : Bank} {d : Time} :
      (s.bank b).contention = some d → Event s (revoke b (s.bank b).holderPorts .contention (advance d s))
  | claimExpired {h : ClaimHold} :
      s.claim = some h → Event s (raiseNotice h.holder .claimLost { advance h.expires s with claim := none })
  | wakeCompleted {d : Time} : s.retention = .waking d → Event s (completeWake (advance d s))

/-- What a command ends in: nothing, or an event and its end, after which a wake has the waiting requests dispatched. -/
def EndsInEvent (o : Outcome) (s : State) : Prop :=
  o = .next s ∨ ∃ w, Event s w ∧ (o = .next (finish w) ∨ o = .next (resumeDispatch (finish w)))

theorem EndsInEvent.of {s w : State} (h : Event s w) : EndsInEvent (.next (finish w)) s := .inr ⟨w, h, .inl rfl⟩

/-- Each command's event. Every request command is the arrival of its packet (log entry 4). -/
theorem exec_endsInEvent (c : Instr) (s : State) : EndsInEvent (exec c s) s := by
  cases c with
  | egressSendBegin t p => exact .of (.sendBegun t p)
  | egressSendEnd t p => exact .of (.sendEnded t p)
  | egressPause t p => exact .of (.paused t p)
  | egressResume t p => exact .of (.resumed t p)
  | linkDown t p => exact .of (.linkLost t p)
  | linkUp t p => exact .of (.linkUp t p)
  | powerOnReset t reading => exact .of (.powerOnReset t reading)
  | warmReset t => exact .of (.warmReset t)
  | openCompletion =>
    show EndsInEvent (execOpenCompletion s) s
    unfold execOpenCompletion
    split
    · next h => exact .of (.openCompleted h)
    · exact .inl rfl
  | closeCompletion =>
    show EndsInEvent (execCloseCompletion s) s
    unfold execCloseCompletion
    split
    · next h => exact .of (.closeCompleted h)
    · exact .inl rfl
  | xferCompletion =>
    show EndsInEvent (execXferCompletion s) s
    unfold execXferCompletion
    split
    · next h => exact .of (.xferCompleted h)
    · exact .inl rfl
  | stepCompletion =>
    show EndsInEvent (execStepCompletion s) s
    unfold execStepCompletion
    split
    · next h => exact .of (.stepCompleted h)
    · exact .inl rfl
  | tick x => exact .of (.ticked x)
  | thermalSample reading => exact .of (.sampled reading)
  | waitDeadlineExpiry b p =>
    show EndsInEvent (execWaitDeadlineExpiry b p s) s
    unfold execWaitDeadlineExpiry
    split
    · next h => exact .of (.waitExpired h)
    · exact .inl rfl
  | contentionDeadlineExpiry b =>
    show EndsInEvent (execContentionDeadlineExpiry b s) s
    unfold execContentionDeadlineExpiry
    split
    · next h => exact .of (.contentionExpired h)
    · exact .inl rfl
  | claimExpiry =>
    show EndsInEvent (execClaimExpiry s) s
    unfold execClaimExpiry
    split
    · next h => exact .of (.claimExpired h)
    · exact .inl rfl
  | wakeCompletion =>
    show EndsInEvent (execWakeCompletion s) s
    unfold execWakeCompletion
    split
    · next h => exact .inr ⟨_, .wakeCompleted h, .inr rfl⟩
    · exact .inl rfl
  | _ => exact .of (.arrived ..)

/-- What every event keeps, the dispatches after a wake keep (R129). -/
theorem resumeDispatch_keeps {P : State → Prop} (event : ∀ {s w}, Event s w → P s → P (finish w)) {s : State} (hs : P s) :
    P (resumeDispatch s) := by
  have one : ∀ p k, P k → P (dispatchNext p k) := by
    intro p k hk
    unfold dispatchNext
    split
    · exact hk
    · next waits =>
      split_ifs with runs
      · exact event (.dispatched waits runs) hk
      · exact hk
  have queue : ∀ p n k, P k → P (runQueue p n k) := by
    intro p n
    induction n with
    | zero => exact fun _ hk => hk
    | succ n ih => exact fun k hk => ih _ (one p k hk)
  have queues : ∀ (l : List Port) k, P k → P (l.foldl (fun s p => runQueue p (s.port p).ingress.length s) k) := by
    intro l
    induction l with
    | nil => exact fun _ hk => hk
    | cons p l ih => exact fun k hk => ih _ (queue p _ k hk)
  exact queues Port.all s hs

/-- What the queue of commands does not touch and every event keeps, every step keeps. -/
theorem step_keeps_of_events {P : State → Prop} (queue : ∀ {s : State} {rest}, P s → P { s with pending := rest })
    (event : ∀ {s w}, Event s w → P s → P (finish w)) {s t : State} (hs : P s) (h : step s = .next t) : P t := by
  unfold step at h
  split at h
  · exact Host.Outcome.next.inj h ▸ hs
  · next c rest _ =>
    have hq : P { s with pending := rest } := queue hs
    rcases exec_endsInEvent c { s with pending := rest } with e | ⟨w, hw, e | e⟩
    · exact Host.Outcome.next.inj (e.symm.trans h) ▸ hq
    · exact Host.Outcome.next.inj (e.symm.trans h) ▸ event hw hq
    · exact Host.Outcome.next.inj (e.symm.trans h) ▸ resumeDispatch_keeps event (event hw hq)

end Sys2Proof.Machine.Events
end

section
/-!
SUPPORT. The Refresh Account: the step-wanted marks, the balances through every event, pressure and forcing, ticks, and thermal samples
(spec/05).
-/

namespace Sys2Proof.Machine.RefreshAccount

open Events LineAccess BankLeases

/-! ### The step-wanted mark (R90, R91) -/

theorem listsEmpty_iff (s : State) (x : BankSet) : listsEmpty s x = true ↔ ∀ b, b.set = x → (s.bank b).waiting = [] := by
  simp [listsEmpty, mem_banks]

theorem markFor_forced {s : State} {x : BankSet} (h : 6 ≤ (s.account x).balance) : markFor s x = .forced := if_pos h

theorem markFor_opportunistic {s : State} {x : BankSet} (h : 1 ≤ (s.account x).balance) (h5 : (s.account x).balance ≤ 5) :
    markFor s x = .opportunistic :=
  (if_neg (by omega)).trans (if_pos h)

/-- Below a balance of 1 an eager mark wants a balance of at least −3, EAGER on and empty lists. -/
theorem markFor_of_low {s : State} {x : BankSet} (h : (s.account x).balance < 1) :
    markFor s x = if -3 ≤ (s.account x).balance ∧ s.settings.eager = true ∧ listsEmpty s x = true then .eager else .none :=
  (if_neg (by omega)).trans (if_neg (by omega))

/-- A set whose STEP is wanted has a balance of at least −3. -/
theorem balance_of_markFor {s : State} {x : BankSet} (h : markFor s x ≠ .none) : -3 ≤ (s.account x).balance := by
  by_contra low
  exact h ((markFor_of_low (by omega)).trans (if_neg fun wanted => low wanted.1))

/-- The mark depends on the balance, EAGER and the waiting lists alone. -/
theorem markFor_congr {s t : State} {x : BankSet} (balance : (t.account x).balance = (s.account x).balance)
    (settings : t.settings = s.settings) (waiting : ∀ b, (t.bank b).waiting = (s.bank b).waiting) : markFor t x = markFor s x := by
  have lists : listsEmpty t x = listsEmpty s x := by simp only [listsEmpty, waiting]
  simp only [markFor, balance, settings, lists]

/-- The arbiter moves no waiting entry. -/
theorem waiting_finish (w : State) (b : Bank) : ((finish w).bank b).waiting = (w.bank b).waiting := by
  obtain ⟨k, o, l, p, selected, moved⟩ := select_eq (decided w)
  have bank : (finish w).bank b = k.get b := by rw [State.bank, (eventEnd_finish w).banks, selected]
  have kept : (k.get b).waiting = ((decided w).bank b).waiting := by rcases moved b with e | ⟨_, e⟩ <;> rw [e]
  exact bank ▸ kept

theorem balance_finish (w : State) (x : BankSet) : ((finish w).account x).balance = (w.account x).balance := by
  rw [(eventEnd_finish w).accounts x]

/-- The end of every event decides both marks. -/
theorem marksGood_finish (w : State) : marksGood (finish w) = true := by
  have decides : ∀ x, ((finish w).account x).mark = markFor (finish w) x := fun x =>
    (congrArg Account.mark ((eventEnd_finish w).accounts x)).trans
      (markFor_congr (balance_finish w x) (eventEnd_finish w).settings (waiting_finish w)).symm
  simp [marksGood, decides]

/-! ### The balances through an event (R85) -/

/-- From `s` to `t` no balance has fallen, none has risen above 8, and no operation has started. -/
structure BalancesRise (s t : State) : Prop where
  up : ∀ x, (s.account x).balance ≤ (t.account x).balance
  bound : ∀ x, (t.account x).balance ≤ max 8 (s.account x).balance
  path : t.path = s.path ∨ t.path = none

theorem BalancesRise.of_balance {s t : State} (h : ∀ x, (t.account x).balance = (s.account x).balance)
    (path : t.path = s.path ∨ t.path = none) : BalancesRise s t :=
  ⟨fun x => (h x).ge, fun x => (h x).le.trans (le_max_right ..), path⟩

/-- Other fields than the accounts and the path have changed. -/
theorem BalancesRise.of_kept {s t : State} (accounts : t.accounts = s.accounts) (path : t.path = s.path) : BalancesRise s t :=
  .of_balance (fun x => by rw [State.account, State.account, accounts]) (.inl path)

theorem BalancesRise.refl (s : State) : BalancesRise s s := .of_kept rfl rfl

theorem BalancesRise.trans {s t u : State} (h : BalancesRise s t) (k : BalancesRise t u) : BalancesRise s u := by
  refine ⟨fun x => (h.up x).trans (k.up x), fun x => ?_, ?_⟩
  · have first := h.bound x
    have second := k.bound x
    omega
  · rcases k.path with e | e
    · exact e ▸ h.path
    · exact .inr e

/-- After a change of other fields. -/
theorem BalancesRise.after {s t u : State} (k : BalancesRise t u) (accounts : t.accounts = s.accounts) (path : t.path = s.path) :
    BalancesRise s u :=
  (BalancesRise.of_kept accounts path).trans k

/-- Before a change of other fields. -/
theorem BalancesRise.before {s t u : State} (k : BalancesRise s t) (accounts : u.accounts = t.accounts) (path : u.path = t.path) :
    BalancesRise s u :=
  k.trans (.of_kept accounts path)

theorem balancesRise_of_leaseFrame {s t : State} (h : LeaseFrame s t) : BalancesRise s t := .of_kept h.accounts h.path

theorem balancesRise_foldl {α : Type} {f : State → α → State} (h : ∀ s a, BalancesRise s (f s a)) (l : List α) (s : State) :
    BalancesRise s (l.foldl f s) := by
  induction l generalizing s with
  | nil => exact .refl s
  | cons a l ih => exact (h s a).trans (ih _)

/-! ### The shared operations -/

theorem balancesRise_modPort (p : Port) (f : PortState → PortState) (s : State) : BalancesRise s (modPort p f s) := .of_kept rfl rfl

theorem balancesRise_reply (p : Port) (tag : Tag) (res : Result) (s : State) : BalancesRise s (reply p tag res s) := .of_kept rfl rfl

theorem balancesRise_freeStaged (p : Port) (tag : Tag) (s : State) : BalancesRise s (freeStaged p tag s) := .of_kept rfl rfl

theorem balancesRise_raiseEverywhere (n : Notice) (s : State) : BalancesRise s (raiseEverywhere n s) :=
  balancesRise_foldl (fun _ _ => balancesRise_modPort ..) _ _

/-- A change of one set's account that leaves its balance. -/
theorem balancesRise_modAccount {x : BankSet} {f : Account → Account} {s : State} (h : (f (s.account x)).balance = (s.account x).balance) :
    BalancesRise s (modAccount x f s) := by
  refine .of_balance (fun y => ?_) (.inl rfl)
  rw [modAccount_account]
  split_ifs with same
  · exact same ▸ h
  · rfl

theorem balancesRise_recordFault (p : Port) (f : FaultRecord) (s : State) : BalancesRise s (recordFault p f s) := by
  obtain ⟨l, o, n, e⟩ := recordFault_eq p f s
  exact e ▸ .of_kept rfl rfl

theorem balancesRise_refuse (p : Port) (tag : Tag) (res : Result) (s : State) : BalancesRise s (refuse p tag res s) := by
  unfold refuse
  split_ifs
  · exact .of_kept rfl rfl
  · exact balancesRise_recordFault ..

theorem balancesRise_setStates (x : BankSet) (st : BankState) (s : State) : BalancesRise s (setStates x st s) := by
  obtain ⟨k, _, e⟩ := setStates_eq x st s
  exact e ▸ .of_kept rfl rfl

theorem balancesRise_changeUrgency (v : Nat) (s : State) : BalancesRise s (changeUrgency v s) := by
  refine (balancesRise_foldl (fun t x => ?_) BankSet.all { s with settings := { s.settings with urgency := v } }).after rfl rfl
  split_ifs
  · exact balancesRise_of_leaseFrame (enterPressure_frame x t)
  · exact balancesRise_of_leaseFrame (serveBanks_frame _ t)
  · exact .refl t

theorem balancesRise_missTick (x : BankSet) (s : State) : BalancesRise s (missTick x s) :=
  (balancesRise_modAccount rfl).trans (balancesRise_foldl (fun s p => balancesRise_recordFault p _ s) _ _)

/-- A balance rises by one, and not where it is 8 (R86, R88). -/
theorem balancesRise_raiseBalance (x : BankSet) (s : State) : BalancesRise s (raiseBalance x s) := by
  have presses : ∀ k, BalancesRise k (enterPressure x k) := fun k => balancesRise_of_leaseFrame (enterPressure_frame x k)
  have forces : ∀ k, BalancesRise k (forceSet x k) := fun k => balancesRise_of_leaseFrame (forceSet_frame x k)
  unfold raiseBalance
  dsimp only
  split_ifs with full
  · exact balancesRise_missTick x s
  all_goals
    have rises : BalancesRise s (modAccount x (fun c => { c with balance := (s.account x).balance + 1 }) s) := by
      refine ⟨fun y => ?_, fun y => ?_, .inl rfl⟩ <;> rw [modAccount_account] <;> split_ifs with same
      · subst same; dsimp only; omega
      · exact le_rfl
      · subst same; dsimp only; omega
      · exact le_max_right ..
  · exact (rises.trans (presses _)).trans (forces _)
  · exact rises.trans (forces _)
  · exact rises.trans (presses _)
  · exact rises

/-! ### The owners of the requests -/

theorem balancesRise_checkedWrite (p : Port) (tag : Tag) (b : Bank) (first : BitVec 5) (count : Nat) (s : State) :
    BalancesRise s (checkedWrite p tag b first count s) := by
  unfold checkedWrite
  dsimp only
  split
  · exact .of_kept rfl rfl
  · split_ifs
    · exact (balancesRise_freeStaged ..).trans ((balancesRise_recordFault ..).trans (balancesRise_reply ..))
    · exact (balancesRise_recordFault ..).after rfl rfl

theorem balancesRise_writeRequest (p : Port) (tag : Tag) (b : Bank) (first : BitVec 5) (count : Nat) (s : State) :
    BalancesRise s (writeRequest p tag b first count s) := by
  have freed : ∀ res, BalancesRise s (reply p tag res (freeStaged p tag s)) := fun res =>
    (balancesRise_freeStaged ..).trans (balancesRise_reply ..)
  unfold writeRequest
  split_ifs
  · exact freed _
  · exact freed _
  · exact freed _
  · exact balancesRise_checkedWrite ..

/-- A setting is stored beside the accounts and the path. -/
theorem balancesRise_storeSetting {target : BitVec 3} {ident : Byte} {v : BitVec 32} {s t : State}
    (h : storeSetting target ident v s = some t) : BalancesRise s t := by
  have stored : ∀ {c : Prop} [Decidable c] {u : State}, (if c then some u else none) = some t → BalancesRise s u → BalancesRise s t := by
    intro c _ u hu k
    split_ifs at hu
    cases hu
    exact k
  unfold storeSetting at h
  split at h
  · unfold storeLeaseLimit at h
    split at h
    · cases h
    · exact stored h (.of_kept rfl rfl)
  · unfold storeGuard at h
    split at h
    · cases h
    · exact stored h (.of_kept rfl rfl)
  · exact stored h (.of_kept rfl rfl)
  · exact stored h (.of_kept rfl rfl)
  · exact stored h (balancesRise_changeUrgency ..)
  · exact stored h (.of_kept rfl rfl)
  · exact stored h (.of_kept rfl rfl)
  · exact stored h (.of_kept rfl rfl)
  · exact stored h (.of_kept rfl rfl)
  · cases h

theorem balancesRise_setRequest (p : Port) (tag : Tag) (target : BitVec 3) (ident : Byte) (value : Option (BitVec 32)) (s : State) :
    BalancesRise s (setRequest p tag target ident value s) := by
  unfold setRequest
  split
  · exact .of_kept rfl rfl
  · split
    · next t h =>
      obtain ⟨v, _, stored⟩ := Option.bind_eq_some_iff.1 h
      exact (balancesRise_storeSetting stored).trans (balancesRise_reply ..)
    · exact .of_kept rfl rfl

theorem balancesRise_windowRequest (p : Port) (tag : Tag) (target : BitVec 3) (index : Byte) (r : Option WindowRecord) (s : State) :
    BalancesRise s (windowRequest p tag target index r s) := by
  unfold windowRequest
  split
  · exact .of_kept rfl rfl
  · split
    · split
      · have applied := fun (t : Port) (k : State) => balancesRise_of_leaseFrame (foldl_frame _ (windowChangeAt_frame t) Bank.all k)
        exact ((applied _ _).trans (balancesRise_reply ..)).after rfl rfl
      · exact .of_kept rfl rfl
    · exact .of_kept rfl rfl

/-- A cleared retention-loss flag leaves the balance. -/
theorem balancesRise_clearLoss (x : BankSet) (s : State) : BalancesRise s (clearLoss x s) := by
  unfold clearLoss
  split_ifs
  · exact (balancesRise_modAccount rfl).trans ((balancesRise_modAccount (f := fun c => { c with contents := c.contents + 1 }) rfl).before
      rfl rfl)
  · exact .refl s

theorem balancesRise_clearFaultsRequest (p : Port) (tag : Tag) (scope : BitVec 2) (s : State) :
    BalancesRise s (clearFaultsRequest p tag scope s) := by
  unfold clearFaultsRequest
  split
  · exact .of_kept rfl rfl
  · split
    · exact .of_kept rfl rfl
    · exact ((balancesRise_clearLoss .a s).trans (balancesRise_clearLoss .b _)).trans (balancesRise_reply ..)
  · exact .of_kept rfl rfl

/-! ### Sessions and the gate -/

theorem balancesRise_dropIngress (p : Port) (s : State) : BalancesRise s (dropIngress p s) := by
  rw [dropIngress_staging]
  exact .of_kept rfl rfl

theorem balancesRise_dropClaim (p : Port) (s : State) : BalancesRise s (dropClaim p s) := by
  unfold dropClaim
  split
  · split_ifs <;> exact .of_kept rfl rfl
  · exact .refl s

theorem balancesRise_cleanup (p : Port) (kept : Option Tag) (s : State) : BalancesRise s (cleanup p kept s) := by
  have banks := (cleanupBanks_spec p Bank.all s).1
  unfold cleanup
  dsimp only
  exact (((BalancesRise.of_kept banks.accounts banks.path).trans (balancesRise_dropIngress p _)).trans
    (balancesRise_dropClaim p _)).trans (balancesRise_modPort ..)

theorem balancesRise_detachPort (p : Port) (tag : Tag) (s : State) : BalancesRise s (detachPort p tag s) := by
  unfold detachPort
  dsimp only
  split_ifs
  · exact (balancesRise_cleanup p _ s).trans (balancesRise_reply ..)
  · exact balancesRise_cleanup p _ s

theorem balancesRise_endDetaching (p : Port) (s : State) : BalancesRise s (endDetaching p s) := by
  unfold endDetaching
  dsimp only
  split_ifs
  · split <;> exact .of_kept rfl rfl
  · exact .refl s

theorem balancesRise_toOwner (p : Port) (r : Request) (s : State) : BalancesRise s (toOwner p r s) := by
  unfold toOwner
  split
  · exact .of_kept rfl rfl
  · exact balancesRise_detachPort ..
  · exact balancesRise_of_leaseFrame (openRequest_frame ..)
  · exact balancesRise_of_leaseFrame (releaseRequest_frame ..)
  · exact balancesRise_of_leaseFrame (cancelRequest_frame ..)
  · exact balancesRise_of_leaseFrame (readRequest_frame ..)
  · exact balancesRise_writeRequest ..
  · exact .of_kept rfl rfl
  · exact balancesRise_of_leaseFrame (statusRequest_frame ..)
  · unfold claimRequest
    split_ifs <;> exact .of_kept rfl rfl
  · unfold unclaimRequest
    split_ifs <;> exact .of_kept rfl rfl
  · exact balancesRise_setRequest ..
  · exact balancesRise_of_leaseFrame (getRequest_frame ..)
  · exact balancesRise_windowRequest ..
  · exact balancesRise_clearFaultsRequest ..

theorem balancesRise_dispatch (p : Port) (r : Request) (s : State) : BalancesRise s (dispatch p r s) := by
  refine BalancesRise.after (t := unqueue p r s) ?_ rfl rfl
  unfold dispatch gate atDetached
  split_ifs
  · exact balancesRise_toOwner ..
  · split
    · exact .of_kept rfl rfl
    · exact balancesRise_of_leaseFrame (statusRequest_frame ..)
    · exact .of_kept rfl rfl
    · exact .of_kept rfl rfl

/-- A quick wake may abandon a STEP, whose set's balance stays (R15, R112). -/
theorem balancesRise_beginWake (s : State) : BalancesRise s (beginWake s) := by
  have abandons : ∀ k, BalancesRise k (abandonStep k) := by
    intro k
    unfold abandonStep
    split
    · next x _ _ _ =>
      have freed : BalancesRise k { setStates x .closed k with path := none } :=
        (balancesRise_setStates x .closed k).trans (.of_balance (fun _ => rfl) (.inr rfl))
      exact freed.trans (balancesRise_of_leaseFrame (serveBanks_frame ..))
    · exact .refl k
  unfold beginWake
  split_ifs
  · exact (abandons _).after rfl rfl
  · exact .of_kept rfl rfl

theorem balancesRise_admission (p : Port) (r : Request) (lines : List StagedLine) (s : State) :
    BalancesRise s (admission p r lines s) := by
  have queued : BalancesRise s (enqueue p r lines s) := by
    refine BalancesRise.before (t := stage p r lines s) ?_ rfl rfl
    unfold stage
    split
    · split_ifs <;> exact .of_kept rfl rfl
    · exact .refl s
  have taken : BalancesRise s (admitted p r lines s) := by
    unfold admitted
    dsimp only
    split_ifs
    · exact queued
    · split
      · exact queued.before rfl rfl
      · exact queued.trans (balancesRise_beginWake _)
      · exact queued
  unfold admission
  dsimp only
  split_ifs
  · exact taken.trans (balancesRise_dispatch ..)
  · exact taken

theorem balancesRise_arrive (p : Port) (a : Arrival) (s : State) : BalancesRise s (arrive p a s) := by
  unfold arrive
  split_ifs
  · exact .refl s
  · split
    · exact balancesRise_recordFault ..
    · exact balancesRise_refuse ..
    · split
      · exact balancesRise_refuse ..
      · exact balancesRise_admission ..

/-! ### The part's own events -/

theorem balancesRise_loseLink (p : Port) (s : State) : BalancesRise s (loseLink p s) := by
  have loses : BalancesRise s (loseSession p s) := by
    unfold loseSession
    split
    · exact balancesRise_cleanup ..
    · exact .of_kept rfl rfl
    · exact (balancesRise_dropIngress p s).trans (balancesRise_modPort ..)
  unfold loseLink
  split_ifs
  · exact .refl s
  · exact loses.trans (balancesRise_modPort ..)

theorem balancesRise_warmReset (s : State) : BalancesRise s (warmReset s) := by
  have banks : ∀ k b, BalancesRise k (warmResetBank k b) := fun k b => by
    rw [warmResetBank_eq]
    exact .of_kept rfl rfl
  have settings : ∀ k v st, BalancesRise k { changeUrgency v k with settings := st } := fun k v st =>
    (balancesRise_changeUrgency v k).before rfl rfl
  unfold warmReset
  dsimp only
  exact ((balancesRise_foldl banks Bank.all _).trans (settings _ _ _)).after rfl rfl

/-- A completion leaves the balances, and the path IDLE (R9). -/
theorem balancesRise_freePath (s : State) : BalancesRise s (freePath s) := .of_balance (fun _ => rfl) (.inr rfl)

theorem balancesRise_completeOpen (b : Bank) (row : Row) (s : State) : BalancesRise s (completeOpen b row s) := by
  have stands : ∀ k, LeaseFrame k (grantStands b k) := fun k =>
    (frame_trans (setBank_frame b _ k)
      (frame_trans (grantAll_frame ..) (frame_trans (refreshContention_frame ..) (serve_frame ..)))).1
  have fails : ∀ k, LeaseFrame k (grantFails b row k) := fun k => (frame_trans (setBank_frame b _ k) (startClosing_frame b _)).1
  refine (balancesRise_freePath s).trans ?_
  unfold completeOpen
  dsimp only
  split_ifs
  · exact (balancesRise_of_leaseFrame (stands _)).after rfl rfl
  · exact (balancesRise_of_leaseFrame (fails _)).after rfl rfl

theorem balancesRise_completeClose (b : Bank) (s : State) : BalancesRise s (completeClose b s) :=
  (balancesRise_freePath s).trans ((balancesRise_of_leaseFrame (serve_frame b _).1).after rfl rfl)

theorem balancesRise_completeXfer (x : Xfer) (lines : List StagedLine) (s : State) : BalancesRise s (completeXfer x lines s) := by
  have effect : ∀ k, BalancesRise k (xferEffect x lines k) := by
    intro k
    have commits : BalancesRise k (commitXfer x lines k) := by
      unfold commitXfer
      split <;> exact .of_kept rfl rfl
    unfold xferEffect
    dsimp only
    split
    · split_ifs <;> exact .of_kept rfl rfl
    · have freed := fun p tag => commits.trans (balancesRise_freeStaged p tag _)
      split
      · exact (freed ..).trans (balancesRise_reply ..)
      · exact freed ..
  exact ((balancesRise_freePath s).trans (effect _)).trans
    ((balancesRise_of_leaseFrame (settle_frame x.bank _).1).trans (balancesRise_endDetaching ..))

theorem balancesRise_takeSample (reading : Int) (s : State) : BalancesRise s (takeSample reading s) := by
  have pulls : ∀ band x k, BalancesRise k (pullTick band x k) := fun _ _ _ => balancesRise_modAccount rfl
  unfold takeSample
  dsimp only
  split_ifs
  · exact .of_kept rfl rfl
  · exact ((pulls _ .a _).trans ((pulls _ .b _).trans (balancesRise_raiseEverywhere ..))).after rfl rfl

theorem balancesRise_tickSet (x : BankSet) (s : State) : BalancesRise s (tickSet x s) :=
  (balancesRise_raiseBalance x s).trans (balancesRise_modAccount rfl)

theorem balancesRise_completeWake (s : State) : BalancesRise s (completeWake s) := by
  have votes : ∀ k, BalancesRise k (clearVotes k) := fun k => balancesRise_foldl (fun _ _ => balancesRise_modPort ..) _ k
  have wakes : ∀ k n, BalancesRise k { raiseEverywhere n k with retention := .active } := fun k n =>
    (balancesRise_raiseEverywhere n k).before rfl rfl
  exact (balancesRise_raiseBalance .a s).trans ((balancesRise_raiseBalance .b _).trans ((votes _).trans (wakes _ _)))

/-! ### The bounds -/

theorem balancesGood_iff (s : State) : balancesGood s = true ↔
    ∀ x, -4 ≤ (s.account x).balance ∧ (s.account x).balance ≤ 8 ∧ (runningStep s = some x → -3 ≤ (s.account x).balance) := by
  have mem : ∀ x, x ∈ BankSet.all := by intro x; cases x <;> decide
  simp only [balancesGood, List.all_eq_true, mem, forall_const, Bool.and_eq_true, Bool.or_eq_true, decide_eq_true_eq, bne_iff_ne,
    ne_eq, and_assoc, imp_iff_not_or]

theorem runningStep_congr {s t : State} (h : t.path = s.path) : runningStep t = runningStep s := by
  unfold runningStep
  rw [h]

theorem runningStep_of_idle {s : State} (h : s.path = none) : runningStep s = none := by
  unfold runningStep
  rw [h]

theorem balancesGood_of_rise {s t : State} (h : BalancesRise s t) (hs : balancesGood s = true) : balancesGood t = true := by
  rw [balancesGood_iff] at hs ⊢
  intro x
  obtain ⟨low, high, step⟩ := hs x
  have up := h.up x
  have bound := h.bound x
  refine ⟨by omega, by omega, fun runs => ?_⟩
  rcases h.path with same | idle
  · exact (step (runningStep_congr same ▸ runs)).trans up
  · rw [runningStep_of_idle idle] at runs
    cases runs

/-- A STEP in progress has a balance of at least −3, so that its completion leaves at least −4 (R14, R85). -/
theorem balancesGood_completeStep {x : BankSet} {s : State} (hs : balancesGood s = true) (runs : runningStep s = some x) :
    balancesGood (completeStep x s) = true := by
  refine balancesGood_of_rise
    ((balancesRise_setStates x .closed _).trans (balancesRise_of_leaseFrame (serveBanks_frame x.banks _))) ?_
  rw [balancesGood_iff] at hs ⊢
  intro y
  obtain ⟨low, high, step⟩ := hs y
  rw [modAccount_account]
  refine ⟨?_, ?_, fun h => ?_⟩
  · split_ifs with same
    · have := step (same ▸ runs)
      subst same
      show -4 ≤ (s.account y).balance - 1
      omega
    · exact low
  · split_ifs with same
    · subst same
      show (s.account y).balance - 1 ≤ 8
      omega
    · exact high
  · cases h

/-- The arbiter starts a STEP only of a set whose mark is set (R10, R84). -/
theorem runningStep_select {s : State} {x : BankSet} (h : runningStep (select s) = some x) :
    runningStep s = some x ∨ (s.account x).mark ≠ .none := by
  rcases select_cases s with e | ⟨_, w, _, _, e⟩ | ⟨_, y, forced, _, wanted, _, _, e⟩
  · exact .inl (e ▸ h)
  · rw [e] at h
    cases w <;> cases h
  · obtain ⟨k, _, started⟩ := startStep_eq y forced s
    rw [e, started] at h
    cases h
    exact .inr wanted

theorem balancesGood_finish {w : State} (hw : balancesGood w = true) : balancesGood (finish w) = true := by
  rw [balancesGood_iff] at hw ⊢
  intro x
  obtain ⟨low, high, step⟩ := hw x
  rw [balance_finish]
  refine ⟨low, high, fun runs => ?_⟩
  rw [runningStep_congr (eventEnd_finish w).path] at runs
  rcases runningStep_select runs with ran | wanted
  · exact step ran
  · refine balance_of_markFor fun none => wanted ?_
    cases x <;> exact none

theorem balancesGood_powerOn (reading : Int) (s : State) : balancesGood (powerOn reading s) = true := rfl

theorem balancesGood_event {s w : State} (h : Event s w) (hs : balancesGood s = true) : balancesGood w = true := by
  have rises : ∀ {t}, BalancesRise s t → balancesGood t = true := fun k => balancesGood_of_rise k hs
  cases h with
  | arrived t p a => exact rises ((balancesRise_arrive p a _).after rfl rfl)
  | dispatched => exact rises (balancesRise_dispatch ..)
  | sendBegun => exact rises (.of_kept rfl rfl)
  | sendEnded => exact rises (.of_kept rfl rfl)
  | paused => exact rises (.of_kept rfl rfl)
  | resumed => exact rises (.of_kept rfl rfl)
  | linkLost t p => exact rises ((balancesRise_loseLink p _).after rfl rfl)
  | linkUp => exact rises (.of_kept rfl rfl)
  | powerOnReset t reading =>
    exact balancesGood_of_rise (balancesRise_takeSample reading _) (balancesGood_powerOn ..)
  | warmReset t => exact rises ((balancesRise_warmReset _).after rfl rfl)
  | openCompleted => exact rises ((balancesRise_completeOpen ..).after rfl rfl)
  | closeCompleted => exact rises ((balancesRise_completeClose ..).after rfl rfl)
  | xferCompleted => exact rises ((balancesRise_completeXfer ..).after rfl rfl)
  | stepCompleted path => exact balancesGood_completeStep (s := advance _ s) hs (by simp [runningStep, path])
  | ticked x => exact rises ((balancesRise_tickSet x _).after rfl rfl)
  | sampled reading => exact rises ((balancesRise_takeSample reading _).after rfl rfl)
  | waitExpired =>
    exact rises ((balancesRise_of_leaseFrame (withdrawWaiter_frame _ _ _ _ fun u => answer_frame ..).1).after rfl rfl)
  | contentionExpired => exact rises ((balancesRise_of_leaseFrame (revoke_frame ..).1).after rfl rfl)
  | claimExpired => exact rises (.of_kept rfl rfl)
  | wakeCompleted => exact rises ((balancesRise_completeWake _).after rfl rfl)

/-! ### Pressure and forcing (R92, R93, R96) -/

/-- The banks of a set that a test picks, in bank order. -/
theorem filter_banks (x : BankSet) (f : Bank → Bool) : x.banks.filter f = Bank.all.filter (fun b => decide (b.set = x) && f b) := by
  cases x <;> simp [Bank.all, BankSet.banks, List.filter_cons, Bank.set]

/-! ### A rise of the balance (R86, R88, R98) -/

/-- A balance that is below URGENCY and not any more after a rise by one has risen to it. -/
theorem enters_iff (x : BankSet) (s : State) :
    (pressure s x = false ∧ pressure (modAccount x (fun c => { c with balance := (s.account x).balance + 1 }) s) x = true) ↔
      (s.account x).balance + 1 = s.settings.urgency := by
  simp only [pressure, decide_eq_false_iff_not, decide_eq_true_eq, modAccount_settings, modAccount_account, if_true]
  omega

theorem raiseBalance_below {x : BankSet} {s : State} (h : (s.account x).balance < 8) :
    let raised := s.setAccount x { s.account x with balance := (s.account x).balance + 1 }
    let pressed := if (s.account x).balance + 1 = s.settings.urgency then enterPressure x raised else raised
    raiseBalance x s = if (s.account x).balance = 5 then forceSet x pressed else pressed := by
  intro raised pressed
  have below : ¬8 ≤ (s.account x).balance := by omega
  simp only [raiseBalance, if_neg below, enters_iff]
  rfl

theorem missTick_eq (x : BankSet) (s : State) :
    let f : FaultRecord := { kind := .retentionLoss, bank := none, row := none, line := none, tag := none, set := some x }
    missTick x s =
      (recordFault .p3 f (recordFault .p2 f (recordFault .p1 f (recordFault .p0 f s)))).setAccount x
        { s.account x with lossFlag := true } := by
  simp only [missTick, Port.all, List.foldl_cons, List.foldl_nil, modAccount, recordFault_setAccount]
  rfl

/-- A missed tick: the balance is at 8. -/
theorem raiseBalance_full {x : BankSet} {s : State} (h : (s.account x).balance = 8) : raiseBalance x s = missTick x s :=
  if_pos h.ge

/-- The account of a set whose balance rises. -/
theorem raiseBalance_account_below {x : BankSet} {s : State} (h : (s.account x).balance < 8) :
    (raiseBalance x s).account x = { s.account x with balance := (s.account x).balance + 1 } := by
  rw [raiseBalance_below h]
  split_ifs <;> simp [(forceSet_frame x _).account, (enterPressure_frame x _).account]

/-- A tick: the rise, and the next tick one interval of the band later. -/
theorem tickSet_eq (x : BankSet) (s : State) :
    tickSet x s = (raiseBalance x s).setAccount x { (raiseBalance x s).account x with nextTick := s.now + s.band.interval } :=
  rfl

/-! ### Thermal samples (R100 to R102) -/

/-- The limits of a reading lie outside the readings at which the band changes. -/
theorem bandAfter_clampReading (before : Band) (reading : Int) : bandAfter before (clampReading reading) = bandAfter before reading := by
  have above : ∀ {k : Int}, -40 < k → k ≤ 125 → (k ≤ clampReading reading ↔ k ≤ reading) := by
    intro k _ _
    unfold clampReading
    omega
  have below : ∀ {k : Int}, -40 ≤ k → k < 125 → (clampReading reading ≤ k ↔ reading ≤ k) := by
    intro k _ _
    unfold clampReading
    omega
  cases before <;> simp [bandAfter, above, below]

theorem takeSample_band (reading : Int) (s : State) : (takeSample reading s).band = bandAfter s.band reading := by
  rw [← bandAfter_clampReading]
  unfold takeSample
  dsimp only
  split_ifs <;> rfl

/-- A sample that changes the band: both ticks are pulled, and every ATTACHED port is told (R102). -/
theorem takeSample_tells {reading : Int} {s : State} (h : bandAfter s.band (clampReading reading) ≠ s.band) :
    let band := bandAfter s.band (clampReading reading)
    let pulled (x : BankSet) : Account := { s.account x with nextTick := min (s.account x).nextTick (s.now + band.interval) }
    ∃ ports : PerPort PortState,
      (∀ p, ports.get p =
        if (s.port p).session = .attached then { s.port p with notices := mergeNotice (.thermal band) (s.port p).notices }
        else s.port p) ∧
      takeSample reading s =
        { s with
          lastTemp := clampReading reading, nextSample := s.now + Config.samplePeriod, band := band
          accounts := ⟨pulled .a, pulled .b⟩, ports := ports } := by
  intro band pulled
  unfold takeSample
  dsimp only
  rw [if_neg h]
  obtain ⟨e, ports⟩ := raiseEverywhere_eq (.thermal band) (pullTick band .b (pullTick band .a
    { s with lastTemp := clampReading reading, nextSample := s.now + Config.samplePeriod, band := band }))
  exact ⟨_, ports, e⟩

/-! ### The obligations -/

/-- Settles O54: no event lowers a balance but the completion of a STEP, which started at −3 or above. -/
theorem balancesStayInRange : Obligations.BalancesStayInRange := fun _ _ hs h =>
  step_keeps_of_events (P := fun s => balancesGood s = true) id (fun event good => balancesGood_finish (balancesGood_event event good)) hs h

/-- Settles O55: every event ends in the decision of both marks. -/
theorem marksStayDecided : Obligations.MarksStayDecided := fun _ _ hs h =>
  step_keeps_of_events (P := fun s => marksGood s = true) id (fun {_ w} _ _ => marksGood_finish w) hs h

/-- Settles O40: line by line of the table. -/
theorem stepWantedMark : Obligations.StepWantedMark := by
  intro s x v quiet
  have lists : listsEmpty s x = true ↔ quiet := listsEmpty_iff s x
  refine ⟨markFor_forced, markFor_opportunistic, fun low zero on hq => ?_, fun low zero off => ?_, fun below => ?_⟩
  · exact (markFor_of_low (by omega)).trans (if_pos ⟨low, on, lists.2 hq⟩)
  · refine (markFor_of_low (by omega)).trans (if_neg ?_)
    rintro ⟨_, on, empty⟩
    rcases off with off | busy
    · exact absurd on (by simp [off])
    · exact busy (lists.1 empty)
  · exact (markFor_of_low (by omega)).trans (if_neg fun wanted => absurd wanted.1 (by omega))

/-- Settles O35: by `pressEach_spec` and `forceEach_spec`, over the banks of the set in bank order. -/
theorem pressureAndForcing : Obligations.PressureAndForcing := by
  refine ⟨fun x s => decide_eq_true_iff, fun x s => ?_, fun x s pressed => ?_, fun p e => Option.isSome_iff_ne_none⟩
  · obtain ⟨frame, ports⟩ := pressEach_spec x.banks s
    exact ⟨frame, fun p => (ports p).trans (by rw [filter_heldBy])⟩
  · obtain ⟨frame, banks, ports⟩ := forceEach_spec x x.banks s (nodup_banks x) (fun b => (mem_banks x b).1) pressed
    refine ⟨frame.trans ?_, fun b => (banks b).trans ?_, fun p => (ports p).trans (by rw [filter_heldBy])⟩
    · rw [filter_banks]
      simp only [← Bool.decide_and]
      rfl
    · simp only [mem_banks]

/-- Settles O41: the rise of the balance by whether it is at 8, and then the next tick. -/
theorem tickRaisesOrIsMissed : Obligations.TickRaisesOrIsMissed := by
  refine ⟨fun x s below => ?_, fun x s full => ?_⟩
  · intro n raised pressed forced interval
    have named : interval = s.band.interval := by
      simp only [interval]
      cases s.band <;> rfl
    have raises : raiseBalance x n = forced := raiseBalance_below (s := n) below
    have tick := tickSet_eq x n
    rw [raiseBalance_account_below (s := n) below, raises] at tick
    rw [named]
    exact tick ▸ ends_finish _
  · intro n f told
    have misses : raiseBalance x n = told.setAccount x { s.account x with lossFlag := true } :=
      (raiseBalance_full (s := n) full).trans (missTick_eq x n)
    have tick := tickSet_eq x n
    rw [misses, State.account_setAccount, if_pos rfl, State.setAccount_setAccount] at tick
    exact tick ▸ ends_finish _

/-- Settles O42: the table's line for the band before and the reading. -/
theorem bandAfterSample : Obligations.BandAfterSample := by
  refine ⟨fun _ _ _ _ _ _ => rfl, fun r s => ⟨_, rfl, ?_⟩⟩
  have band := (eventEnd_finish _).band.trans (takeSample_band r (advance s.nextSample s))
  have line : ∀ {before after : Band}, s.band = before → bandAfter before r = after →
      (finish (takeSample r (advance s.nextSample s))).band = after := fun hb h => band.trans ((congrArg (bandAfter · r) hb).trans h)
  refine ⟨fun hb h => line hb (if_pos h), fun hb h => line hb (if_neg (by omega)), fun hb h => line hb (if_pos h),
    fun hb h => line hb ((if_neg (by omega)).trans (if_pos h)),
    fun hb h k => line hb ((if_neg (by omega)).trans (if_neg (by omega))), fun hb h => line hb (if_pos h),
    fun hb h => line hb (if_neg (by omega))⟩

/-- Settles O43: by whether the sample changes the band. -/
theorem thermalSample : Obligations.ThermalSample := by
  refine ⟨fun reading s => ?_, rfl, rfl, rfl⟩
  intro r now n band
  have clamped : clampReading reading = r := clampReading_eq reading
  have done : Ends (exec (.thermalSample reading) s) (takeSample reading (advance s.nextSample s)) := ends_finish _
  constructor
  · intro same
    rw [takeSample_of_same_band (s := advance s.nextSample s) (by rw [clamped]; exact same), clamped] at done
    exact done
  · intro new pulled
    obtain ⟨ports, told, e⟩ := takeSample_tells (s := advance s.nextSample s) (by rw [clamped]; exact new)
    rw [clamped] at e told
    exact ⟨ports, told, e ▸ done⟩

end Sys2Proof.Machine.RefreshAccount
end

section
/-!
SUPPORT. The retained state: what becomes of an admitted packet in each retention state, HOLD and the five items of STATUS with their bytes,
and the completion of a wake (spec/06, spec/11).
-/

namespace Sys2Proof.Machine.RetentionState

open RefreshAccount

/-! ### The admission of a packet (R125, R127) -/

/-- A packet whose request passes every check ends in what the request's admission makes of the state. -/
theorem ends_admission {t : Time} {p : Port} {bytes : List Byte} {r : Request} {lines : List StagedLine} {s w : State}
    (packet : decodePacket bytes = .request r lines) (up : (s.port p).link = .up) (stays : (s.port p).session ≠ .detaching)
    (passes : Admissible s p r) (becomes : admission p r lines (advance t s) = w) : Ends (exec (.packetArrival t p bytes) s) w := by
  have takes : takesPackets (advance t s) p = true := decide_eq_true ⟨up, stays⟩
  have arrives : arrive p (.request r lines) (advance t s) = w := by
    simp only [arrive, takes, Bool.true_eq_false, if_false, (admissionRefusal_eq_none t).2 passes, becomes]
  have run : exec (.packetArrival t p bytes) s = .next (requestEvent t p r lines s) := packetArrival_of_decodePacket packet
  rw [run, requestEvent, arrives]
  exact ends_finish w

/-! ### What an admission finds (R108, R109) -/

/-- The entry on an IDLE path falls together with the admission: it is ENTERING. -/
theorem retentionAtAdmission_together {t : Time} {s : State} (retained : s.retention = .retained) (same : s.entered = some (max s.now t)) :
    retentionAtAdmission (advance t s) = .entering := if_pos ⟨retained, same⟩

theorem retentionAtAdmission_apart {t : Time} {s : State} (apart : s.entered ≠ some (max s.now t)) :
    retentionAtAdmission (advance t s) = s.retention := if_neg fun together => apart together.2

theorem retentionAtAdmission_of_not_retained {t : Time} {s : State} (h : s.retention ≠ .retained) :
    retentionAtAdmission (advance t s) = s.retention := if_neg fun together => h together.1

/-- A request admitted at time `t` is served as in ACTIVE: the part is ACTIVE or ENTERING, or the entry on an IDLE path falls together with
the admission (R109, R129; log entry 24). -/
def Serves (t : Time) (s : State) : Prop :=
  s.retention = .active ∨ s.retention = .entering ∨ (s.retention = .retained ∧ s.entered = some (max s.now t))

/-- Such an admission finds ACTIVE or ENTERING. -/
theorem Serves.finds {t : Time} {s : State} (h : Serves t s) :
    (retentionAtAdmission (advance t s) = .active ∧ s.retention = .active) ∨ retentionAtAdmission (advance t s) = .entering := by
  rcases h with active | entering | ⟨retained, same⟩
  · exact .inl ⟨(retentionAtAdmission_of_not_retained (by simp [active])).trans active, active⟩
  · exact .inr ((retentionAtAdmission_of_not_retained (by simp [entering])).trans entering)
  · exact .inr (retentionAtAdmission_together retained same)

/-! ### What an admission makes of the retention state (R109, R112, R127) -/

/-- A request that is no wake cause changes no retention state. -/
theorem admitted_of_no_cause {t : Time} {p : Port} {r : Request} {lines : List StagedLine} {s : State}
    (no : wakeCause s p r.body = false) : admitted p r lines (advance t s) = Queued t p r lines s :=
  (if_pos no).trans (enqueue_advance ..)

/-- In ACTIVE and ENTERING a wake cause leaves the part ACTIVE (R109). -/
theorem admitted_serves {t : Time} {p : Port} {r : Request} {lines : List StagedLine} {s : State} (serves : Serves t s) :
    admitted p r lines (advance t s) =
      { Queued t p r lines s with retention := if wakeCause s p r.body then .active else s.retention } := by
  by_cases cause : wakeCause s p r.body = true
  · have wakes : wakeCause (advance t s) p r.body = true := cause
    rw [if_pos cause, admitted, enqueue_advance]
    dsimp only
    rw [if_neg (by simp [wakes])]
    rcases serves.finds with ⟨finds, active⟩ | finds
    · rw [finds]
      dsimp only
      rw [← active]
      rfl
    · rw [finds]
  · rw [if_neg cause, admitted_of_no_cause (by simpa using cause)]
    rfl

/-- In WAKING an admission changes no retention state (R113). -/
theorem admitted_waking {t d : Time} {p : Port} {r : Request} {lines : List StagedLine} {s : State} (waking : s.retention = .waking d) :
    admitted p r lines (advance t s) = Queued t p r lines s := by
  rw [admitted, enqueue_advance, (retentionAtAdmission_of_not_retained (by simp [waking])).trans waking]
  exact ite_self _

/-- A wake cause of a later moment than the entry begins a wake (R112). -/
theorem admitted_retained {t : Time} {p : Port} {r : Request} {lines : List StagedLine} {s : State}
    (finds : retentionAtAdmission (advance t s) = .retained) (cause : wakeCause s p r.body = true) :
    admitted p r lines (advance t s) = beginWake (Queued t p r lines s) := by
  have wakes : wakeCause (advance t s) p r.body = true := cause
  rw [admitted, enqueue_advance, finds]
  exact if_neg (by simp [wakes])

/-! ### Where an admitted request goes (R111, R113, R129) -/

theorem admission_dispatched {p : Port} {r : Request} {lines : List StagedLine} {s : State} (atOnce : dispatchedAtOnce s p r = true) :
    admission p r lines s = gate p r (unqueue p r (admitted p r lines s)) := if_pos atOnce

theorem admission_waits {p : Port} {r : Request} {lines : List StagedLine} {s : State} (waits : dispatchedAtOnce s p r = false) :
    admission p r lines s = admitted p r lines s := if_neg (by simp [waits])

/-- A request that was put into an empty queue leaves it empty. -/
theorem unqueue_of_empty {t : Time} {p : Port} {r : Request} {lines : List StagedLine} {s a : State} (empty : (s.port p).ingress = [])
    (queued : a.port p = (Queued t p r lines s).port p) : unqueue p r a = a.setPort p { a.port p with ingress := [] } :=
  unqueue_head (by rw [queued, Queued_port, empty]; rfl)

theorem Serves.dispatchedAtOnce {t : Time} {s : State} (serves : Serves t s) (p : Port) (r : Request) :
    dispatchedAtOnce (advance t s) p r = (s.port p).ingress.isEmpty := by
  unfold Machine.dispatchedAtOnce
  rcases serves.finds with ⟨finds, _⟩ | finds <;> rw [finds] <;> rfl

theorem dispatchedAtOnce_waking {t d : Time} {p : Port} {r : Request} {s : State} (waking : s.retention = .waking d) :
    dispatchedAtOnce (advance t s) p r = r.body.isStatus := by
  unfold dispatchedAtOnce
  rw [(retentionAtAdmission_of_not_retained (by simp [waking])).trans waking]

/-- In RETAINED a request that is no wake cause is dispatched at once, whether or not it falls together with the entry (R109, R111). -/
theorem dispatchedAtOnce_of_no_cause {t : Time} {p : Port} {r : Request} {s : State} (retained : s.retention = .retained)
    (no : wakeCause s p r.body = false) (empty : (s.port p).ingress = []) : dispatchedAtOnce (advance t s) p r = true := by
  have still : wakeCause (advance t s) p r.body = false := no
  have queue : ((advance t s).port p).ingress.isEmpty = true := List.isEmpty_iff.2 empty
  unfold dispatchedAtOnce
  by_cases same : s.entered = some (max s.now t)
  · rw [retentionAtAdmission_together retained same, queue]
  · rw [(retentionAtAdmission_apart same).trans retained, still, queue]
    rfl

theorem isStatus_eq_false {b : Body} (h : ∀ item, b ≠ .status item) : b.isStatus = false := by
  unfold Body.isStatus
  split
  · next item => exact absurd rfl (h item)
  · rfl

/-- In RETAINED a wake cause of a later moment than the entry begins a wake, and waits for its end (R112). -/
theorem admission_begins_wake {t : Time} {p : Port} {r : Request} {lines : List StagedLine} {s : State} (retained : s.retention = .retained)
    (cause : wakeCause s p r.body = true) (later : s.entered ≠ some (max s.now t)) :
    admission p r lines (advance t s) = beginWake (Queued t p r lines s) := by
  have finds : retentionAtAdmission (advance t s) = .retained := (retentionAtAdmission_apart later).trans retained
  have wakes : wakeCause (advance t s) p r.body = true := cause
  have waits : dispatchedAtOnce (advance t s) p r = false := by
    unfold dispatchedAtOnce
    rw [finds, wakes]
    rfl
  exact (admission_waits waits).trans (admitted_retained finds cause)

/-! ### The beginning of a wake (R112) -/

theorem beginWake_full {s : State} (full : s.settings.quickWake = false) :
    beginWake s = { s with retention := .waking (s.now + us 2) } := if_neg (by simp [full])

/-- Without an ordinary STEP in progress nothing is abandoned. -/
theorem abandonStep_of_idle {s : State} (idle : ∀ x k d, s.path ≠ some { op := .step x k false, completes := d }) : abandonStep s = s := by
  unfold abandonStep
  split
  · next x k d path => exact absurd path (idle x k d)
  · rfl

/-- An abandoned STEP leaves its banks CLOSED, and they are served (R15). -/
theorem abandonStep_of_step {s : State} {x : BankSet} {k : Row} {d : Time} (path : s.path = some { op := .step x k false, completes := d }) :
    ∃ banks : PerBank BankEntry, (∀ b, banks.get b = if b.set = x then { s.bank b with state := .closed } else s.bank b) ∧
      abandonStep s = serveBanks x.banks { s with path := none, banks := banks } := by
  obtain ⟨banks, entries, closed⟩ := setStates_eq x .closed s
  refine ⟨banks, entries, ?_⟩
  unfold abandonStep
  rw [path]
  dsimp only
  rw [closed]

theorem beginWake_quick {s : State} (quick : s.settings.quickWake = true) :
    beginWake s = abandonStep { s with retention := .waking (s.now + ns 500) } := if_pos quick

/-! ### HOLD and STATUS (R106, R132) -/

/-- The session gate takes a STATUS whether or not its port is ATTACHED (R129). -/
theorem gate_status (p : Port) (tag : Tag) (item : Byte) (u : State) : gate p ⟨tag, .status item⟩ u = statusRequest p tag item u := by
  unfold gate
  split_ifs <;> rfl

/-- What a STATUS command that is dispatched ends in. -/
theorem ends_status {t : Time} {p : Port} {tag : Tag} {item : Byte} {s u w : State} (h : atDispatch t p ⟨tag, .status item⟩ [] s = some u)
    (reports : statusRequest p tag item u = w) : Ends (.next (requestEvent t p ⟨tag, .status item⟩ [] s)) w := by
  rw [requestEvent_of_atDispatch h, gate_status, reports]
  exact ends_finish _

/-- A dispatched request finds the vote as its admission left it (R106). -/
theorem vote_of_atDispatch {t : Time} {p : Port} {r : Request} {s u : State} (h : atDispatch t p r [] s = some u) :
    (u.port p).session = (s.port p).session ∧
      (u.port p).vote = if (s.port p).session = .attached then voteAfter (s.port p).vote r.body else (s.port p).vote := by
  rw [port_of_atDispatch h, Queued_port]
  exact ⟨rfl, rfl⟩

/-! ### The bytes of a report (R174) -/

/-- The map of four flags, one bit for each port. -/
theorem flags4 (a b c d : Bool) :
    let map : Byte := (if a then 1 else 0) ||| (if b then 2 else 0) ||| (if c then 4 else 0) ||| (if d then 8 else 0)
    map.getLsbD 0 = a ∧ map.getLsbD 1 = b ∧ map.getLsbD 2 = c ∧ map.getLsbD 3 = d ∧ map.toNat < 16 := by
  revert a b c d
  decide

/-- The byte of five flags. -/
theorem flags5 (a b c d e : Bool) :
    let map : Byte :=
      (if a then 1 else 0) ||| (if b then 2 else 0) ||| (if c then 4 else 0) ||| (if d then 8 else 0) ||| (if e then 16 else 0)
    map.getLsbD 0 = a ∧ map.getLsbD 1 = b ∧ map.getLsbD 2 = c ∧ map.getLsbD 3 = d ∧ map.getLsbD 4 = e ∧ map.toNat < 32 := by
  revert a b c d e
  decide

/-- The presence byte of a fault record has one bit for each of the five fields. -/
theorem presence_spec (f : FaultRecord) :
    let present := presence f.bank 1 ||| presence f.row 2 ||| presence f.line 4 ||| presence f.tag 8 ||| presence f.set 16
    present.getLsbD 0 = f.bank.isSome ∧ present.getLsbD 1 = f.row.isSome ∧ present.getLsbD 2 = f.line.isSome ∧
      present.getLsbD 3 = f.tag.isSome ∧ present.getLsbD 4 = f.set.isSome ∧ present.toNat < 32 :=
  flags5 f.bank.isSome f.row.isSome f.line.isSome f.tag.isSome f.set.isSome

/-- The holder map of a bank names port `p`: a pending grantee in OPENING, and a holder otherwise. -/
def mapped (e : BankEntry) (p : Port) : Bool := if e.state = .opening then e.isGrantee p else e.isHolder p

/-- Bit n of the holder map is port n. -/
theorem holderMap_spec (e : BankEntry) : (∀ p : Port, (holderMap e).getLsbD p.toNat = mapped e p) ∧ (holderMap e).toNat < 16 := by
  obtain ⟨p0, p1, p2, p3, small⟩ := flags4 (mapped e .p0) (mapped e .p1) (mapped e .p2) (mapped e .p3)
  refine ⟨fun p => ?_, small⟩
  cases p with
  | p0 => exact p0
  | p1 => exact p1
  | p2 => exact p2
  | p3 => exact p3

/-- The six bytes of a bank. -/
theorem bankPayload_eq (e : BankEntry) :
    bankPayload e = [e.state.code] ++ ((e.row.map (fun r => bytes2 r.toNat)).getD [0xFF, 0xFF])
      ++ [(e.mode.map modeCode).getD 0xFF, holderMap e, byteOf e.waiting.length] := by
  unfold bankPayload
  cases e.row <;> cases e.mode <;> rfl

theorem length_bankPayload (e : BankEntry) : (bankPayload e).length = 6 := by
  unfold bankPayload
  cases e.row <;> rfl

theorem toNat_byteOf (n : Nat) : (byteOf n).toNat = n % 256 := BitVec.toNat_ofNat n 8

theorem toNat_bytes2 {n : Nat} (h : n < 65536) : (bytes2 n).map BitVec.toNat = [n / 256, n % 256] := by
  have high : n / 256 % 256 = n / 256 := by omega
  simp only [bytes2, List.map_cons, List.map_nil, toNat_byteOf, high]

theorem toNat_bytes4 {n : Nat} (h : n < 4294967296) :
    (bytes4 n).map BitVec.toNat = [n / 16777216, n / 65536 % 256, n / 256 % 256, n % 256] := by
  have high : n / 16777216 % 256 = n / 16777216 := by omega
  simp only [bytes4, List.map_cons, List.map_nil, toNat_byteOf, high]

/-! ### The completion of a wake (R114) -/

theorem clearVotes_port (s : State) (p : Port) : (clearVotes s).port p = { s.port p with vote := false } := by
  simp only [clearVotes, Port.all, List.foldl_cons, List.foldl_nil, modPort_port]
  cases p <;> simp

/-- What the end of a wake makes of a port: no vote, and RETENTION (woken) where it is ATTACHED. -/
def wokenPort (q : PortState) : PortState :=
  if q.session = .attached then { q with vote := false, notices := mergeNotice (.retention true) q.notices } else { q with vote := false }

theorem raiseEverywhere_clearVotes_port (k : State) (p : Port) :
    (raiseEverywhere (.retention true) (clearVotes k)).port p = wokenPort (k.port p) := by
  rw [(raiseEverywhere_eq _ _).2, clearVotes_port]
  rfl

/-- A wake: the rises of both balances, the votes and notices of the ports, and ACTIVE. -/
theorem completeWake_spec (s : State) :
    let k := raiseBalance .b (raiseBalance .a s)
    ∃ ports : PerPort PortState, (∀ p, ports.get p = wokenPort (k.port p)) ∧ completeWake s = { k with ports := ports, retention := .active } :=
  ⟨_, raiseEverywhere_clearVotes_port _, completeWake_eq s⟩

/-- A change of an account that leaves its next tick leaves both. -/
theorem nextTick_setAccount {x : BankSet} {c : Account} {s : State} (h : c.nextTick = (s.account x).nextTick) (y : BankSet) :
    ((s.setAccount x c).account y).nextTick = (s.account y).nextTick := by
  rw [State.account_setAccount]
  split_ifs with same
  · exact same ▸ h
  · rfl

/-- No rise of a balance moves a tick (R98). -/
theorem raiseBalance_nextTick (x : BankSet) (s : State) (y : BankSet) :
    ((raiseBalance x s).account y).nextTick = (s.account y).nextTick := by
  by_cases below : (s.account x).balance < 8
  · have raised := nextTick_setAccount (x := x) (c := { s.account x with balance := (s.account x).balance + 1 }) (s := s) rfl y
    rw [raiseBalance_below below]
    split_ifs <;> simpa only [(forceSet_frame x _).account, (enterPressure_frame x _).account] using raised
  · have missed : raiseBalance x s = missTick x s := if_pos (by omega)
    rw [missed, missTick_eq, nextTick_setAccount]
    · simp only [recordFault_account]
    · simp only [recordFault_account]

/-- Outside WAKING no wake completes (log entry 3). -/
theorem wakeCompletion_absent {s : State} (h : ∀ d, s.retention ≠ .waking d) : exec .wakeCompletion s = .next s := by
  show execWakeCompletion s = _
  unfold execWakeCompletion
  split
  · next d waking => exact absurd waking (h d)
  · rfl

theorem wakeCompletion_of_waking {s : State} {d : Time} (waking : s.retention = .waking d) :
    exec .wakeCompletion s = .next (resumeDispatch (finish (completeWake (advance d s)))) := by
  show execWakeCompletion s = _
  simp only [execWakeCompletion, waking]

/-! ### The obligations -/

/-- Settles O6: by the retention state that the admission finds, and there by whether the request is dispatched at once. -/
theorem packetAdmitted : Obligations.PacketAdmitted := by
  refine ⟨fun t p bytes r lines s packet up stays passes serves => ?_, fun t d p bytes r lines s packet up stays passes waking => ?_,
    fun t p bytes r lines s packet up stays passes retained => ?_⟩
  · intro q a
    have atOnce := Serves.dispatchedAtOnce serves p r
    have taken : admitted p r lines (advance t s) = a := admitted_serves serves
    refine ⟨fun empty => ends_admission packet up stays passes ?_, fun full => ends_admission packet up stays passes ?_⟩
    · rw [admission_dispatched (atOnce.trans (List.isEmpty_iff.2 empty)), taken]
      exact congrArg (gate p r) (unqueue_of_empty (t := t) (lines := lines) empty rfl)
    · exact (admission_waits (atOnce.trans (by simpa using full))).trans taken
  · intro q
    have atOnce := dispatchedAtOnce_waking (t := t) (p := p) (r := r) waking
    have taken : admitted p r lines (advance t s) = q := admitted_waking waking
    refine ⟨fun item status => ends_admission packet up stays passes ?_, fun other => ends_admission packet up stays passes ?_⟩
    · rw [admission_dispatched (atOnce.trans (by rw [status]; rfl)), taken]
      rfl
    · exact (admission_waits (atOnce.trans (isStatus_eq_false other))).trans taken
  · intro q o
    have ends {w} := ends_admission (t := t) (w := w) packet up stays passes
    have begins := fun cause later => admission_begins_wake (t := t) (lines := lines) (r := r) (p := p) retained cause later
    refine ⟨fun no empty => ends ?_, fun cause later full => ends ?_, fun cause later quick => ⟨fun idle => ends ?_, fun x k d path => ?_⟩⟩
    · rw [admission_dispatched (dispatchedAtOnce_of_no_cause retained no empty), admitted_of_no_cause no, unqueue_of_empty empty rfl]
    · exact (begins cause later).trans (beginWake_full full)
    · exact ((begins cause later).trans (beginWake_quick (s := q) quick)).trans (abandonStep_of_idle idle)
    · obtain ⟨banks, entries, abandoned⟩ := abandonStep_of_step (s := { q with retention := .waking (q.now + ns 500) }) path
      exact ⟨banks, entries, ends (((begins cause later).trans (beginWake_quick (s := q) quick)).trans abandoned)⟩

/-- Settles O29: the gate hands HOLD and STATUS to their owner, and the bytes are counted flag by flag. -/
theorem holdAndStatus : Obligations.HoldAndStatus := by
  refine ⟨fun t p tag s u h attached => ?_, fun t p tag s u => ?_, ⟨fun e => ?_, fun f => ?_⟩, ?_⟩
  · obtain ⟨session, vote⟩ := vote_of_atDispatch h
    exact ⟨vote.trans (if_pos (session ▸ attached)), ends_toOwner h attached⟩
  · refine ⟨fun item h => ?_, fun h => ends_status h rfl, fun h => ends_status h rfl, fun h => ends_status h rfl,
      fun h => ends_status h rfl, fun h => ends_status h rfl⟩
    exact (vote_of_atDispatch h).2.trans (ite_self _)
  · obtain ⟨bits, small⟩ := holderMap_spec e
    exact ⟨holderMap e, bankPayload_eq e, bits, small, length_bankPayload e⟩
  · obtain ⟨bank, row, line, tag, set, small⟩ := presence_spec f
    exact ⟨_, rfl, bank, row, line, tag, set, small, rfl⟩
  · exact ⟨rfl, rfl, rfl, rfl, fun _ => rfl, rfl, rfl, rfl, rfl, fun n h => (toNat_byteOf n).trans (Nat.mod_eq_of_lt h),
      fun n => toNat_bytes2, fun n => toNat_bytes4⟩

/-- Settles O44: the wake's own event, and then the four queues. -/
theorem wakeCompletion : Obligations.WakeCompletion := by
  refine ⟨fun s => ⟨wakeCompletion_absent, fun d waking => ?_⟩, fun x s => ?_⟩
  · intro k
    have ended : ∀ w, completeWake (advance d s) = w → EventEnd w (finish (completeWake (advance d s))) := fun w e => e ▸ eventEnd_finish _
    have session : ∀ p, (k.port p).session = (s.port p).session := fun p => (raiseBalance_session ..).trans (raiseBalance_session ..)
    obtain ⟨ports, told, woken⟩ := completeWake_spec (advance d s)
    obtain ⟨v0, v1, v2, served0, served1, served2, served3⟩ := queueServed_resumeDispatch (finish (completeWake (advance d s)))
    refine ⟨ports, _, v0, v1, v2, _, fun p => ?_, ended _ woken, served0, served1, served2, served3, wakeCompletion_of_waking waking⟩
    rw [← session]
    exact told p
  · intro old raised pressed f
    exact ⟨raiseBalance_below, fun full => (raiseBalance_full full).trans (missTick_eq x s), raiseBalance_nextTick x s⟩

end Sys2Proof.Machine.RetentionState
end

section
/-!
SUPPORT. Port links, sessions and requests: which requests go through the session gate in their admission event, what becomes of the packets
that are not admitted, ATTACH and DETACH, a link that goes DOWN or comes UP, and what an egress sends (spec/07, spec/11).
-/

namespace Sys2Proof.Machine.PortLinks

open RetentionState

/-! ### An event of one port -/

theorem ends_of_eq {v w : State} (h : v = w) : Ends (.next (finish v)) w := h ▸ ends_finish v

/-- What an event ends in that changes one port alone. -/
theorem ends_modPort {t : Time} {p : Port} {f : PortState → PortState} {s : State} {q : PortState} (becomes : f (s.port p) = q) :
    Ends (.next (finish (modPort p f (advance t s)))) ({ s with now := max s.now t }.setPort p q) :=
  ends_of_eq (congrArg ((advance t s).setPort p) becomes)

/-- An event that leaves its port as it was is the passing of time. -/
theorem ends_modPort_self {t : Time} {p : Port} {f : PortState → PortState} {s : State} (stays : f (s.port p) = s.port p) :
    Ends (.next (finish (modPort p f (advance t s)))) { s with now := max s.now t } :=
  ends_of_eq ((congrArg ((advance t s).setPort p) stays).trans (State.setPort_self (advance t s) p))

/-! ### The checks of an arriving request (R72, R117, R124, R125) -/

/-- Port `p` takes packets, and request `r` passes its checks there. -/
def Taken (s : State) (p : Port) (r : Request) : Prop :=
  (s.port p).link = .up ∧ (s.port p).session ≠ .detaching ∧ Admissible s p r

theorem admission_test_iff (t : Time) (s : State) (p : Port) (r : Request) :
    (takesPackets (advance t s) p && (admissionRefusal (advance t s) p r).isNone) = true ↔ Taken s p r := by
  rw [Bool.and_eq_true, Option.isNone_iff_eq_none, admissionRefusal_eq_none, takesPackets, decide_eq_true_eq, and_assoc]
  rfl

/-- The pool's used count is the sum of the four staged counts (R71). -/
theorem usedCount_eq (s : State) :
    usedCount s = stagedCount s .p0 + stagedCount s .p1 + stagedCount s .p2 + stagedCount s .p3 := by
  unfold usedCount stagedCount
  induction s.staging with
  | nil => rfl
  | cons w ws ih =>
    simp only [List.map_cons, List.sum_cons, List.filter_cons, ih]
    cases w.port <;> simp <;> omega

/-- The staging room test of a WRITE (R72). -/
theorem hasRoom_write {s : State} {p : Port} {r : Request} {b : Bank} {masked : Bool} {first : BitVec 5} {count : Nat}
    (write : r.body = .writeLines b masked first count) :
    hasRoom s p r = true ↔ stagedCount s p + count ≤ 16 ∧
      count ≤ 32 - (stagedCount s .p0 + stagedCount s .p1 + stagedCount s .p2 + stagedCount s .p3) := by
  simp only [hasRoom, write, stagingRoom, decide_eq_true_eq, usedCount_eq]
  rfl

/-- A request that stages nothing needs no room (R72). -/
theorem hasRoom_of_not_write {s : State} {p : Port} {r : Request}
    (other : ∀ b masked first count, r.body ≠ .writeLines b masked first count) : hasRoom s p r = true := by
  unfold hasRoom
  split
  · next b masked first count write => exact absurd write (other b masked first count)
  · rfl

/-! ### The state in which a request goes through the gate (R109, R111, R113, R129) -/

theorem atDispatch_of_taken {t : Time} {p : Port} {r : Request} {lines : List StagedLine} {s a : State} (taken : Taken s p r)
    (atOnce : dispatchedAtOnce (advance t s) p r = true) (becomes : admitted p r lines (advance t s) = a) :
    atDispatch t p r lines s = some (unqueue p r a) := by
  unfold atDispatch
  dsimp only
  rw [(admission_test_iff t s p r).2 taken, atOnce, becomes]
  rfl

theorem atDispatch_eq_none {t : Time} {p : Port} {r : Request} {lines : List StagedLine} {s : State}
    (h : dispatchedAtOnce (advance t s) p r = false ∨ ¬Taken s p r) : atDispatch t p r lines s = none := by
  refine if_neg fun passes => ?_
  rw [Bool.and_eq_true, admission_test_iff] at passes
  obtain ⟨taken, atOnce⟩ := passes
  rcases h with waits | dropped
  · exact absurd atOnce (by simp [waits])
  · exact dropped taken

/-- In RETAINED a wake cause of a later moment than the entry waits for the wake (R112). -/
theorem dispatchedAtOnce_of_cause {t : Time} {p : Port} {r : Request} {s : State} (retained : s.retention = .retained)
    (later : s.entered ≠ some (max s.now t)) (cause : wakeCause s p r.body = true) : dispatchedAtOnce (advance t s) p r = false := by
  have wakes : wakeCause (advance t s) p r.body = true := cause
  unfold dispatchedAtOnce
  rw [(retentionAtAdmission_apart later).trans retained, wakes]
  rfl

/-! ### Wake causes and votes (R106, R112, R127) -/

/-- At an ATTACHED port every request is a wake cause but HOLD, STATUS and DETACH. -/
theorem wakeCause_attached {s : State} {p : Port} (attached : (s.port p).session = .attached) (body : Body) :
    wakeCause s p body = false ↔ body = .hold ∨ (∃ item, body = .status item) ∨ body = .detach := by
  unfold wakeCause
  rw [attached]
  cases body <;> simp

/-- At a DETACHED port ATTACH alone is a wake cause. -/
theorem wakeCause_detached {s : State} {p : Port} (detached : (s.port p).session = .detached) (body : Body) :
    wakeCause s p body = true ↔ body = .attach := by
  unfold wakeCause
  rw [detached]
  cases body <;> simp

/-- Every request but HOLD and STATUS takes the vote back. -/
theorem voteAfter_of_other {vote : Bool} {body : Body} (hold : body ≠ .hold) (status : ∀ item, body ≠ .status item) :
    voteAfter vote body = false := by
  unfold voteAfter
  split
  · exact absurd rfl hold
  · next item => exact absurd rfl (status item)
  · rfl

theorem vote_queued (t : Time) (p : Port) (r : Request) (lines : List StagedLine) (s : State) :
    ((Queued t p r lines s).port p).vote =
      if (s.port p).session = .attached then voteAfter (s.port p).vote r.body else (s.port p).vote := by
  rw [Queued_port]

/-! ### A packet that is not admitted (R117, R124 to R126, R128) -/

/-- What a packet that arrives ends in. -/
theorem ends_arrival {t : Time} {p : Port} {bytes : List Byte} {s w : State}
    (becomes : arrive p (decodePacket bytes) (advance t s) = w) : Ends (exec (.packetArrival t p bytes) s) w :=
  ends_of_eq becomes

theorem arrive_not_taken {p : Port} {a : Arrival} {s : State} (closed : (s.port p).link = .down ∨ (s.port p).session = .detaching) :
    arrive p a s = s := by
  refine if_pos (decide_eq_false ?_)
  rintro ⟨up, stays⟩
  rcases closed with down | detaching
  · exact absurd (up.symm.trans down) (by decide)
  · exact stays detaching

/-- What the port link reads in a packet decides, where it takes packets. -/
theorem arrive_taken {p : Port} {s : State} (up : (s.port p).link = .up) (stays : (s.port p).session ≠ .detaching) :
    arrive p .damaged s = recordFault p (FaultRecord.bare .header) s ∧
    (∀ tag, arrive p (.noKind tag) s = refuse p tag .badKind s) ∧
    (∀ r lines res, admissionRefusal s p r = some res → arrive p (.request r lines) s = refuse p r.tag res s) := by
  have takes : takesPackets s p = true := decide_eq_true ⟨up, stays⟩
  have taken : ¬takesPackets s p = false := by simp [takes]
  refine ⟨if_neg taken, fun tag => if_neg taken, fun r lines res refused => (if_neg taken).trans ?_⟩
  simp only [refused]

theorem admissionRefusal_dupTag {s : State} {p : Port} {r : Request} (used : r.tag ∈ (s.port p).inFlight) :
    admissionRefusal s p r = some .dupTag := if_pos used

theorem admissionRefusal_full {s : State} {p : Port} {r : Request} (new : r.tag ∉ (s.port p).inFlight)
    (full : 16 ≤ (s.port p).placesTaken ∨ hasRoom s p r = false) : admissionRefusal s p r = some .full := by
  unfold admissionRefusal
  rw [if_neg new]
  split_ifs with places room
  · rfl
  · rfl
  · rcases full with full | full
    · exact absurd full places
    · exact absurd full room

/-- With a refusal slot free the refusal stands last, with the epoch of this moment (R120, R128). -/
theorem refuse_of_free {p : Port} {tag : Tag} {res : Result} {s : State} (free : (s.port p).slotsTaken < 4) :
    refuse p tag res s = s.setPort p { s.port p with outbox := (s.port p).outbox ++ [.refusal tag res (s.port p).epoch] } :=
  if_pos free

/-- With all four slots taken the packet is dropped with FLOOD (R128). -/
theorem refuse_of_full {p : Port} {tag : Tag} {res : Result} {s : State} (full : 4 ≤ (s.port p).slotsTaken) :
    refuse p tag res s = recordFault p { kind := .flood, bank := none, row := none, line := none, tag := some tag, set := none } s :=
  if_neg (Nat.not_lt.2 full)

/-- What a refused packet ends in, by the refusal slots. -/
theorem ends_refused {t : Time} {p : Port} {bytes : List Byte} {s : State} {tag : Tag} {res : Result}
    (refused : arrive p (decodePacket bytes) (advance t s) = refuse p tag res (advance t s)) :
    let n := { s with now := max s.now t }
    ((s.port p).slotsTaken < 4 → Ends (exec (.packetArrival t p bytes) s)
      (n.setPort p { s.port p with outbox := (s.port p).outbox ++ [.refusal tag res (s.port p).epoch] })) ∧
    (4 ≤ (s.port p).slotsTaken → Ends (exec (.packetArrival t p bytes) s)
      (recordFault p { kind := .flood, bank := none, row := none, line := none, tag := some tag, set := none } n)) :=
  ⟨fun free => ends_arrival (refused.trans (refuse_of_free (s := advance t s) free)),
    fun full => ends_arrival (refused.trans (refuse_of_full (s := advance t s) full))⟩

/-! ### The session gate of a DETACHED port and ATTACH (R121, R129) -/

/-- A DETACHED port answers everything but ATTACH and STATUS with NOT-ATTACHED; of a WRITE it frees the staged lines (R73). -/
theorem atDetached_of_other {p : Port} {r : Request} {u : State} (attach : r.body ≠ .attach) (status : ∀ item, r.body ≠ .status item) :
    atDetached p r u = answer p r.tag .notAttached 0 0 [] (freeQueued p u r) := by
  cases body : r.body with
  | attach => exact absurd body attach
  | status item => exact absurd body (status item)
  | _ => simp only [atDetached, freeQueued, reply, body]

theorem attachPort_eq (p : Port) (tag : Tag) (u : State) :
    attachPort p tag u = u.setPort p { u.port p with
      epoch := (u.port p).epoch + 1
      faults := []
      overflow := false
      session := .attached
      inFlight := (u.port p).inFlight.erase tag
      outbox := (u.port p).outbox ++ [.response tag .ok ((u.port p).epoch + 1) (byteOf p.toNat) 0 []] } := by
  simp [attachPort, answer, modPort]

/-! ### DETACH (R122, R123) -/

theorem pathXferFor_iff (p : Port) (s : State) :
    pathXferFor s p = true ↔ ∃ x lines d, s.path = some { op := .xfer x lines, completes := d } ∧ x.port = p := by
  unfold pathXferFor
  split
  · next x lines d path =>
    rw [decide_eq_true_eq]
    refine ⟨fun port => ⟨x, lines, d, path, port⟩, ?_⟩
    rintro ⟨y, _, _, same, port⟩
    cases path.symm.trans same
    exact port
  · next other =>
    refine iff_of_false (by decide) ?_
    rintro ⟨x, lines, d, path, _⟩
    exact other _ _ _ path

/-- A cleaned port waits in DETACHING for its transfer on the path, and is DETACHED without one (R123). -/
theorem cleanup_session (p : Port) (kept : Option Tag) (s : State) :
    ((cleanup p kept s).port p).session = if pathXferFor s p then .detaching else .detached := by
  unfold cleanup
  dsimp only
  rw [modPort_port, if_pos rfl, pathXferFor_cleanupBanks]

theorem detachPort_of_xfer {p : Port} {tag : Tag} {u : State} (busy : pathXferFor u p = true) :
    detachPort p tag u = cleanup p (some tag) u := by
  refine if_neg ?_
  rw [cleanup_session, busy]
  decide

theorem detachPort_of_idle {p : Port} {tag : Tag} {u : State} (idle : pathXferFor u p = false) :
    detachPort p tag u = answer p tag .ok 0 0 [] (cleanup p (some tag) u) := by
  refine if_pos ?_
  rw [cleanup_session, idle]
  rfl

/-! ### The link (R117, R118) -/

/-- What a DOWN link leaves of a port's egress: no pause, and no packet being sent. -/
def linkLost (q : PortState) : PortState := { q with link := .down, paused := false, sending := none }

theorem loseLink_of_down {p : Port} {s : State} (down : (s.port p).link = .down) : loseLink p s = s := if_pos down

theorem loseLink_of_up {p : Port} {s k : State} (up : (s.port p).link = .up) (becomes : loseSession p s = k) :
    loseLink p s = k.setPort p (linkLost (k.port p)) := by
  subst becomes
  exact if_neg (by simp [up])

theorem loseSession_attached {p : Port} {s : State} (h : (s.port p).session = .attached) : loseSession p s = cleanup p none s := by
  simp only [loseSession, h]

theorem loseSession_detaching {p : Port} {s : State} (h : (s.port p).session = .detaching) :
    loseSession p s = s.setPort p { s.port p with detachTag := none, inFlight := [] } := by
  simp only [loseSession, h, modPort]

/-- A DETACHED port loses its requests and its answers, and the Staging Pool the lines of its waiting WRITEs. -/
theorem loseSession_detached {p : Port} {s : State} (h : (s.port p).session = .detached) :
    ∃ staging : List StagedWrite,
      (∀ w, w ∈ staging ↔ w ∈ s.staging ∧
        ¬(w.port = p ∧ ∃ r ∈ (s.port p).ingress, r.tag = w.tag ∧ ∃ b m f c, r.body = .writeLines b m f c)) ∧
      loseSession p s = ({ s with staging := staging } : State).setPort p { s.port p with inFlight := [], ingress := [], outbox := [] } := by
  obtain ⟨staging, dropped, left⟩ := dropIngress_eq p s
  refine ⟨staging, left, ?_⟩
  simp only [loseSession, h, dropped, modPort, State.port_setPort, if_true, State.setPort_setPort]

/-- What LINK_DOWN of a link that is UP ends in. -/
theorem ends_linkDown {t : Time} {p : Port} {s k : State} (up : (s.port p).link = .up) (becomes : loseSession p (advance t s) = k) :
    Ends (exec (.linkDown t p) s) (k.setPort p (linkLost (k.port p))) :=
  ends_of_eq (loseLink_of_up (s := advance t s) up becomes)

/-- Where the loss has changed the port last, the DOWN link changes it once more. -/
theorem ends_linkDown_setPort {t : Time} {p : Port} {s k : State} {q : PortState} (up : (s.port p).link = .up)
    (becomes : loseSession p (advance t s) = k.setPort p q) : Ends (exec (.linkDown t p) s) (k.setPort p (linkLost q)) := by
  have lost := ends_linkDown up becomes
  rwa [State.port_setPort, if_pos rfl, State.setPort_setPort] at lost

theorem allBanksShut_iff (s : State) : allBanksShut s = true ↔ ∀ b, (s.bank b).state = .closed ∨ (s.bank b).state = .refreshing := by
  simp only [allBanksShut, List.all_eq_true, decide_eq_true_eq]
  exact ⟨fun h b => h b (mem_allBanks b), fun h b _ => h b⟩

/-! ### The egress (R120, R124, R130) -/

theorem mayBegin_iff (q : PortState) :
    q.mayBegin = true ↔ q.link = .up ∧ q.paused = false ∧ q.sending = none ∧ q.session ≠ .detaching := decide_eq_true_iff

theorem not_mayBegin {q : PortState} (h : q.link = .down ∨ q.paused = true ∨ q.sending ≠ none ∨ q.session = .detaching) :
    q.mayBegin = false := by
  rw [Bool.eq_false_iff, ne_eq, mayBegin_iff]
  rintro ⟨up, runs, free, stays⟩
  rcases h with down | paused | sends | detaching
  · exact absurd (up.symm.trans down) (by decide)
  · exact absurd (runs.symm.trans paused) (by decide)
  · exact sends free
  · exact stays detaching

/-- A pause takes hold where the link is UP (R117). -/
theorem pause_of_up {q : PortState} (up : q.link = .up) :
    { q with paused := q.paused || decide (q.link = .up) } = { q with paused := true } := by
  simp [up]

/-- A DOWN link carries no pause (log entry 17). -/
theorem pause_of_down {q : PortState} (down : q.link = .down) :
    { q with paused := q.paused || decide (q.link = .up) } = q := by
  have same : (q.paused || decide (q.link = .up)) = q.paused := by simp [down]
  rw [same]

theorem nextPacket_notice {q : PortState} {m : Notice} {ms : List Notice} (h : q.notices = m :: ms) :
    nextPacket q = { q with sending := some (.notice m q.epoch), notices := ms } := by
  simp only [nextPacket, h]

theorem nextPacket_answer {q : PortState} {a : Placed} {as : List Placed} (quiet : q.notices = []) (h : q.outbox = a :: as) :
    nextPacket q = { q with sending := some (.answer a), outbox := as } := by
  simp only [nextPacket, quiet, h]

theorem nextPacket_nothing {q : PortState} (notices : q.notices = []) (outbox : q.outbox = []) : nextPacket q = q := by
  simp only [nextPacket, notices, outbox]

/-! ### Places and slots (R125, R128) -/

/-- The packet being sent is an answer or a refusal of this sort. -/
def sendsSort (sort : Placed → Bool) (q : PortState) : Bool :=
  match q.sending with
  | some (.answer a) => sort a
  | _ => false

theorem placesTaken_eq (q : PortState) : q.placesTaken =
    q.inFlight.length + (q.outbox.filter Placed.isResponse).length + (if sendsSort Placed.isResponse q then 1 else 0) := by
  rw [← List.countP_eq_length_filter]
  rfl

theorem slotsTaken_eq (q : PortState) : q.slotsTaken =
    (q.outbox.filter (fun a => !a.isResponse)).length + (if sendsSort (fun a => !a.isResponse) q then 1 else 0) := by
  rw [← List.countP_eq_length_filter]
  rfl

/-- The end of the sending of an answer gives its place back. -/
theorem placesTaken_sent {q : PortState} {tag : Tag} {res : Result} {ep i0 i1 : Byte} {payload : List Byte}
    (h : q.sending = some (.answer (.response tag res ep i0 i1 payload))) :
    ({ q with sending := none } : PortState).placesTaken + 1 = q.placesTaken := by
  simp [placesTaken_eq, sendsSort, h, Placed.isResponse]

/-- The end of the sending of a refusal gives its slot back. -/
theorem slotsTaken_sent {q : PortState} {tag : Tag} {res : Result} {ep : Byte} (h : q.sending = some (.answer (.refusal tag res ep))) :
    ({ q with sending := none } : PortState).slotsTaken + 1 = q.slotsTaken := by
  simp [slotsTaken_eq, sendsSort, h, Placed.isResponse]

/-! ### The bytes of a packet (R167, R172) -/

/-- Info 1 of a FAULT: the count of the records, and the overflow mark in bit 7. -/
theorem toNat_faultInfo {n : Nat} (h : n ≤ 4) (overflow : Bool) :
    (byteOf n ||| (if overflow then 0x80 else 0)).toNat = n + (if overflow then 128 else 0) := by
  interval_cases n <;> cases overflow <;> rfl

theorem toNat_bankByte (b : Bank) : (bankByte b).toNat = b.toNat := by
  cases b <;> rfl

/-- One bit into the register of the header check, by whether it equals the register's highest bit. -/
theorem headerCrcBit_eq (r : Byte) (bit : Bool) : headerCrcBit r bit = if bit = r.getLsbD 7 then r <<< 1 else (r <<< 1) ^^^ 0x2F := by
  have msb : r.msb = r.getLsbD 7 := BitVec.msb_eq_getLsbD_last r
  unfold headerCrcBit
  rw [msb]
  by_cases same : bit = r.getLsbD 7 <;> simp [same]

/-! ### The obligations -/

/-- Settles O4: by the retention state that the admission finds. -/
theorem requestReachesItsOwner : Obligations.RequestReachesItsOwner := by
  refine ⟨fun t p r lines s => ?_, fun s p body => ⟨fun h => wakeCause_attached h body, fun h => wakeCause_detached h body⟩,
    fun t p r lines s => ?_, fun p r s => ⟨Iff.rfl, fun _ _ _ _ write => hasRoom_write write, hasRoom_of_not_write⟩⟩
  · intro q taken together
    refine ⟨fun ok serves empty => ?_, fun ok retained no empty => ?_, fun d item ok waking status => ?_, fun h => ?_⟩
    · have atOnce := (Serves.dispatchedAtOnce serves p r).trans (List.isEmpty_iff.2 empty)
      rw [atDispatch_of_taken ok atOnce (admitted_serves serves)]
      exact congrArg some (unqueue_of_empty (t := t) (lines := lines) empty rfl)
    · rw [atDispatch_of_taken ok (dispatchedAtOnce_of_no_cause retained no empty) (admitted_of_no_cause no)]
      exact congrArg some (unqueue_of_empty (t := t) (lines := lines) empty rfl)
    · have atOnce : dispatchedAtOnce (advance t s) p r = true := (dispatchedAtOnce_waking waking).trans (by rw [status]; rfl)
      exact atDispatch_of_taken ok atOnce (admitted_waking waking)
    · refine atDispatch_eq_none ?_
      rcases h with ⟨serves, full⟩ | ⟨retained, later, cause⟩ | ⟨⟨d, waking⟩, other⟩ | dropped
      · exact .inl ((Serves.dispatchedAtOnce serves p r).trans (by simpa using full))
      · exact .inl (dispatchedAtOnce_of_cause retained later cause)
      · exact .inl ((dispatchedAtOnce_waking waking).trans (isStatus_eq_false other))
      · exact .inr dropped
  · intro vote
    have queued : vote = _ := vote_queued t p r lines s
    refine ⟨fun attached => ?_, fun other => queued.trans (if_neg other)⟩
    have follows : vote = voteAfter (s.port p).vote r.body := queued.trans (if_pos attached)
    exact ⟨fun hold => follows.trans (by rw [hold]; rfl), fun item status => follows.trans (by rw [status]; rfl),
      fun hold status => follows.trans (voteAfter_of_other hold status)⟩

/-- Settles O7: by what the port link reads in the packet, and by the check that fails. -/
theorem packetNotAdmitted : Obligations.PacketNotAdmitted := by
  intro t p bytes s o n refused
  refine ⟨fun closed => ends_arrival (arrive_not_taken (s := advance t s) closed), fun up stays => ?_⟩
  obtain ⟨damaged, noKind, request⟩ := arrive_taken (s := advance t s) up stays
  refine ⟨fun packet => ends_arrival (packet ▸ damaged), fun tag packet => ends_refused (packet ▸ noKind tag), fun r lines packet => ?_⟩
  exact ⟨fun used => ends_refused (packet ▸ request r lines .dupTag (admissionRefusal_dupTag (s := advance t s) used)),
    fun new full => ends_refused (packet ▸ request r lines .full (admissionRefusal_full (s := advance t s) new full))⟩

/-- Settles O9: by the branches of the session gate. -/
theorem sessionGateAndAttach : Obligations.SessionGateAndAttach := by
  refine ⟨fun t p r lines s u h detached attach status => ?_, fun t p tag s u h => ⟨fun detached => ?_, fun attached => ?_⟩,
    fun p tag res i0 i1 payload s => rfl⟩
  · have done := ends_atDetached h (by simp [detached])
    rw [atDetached_of_other attach status] at done
    exact done
  · rw [← attachPort_eq]
    exact ends_atDetached h (by simp [detached])
  · exact ends_toOwner h attached

/-- Settles O11: the owner of a DETACH cleans the port up, whose session then says whether it is answered. -/
theorem detachCleansUp : Obligations.DetachCleansUp := by
  refine ⟨fun t p tag s u h attached => ?_, pathXferFor_iff⟩
  have done : Ends (exec (.detach t p tag) s) (detachPort p tag u) := ends_toOwner h attached
  exact ⟨fun idle => detachPort_of_idle idle ▸ done, fun busy => detachPort_of_xfer busy ▸ done⟩

/-- Settles O12: by the session state that the loss of the link finds. -/
theorem linkChanges : Obligations.LinkChanges := by
  refine ⟨fun t p s => ?_, fun t p s => ⟨fun ended => ?_, fun closing => ?_⟩, allBanksShut_iff⟩
  · intro n down o
    refine ⟨fun already => ends_of_eq (loseLink_of_down (s := advance t s) already), fun up =>
      ⟨fun attached => ends_linkDown up (loseSession_attached (s := advance t s) attached),
        fun detaching => ends_linkDown_setPort up (loseSession_detaching (s := advance t s) detaching), fun detached => ?_⟩⟩
    obtain ⟨staging, left, lost⟩ := loseSession_detached (s := advance t s) detached
    exact ⟨staging, left, ends_linkDown_setPort up lost⟩
  · exact ends_modPort (by simp [ended])
  · exact ends_modPort_self (by simp [closing])

/-- Settles O13: each clause by its own lemma; the layouts are the definition of the bytes. -/
theorem egressSends : Obligations.EgressSends := by
  refine ⟨fun t p s => ?_, fun t p s => ?_, ?_, ⟨headerCrcBit, headerCrcBit_eq, fun _ => rfl⟩, fun q => ?_⟩
  · intro n q o
    refine ⟨fun up runs free stays => ?_, fun h => ends_modPort_self (if_neg (Bool.eq_false_iff.1 (not_mayBegin h)))⟩
    have begins : (if q.mayBegin then nextPacket q else q) = nextPacket q := if_pos ((mayBegin_iff q).2 ⟨up, runs, free, stays⟩)
    exact ⟨fun m ms first => ends_modPort (begins.trans (nextPacket_notice first)),
      fun a as quiet first => ends_modPort (begins.trans (nextPacket_answer quiet first)),
      fun notices outbox => ends_modPort_self (begins.trans (nextPacket_nothing notices outbox))⟩
  · intro n
    refine ⟨ends_modPort rfl, fun _ _ _ _ _ _ => placesTaken_sent, fun _ _ _ => slotsTaken_sent, fun up => ?_, fun down => ?_,
      ends_modPort rfl⟩
    · exact ends_modPort (by rw [pause_of_up up])
    · exact ends_modPort_self (by rw [pause_of_down down])
  · refine ⟨fun _ _ _ _ _ _ => rfl, fun _ _ _ => rfl, fun ep => ?_, toNat_bankByte, rfl⟩
    exact ⟨fun b => ⟨rfl, rfl, rfl, rfl⟩, fun k n overflow few => ⟨_, rfl, toNat_faultInfo few overflow⟩, rfl, rfl, rfl, rfl, rfl, rfl⟩
  · intro response sends
    have isResponse : response = Placed.isResponse := funext fun a => by cases a <;> rfl
    have counts : ∀ sort, (if sendsSort sort q then 1 else 0) = sends sort := by
      intro sort
      cases sending : q.sending with
      | none => simp [sends, sendsSort, sending]
      | some packet => cases packet <;> simp [sends, sendsSort, sending]
    rw [isResponse, ← counts, ← counts]
    exact ⟨placesTaken_eq q, slotsTaken_eq q⟩

end Sys2Proof.Machine.PortLinks
end

section
/-!
SUPPORT. Notices and fault lists: how a notice joins a notice set, how a fault list takes a fault, that every event keeps the form of both,
and CLEAR-FAULTS (spec/08).
-/

namespace Sys2Proof.Machine.NoticesAndFaults

open Events

/-! ### How a notice joins a notice set (R136, R137) -/

/-- Two notices of one matter are of the same matter as the same notices. -/
theorem sameMatter_congr {n m : Notice} (h : n.sameMatter m = true) (k : Notice) : n.sameMatter k = m.sameMatter k := by
  have back : m.sameMatter n = true := (Notice.sameMatter_comm m n).trans h
  exact Bool.eq_iff_iff.2 ⟨Notice.sameMatter_trans back, Notice.sameMatter_trans h⟩

theorem noticesDistinct_iff (ns : List Notice) : noticesDistinct ns = true ↔ ns.Pairwise (fun a b => a.sameMatter b = false) := by
  refine ⟨noticesDistinct_pairwise, fun h => ?_⟩
  induction h with
  | nil => rfl
  | cons first _ ih => simpa [noticesDistinct, ih] using first

/-- What the joining of notice `n` makes of a pending notice `m`. -/
def mergedWith (n m : Notice) : Notice := if n.sameMatter m then n else m

theorem mergeNotice_of_pending {n : Notice} {ns : List Notice} (h : ns.any n.sameMatter = true) : mergeNotice n ns = ns.map (mergedWith n) :=
  if_pos h

theorem mergeNotice_of_new {n : Notice} {ns : List Notice} (h : ∀ m ∈ ns, n.sameMatter m = false) : mergeNotice n ns = ns ++ [n] :=
  if_neg (by simpa using h)

theorem mergedWith_same {n m : Notice} (h : n.sameMatter m = true) : mergedWith n m = n := if_pos h

theorem mergedWith_other {n m : Notice} (h : n.sameMatter m = false) : mergedWith n m = m := if_neg (by simp [h])

/-- A notice keeps its matter where it takes another's content. -/
theorem sameMatter_mergedWith (n m k : Notice) : (mergedWith n m).sameMatter k = m.sameMatter k := by
  cases same : n.sameMatter m with
  | true => rw [mergedWith_same same, sameMatter_congr same]
  | false => rw [mergedWith_other same]

/-- Notices of other matters are left as they are. -/
theorem map_mergedWith_others {n : Notice} {ns : List Notice} (h : ∀ m ∈ ns, n.sameMatter m = false) : ns.map (mergedWith n) = ns :=
  (List.map_congr_left fun m mem => mergedWith_other (h m mem)).trans (List.map_id ns)

/-- The pending notice of its matter takes the content and keeps its place: the others are of other matters. -/
theorem mergeNotice_keeps_place {n m : Notice} {before after : List Notice} (distinct : noticesDistinct (before ++ m :: after) = true)
    (same : n.sameMatter m = true) : mergeNotice n (before ++ m :: after) = before ++ n :: after := by
  obtain ⟨_, behind, ahead⟩ := List.pairwise_append.1 ((noticesDistinct_iff _).1 distinct)
  have others : (∀ k ∈ before, n.sameMatter k = false) ∧ ∀ k ∈ after, n.sameMatter k = false := by
    simp only [sameMatter_congr same]
    exact ⟨fun k mem => (Notice.sameMatter_comm m k).trans (ahead k mem m List.mem_cons_self), (List.pairwise_cons.1 behind).1⟩
  rw [mergeNotice_of_pending (by simp [same]), List.map_append, List.map_cons, mergedWith_same same, map_mergedWith_others others.1,
    map_mergedWith_others others.2]

theorem noticesDistinct_mergeNotice (n : Notice) {ns : List Notice} (h : noticesDistinct ns = true) :
    noticesDistinct (mergeNotice n ns) = true := by
  rw [noticesDistinct_iff] at h ⊢
  by_cases pending : ns.any n.sameMatter = true
  · rw [mergeNotice_of_pending pending, List.pairwise_map]
    refine h.imp fun {a b} apart => ?_
    rw [sameMatter_mergedWith, Notice.sameMatter_comm, sameMatter_mergedWith, Notice.sameMatter_comm, apart]
  · have new : ∀ m ∈ ns, n.sameMatter m = false := by simpa using pending
    rw [mergeNotice_of_new new, List.pairwise_append]
    refine ⟨h, List.pairwise_singleton .., fun m mem k one => ?_⟩
    rw [List.mem_singleton.1 one, Notice.sameMatter_comm, new m mem]

/-! ### How a fault list takes a fault (R140 to R142) -/

/-- Port `q` after fault `f` has reached it. -/
def withFault (f : FaultRecord) (q : PortState) : PortState :=
  if q.session ≠ .attached then q
  else if q.faults.length < 4 then
    { q with faults := q.faults ++ [f], notices := mergeNotice (.fault f.kind (q.faults.length + 1) q.overflow) q.notices }
  else if q.overflow then q
  else { q with overflow := true, notices := mergeNotice (.fault f.kind q.faults.length true) q.notices }

theorem withFault_away {f : FaultRecord} {q : PortState} (h : q.session ≠ .attached) : withFault f q = q := if_pos h

theorem withFault_kept {f : FaultRecord} {q : PortState} (attached : q.session = .attached) (few : q.faults.length < 4) :
    withFault f q =
      { q with faults := q.faults ++ [f], notices := mergeNotice (.fault f.kind (q.faults.length + 1) q.overflow) q.notices } :=
  (if_neg (not_not.2 attached)).trans (if_pos few)

theorem withFault_marks {f : FaultRecord} {q : PortState} (attached : q.session = .attached) (full : ¬q.faults.length < 4)
    (clear : q.overflow ≠ true) :
    withFault f q = { q with overflow := true, notices := mergeNotice (.fault f.kind q.faults.length true) q.notices } :=
  (if_neg (not_not.2 attached)).trans ((if_neg full).trans (if_neg clear))

theorem withFault_lost {f : FaultRecord} {q : PortState} (attached : q.session = .attached) (full : ¬q.faults.length < 4)
    (marked : q.overflow = true) : withFault f q = q :=
  (if_neg (not_not.2 attached)).trans ((if_neg full).trans (if_pos marked))

/-- A notice raised at an ATTACHED port that has just changed to `q`. -/
theorem raiseNotice_setPort {p : Port} {q : PortState} {s : State} (n : Notice) (h : q.session = .attached) :
    raiseNotice p n (s.setPort p q) = s.setPort p { q with notices := mergeNotice n q.notices } := by
  simp [raiseNotice, modPort, h]

theorem recordFault_eq_modPort (p : Port) (f : FaultRecord) (s : State) : recordFault p f s = modPort p (withFault f) s := by
  unfold recordFault modPort
  dsimp only
  by_cases attached : (s.port p).session = .attached
  · rw [if_neg (not_not.2 attached)]
    split_ifs with few marked
    · rw [withFault_kept attached few]
      exact raiseNotice_setPort _ attached
    · rw [withFault_lost attached few marked, s.setPort_self]
    · rw [withFault_marks attached few marked]
      exact raiseNotice_setPort _ attached
  · rw [if_pos attached, withFault_away attached, s.setPort_self]

/-! ### The form of a port's fault list and notices (R136, R140, R141) -/

/-- A port's fault list and its notices have their form. -/
def Formed (q : PortState) : Prop := q.faultsGood = true ∧ noticesDistinct q.notices = true

theorem noticesGood_iff (s : State) : noticesGood s = true ↔ ∀ p, Formed (s.port p) := by
  simp only [noticesGood, Formed, List.all_eq_true, mem_allPorts, forall_const, Bool.and_eq_true]

theorem faultsGood_iff (q : PortState) : q.faultsGood = true ↔ q.faults.length ≤ 4 ∧ (q.overflow = true → q.faults.length = 4) := by
  simp only [PortState.faultsGood, Bool.and_eq_true, Bool.or_eq_true, Bool.not_eq_true', decide_eq_true_eq, imp_iff_not_or,
    Bool.not_eq_true]
  rfl

theorem formed_merge {q : PortState} (n : Notice) (h : Formed q) : Formed { q with notices := mergeNotice n q.notices } :=
  ⟨h.1, noticesDistinct_mergeNotice n h.2⟩

/-- A list of fewer than 4 records has no mark and takes one more; a list of 4 takes the mark at most. -/
theorem formed_withFault (f : FaultRecord) {q : PortState} (h : Formed q) : Formed (withFault f q) := by
  obtain ⟨faults, notices⟩ := h
  obtain ⟨atMost, marked⟩ := (faultsGood_iff q).1 faults
  by_cases attached : q.session = .attached
  · rcases atMost.lt_or_eq with few | full
    · rw [withFault_kept attached few]
      refine ⟨(faultsGood_iff _).2 ⟨?_, fun mark => absurd (marked mark) few.ne⟩, noticesDistinct_mergeNotice _ notices⟩
      simpa using few
    · by_cases mark : q.overflow = true
      · rw [withFault_lost attached full.not_lt mark]
        exact ⟨faults, notices⟩
      · rw [withFault_marks attached full.not_lt mark]
        exact ⟨(faultsGood_iff _).2 ⟨atMost, fun _ => full⟩, noticesDistinct_mergeNotice _ notices⟩
  · rw [withFault_away attached]
    exact ⟨faults, notices⟩

/-- What begins to be sent has left the notices (R130, R138). -/
theorem formed_nextPacket {q : PortState} (h : Formed q) : Formed (nextPacket q) := by
  obtain ⟨faults, notices⟩ := h
  unfold nextPacket
  split
  · next pending =>
    rw [pending, noticesDistinct, Bool.and_eq_true] at notices
    exact ⟨faults, notices.2⟩
  · split
    · exact ⟨faults, notices⟩
    · exact ⟨faults, notices⟩

/-! ### What keeps the form of every port -/

/-- From `s` to `t` every port has kept the form of its fault list and notices. -/
structure KeepsForm (s t : State) : Prop where
  formed : ∀ p, Formed (s.port p) → Formed (t.port p)

theorem KeepsForm.refl (s : State) : KeepsForm s s := ⟨fun _ => id⟩

theorem KeepsForm.trans {s t u : State} (h : KeepsForm s t) (k : KeepsForm t u) : KeepsForm s u :=
  ⟨fun p formed => k.formed p (h.formed p formed)⟩

/-- Other fields than the ports have changed. -/
theorem KeepsForm.of_ports {s t : State} (h : t.ports = s.ports) : KeepsForm s t := ⟨fun p formed => by rwa [State.port, h]⟩

/-- After a change of other fields than the ports. -/
theorem KeepsForm.after {s t u : State} (k : KeepsForm t u) (h : t.ports = s.ports) : KeepsForm s u := (KeepsForm.of_ports h).trans k

/-- Before a change of other fields than the ports. -/
theorem KeepsForm.before {s t u : State} (k : KeepsForm s t) (h : u.ports = t.ports) : KeepsForm s u := k.trans (.of_ports h)

/-- A change of one port that keeps its form. -/
theorem KeepsForm.of_modPort {p : Port} {f : PortState → PortState} {s : State} (h : Formed (s.port p) → Formed (f (s.port p))) :
    KeepsForm s (modPort p f s) := by
  refine ⟨fun q => ?_⟩
  rw [modPort_port]
  split_ifs with same
  · exact same ▸ h
  · exact id

theorem keepsForm_foldl {α : Type} {f : State → α → State} (h : ∀ s a, KeepsForm s (f s a)) (l : List α) (s : State) :
    KeepsForm s (l.foldl f s) := by
  induction l generalizing s with
  | nil => exact .refl s
  | cons a l ih => exact (h s a).trans (ih _)

/-! ### Answers, notices and faults -/

theorem keepsForm_answer (p : Port) (tag : Tag) (res : Result) (i0 i1 : Byte) (payload : List Byte) (s : State) :
    KeepsForm s (answer p tag res i0 i1 payload s) := .of_modPort id

theorem keepsForm_reply (p : Port) (tag : Tag) (res : Result) (s : State) : KeepsForm s (reply p tag res s) := keepsForm_answer ..

theorem keepsForm_raiseNotice (p : Port) (n : Notice) (s : State) : KeepsForm s (raiseNotice p n s) :=
  .of_modPort fun formed => by
    split_ifs
    · exact formed_merge n formed
    · exact formed

theorem keepsForm_raiseEverywhere (n : Notice) (s : State) : KeepsForm s (raiseEverywhere n s) :=
  keepsForm_foldl (fun s p => keepsForm_raiseNotice p n s) _ _

theorem keepsForm_recordFault (p : Port) (f : FaultRecord) (s : State) : KeepsForm s (recordFault p f s) := by
  rw [recordFault_eq_modPort]
  exact .of_modPort (formed_withFault f)

theorem keepsForm_refuse (p : Port) (tag : Tag) (res : Result) (s : State) : KeepsForm s (refuse p tag res s) := by
  unfold refuse
  split_ifs
  · exact .of_modPort id
  · exact keepsForm_recordFault ..

/-! ### The Lease Manager's procedures -/

theorem keepsForm_setStates (x : BankSet) (st : BankState) (s : State) : KeepsForm s (setStates x st s) := by
  obtain ⟨k, _, e⟩ := setStates_eq x st s
  exact e ▸ .of_ports rfl

theorem keepsForm_modBank (b : Bank) (f : BankEntry → BankEntry) (s : State) : KeepsForm s (modBank b f s) := .of_ports rfl

theorem keepsForm_refreshContention (b : Bank) (s : State) : KeepsForm s (refreshContention b s) := .of_ports rfl

theorem keepsForm_grant (b : Bank) (m : Mode) (p : Port) (tag : Tag) (s : State) : KeepsForm s (grant b m p tag s) :=
  (keepsForm_answer ..).after rfl

theorem keepsForm_grantAll (b : Bank) (m : Mode) (g : List (Port × Tag)) (s : State) : KeepsForm s (grantAll b m g s) := by
  unfold grantAll
  exact keepsForm_foldl (fun k x => keepsForm_grant b m x.1 x.2 k) g s

theorem keepsForm_serve (b : Bank) (s : State) : KeepsForm s (serve b s) := by
  unfold serve
  dsimp only
  split
  · exact .refl s
  split
  · exact .refl s
  split
  · exact .of_ports rfl
  · split
    · exact (keepsForm_modBank ..).trans ((keepsForm_grantAll ..).trans (keepsForm_refreshContention ..))
    · exact .refl s
  · exact .refl s

theorem keepsForm_serveBanks (bs : List Bank) (s : State) : KeepsForm s (serveBanks bs s) :=
  keepsForm_foldl (fun s b => keepsForm_serve b s) bs s

theorem keepsForm_settle (b : Bank) (s : State) : KeepsForm s (settle b s) := by
  unfold settle
  dsimp only
  split
  · exact .refl s
  split
  · exact .of_ports rfl
  split
  · exact (keepsForm_modBank ..).trans ((keepsForm_grantAll ..).trans (keepsForm_refreshContention ..))
  · exact .of_ports rfl

theorem keepsForm_drainIfEmpty (b : Bank) (s : State) : KeepsForm s (drainIfEmpty b s) := by
  unfold drainIfEmpty
  dsimp only
  split_ifs
  · exact (keepsForm_settle b _).after rfl
  · exact .refl s

theorem keepsForm_revoke (b : Bank) (ps : List Port) (reason : Reason) (s : State) : KeepsForm s (revoke b ps reason s) := by
  refine KeepsForm.trans (keepsForm_foldl (fun k p => ?_) ps s) (keepsForm_drainIfEmpty b _)
  exact (keepsForm_modBank ..).trans (keepsForm_raiseNotice ..)

theorem keepsForm_withdrawWaiter {b : Bank} {p : Port} {f : State → State} {s : State} (h : ∀ u, KeepsForm u (f u)) :
    KeepsForm s (withdrawWaiter b p f s) := by
  have withdrawn := ((keepsForm_modBank b (fun e => { e with waiting := e.waiting.filter (fun w => !decide (w.port = p)) }) s).trans
    (h _)).trans (keepsForm_refreshContention b _)
  unfold withdrawWaiter
  dsimp only
  split_ifs
  · exact withdrawn.trans (keepsForm_serve b _)
  · exact withdrawn

theorem keepsForm_enterPressure (x : BankSet) (s : State) : KeepsForm s (enterPressure x s) := by
  refine keepsForm_foldl (fun k b => ?_) x.banks s
  split_ifs
  · exact keepsForm_foldl (fun k p => keepsForm_raiseNotice p _ k) _ k
  · exact .refl k

theorem keepsForm_forceSet (x : BankSet) (s : State) : KeepsForm s (forceSet x s) := by
  refine keepsForm_foldl (fun k b => ?_) x.banks s
  split_ifs
  · exact keepsForm_revoke ..
  · exact .refl k

theorem keepsForm_changeUrgency (v : Nat) (s : State) : KeepsForm s (changeUrgency v s) := by
  refine (keepsForm_foldl (fun t x => ?_) BankSet.all { s with settings := { s.settings with urgency := v } }).after rfl
  split_ifs
  · exact keepsForm_enterPressure x t
  · exact keepsForm_serveBanks _ t
  · exact .refl t

/-- A missed tick is recorded at the four ports (R88). -/
theorem keepsForm_raiseBalance (x : BankSet) (s : State) : KeepsForm s (raiseBalance x s) := by
  have misses : KeepsForm s (missTick x s) := (keepsForm_foldl (fun s p => keepsForm_recordFault p _ s) _ _).after rfl
  unfold raiseBalance
  dsimp only
  split_ifs
  · exact misses
  · exact ((keepsForm_enterPressure x _).trans (keepsForm_forceSet x _)).after rfl
  · exact (keepsForm_forceSet x _).after rfl
  · exact (keepsForm_enterPressure x _).after rfl
  · exact .of_ports rfl

/-! ### The owners of the requests -/

theorem keepsForm_openRequest (p : Port) (tag : Tag) (b : Bank) (row : Row) (mode : Mode) (s : State) :
    KeepsForm s (openRequest p tag b row mode s) := by
  unfold openRequest openWaits
  dsimp only
  split_ifs
  · exact keepsForm_answer ..
  · exact keepsForm_reply ..
  · exact keepsForm_reply ..
  · exact .of_ports rfl
  · exact keepsForm_grant ..
  · exact .of_ports rfl
  · exact (keepsForm_serve b _).after rfl
  · exact .of_ports rfl

theorem keepsForm_releaseRequest (p : Port) (tag : Tag) (b : Bank) (s : State) : KeepsForm s (releaseRequest p tag b s) := by
  unfold releaseRequest
  split_ifs
  · exact ((keepsForm_reply ..).trans (keepsForm_drainIfEmpty b _)).after rfl
  · exact keepsForm_reply ..

theorem keepsForm_cancelRequest (p : Port) (tag : Tag) (target : Byte) (s : State) : KeepsForm s (cancelRequest p tag target s) := by
  unfold cancelRequest
  dsimp only
  split
  · exact keepsForm_reply ..
  · split
    · exact (keepsForm_withdrawWaiter fun u => keepsForm_answer ..).trans (keepsForm_reply ..)
    · exact keepsForm_reply ..

theorem keepsForm_readRequest (p : Port) (tag : Tag) (b : Bank) (first : BitVec 5) (count : Nat) (s : State) :
    KeepsForm s (readRequest p tag b first count s) := by
  unfold readRequest
  split_ifs
  · exact keepsForm_reply ..
  · exact keepsForm_reply ..
  · exact .of_ports rfl

/-- A bad line is recorded, whether the WRITE is rejected or goes on as suspect (R79 to R81). -/
theorem keepsForm_checkedWrite (p : Port) (tag : Tag) (b : Bank) (first : BitVec 5) (count : Nat) (s : State) :
    KeepsForm s (checkedWrite p tag b first count s) := by
  unfold checkedWrite
  dsimp only
  split
  · exact .of_ports rfl
  · split_ifs
    · exact ((keepsForm_recordFault ..).trans (keepsForm_reply ..)).after rfl
    · exact (keepsForm_recordFault ..).after rfl

theorem keepsForm_writeRequest (p : Port) (tag : Tag) (b : Bank) (first : BitVec 5) (count : Nat) (s : State) :
    KeepsForm s (writeRequest p tag b first count s) := by
  have freed : ∀ res, KeepsForm s (reply p tag res (freeStaged p tag s)) := fun res => (keepsForm_reply ..).after rfl
  unfold writeRequest
  split_ifs
  · exact freed _
  · exact freed _
  · exact freed _
  · exact keepsForm_checkedWrite ..

theorem keepsForm_statusRequest (p : Port) (tag : Tag) (item : Byte) (s : State) : KeepsForm s (statusRequest p tag item s) := by
  unfold statusRequest
  split <;> exact keepsForm_answer ..

theorem keepsForm_claimRequest (p : Port) (tag : Tag) (s : State) : KeepsForm s (claimRequest p tag s) := by
  unfold claimRequest
  split_ifs
  · exact keepsForm_reply ..
  · exact (keepsForm_reply ..).after rfl

theorem keepsForm_unclaimRequest (p : Port) (tag : Tag) (s : State) : KeepsForm s (unclaimRequest p tag s) := by
  unfold unclaimRequest
  split_ifs
  · exact (keepsForm_reply ..).after rfl
  · exact keepsForm_reply ..

/-- A stored setting changes the settings alone, but for URGENCY, which acts at once (R164). -/
theorem storeSetting_cases {target : BitVec 3} {ident : Byte} {v : BitVec 32} {s t : State}
    (h : storeSetting target ident v s = some t) : (∃ st, t = { s with settings := st }) ∨ ∃ n, t = changeUrgency n s := by
  have stored : ∀ {c : Prop} [Decidable c] {u : State}, (if c then some u else none) = some t → t = u := by
    intro c _ u hu
    split_ifs at hu
    exact (Option.some.inj hu).symm
  unfold storeSetting at h
  split at h
  · unfold storeLeaseLimit at h
    split at h
    · cases h
    · exact .inl ⟨_, stored h⟩
  · unfold storeGuard at h
    split at h
    · cases h
    · exact .inl ⟨_, stored h⟩
  · exact .inl ⟨_, stored h⟩
  · exact .inl ⟨_, stored h⟩
  · exact .inr ⟨_, stored h⟩
  · exact .inl ⟨_, stored h⟩
  · exact .inl ⟨_, stored h⟩
  · exact .inl ⟨_, stored h⟩
  · exact .inl ⟨_, stored h⟩
  · cases h

theorem keepsForm_setRequest (p : Port) (tag : Tag) (target : BitVec 3) (ident : Byte) (value : Option (BitVec 32)) (s : State) :
    KeepsForm s (setRequest p tag target ident value s) := by
  unfold setRequest
  split
  · exact keepsForm_reply ..
  · split
    · next h =>
      obtain ⟨v, _, stored⟩ := Option.bind_eq_some_iff.1 h
      rcases storeSetting_cases stored with ⟨st, rfl⟩ | ⟨n, rfl⟩
      · exact (keepsForm_reply ..).after rfl
      · exact (keepsForm_changeUrgency n s).trans (keepsForm_reply ..)
    · exact keepsForm_reply ..

theorem keepsForm_getRequest (p : Port) (tag : Tag) (target : BitVec 3) (ident : Byte) (s : State) :
    KeepsForm s (getRequest p tag target ident s) := by
  unfold getRequest
  split <;> exact keepsForm_answer ..

theorem keepsForm_windowChangeAt (p : Port) (s : State) (b : Bank) : KeepsForm s (windowChangeAt p s b) := by
  unfold windowChangeAt
  dsimp only
  split
  · split
    · exact .refl s
    · exact keepsForm_revoke ..
  · split
    · split
      · exact .refl s
      · exact (keepsForm_answer ..).after rfl
    · split
      · split
        · exact .refl s
        · exact keepsForm_withdrawWaiter fun u => keepsForm_answer ..
      · exact .refl s

theorem keepsForm_windowRequest (p : Port) (tag : Tag) (target : BitVec 3) (index : Byte) (r : Option WindowRecord) (s : State) :
    KeepsForm s (windowRequest p tag target index r s) := by
  unfold windowRequest
  split
  · exact keepsForm_reply ..
  · split
    · split
      · exact ((keepsForm_foldl (keepsForm_windowChangeAt _) Bank.all _).trans (keepsForm_reply ..)).after rfl
      · exact keepsForm_reply ..
    · exact keepsForm_reply ..

theorem clearLoss_ports (x : BankSet) (s : State) : (clearLoss x s).ports = s.ports := by rw [(clearLoss_spec x s).1]

/-- CLEAR-FAULTS empties the list together with its mark (R145). -/
theorem keepsForm_clearFaultsRequest (p : Port) (tag : Tag) (scope : BitVec 2) (s : State) :
    KeepsForm s (clearFaultsRequest p tag scope s) := by
  unfold clearFaultsRequest
  split
  · exact (KeepsForm.of_modPort fun formed => ⟨rfl, formed.2⟩).trans (keepsForm_reply ..)
  · split
    · exact keepsForm_reply ..
    · exact (keepsForm_reply ..).after ((clearLoss_ports .b _).trans (clearLoss_ports .a s))
  · exact keepsForm_reply ..

/-! ### Sessions and the gate -/

theorem keepsForm_dropIngress (p : Port) (s : State) : KeepsForm s (dropIngress p s) := by
  rw [dropIngress_staging]
  exact (KeepsForm.of_modPort (f := fun q => { q with ingress := [] }) id).after rfl

theorem dropClaim_ports (p : Port) (s : State) : (dropClaim p s).ports = s.ports := by
  unfold dropClaim
  split
  · split_ifs <;> rfl
  · rfl

theorem keepsForm_cleanupBank (p : Port) (s : State) (b : Bank) : KeepsForm s (cleanupBank p s b) := by
  obtain ⟨st, removed⟩ := removeXfers_eq p b s
  have left : ∀ k, KeepsForm k (settle b (drainIfEmpty b (withdrawWaiter b p id k))) := fun k =>
    (keepsForm_withdrawWaiter KeepsForm.refl).trans ((keepsForm_drainIfEmpty b _).trans (keepsForm_settle b _))
  unfold cleanupBank
  dsimp only
  rw [removed]
  exact (left _).after rfl

/-- Cleanup leaves no notice (R123). -/
theorem keepsForm_cleanup (p : Port) (kept : Option Tag) (s : State) : KeepsForm s (cleanup p kept s) := by
  have freed := (keepsForm_foldl (keepsForm_cleanupBank p) Bank.all s).trans (keepsForm_dropIngress p _)
  unfold cleanup
  dsimp only
  exact (freed.before (dropClaim_ports ..)).trans (.of_modPort fun formed => ⟨formed.1, rfl⟩)

theorem keepsForm_detachPort (p : Port) (tag : Tag) (s : State) : KeepsForm s (detachPort p tag s) := by
  unfold detachPort
  dsimp only
  split_ifs
  · exact (keepsForm_cleanup p _ s).trans (keepsForm_reply ..)
  · exact keepsForm_cleanup p _ s

theorem keepsForm_endDetaching (p : Port) (s : State) : KeepsForm s (endDetaching p s) := by
  have ended : KeepsForm s (s.setPort p { s.port p with session := .detached, detachTag := none }) :=
    .of_modPort (f := fun q => { q with session := .detached, detachTag := none }) id
  unfold endDetaching
  dsimp only
  split_ifs
  · split
    · exact ended.trans (keepsForm_reply ..)
    · exact ended
  · exact .refl s

theorem keepsForm_toOwner (p : Port) (r : Request) (s : State) : KeepsForm s (toOwner p r s) := by
  unfold toOwner
  split
  · exact keepsForm_reply ..
  · exact keepsForm_detachPort ..
  · exact keepsForm_openRequest ..
  · exact keepsForm_releaseRequest ..
  · exact keepsForm_cancelRequest ..
  · exact keepsForm_readRequest ..
  · exact keepsForm_writeRequest ..
  · exact keepsForm_reply ..
  · exact keepsForm_statusRequest ..
  · exact keepsForm_claimRequest ..
  · exact keepsForm_unclaimRequest ..
  · exact keepsForm_setRequest ..
  · exact keepsForm_getRequest ..
  · exact keepsForm_windowRequest ..
  · exact keepsForm_clearFaultsRequest ..

/-- An ATTACH begins with an empty fault list and no mark (R121, R145). -/
theorem keepsForm_atDetached (p : Port) (r : Request) (s : State) : KeepsForm s (atDetached p r s) := by
  unfold atDetached
  split
  · exact (KeepsForm.of_modPort fun formed => ⟨rfl, formed.2⟩).trans (keepsForm_answer ..)
  · exact keepsForm_statusRequest ..
  · exact (keepsForm_reply ..).after rfl
  · exact keepsForm_reply ..

theorem keepsForm_dispatch (p : Port) (r : Request) (s : State) : KeepsForm s (dispatch p r s) := by
  have unqueued : KeepsForm s (unqueue p r s) := .of_modPort id
  refine unqueued.trans ?_
  unfold dispatch gate
  split_ifs
  · exact keepsForm_toOwner ..
  · exact keepsForm_atDetached ..

/-! ### What arrives -/

/-- A quick wake may abandon a STEP and serve its banks (R15, R112). -/
theorem keepsForm_beginWake (s : State) : KeepsForm s (beginWake s) := by
  have abandons : ∀ k, KeepsForm k (abandonStep k) := by
    intro k
    unfold abandonStep
    split
    · exact (keepsForm_setStates _ .closed k).trans ((keepsForm_serveBanks ..).after rfl)
    · exact .refl k
  unfold beginWake
  split_ifs
  · exact (abandons _).after rfl
  · exact .of_ports rfl

theorem stage_ports (p : Port) (r : Request) (lines : List StagedLine) (s : State) : (stage p r lines s).ports = s.ports := by
  unfold stage
  split
  · split_ifs <;> rfl
  · rfl

theorem keepsForm_admission (p : Port) (r : Request) (lines : List StagedLine) (s : State) : KeepsForm s (admission p r lines s) := by
  have queued : KeepsForm s (enqueue p r lines s) := (KeepsForm.of_modPort id).after (stage_ports ..)
  have taken : KeepsForm s (admitted p r lines s) := by
    unfold admitted
    dsimp only
    split_ifs
    · exact queued
    · split
      · exact queued.before rfl
      · exact queued.trans (keepsForm_beginWake _)
      · exact queued
  unfold admission
  dsimp only
  split_ifs
  · exact taken.trans (keepsForm_dispatch ..)
  · exact taken

theorem keepsForm_arrive (p : Port) (a : Arrival) (s : State) : KeepsForm s (arrive p a s) := by
  unfold arrive
  split_ifs
  · exact .refl s
  · split
    · exact keepsForm_recordFault ..
    · exact keepsForm_refuse ..
    · split
      · exact keepsForm_refuse ..
      · exact keepsForm_admission ..

/-! ### The part's own events -/

theorem keepsForm_loseLink (p : Port) (s : State) : KeepsForm s (loseLink p s) := by
  have loses : KeepsForm s (loseSession p s) := by
    unfold loseSession
    split
    · exact keepsForm_cleanup ..
    · exact .of_modPort id
    · exact (keepsForm_dropIngress p s).trans (.of_modPort id)
  unfold loseLink
  split_ifs
  · exact .refl s
  · exact loses.trans (.of_modPort id)

theorem keepsForm_completeOpen (b : Bank) (row : Row) (s : State) : KeepsForm s (completeOpen b row s) := by
  have stands : ∀ k, KeepsForm k (grantStands b k) := fun k =>
    ((keepsForm_grantAll ..).trans ((keepsForm_refreshContention b _).trans (keepsForm_serve b _))).after rfl
  unfold completeOpen
  dsimp only
  split_ifs
  · exact (stands _).after rfl
  · exact .of_ports rfl

theorem keepsForm_completeXfer (x : Xfer) (lines : List StagedLine) (s : State) : KeepsForm s (completeXfer x lines s) := by
  have commits : (commitXfer x lines (freePath s)).ports = s.ports := by
    unfold commitXfer
    split <;> rfl
  have effect : KeepsForm s (xferEffect x lines (freePath s)) := by
    unfold xferEffect
    dsimp only
    split
    · split_ifs
      · exact (keepsForm_answer ..).after rfl
      · exact .of_ports rfl
    · split
      · exact (keepsForm_reply ..).after commits
      · exact .of_ports commits
  exact effect.trans ((keepsForm_settle x.bank _).trans (keepsForm_endDetaching ..))

theorem keepsForm_takeSample (reading : Int) (s : State) : KeepsForm s (takeSample reading s) := by
  unfold takeSample
  dsimp only
  split_ifs
  · exact .of_ports rfl
  · exact (keepsForm_raiseEverywhere ..).after rfl

theorem keepsForm_tickSet (x : BankSet) (s : State) : KeepsForm s (tickSet x s) := (keepsForm_raiseBalance x s).before rfl

theorem keepsForm_completeWake (s : State) : KeepsForm s (completeWake s) := by
  have votes : ∀ k, KeepsForm k (clearVotes k) := keepsForm_foldl (fun _ _ => .of_modPort id) _
  have told : ∀ n k, KeepsForm k { raiseEverywhere n k with retention := .active } := fun n k =>
    (keepsForm_raiseEverywhere n k).before rfl
  exact (keepsForm_raiseBalance .a s).trans <| (keepsForm_raiseBalance .b _).trans <| (votes _).trans (told _ _)

/-- Every port after a power-on reset has no fault and no notice (R134, R148). -/
theorem keepsForm_powerOn (reading : Int) (s : State) : KeepsForm s (powerOn reading s) := by
  refine ⟨fun p _ => ?_⟩
  rw [powerOn, State.port_powerOn]
  exact ⟨rfl, rfl⟩

/-- A warm reset leaves no fault and no notice (R134, R148). -/
theorem keepsForm_warmReset (s : State) : KeepsForm s (warmReset s) := by
  have emptied : ∀ k : State, (∀ p, k.port p = (s.port p).warmReset) → KeepsForm s k := by
    refine fun k ports => ⟨fun p _ => ?_⟩
    rw [ports p]
    exact ⟨rfl, rfl⟩
  have banks : ∀ k b, KeepsForm k (warmResetBank k b) := fun k b => by
    rw [warmResetBank_eq]
    exact .of_ports rfl
  have settings : ∀ k v st, KeepsForm k { changeUrgency v k with settings := st } := fun k v st =>
    (keepsForm_changeUrgency v k).before rfl
  unfold warmReset
  dsimp only
  refine (emptied _ fun p => ?_).trans ((keepsForm_foldl banks Bank.all _).trans (settings _ _ _))
  cases p <;> rfl

/-- The end of an event may tell a port of the retained state, and changes nothing else of it (R108). -/
theorem keepsForm_finish (w : State) : KeepsForm w (finish w) := by
  refine ⟨fun p formed => ?_⟩
  rw [(eventEnd_finish w).ports p]
  split_ifs
  · exact formed_merge _ formed
  · exact formed

/-! ### Every event -/

theorem keepsForm_event {s w : State} (h : Event s w) : KeepsForm s w := by
  cases h with
  | arrived t p a => exact (keepsForm_arrive p a _).after rfl
  | dispatched => exact keepsForm_dispatch ..
  | sendBegun =>
    refine (KeepsForm.of_modPort fun formed => ?_).after rfl
    split_ifs
    · exact formed_nextPacket formed
    · exact formed
  | sendEnded => exact (KeepsForm.of_modPort id).after rfl
  | paused => exact (KeepsForm.of_modPort id).after rfl
  | resumed => exact (KeepsForm.of_modPort id).after rfl
  | linkLost t p => exact (keepsForm_loseLink p _).after rfl
  | linkUp =>
    refine (KeepsForm.of_modPort fun formed => ?_).after rfl
    split_ifs <;> exact formed
  | powerOnReset t reading => exact ((keepsForm_powerOn ..).trans (keepsForm_takeSample ..)).after rfl
  | warmReset t => exact (keepsForm_warmReset _).after rfl
  | openCompleted => exact (keepsForm_completeOpen ..).after rfl
  | closeCompleted => exact (keepsForm_serve ..).after rfl
  | xferCompleted => exact (keepsForm_completeXfer ..).after rfl
  | stepCompleted => exact ((keepsForm_setStates ..).trans (keepsForm_serveBanks ..)).after rfl
  | ticked x => exact (keepsForm_tickSet x _).after rfl
  | sampled => exact (keepsForm_takeSample ..).after rfl
  | waitExpired => exact (keepsForm_withdrawWaiter fun u => keepsForm_answer ..).after rfl
  | contentionExpired => exact (keepsForm_revoke ..).after rfl
  | claimExpired => exact (keepsForm_raiseNotice ..).after rfl
  | wakeCompleted => exact (keepsForm_completeWake _).after rfl

theorem noticesGood_of_keepsForm {s t : State} (h : KeepsForm s t) (good : noticesGood s = true) : noticesGood t = true :=
  (noticesGood_iff t).2 fun p => h.formed p ((noticesGood_iff s).1 good p)

/-! ### CLEAR-FAULTS with scope retention (R146) -/

/-- The clearing of both retention-loss flags. -/
theorem clearBoth_account (u : State) (x : BankSet) :
    (clearLoss .b (clearLoss .a u)).account x =
      { u.account x with
        lossFlag := false
        contents := if (u.account x).lossFlag then (u.account x).contents + 1 else (u.account x).contents } := by
  obtain ⟨_, first, _, _⟩ := clearLoss_spec .a u
  obtain ⟨_, second, _, _⟩ := clearLoss_spec .b (clearLoss .a u)
  cases x with
  | a => simp [second, first]
  | b => simp [second, first]

/-- The bytes of a flagged set are forgotten (log entry 9). -/
theorem clearBoth_read (u : State) (a : Nat) :
    Memory.read (clearLoss .b (clearLoss .a u)).array a =
      if (u.account (addressSet a)).lossFlag then none else Memory.read u.array a := by
  obtain ⟨_, account, first, _⟩ := clearLoss_spec .a u
  obtain ⟨_, _, second, _⟩ := clearLoss_spec .b (clearLoss .a u)
  rw [second, first, account]
  cases set : addressSet a with
  | a => simp
  | b => simp

theorem clearBoth_frame (u : State) :
    let w := clearLoss .b (clearLoss .a u)
    w = { u with accounts := w.accounts, array := w.array } := by
  intro w
  have first := (clearLoss_spec .a u).1
  have second : w = _ := (clearLoss_spec .b (clearLoss .a u)).1
  rw [second, first]

theorem clearBoth_clear {u : State} (h : ∀ x, (u.account x).lossFlag = false) : clearLoss .b (clearLoss .a u) = u := by
  have first : clearLoss .a u = u := (clearLoss_spec .a u).2.2.2 (h .a)
  rw [first]
  exact (clearLoss_spec .b u).2.2.2 (h .b)

/-- A byte of a set without the flag is read as before. -/
theorem clearBoth_arrayByte {u : State} {a : Nat} (h : (u.account (addressSet a)).lossFlag = false) :
    arrayByte (clearLoss .b (clearLoss .a u)) a = arrayByte u a := by
  simp [arrayByte, clearBoth_account, clearBoth_read, h]

theorem clearFaultsRequest_refused {p : Port} {tag : Tag} {res : Result} {u : State} (h : claimRefusal u p = some res) :
    clearFaultsRequest p tag 1 u = reply p tag res u := by
  unfold clearFaultsRequest
  rw [h]
  rfl

theorem clearFaultsRequest_done {p : Port} {tag : Tag} {u : State} (h : claimRefusal u p = none) :
    clearFaultsRequest p tag 1 u = reply p tag .ok (clearLoss .b (clearLoss .a u)) := by
  unfold clearFaultsRequest
  rw [h]
  rfl

/-! ### The obligations -/

/-- Settles O57: every event keeps the form of every port, and so does its end. -/
theorem noticesStayDistinct : Obligations.NoticesStayDistinct := fun _ _ good h =>
  step_keeps_of_events (P := fun s => noticesGood s = true) id
    (fun event => noticesGood_of_keepsForm ((keepsForm_event event).trans (keepsForm_finish _))) good h

/-- Settles O8: by the length of the list and its mark, and by whether a notice of the matter is pending. -/
theorem faultsAndNoticesAreTaken : Obligations.FaultsAndNoticesAreTaken := by
  refine ⟨fun p f s => ?_, fun n ns distinct => ⟨mergeNotice_of_new, ?_⟩⟩
  · intro q
    have becomes : ∀ {r}, withFault f q = r → recordFault p f s = s.setPort p r := fun e => (recordFault_eq_modPort p f s).trans (e ▸ rfl)
    have unchanged : withFault f q = q → recordFault p f s = s := fun e => (becomes e).trans (s.setPort_self p)
    exact ⟨fun away => unchanged (withFault_away away), fun attached few => becomes (withFault_kept attached few),
      fun attached full clear => becomes (full ▸ withFault_marks attached full.not_lt (by simp [clear])),
      fun attached full marked => unchanged (withFault_lost attached full.not_lt marked)⟩
  · rintro before m after rfl same
    exact mergeNotice_keeps_place distinct same

/-- Settles O39: by the scope, and there by who holds the claim. -/
theorem clearFaults : Obligations.ClearFaults := by
  refine ⟨fun t p tag s u h attached => ends_toOwner h attached, fun t p tag s u h attached => ?_⟩
  intro o
  have ends : ∀ {w}, clearFaultsRequest p tag 1 u = w → Ends o w := fun e => e ▸ ends_toOwner h attached
  refine ⟨fun free => ends (clearFaultsRequest_refused (claimRefusal_of_free free)),
    fun q e held other => ends (clearFaultsRequest_refused (claimRefusal_of_other held other)), fun e held => ?_⟩
  exact ⟨_, ends (clearFaultsRequest_done (claimRefusal_of_holder held)), clearBoth_frame u, clearBoth_account u, clearBoth_read u,
    clearBoth_clear, fun _ => clearBoth_arrayByte⟩

end Sys2Proof.Machine.NoticesAndFaults
end

section
/-!
SUPPORT. Access windows: coverage, what a window change does to a lease, a pending grant or a waiting entry at one bank and at all banks,
and the WINDOW request (spec/09).
-/

namespace Sys2Proof.Machine.AccessWindows

open BankLeases

/-! ### Coverage (R150) -/

theorem mem_allWindows (i : WindowIndex) : i ∈ WindowIndex.all := by
  cases i <;> decide

theorem covers_iff (w : Window) (b : Bank) (r : Row) (m : Mode) :
    w.covers b r m = true ↔ w.firstBank ≤ b.toNat ∧ b.toNat ≤ w.lastBank ∧ w.firstRow ≤ r.toNat ∧ r.toNat ≤ w.lastRow ∧
      (m = .write → w.write = true) :=
  decide_eq_true_iff

theorem covered_iff (s : State) (p : Port) (b : Bank) (r : Row) (m : Mode) :
    covered s p b r m = true ↔ ∃ i w, (s.windows.get p).get i = some w ∧ w.covers b r m = true := by
  unfold covered
  rw [List.any_eq_true]
  constructor
  · rintro ⟨i, _, h⟩
    cases valid : (s.windows.get p).get i with
    | none => simp [valid] at h
    | some w => exact ⟨i, w, valid, by simpa [valid] using h⟩
  · rintro ⟨i, w, valid, h⟩
    exact ⟨i, mem_allWindows i, by simpa [valid] using h⟩

/-! ### What is covered stays (R154) -/

theorem isGrantee_iff (e : BankEntry) (p : Port) : e.isGrantee p = true ↔ ∃ g ∈ e.grantees, g.port = p := by
  simp [BankEntry.isGrantee]

theorem windowChangeAt_of_covered_holding {p : Port} {b : Bank} {s : State} {row : Row} {mode : Mode}
    (hd : (s.bank b).portsDistinct = true) (holds : (s.bank b).isHolder p = true ∨ (s.bank b).isGrantee p = true)
    (hr : (s.bank b).row = some row) (hm : (s.bank b).mode = some mode) (hc : covered s p b row mode = true) :
    windowChangeAt p s b = s := by
  have stays : bankCovered s p b = true := (bankCovered_eq hr hm).trans hc
  rcases holds with held | granted
  · exact (windowChangeAt_of_holder held).trans (if_pos stays)
  · obtain ⟨g, hg, rfl⟩ := (isGrantee_iff _ p).1 granted
    exact (windowChangeAt_of_grantee hd hg).trans (if_pos stays)

theorem windowChangeAt_of_covered_waiter {b : Bank} {s : State} {w : Waiter} (hd : (s.bank b).portsDistinct = true)
    (hw : w ∈ (s.bank b).waiting) (hc : covered s w.port b w.row w.mode = true) : windowChangeAt w.port s b = s :=
  (windowChangeAt_of_waiter hd hw).trans (if_pos hc)

/-! ### An uncovered lease is revoked (R59, R154) -/

/-- A notice at an ATTACHED port; any other port discards it (R137). -/
theorem raiseNotice_eq_ite (p : Port) (n : Notice) (s : State) :
    raiseNotice p n s =
      if (s.port p).session = .attached then s.setPort p { s.port p with notices := mergeNotice n (s.port p).notices } else s := by
  unfold raiseNotice modPort
  dsimp only
  split_ifs with attached
  · rfl
  · exact s.setPort_self p

/-- The revocation of one port: it is told, it is no holder any more, and the bank drains if it was the last. -/
theorem revoke_one (b : Bank) (p : Port) (reason : Reason) (s : State) :
    revoke b [p] reason s =
      drainIfEmpty b ((raiseNotice p (.revoked b reason) s).setBank b { s.bank b with holders := (s.bank b).holders.set p none }) :=
  rfl

theorem revoke_one_of_others {b : Bank} {p : Port} {s : State} (reason : Reason)
    (left : (s.bank b).holders.set p none ≠ PerPort.const none) :
    revoke b [p] reason s =
      (raiseNotice p (.revoked b reason) s).setBank b { s.bank b with holders := (s.bank b).holders.set p none } := by
  rw [revoke_one]
  exact drainIfEmpty_of_not_empty (by simp [left])

theorem revoke_one_of_last {b : Bank} {p : Port} {s : State} (reason : Reason) (opened : (s.bank b).state = .opened)
    (left : (s.bank b).holders.set p none = PerPort.const none) :
    revoke b [p] reason s =
      settle b ((raiseNotice p (.revoked b reason) s).setBank b
        { s.bank b with holders := (s.bank b).holders.set p none, state := .draining, mode := none, contention := none }) := by
  rw [revoke_one, drainIfEmpty_of_empty (by simpa using opened) (by simpa using left)]
  simp

theorem windowChangeAt_of_uncovered_holder {p : Port} {b : Bank} {s : State} {row : Row} {mode : Mode}
    (held : (s.bank b).isHolder p = true) (hr : (s.bank b).row = some row) (hm : (s.bank b).mode = some mode)
    (hc : covered s p b row mode = false) : windowChangeAt p s b = revoke b [p] .window s := by
  rw [windowChangeAt_of_holder held, bankCovered_eq hr hm, hc]
  rfl

/-! ### An uncovered pending grant or waiting entry is answered DENIED (R154) -/

theorem windowChangeAt_of_uncovered_grantee {b : Bank} {s : State} {g : Grantee} {row : Row} {mode : Mode}
    (hd : (s.bank b).portsDistinct = true) (hg : g ∈ (s.bank b).grantees) (hr : (s.bank b).row = some row)
    (hm : (s.bank b).mode = some mode) (hc : covered s g.port b row mode = false) :
    windowChangeAt g.port s b = answer g.port g.tag .denied (bankByte b) 0 []
      (s.setBank b { s.bank b with grantees := (s.bank b).grantees.filter (fun x => !decide (x.port = g.port)) }) := by
  rw [windowChangeAt_of_grantee hd hg, bankCovered_eq hr hm, hc]
  rfl

theorem windowChangeAt_of_uncovered_waiter {b : Bank} {s : State} {w : Waiter} (hd : (s.bank b).portsDistinct = true)
    (hw : w ∈ (s.bank b).waiting) (hc : covered s w.port b w.row w.mode = false) :
    windowChangeAt w.port s b = withdrawWaiter b w.port (answer w.port w.tag .denied (bankByte b) 0 []) s := by
  rw [windowChangeAt_of_waiter hd hw, hc]
  rfl

/-! ### A window change at all banks (R154) -/

theorem portsDistinct_of_entriesGood {s : State} (h : entriesGood s = true) (b : Bank) : (s.bank b).portsDistinct = true := by
  have both := List.all_eq_true.1 h b (mem_allBanks b)
  exact (Bool.and_eq_true_iff.1 both).2

theorem applyWindowChange_windows {p : Port} {s : State} (hd : ∀ b, (s.bank b).portsDistinct = true) :
    (applyWindowChange p s).windows = s.windows :=
  (windowChanges_spec p Bank.all s nodup_allBanks fun b _ => hd b).1.windows

/-- What the port holds, or is to be granted, after the change is covered. -/
theorem covered_holding_after_change {p : Port} {s : State} (hd : ∀ b, (s.bank b).portsDistinct = true) {b : Bank} {row : Row} {mode : Mode} :
    let v := applyWindowChange p s
    (v.bank b).isHolder p = true ∨ (v.bank b).isGrantee p = true → (v.bank b).row = some row → (v.bank b).mode = some mode →
      covered v p b row mode = true := by
  intro v holds hr hm
  obtain ⟨_, _, atBank⟩ := windowChanges_spec p Bank.all s nodup_allBanks fun b _ => hd b
  rw [covered_congr (applyWindowChange_windows hd)]
  exact (atBank b (mem_allBanks b)).1 row mode holds hr hm

/-- What the port waits for after the change is covered. -/
theorem covered_waiting_after_change {p : Port} {s : State} (hd : ∀ b, (s.bank b).portsDistinct = true) {b : Bank} {w : Waiter} :
    let v := applyWindowChange p s
    w ∈ (v.bank b).waiting → w.port = p → covered v p b w.row w.mode = true := by
  intro v hw hp
  obtain ⟨_, _, atBank⟩ := windowChanges_spec p Bank.all s nodup_allBanks fun b _ => hd b
  rw [covered_congr (applyWindowChange_windows hd)]
  exact (atBank b (mem_allBanks b)).2.1 w hw hp

/-- A bank is kept if the change at it changes no state with this entry and these windows, whatever the changes at other banks did. -/
theorem applyWindowChange_keeps {p : Port} {s : State} (hd : ∀ b, (s.bank b).portsDistinct = true) {b : Bank}
    (keeps : ∀ k : State, k.bank b = s.bank b → k.windows = s.windows → windowChangeAt p k b = k) :
    (applyWindowChange p s).bank b = s.bank b :=
  windowChanges_keep p Bank.all s nodup_allBanks b (fun k entry windows => by rw [keeps k entry windows]) fun c _ => hd c

theorem applyWindowChange_keeps_covered_holding {p : Port} {s : State} (hd : ∀ b, (s.bank b).portsDistinct = true) {b : Bank} {row : Row}
    {mode : Mode} (holds : (s.bank b).isHolder p = true ∨ (s.bank b).isGrantee p = true) (hr : (s.bank b).row = some row)
    (hm : (s.bank b).mode = some mode) (hc : covered s p b row mode = true) : (applyWindowChange p s).bank b = s.bank b := by
  refine applyWindowChange_keeps hd fun k entry windows => ?_
  rw [← entry] at holds hr hm
  exact windowChangeAt_of_covered_holding (entry ▸ hd b) holds hr hm ((covered_congr windows ..).trans hc)

theorem applyWindowChange_keeps_covered_waiter {s : State} (hd : ∀ b, (s.bank b).portsDistinct = true) {b : Bank} {w : Waiter}
    (hw : w ∈ (s.bank b).waiting) (hc : covered s w.port b w.row w.mode = true) :
    (applyWindowChange w.port s).bank b = s.bank b :=
  applyWindowChange_keeps hd fun _ entry windows =>
    windowChangeAt_of_covered_waiter (entry ▸ hd b) (entry ▸ hw) ((covered_congr windows ..).trans hc)

theorem applyWindowChange_keeps_not_involved {p : Port} {s : State} (hd : ∀ b, (s.bank b).portsDistinct = true) {b : Bank}
    (hi : (s.bank b).involves p = false) : (applyWindowChange p s).bank b = s.bank b :=
  applyWindowChange_keeps hd fun _ entry _ => windowChangeAt_of_not_involved (entry ▸ hi)

/-! ### The WINDOW request (R151, R152) -/

/-- What check 3 of R151 asks of a record's banks, rows and rights where it is valid. -/
def RecordInRange (r : WindowRecord) : Prop :=
  r.firstBank.toNat ≤ r.lastBank.toNat ∧ r.lastBank.toNat ≤ 7 ∧ r.firstRow.toNat ≤ r.lastRow.toNat ∧ r.lastRow.toNat ≤ 8191 ∧
    r.rights.toNat ≤ 1

/-- The window that a record which passes the check writes; none is an invalid window. -/
def recordWindow (r : WindowRecord) : Option Window :=
  if r.valid then
    some { firstBank := r.firstBank.toNat, lastBank := r.lastBank.toNat, firstRow := r.firstRow.toNat, lastRow := r.lastRow.toNat
           write := decide (r.rights.toNat = 1) }
  else none

theorem checkedWindow_of_inRange {r : WindowRecord} (h : r.valid = true → RecordInRange r) : checkedWindow r = some (recordWindow r) := by
  unfold checkedWindow recordWindow
  cases valid : r.valid with
  | false => simp
  | true =>
    rw [if_neg (by simp)]
    exact if_pos (h valid)

/-- The state in which one window of one port is replaced. -/
def withWindow (p : Port) (i : WindowIndex) (w : Option Window) (s : State) : State :=
  { s with windows := s.windows.set p ((s.windows.get p).set i w) }

/-- A WINDOW that passes its three checks: the window, the change at the target port, and the OK last. -/
theorem windowRequest_passed {p target : Port} {tag : Tag} {bits : BitVec 3} {i : WindowIndex} {index : Byte} {r : WindowRecord} {u : State}
    {e : Time} (claimed : u.claim = some { holder := p, expires := e }) (port : bits.toNat = target.toNat)
    (window : index.toNat = i.toNat) (inRange : r.valid = true → RecordInRange r) :
    windowRequest p tag bits index (some r) u =
      answer p tag .ok 0 0 [] (applyWindowChange target (withWindow target i (recordWindow r) u)) := by
  unfold windowRequest
  rw [claimRefusal_of_holder claimed, port, window, portOfNat_toNat, windowOfNat_toNat]
  dsimp only
  rw [checkedWindow_of_inRange inRange]
  rfl

/-- A WINDOW that is dispatched ends in what the Settings Table makes of it. -/
theorem ends_window {t : Time} {p : Port} {tag : Tag} {bits : BitVec 3} {index : Byte} {r : WindowRecord} {s u w : State}
    (h : atDispatch t p ⟨tag, .window bits index (some r)⟩ [] s = some u) (ha : (u.port p).session = .attached)
    (hw : windowRequest p tag bits index (some r) u = w) : Ends (exec (.window t p tag bits index r) s) w :=
  hw ▸ ends_toOwner h ha

/-! ### The obligations -/

/-- Settles O37: the request by its checks, all banks by what is kept at each, and one bank by what its port is there. -/
theorem windowReplaces : Obligations.WindowReplaces := by
  refine ⟨fun t e p target tag bits i index r s u h ha claimed port window inRange good => ?_, fun p b s shape hd => ?_⟩
  · intro w n v
    have distinct : ∀ b, (n.bank b).portsDistinct = true := portsDistinct_of_entriesGood (s := n) good
    refine ⟨ends_window h ha (windowRequest_passed claimed port window inRange), applyWindowChange_windows distinct, rfl,
      fun b row mode => covered_holding_after_change distinct, fun b k => covered_waiting_after_change distinct,
      fun b row mode => applyWindowChange_keeps_covered_holding distinct, fun b k hk hp hc => ?_,
      fun b => applyWindowChange_keeps_not_involved distinct⟩
    subst hp
    exact applyWindowChange_keeps_covered_waiter distinct hk hc
  · intro e v left told
    have notice : raiseNotice p (.revoked b .window) s = told := raiseNotice_eq_ite p _ s
    refine ⟨windowChangeAt_of_not_involved, fun row mode hr hm =>
      ⟨fun holds => windowChangeAt_of_covered_holding hd holds hr hm, fun held hc => ?_, ?_⟩, ?_⟩
    · have revoked : v = revoke b [p] .window s := windowChangeAt_of_uncovered_holder held hr hm hc
      rw [revoked, ← notice]
      exact ⟨revoke_one_of_others .window, revoke_one_of_last .window (shapeGood_holder shape held).1⟩
    · rintro g hg rfl hc
      exact windowChangeAt_of_uncovered_grantee hd hg hr hm hc
    · rintro w hw rfl
      exact ⟨windowChangeAt_of_covered_waiter hd hw, windowChangeAt_of_uncovered_waiter hd hw⟩

/-- Settles O38: a valid window covers what it has, and coverage is by one of the four. -/
theorem coverageByOneWindow : Obligations.CoverageByOneWindow := by
  intro s p b r m
  simp only [covered_iff, covers_iff]

end Sys2Proof.Machine.AccessWindows
end

section
/-!
SUPPORT. The configuration claim and the shared settings: CLAIM, UNCLAIM and the expiry of the claim, SET and GET, and what SET, WINDOW,
CLEAR-FAULTS and STATUS refuse (spec/10, and the checks of spec/08 and spec/09).
-/

namespace Sys2Proof.Machine.SharedSettings

open AccessWindows PortLinks

/-- What a request command that is dispatched ends in, by what its owner makes of the request. -/
theorem ends_owner {t : Time} {p : Port} {r : Request} {s u w : State} (h : atDispatch t p r [] s = some u)
    (attached : (u.port p).session = .attached) (makes : toOwner p r u = w) : Ends (.next (requestEvent t p r [] s)) w :=
  makes ▸ ends_toOwner h attached

/-- What the session gate of an ATTACHED port makes of a request, by what its owner makes of it. -/
theorem gate_owner {p : Port} {r : Request} {u w : State} (attached : (u.port p).session = .attached) (makes : toOwner p r u = w) :
    gate p r u = w :=
  (gate_attached attached).trans makes

/-! ### CLAIM and UNCLAIM (R158, R159) -/

/-- The claim is free, or the port's own. -/
theorem claimRequest_taken {p : Port} {tag : Tag} {u : State} (h : claimRefusal u p ≠ some .claimed) :
    claimRequest p tag u =
      answer p tag .ok 0 0 [] { u with claim := some { holder := p, expires := u.now + ms u.settings.claimLimit } } :=
  if_neg h

theorem claimRequest_refused {p : Port} {tag : Tag} {u : State} (h : claimRefusal u p = some .claimed) :
    claimRequest p tag u = answer p tag .claimed 0 0 [] u :=
  if_pos h

theorem unclaimRequest_freed {p : Port} {tag : Tag} {u : State} (h : claimRefusal u p = none) :
    unclaimRequest p tag u = answer p tag .ok 0 0 [] { u with claim := none } :=
  if_pos h

/-- Whatever a port that has not the claim would be refused with elsewhere, UNCLAIM answers NOT-CLAIMED. -/
theorem unclaimRequest_refused {p : Port} {tag : Tag} {res : Result} {u : State} (h : claimRefusal u p = some res) :
    unclaimRequest p tag u = answer p tag .notClaimed 0 0 [] u :=
  if_neg (by simp [h])

/-! ### The expiry of the claim (R160) -/

/-- With no holder nothing occurs (log entry 3). -/
theorem claimExpiry_absent {s : State} (free : s.claim = none) : exec .claimExpiry s = .next s := by
  show execClaimExpiry s = _
  simp only [execClaimExpiry, free]

theorem claimExpiry_of_held {s : State} {q : Port} {e : Time} (held : s.claim = some { holder := q, expires := e }) :
    exec .claimExpiry s = .next (finish (raiseNotice q .claimLost { advance e s with claim := none })) := by
  show execClaimExpiry s = _
  simp only [execClaimExpiry, held]

/-- An ATTACHED port takes a notice (R137). -/
theorem raiseNotice_attached {p : Port} {n : Notice} {s : State} (attached : (s.port p).session = .attached) :
    raiseNotice p n s = s.setPort p { s.port p with notices := mergeNotice n (s.port p).notices } :=
  (raiseNotice_eq_ite p n s).trans (if_pos attached)

/-! ### SET (R163, R164, R169) -/

theorem setRequest_refused {p : Port} {tag : Tag} {target : BitVec 3} {ident : Byte} {value : Option (BitVec 32)} {res : Result} {u : State}
    (h : claimRefusal u p = some res) : setRequest p tag target ident value u = answer p tag res 0 0 [] u := by
  simp only [setRequest, h, reply]

theorem setRequest_stored {p : Port} {tag : Tag} {target : BitVec 3} {ident : Byte} {v : BitVec 32} {u w : State}
    (h : claimRefusal u p = none) (stored : storeSetting target ident v u = some w) :
    setRequest p tag target ident (some v) u = answer p tag .ok 0 0 [] w := by
  simp only [setRequest, h, Option.bind_some, stored, reply]

/-- A payload that is malformed, or of which nothing is stored, is answered after the claim check. -/
theorem setRequest_bad {p : Port} {tag : Tag} {target : BitVec 3} {ident : Byte} {value : Option (BitVec 32)} {u : State}
    (h : claimRefusal u p = none) (bad : value.bind (fun v => storeSetting target ident v u) = none) :
    setRequest p tag target ident value u = answer p tag .badArgument 0 0 [] u := by
  simp only [setRequest, h, bad, reply]

/-- Identifiers 01h to 09h name the nine settings (R171). -/
theorem storeSetting_of_no_setting {target : BitVec 3} {ident : Byte} {v : BitVec 32} {u : State}
    (names : ident.toNat = 0 ∨ 10 ≤ ident.toNat) : storeSetting target ident v u = none := by
  unfold storeSetting
  split
  any_goals omega
  rfl

theorem lt_of_portOfNat {n : Nat} {q : Port} (h : Port.ofNat? n = some q) : n < 4 :=
  Nat.not_le.1 fun above => by simp [portOfNat_of_le above] at h

theorem storeLeaseLimit_of_port {n v : Nat} {q : Port} {u : State} (port : n = q.toNat) :
    storeLeaseLimit n v u =
      if 1 ≤ v ∧ v ≤ 8 then some { u with settings := { u.settings with leaseLimit := u.settings.leaseLimit.set q v } } else none := by
  rw [storeLeaseLimit, port, portOfNat_toNat]

theorem storeGuard_of_port {n v : Nat} {q : Port} {u : State} (port : n = q.toNat) :
    storeGuard n v u =
      if v ≤ 1 then some { u with settings := { u.settings with guarded := u.settings.guarded.set q (decide (v = 0)) } } else none := by
  rw [storeGuard, port, portOfNat_toNat]
  rfl

theorem storeLeaseLimit_bad {n v : Nat} {u : State} (bad : 4 ≤ n ∨ v = 0 ∨ 8 < v) : storeLeaseLimit n v u = none := by
  unfold storeLeaseLimit
  split
  · rfl
  · next port =>
    have names := lt_of_portOfNat port
    exact if_neg (by omega)

theorem storeGuard_bad {n v : Nat} {u : State} (bad : 4 ≤ n ∨ 1 < v) : storeGuard n v u = none := by
  unfold storeGuard
  split
  · rfl
  · next port =>
    have names := lt_of_portOfNat port
    exact if_neg (by omega)

section Set

variable {t e : Time} {p : Port} {tag : Tag} {target : BitVec 3} {ident : Byte} {v : BitVec 32} {s u w : State}
  (h : atDispatch t p ⟨tag, .setSetting target ident (some v)⟩ [] s = some u) (attached : (u.port p).session = .attached)

include h attached

theorem ends_set_refused {res : Result} (refused : claimRefusal u p = some res) :
    Ends (.next (requestEvent t p ⟨tag, .setSetting target ident (some v)⟩ [] s)) (answer p tag res 0 0 [] u) :=
  ends_owner h attached (setRequest_refused refused)

variable (held : u.claim = some { holder := p, expires := e })

include held

theorem ends_set_stored (stored : storeSetting target ident v u = some w) :
    Ends (.next (requestEvent t p ⟨tag, .setSetting target ident (some v)⟩ [] s)) (answer p tag .ok 0 0 [] w) :=
  ends_owner h attached (setRequest_stored (claimRefusal_of_holder held) stored)

theorem ends_set_bad (bad : storeSetting target ident v u = none) :
    Ends (.next (requestEvent t p ⟨tag, .setSetting target ident (some v)⟩ [] s)) (answer p tag .badArgument 0 0 [] u) :=
  ends_owner h attached (setRequest_bad (claimRefusal_of_holder held) bad)

/-- A SET whose value is the one thing to check, by whether the value is in its range. -/
theorem ends_set_ranged {low high : Nat} {c : Prop} [Decidable c] (range : c ↔ low ≤ v.toNat ∧ v.toNat ≤ high)
    (stores : storeSetting target ident v u = if c then some w else none) :
    (low ≤ v.toNat → v.toNat ≤ high →
      Ends (.next (requestEvent t p ⟨tag, .setSetting target ident (some v)⟩ [] s)) (answer p tag .ok 0 0 [] w)) ∧
    (v.toNat < low ∨ high < v.toNat →
      Ends (.next (requestEvent t p ⟨tag, .setSetting target ident (some v)⟩ [] s)) (answer p tag .badArgument 0 0 [] u)) :=
  ⟨fun above below => ends_set_stored h attached held (stores.trans (if_pos (range.2 ⟨above, below⟩))),
    fun out => ends_set_bad h attached held (stores.trans (if_neg fun inside => by have := range.1 inside; omega))⟩

end Set

/-- The range of a setting that is OFF or ON. -/
theorem flag_range_iff (n : Nat) : n ≤ 1 ↔ 0 ≤ n ∧ n ≤ 1 := (and_iff_right n.zero_le).symm

/-- The nine SET commands of a port, tag, target and value, with their identifiers. -/
def setCommands (t : Time) (p : Port) (tag : Tag) (target : BitVec 3) (v : BitVec 32) : List (Instr × Byte) :=
  [(.setLeaseLimit t p tag target v, 0x01), (.setGuard t p tag target v, 0x02), (.setWaitLimit t p tag target v, 0x03),
    (.setHoldLimit t p tag target v, 0x04), (.setUrgency t p tag target v, 0x05), (.setEager t p tag target v, 0x06),
    (.setQuickWake t p tag target v, 0x07), (.setAutoRetain t p tag target v, 0x08), (.setClaimLimit t p tag target v, 0x09)]

/-- Each of the nine is the arrival of the SET with its identifier. -/
theorem exec_of_mem_setCommands {t : Time} {p : Port} {tag : Tag} {target : BitVec 3} {v : BitVec 32} (s : State) :
    ∀ x ∈ setCommands t p tag target v, exec x.1 s = .next (requestEvent t p ⟨tag, .setSetting target x.2 (some v)⟩ [] s) := by
  simp only [setCommands, List.forall_mem_cons]
  exact ⟨rfl, rfl, rfl, rfl, rfl, rfl, rfl, rfl, rfl, List.forall_mem_nil _⟩

/-! ### SET of URGENCY (R94, R98, R164) -/

/-- URGENCY has a new value, and nothing has followed it. -/
def withUrgency (v : Nat) (s : State) : State := { s with settings := { s.settings with urgency := v } }

/-- The pressure of a set in `s` and in `k` is compared: the set enters pressure or leaves it. -/
def reevaluate (s : State) (x : BankSet) (k : State) : State :=
  if pressure s x = false ∧ pressure k x = true then enterPressure x k
  else if pressure s x = true ∧ pressure k x = false then serveBanks x.banks k
  else k

/-- What a change of URGENCY from its value in `s` to `v` makes of a set, in the state `k` that the sets before it have led to. -/
def urgencyAt (v : Nat) (s : State) (x : BankSet) (k : State) : State :=
  if (s.account x).balance < s.settings.urgency ∧ (v : Int) ≤ (s.account x).balance then enterPressure x k
  else if (s.settings.urgency : Int) ≤ (s.account x).balance ∧ (s.account x).balance < v then serveBanks x.banks k
  else k

theorem urgencyAt_frame (v : Nat) (s : State) (x : BankSet) (k : State) : LeaseFrame k (urgencyAt v s x k) := by
  unfold urgencyAt
  split_ifs
  · exact enterPressure_frame x k
  · exact serveBanks_frame x.banks k
  · exact .refl k

theorem pressure_eq_true_iff (s : State) (x : BankSet) : pressure s x = true ↔ (s.settings.urgency : Int) ≤ (s.account x).balance :=
  decide_eq_true_iff

theorem pressure_eq_false_iff (s : State) (x : BankSet) : pressure s x = false ↔ (s.account x).balance < s.settings.urgency :=
  decide_eq_false_iff_not.trans Int.not_le

/-- In a state that has the new URGENCY and the balances of `s` the comparison is one of the balance with the two values. -/
theorem reevaluate_eq {v : Nat} {s k : State} (x : BankSet) (urgency : k.settings.urgency = v) (accounts : k.accounts = s.accounts) :
    reevaluate s x k = urgencyAt v s x k := by
  have account : k.account x = s.account x := congrArg (·.get x) accounts
  simp only [reevaluate, pressure_eq_true_iff, pressure_eq_false_iff, urgency, account, urgencyAt]

/-- URGENCY takes its value, and then Set A, and then Set B, enters pressure or leaves it. -/
theorem changeUrgency_eq (v : Nat) (s : State) : changeUrgency v s = urgencyAt v s .b (urgencyAt v s .a (withUrgency v s)) := by
  have afterA := urgencyAt_frame v s .a (withUrgency v s)
  calc changeUrgency v s
    _ = reevaluate s .b (reevaluate s .a (withUrgency v s)) := rfl
    _ = reevaluate s .b (urgencyAt v s .a (withUrgency v s)) :=
      congrArg (reevaluate s .b) (reevaluate_eq .a rfl rfl)
    _ = urgencyAt v s .b (urgencyAt v s .a (withUrgency v s)) :=
      reevaluate_eq .b (congrArg Settings.urgency afterA.settings) afterA.accounts

/-! ### GET (R166, R171) -/

theorem getRequest_found {p : Port} {tag : Tag} {target : BitVec 3} {ident : Byte} {payload : List Byte} {u : State}
    (h : getPayload u target ident = some payload) : getRequest p tag target ident u = answer p tag .ok ident 0 payload u := by
  simp only [getRequest, h]

theorem getRequest_bad {p : Port} {tag : Tag} {target : BitVec 3} {ident : Byte} {u : State} (h : getPayload u target ident = none) :
    getRequest p tag target ident u = answer p tag .badArgument 0 0 [] u := by
  simp only [getRequest, h, reply]

theorem getPayload_leaseLimit (u : State) (target : BitVec 3) :
    getPayload u target 0x01 = (Port.ofNat? target.toNat).map (fun q => bytes4 (u.settings.leaseLimit.get q)) :=
  rfl

theorem getPayload_guard (u : State) (target : BitVec 3) :
    getPayload u target 0x02 = (Port.ofNat? target.toNat).map (fun q => bytes4 (if u.settings.guarded.get q then 0 else 1)) :=
  rfl

/-- The identifiers that name neither a setting of a port nor a window. -/
theorem getPayload_device {u : State} {target : BitVec 3} {ident : Byte} (low : ident.toNat = 0 ∨ 3 ≤ ident.toNat) (high : ident.toNat < 16) :
    getPayload u target ident = (deviceSetting u.settings ident.toNat).map bytes4 := by
  unfold getPayload
  dsimp only
  split
  any_goals omega
  exact if_neg (by omega)

theorem deviceSetting_eq_none {st : Settings} {n : Nat} (h : n < 3 ∨ 10 ≤ n) : deviceSetting st n = none := by
  unfold deviceSetting
  split
  any_goals omega
  rfl

/-- The identifiers from 10h on: a window, where the port and the index name one. -/
theorem getPayload_window {u : State} {target : BitVec 3} {ident : Byte} (h : 16 ≤ ident.toNat) :
    getPayload u target ident =
      (Port.ofNat? target.toNat).bind fun q =>
        (WindowIndex.ofNat? (ident.toNat - 16)).map fun i => windowPayload ((u.windows.get q).get i) := by
  unfold getPayload
  dsimp only
  split
  any_goals omega
  rw [if_pos h]
  cases Port.ofNat? target.toNat <;> cases WindowIndex.ofNat? (ident.toNat - 16) <;> rfl

theorem getPayload_of_window {u : State} {target : BitVec 3} {ident : Byte} {q : Port} {i : WindowIndex} (port : target.toNat = q.toNat)
    (window : ident.toNat = 16 + i.toNat) : getPayload u target ident = some (windowPayload ((u.windows.get q).get i)) := by
  rw [getPayload_window (by omega), port, window, Nat.add_sub_cancel_left, portOfNat_toNat, windowOfNat_toNat, Option.bind_some,
    Option.map_some]

/-- An identifier that names neither a setting nor a window, or a port field that names no port where one is asked for. -/
theorem getPayload_eq_none {u : State} {target : BitVec 3} {ident : Byte}
    (h : ident.toNat = 0 ∨ (10 ≤ ident.toNat ∧ ident.toNat ≤ 15) ∨ 20 ≤ ident.toNat ∨
      (4 ≤ target.toNat ∧ (ident = 0x01 ∨ ident = 0x02))) :
    getPayload u target ident = none := by
  rcases h with zero | ⟨low, high⟩ | above | ⟨noPort, rfl | rfl⟩
  · rw [getPayload_device (.inl zero) (by omega), deviceSetting_eq_none (by omega), Option.map_none]
  · rw [getPayload_device (.inr (by omega)) (by omega), deviceSetting_eq_none (.inr low), Option.map_none]
  · rw [getPayload_window (by omega), windowOfNat_of_le (by omega)]
    exact Option.bind_fun_none _
  · rw [getPayload_leaseLimit, portOfNat_of_le noPort, Option.map_none]
  · rw [getPayload_guard, portOfNat_of_le noPort, Option.map_none]

theorem getPayload_of_no_port {u : State} {target : BitVec 3} {ident : Byte} (window : 16 ≤ ident.toNat) (noPort : 4 ≤ target.toNat) :
    getPayload u target ident = none := by
  rw [getPayload_window window, portOfNat_of_le noPort, Option.bind_none]

/-- The identifier of a window is 10h and its index. -/
theorem toNat_windowIdent (index : BitVec 2) : (0x10 + index.setWidth 8 : Byte).toNat = 16 + index.toNat := by
  bv_omega

/-! ### What SET, WINDOW, CLEAR-FAULTS and STATUS refuse (R132, R145, R151, R163, R169) -/

theorem windowRequest_refused {p : Port} {tag : Tag} {target : BitVec 3} {index : Byte} {record : Option WindowRecord} {res : Result}
    {u : State} (h : claimRefusal u p = some res) : windowRequest p tag target index record u = answer p tag res 0 0 [] u := by
  simp only [windowRequest, h, reply]

theorem checkedWindow_eq_none {r : WindowRecord} (valid : r.valid = true) (out : ¬RecordInRange r) : checkedWindow r = none :=
  (if_neg (by simp [valid])).trans (if_neg out)

/-- A WINDOW of the claim holder that fails a check, or has no record. -/
theorem windowRequest_bad {p : Port} {tag : Tag} {target : BitVec 3} {index : Byte} {record : Option WindowRecord} {u : State}
    (h : claimRefusal u p = none)
    (fails : ∀ r, record = some r → 4 ≤ target.toNat ∨ 4 ≤ index.toNat ∨ (r.valid = true ∧ ¬RecordInRange r)) :
    windowRequest p tag target index record u = answer p tag .badArgument 0 0 [] u := by
  unfold windowRequest
  rw [h]
  dsimp only
  split
  · next r target' i port window =>
    have checked : checkedWindow r = none := by
      rcases fails r rfl with noPort | noWindow | ⟨valid, out⟩
      · simp [portOfNat_of_le noPort] at port
      · simp [windowOfNat_of_le noWindow] at window
      · exact checkedWindow_eq_none valid out
    rw [checked]
    rfl
  · rfl

/-- A CLEAR-FAULTS whose scope is neither own nor retention. -/
theorem clearFaultsRequest_bad {p : Port} {tag : Tag} {scope : BitVec 2} {u : State} (h : 2 ≤ scope.toNat) :
    clearFaultsRequest p tag scope u = answer p tag .badArgument 0 0 [] u := by
  unfold clearFaultsRequest
  split
  any_goals omega
  rfl

/-- A STATUS whose item is none of the five. -/
theorem statusRequest_bad {p : Port} {tag : Tag} {item : Byte} {u : State} (h : item.toNat = 0 ∨ 6 ≤ item.toNat) :
    statusRequest p tag item u = answer p tag .badArgument 0 0 [] u := by
  unfold statusRequest
  split
  any_goals omega
  rfl

/-! ### The obligations -/

/-- Settles O30: by who holds the claim. -/
theorem claimAndUnclaim : Obligations.ClaimAndUnclaim := by
  refine ⟨fun t p tag s u h attached => ?_, fun t p tag s u h attached => ?_⟩
  · intro o
    exact ⟨fun free => ends_owner h attached (claimRequest_taken (by simp [claimRefusal_of_free free])),
      fun e held => ends_owner h attached (claimRequest_taken (by simp [claimRefusal_of_holder held])),
      fun q e held other => ends_owner h attached (claimRequest_refused (claimRefusal_of_other held other))⟩
  · intro o
    exact ⟨fun e held => ends_owner h attached (unclaimRequest_freed (claimRefusal_of_holder held)),
      fun free => ends_owner h attached (unclaimRequest_refused (claimRefusal_of_free free)),
      fun q e held other => ends_owner h attached (unclaimRequest_refused (claimRefusal_of_other held other))⟩

/-- Settles O31: by whether the claim has a holder, who hears of its loss. -/
theorem claimExpiry : Obligations.ClaimExpiry := by
  refine fun s => ⟨claimExpiry_absent, fun q e held attached => ?_⟩
  rw [claimExpiry_of_held held]
  exact ends_of_eq (raiseNotice_attached attached)

/-- Settles O32: the claim check comes first, and behind it each request has its own checks. -/
theorem settingRefused : Obligations.SettingRefused := by
  refine ⟨fun t p tag target v c ident s u command h attached => ?_, fun t p tag target index r s u h attached => ?_,
    fun p tag u attached => ?_⟩
  · rw [exec_of_mem_setCommands s (c, ident) command]
    exact ⟨fun free => ends_set_refused h attached (claimRefusal_of_free free),
      fun q e held other => ends_set_refused h attached (claimRefusal_of_other held other)⟩
  · intro o
    refine ⟨fun free => ends_owner h attached (windowRequest_refused (claimRefusal_of_free free)),
      fun q e held other => ends_owner h attached (windowRequest_refused (claimRefusal_of_other held other)),
      fun e held fails => ends_owner h attached (windowRequest_bad (claimRefusal_of_holder held) ?_)⟩
    rintro _ ⟨⟩
    refine fails.imp_right (Or.imp_right fun ⟨valid, out⟩ => ⟨valid, ?_⟩)
    rintro ⟨bankOrder, lastBank, rowOrder, lastRow, rights⟩
    omega
  · intro bad
    refine ⟨fun scope above => gate_owner attached (clearFaultsRequest_bad above),
      fun item names => gate_owner attached (statusRequest_bad names), fun e held => ?_, fun free => ?_, fun q e held other => ?_⟩
    · have claimed := claimRefusal_of_holder held
      exact ⟨fun target ident => gate_owner attached (setRequest_bad (target := target) (ident := ident) (value := none) claimed rfl),
        fun target ident v names => gate_owner attached (setRequest_bad claimed (storeSetting_of_no_setting names)),
        fun target index => gate_owner attached (windowRequest_bad (target := target) (index := index) (record := none) claimed nofun)⟩
    · have refused := claimRefusal_of_free (p := p) free
      exact ⟨fun target ident value => gate_owner attached (setRequest_refused refused),
        fun target index record => gate_owner attached (windowRequest_refused refused)⟩
    · have refused := claimRefusal_of_other held other
      exact ⟨fun target ident value => gate_owner attached (setRequest_refused refused),
        fun target index record => gate_owner attached (windowRequest_refused refused)⟩

/-- Settles O33: the two settings of a port by port and value, and the six others by their value alone. -/
theorem setSettings : Obligations.SetSettings := by
  refine ⟨fun t e p tag target v s u attached held => ?_, fun t e p tag target v s u attached held => ?_⟩
  · intro bad
    refine ⟨fun h => ⟨fun q port low high => ends_set_stored h attached held ?_,
      fun out => ends_set_bad h attached held (storeLeaseLimit_bad out)⟩,
      fun h => ⟨fun q port high => ends_set_stored h attached held ?_, fun out => ends_set_bad h attached held (storeGuard_bad out)⟩⟩
    · exact (storeLeaseLimit_of_port port).trans (if_pos ⟨low, high⟩)
    · exact (storeGuard_of_port port).trans (if_pos high)
  · intro sets
    exact ⟨fun h => ends_set_ranged h attached held Iff.rfl rfl, fun h => ends_set_ranged h attached held Iff.rfl rfl,
      fun h => ends_set_ranged h attached held (flag_range_iff _) rfl, fun h => ends_set_ranged h attached held (flag_range_iff _) rfl,
      fun h => ends_set_ranged h attached held (flag_range_iff _) rfl, fun h => ends_set_ranged h attached held Iff.rfl rfl⟩

/-- Settles O34: by the range of the value, and then by `changeUrgency_eq`. -/
theorem setUrgency : Obligations.SetUrgency := by
  intro t e p tag target v s u h attached held o n change
  have changed : changeUrgency v.toNat u = change .b (change .a n) := changeUrgency_eq v.toNat u
  obtain ⟨stored, bad⟩ := ends_set_ranged h attached held Iff.rfl (low := 2) (high := 5) rfl
  exact ⟨bad, fun low high => changed ▸ stored low high⟩

/-- Settles O36: by what the identifier names. -/
theorem getAnswersTheValue : Obligations.GetAnswersTheValue := by
  refine ⟨fun t p tag target ident s u h attached => ?_, fun t p tag target index s u => ?_⟩
  · intro o ok
    have gives {value : Nat} (found : getPayload u target ident = some (bytes4 value)) : Ends o (ok value) :=
      ends_owner h attached (getRequest_found found)
    refine ⟨fun q port => ⟨fun named => gives ?_, fun named => gives ?_⟩, fun named => gives (by rw [named]; rfl),
      fun named => gives (by rw [named]; rfl), fun named => gives (by rw [named]; rfl), fun named => gives (by rw [named, ← Bool.cond_eq_ite]; rfl),
      fun named => gives (by rw [named, ← Bool.cond_eq_ite]; rfl), fun named => gives (by rw [named, ← Bool.cond_eq_ite]; rfl),
      fun named => gives (by rw [named]; rfl), fun nothing => ends_owner h attached (getRequest_bad (getPayload_eq_none nothing))⟩
    · rw [named, getPayload_leaseLimit, port, portOfNat_toNat, Option.map_some]
    · rw [named, getPayload_guard, port, portOfNat_toNat, Option.map_some]
  · intro ident h attached o
    have number : ident.toNat = 16 + index.toNat := toNat_windowIdent index
    have above : 16 ≤ ident.toNat := (Nat.le_add_right 16 _).trans number.ge
    refine ⟨fun q i port window => ?_, fun noPort => ends_owner h attached (getRequest_bad (getPayload_of_no_port above noPort))⟩
    have found : getPayload u target ident = some (windowPayload ((u.windows.get q).get i)) :=
      getPayload_of_window port (number.trans (by rw [window]))
    refine ⟨fun invalid => ?_, fun w valid => ?_⟩
    · rw [invalid] at found
      exact ends_owner h attached (getRequest_found found)
    · rw [valid] at found
      exact ends_owner h attached (getRequest_found found)

end Sys2Proof.Machine.SharedSettings
end

section
/-!
SUPPORT. Request packets: the header and the payload of a request packet give back the fields it was written from, so a request command is
the arrival of its own packet (spec/11).
-/

namespace Sys2Proof.Machine.RequestPackets

/-! ### Fields in bytes (R167, R171) -/

/-- A field of bits 0 and up is read back from the wider byte or word it is sent in. -/
theorem extractLsb'_setWidth_self {w v : Nat} (x : BitVec w) (fits : w ≤ v) : (x.setWidth v).extractLsb' 0 w = x := by
  rw [BitVec.extractLsb'_setWidth_of_le (by omega), BitVec.extractLsb'_eq_self]

/-- A two-byte field, most significant byte first. -/
theorem append_bytes2 (x : BitVec 16) : (x.extractLsb' 8 8 ++ x.extractLsb' 0 8 : BitVec 16) = x :=
  (BitVec.extractLsb'_append_extractLsb'_eq_extractLsb' rfl).trans BitVec.extractLsb'_eq_self

/-- A four-byte field, most significant byte first. -/
theorem append_bytes4 (x : BitVec 32) :
    (x.extractLsb' 24 8 ++ x.extractLsb' 16 8 ++ x.extractLsb' 8 8 ++ x.extractLsb' 0 8 : BitVec 32) = x := by
  have joined (start len : Nat) : x.extractLsb' (start + 8) len ++ x.extractLsb' start 8 = x.extractLsb' start (len + 8) :=
    BitVec.extractLsb'_append_extractLsb'_eq_extractLsb' rfl
  calc (x.extractLsb' 24 8 ++ x.extractLsb' 16 8 ++ x.extractLsb' 8 8 ++ x.extractLsb' 0 8 : BitVec 32)
    _ = x.extractLsb' 16 16 ++ x.extractLsb' 8 8 ++ x.extractLsb' 0 8 := by rw [joined 16 8]
    _ = x.extractLsb' 8 24 ++ x.extractLsb' 0 8 := by rw [joined 8 16]
    _ = x.extractLsb' 0 32 := joined 0 24
    _ = x := BitVec.extractLsb'_eq_self

theorem ofBits_bankByte (b : Bank) : Bank.ofBits ((bankByte b).extractLsb' 0 3) = b := by
  cases b <;> rfl

/-- A flag above the bank's three bits does not touch the bank. -/
theorem ofBits_bankByte_or (b : Bank) {flag : Byte} (above : flag.extractLsb' 0 3 = 0#3) :
    Bank.ofBits ((bankByte b ||| flag).extractLsb' 0 3) = b := by
  rw [BitVec.extractLsb'_or, above, BitVec.or_zero, ofBits_bankByte]

/-- The bits of a bank's byte above its three are 0. -/
theorem getLsbD_bankByte (b : Bank) {i : Nat} (above : 3 ≤ i) : (bankByte b).getLsbD i = false := by
  have small : (bankByte b).toNat < 2 ^ 3 := by cases b <;> decide
  exact Nat.testBit_lt_two_pow (small.trans_le (Nat.pow_le_pow_right two_pos above))

/-- A flag above the bank's three bits is read from the byte as it is. -/
theorem getLsbD_bankByte_or (b : Bank) (flag : Byte) {i : Nat} (above : 3 ≤ i) :
    (bankByte b ||| flag).getLsbD i = flag.getLsbD i := by
  rw [BitVec.getLsbD_or, getLsbD_bankByte b above, Bool.false_or]

/-! ### The payloads of SET and WINDOW (R171) -/

theorem payloadValue_bytes (v : BitVec 32) :
    payloadValue [v.extractLsb' 24 8, v.extractLsb' 16 8, v.extractLsb' 8 8, v.extractLsb' 0 8] = some v :=
  congrArg some (append_bytes4 v)

theorem payloadWindow_recordBytes (r : WindowRecord) : payloadWindow (recordBytes r) = some r := by
  have valid : (byteOfBool r.valid).getLsbD 0 = r.valid := by cases r.valid <;> rfl
  simp only [recordBytes, payloadWindow, valid, append_bytes2]

/-! ### The kinds that carry fields (R168) -/

section Kinds

variable (b2 b3 b4 b5 b6 : Byte) (payload : List Byte)

theorem decodeBody_open : decodeBody 0x03 b2 b3 b4 b5 b6 payload =
    some (.openRow (Bank.ofBits (b2.extractLsb' 0 3)) ((b3 ++ b4 : BitVec 16).extractLsb' 0 13)
      (if b2.getLsbD 3 then .write else .read), []) := rfl

theorem decodeBody_release : decodeBody 0x04 b2 b3 b4 b5 b6 payload = some (.release (Bank.ofBits (b2.extractLsb' 0 3)), []) := rfl

theorem decodeBody_read : decodeBody 0x06 b2 b3 b4 b5 b6 payload =
    some (.readLines (Bank.ofBits (b2.extractLsb' 0 3)) (b5.extractLsb' 0 5) ((b5.extractLsb' 5 3).toNat + 1), []) := rfl

theorem decodeBody_write : decodeBody 0x07 b2 b3 b4 b5 b6 payload =
    some (writeBody (Bank.ofBits (b2.extractLsb' 0 3)) (b2.getLsbD 4) (b5.extractLsb' 0 5) (b5.extractLsb' 5 3) payload) := rfl

theorem decodeBody_set : decodeBody 0x0C b2 b3 b4 b5 b6 payload =
    some (.setSetting (b2.extractLsb' 0 3) b6 (payloadValue payload), []) := rfl

theorem decodeBody_get : decodeBody 0x0D b2 b3 b4 b5 b6 payload = some (.getSetting (b2.extractLsb' 0 3) b6, []) := rfl

theorem decodeBody_window : decodeBody 0x0E b2 b3 b4 b5 b6 payload =
    some (.window (b2.extractLsb' 0 3) b6 (payloadWindow payload), []) := rfl

end Kinds

/-! ### The arrival of a request packet (R167) -/

section Arrival

variable {t : Time} {p : Port} {kind b2 b5 selector : Byte} {tag : Tag} {row : BitVec 16} {payload : List Byte} {body : Body}
  {lines : List StagedLine} {s : State}

/-- The header a master closes passes the header check, and its tag byte gives back the tag. -/
theorem decodePacket_requestHeader
    (spells : decodeBody kind b2 (row.extractLsb' 8 8) (row.extractLsb' 0 8) b5 selector payload = some (body, lines)) :
    decodePacket (requestHeader kind tag b2 row b5 selector ++ payload) = .request ⟨tag, body⟩ lines := by
  simp only [requestHeader, closeHeader, List.cons_append, List.nil_append, decodePacket, if_true, spells,
    WaitingLists.extractLsb_setWidth_tag]

/-- A packet with a payload arrives as the request its kind and fields give. -/
theorem exec_packetArrival_payload
    (spells : decodeBody kind b2 (row.extractLsb' 8 8) (row.extractLsb' 0 8) b5 selector payload = some (body, lines)) :
    exec (.packetArrival t p (requestHeader kind tag b2 row b5 selector ++ payload)) s =
      .next (requestEvent t p ⟨tag, body⟩ lines s) :=
  packetArrival_of_decodePacket (decodePacket_requestHeader spells)

/-- A packet of a header alone arrives as the request its kind and fields give. -/
theorem exec_packetArrival_header
    (spells : decodeBody kind b2 (row.extractLsb' 8 8) (row.extractLsb' 0 8) b5 selector [] = some (body, [])) :
    exec (.packetArrival t p (requestHeader kind tag b2 row b5 selector)) s = .next (requestEvent t p ⟨tag, body⟩ [] s) := by
  have arrives := exec_packetArrival_payload (t := t) (p := p) (tag := tag) (s := s) spells
  rwa [List.append_nil] at arrives

/-- The packet of a SET arrives as the SET of its target port, identifier and value. -/
theorem exec_packetArrival_setPacket (target : BitVec 3) (ident : Byte) (value : BitVec 32) :
    exec (.packetArrival t p (setPacket tag target ident value)) s =
      .next (requestEvent t p ⟨tag, .setSetting target ident (some value)⟩ [] s) :=
  exec_packetArrival_payload (by rw [decodeBody_set, extractLsb'_setWidth_self target (by decide), payloadValue_bytes])

end Arrival

/-! ### The obligation -/

/-- Settles O5: by the kind of the request; a kind's fields are read back from the bytes they are sent in. -/
theorem packetsSpellCommands : Obligations.PacketsSpellCommands := by
  intro c t p bytes s sent
  cases c with
  | attach | detach | cancel | hold | statusPorts | statusBanks | statusRefresh | statusFaults | statusClaim | claim | unclaim
  | clearFaultsOwn | clearFaultsRetention =>
    cases sent
    exact exec_packetArrival_header rfl
  | openRow t p tag bank row mode =>
    cases sent
    have bankField := ofBits_bankByte_or bank (flag := if mode = .write then 8 else 0) (by cases mode <;> rfl)
    have modeField : (if (if mode = .write then 8 else 0 : Byte).getLsbD 3 then Mode.write else .read) = mode := by
      cases mode <;> rfl
    exact exec_packetArrival_header (by
      rw [decodeBody_open, bankField, append_bytes2, extractLsb'_setWidth_self row (by decide),
        getLsbD_bankByte_or bank _ le_rfl, modeField])
  | release t p tag bank =>
    cases sent
    exact exec_packetArrival_header (by rw [decodeBody_release, ofBits_bankByte])
  | readLines t p tag bank first countLess1 =>
    cases sent
    exact exec_packetArrival_header (by
      rw [decodeBody_read, ofBits_bankByte, BitVec.extractLsb'_append_eq_right, BitVec.extractLsb'_append_eq_left])
  | writeLines t p tag bank masked first countLess1 payload =>
    cases sent
    have bankField := ofBits_bankByte_or bank (flag := if masked then 16 else 0) (by cases masked <;> rfl)
    have maskedField : (if masked then 16 else 0 : Byte).getLsbD 4 = masked := by
      cases masked <;> rfl
    exact exec_packetArrival_payload (by
      rw [decodeBody_write, bankField, getLsbD_bankByte_or bank _ (by decide), maskedField,
        BitVec.extractLsb'_append_eq_right, BitVec.extractLsb'_append_eq_left])
  | setLeaseLimit | setGuard | setWaitLimit | setHoldLimit | setUrgency | setEager | setQuickWake | setAutoRetain | setClaimLimit =>
    cases sent
    exact exec_packetArrival_setPacket ..
  | getSetting t p tag target | getWindow t p tag target =>
    cases sent
    exact exec_packetArrival_header (by rw [decodeBody_get, extractLsb'_setWidth_self target (by decide)])
  | window t p tag target index record =>
    cases sent
    exact exec_packetArrival_payload (by
      rw [decodeBody_window, extractLsb'_setWidth_self target (by decide), payloadWindow_recordBytes])
  | _ => cases sent

end Sys2Proof.Machine.RequestPackets
end

section
/-! SUPPORT. What one step runs: the command at the front of the queue. -/

namespace Sys2Proof.Machine.FrontCommand

theorem step_of_pending_cons {s : State} {c : Instr} {rest : List Instr} (queue : s.pending = c :: rest) :
    step s = exec c { s with pending := rest } := by
  rw [step, queue]

theorem step_of_pending_nil {s : State} (queue : s.pending = []) : step s = .next s := by
  rw [step, queue]

/-- Settles O1: by whether the queue has a front. -/
theorem stepRunsFrontCommand : Obligations.StepRunsFrontCommand :=
  ⟨fun _ _ _ queue => step_of_pending_cons queue, fun _ queue => step_of_pending_nil queue⟩

end Sys2Proof.Machine.FrontCommand
end
